-- ==== Sys2Proof/Word.lean ====
section
/-! DEFINITION. The word types of the VT-316: bytes, two-byte fields and four-byte fields of the line (spec/00_scope.md,
conventions), and the plain abbreviations the rest of the model uses. -/

namespace Sys2Proof

/-- One byte on the line, and every field of one byte (node numbers, tags, codes). -/
abbrev Byte := BitVec 8

/-- A two-byte field: cycle numbers, lengths, offsets, counts. -/
abbrev Half := BitVec 16

/-- A four-byte field: tributary addresses, timebase values, activity counters. -/
abbrev Word := BitVec 32

end Sys2Proof
end

