-- ==== Sys2Proof/Config.lean ====
section
/-! DEFINITION. What the part fixes (the key figures of spec/00_scope.md) and the free values (log 4). -/

namespace Sys2Proof

/-- Slot indices per bank (R22). -/
def Config.slots : Nat := 240
/-- Windows (R89). -/
def Config.windows : Nat := 16
/-- Transaction entries (R68). -/
def Config.entries : Nat := 8
/-- Data Pool blocks (R78). -/
def Config.blocks : Nat := 24
/-- Short-reply descriptors (R59). -/
def Config.descriptors : Nat := 4
/-- Records of the Management Reply Queue (R154). -/
def Config.mgmtReplies : Nat := 4

/-- FREE VALUE. Where two blocks make reports at one moment, "Either may be taken first" (R174). The model takes the
order from this constant, applied to the counter `State.choices`. It has no body, so nothing can be proved of its values. -/
opaque Config.order : Nat → Nat

end Sys2Proof
end

