-- ==== Sys2Proof/Syntax.lean ====
section
/-! DEFINITION. The commands of the block: one constructor for each row of spec/opcode_table.json. A command is one whole
event of the part (spec/95_what_each_step_holds.md). -/

namespace Sys2Proof

/-- The four kinds of a Payload Mark (R1). -/
inductive MarkKind where
  | void | data | mgmt | faulted
  deriving DecidableEq, Repr

/-- A symbol that opens neither a cycle record nor a slot: a byte or a Payload Mark (R1). -/
inductive Symbol where
  | byte (b : Byte)
  | payloadMark (kind : MarkKind)
  deriving DecidableEq, Repr

/-- A slot as the Ring Port delimits it by marks (R3): the bytes after the Slot Mark, the Payload Mark that follows them
if there is one, and the bytes from there to the next mark. A good slot has 5 header bytes and payload length + 2 others.
`strays` are the symbols before its Slot Mark that belong to no record and no slot (R9). -/
structure RawSlot where
  header : List Byte
  mark : Option MarkKind
  body : List Byte
  strays : List Symbol := []
  deriving DecidableEq, Repr

/-- A cycle record as it arrives: its bytes, up to six of them (R2), and the symbols before its Cycle Mark that belong to no
record and no slot (R9). -/
structure RawRecord where
  bytes : List Byte
  strays : List Symbol := []
  deriving DecidableEq, Repr

/-- The six request operations (R45). -/
inductive ReqOp where
  | read | write | writeQuiet | swap | add | cswap
  deriving DecidableEq, Repr

/-- Beat widths of the tributary bus: 4, 2 or 1 bytes. -/
inductive Width where
  | w1 | w2 | w4
  deriving DecidableEq, Repr

/-- The two answers that take a beat (R115). WAIT and ERROR are the commands' `waits` operand and BUS_ERROR. -/
inductive Answer where
  | ready | burstReady
  deriving DecidableEq, Repr

/-- The four byte lanes of the data lines: the byte at address a travels on lane a mod 4 (R98). -/
structure LaneData where
  lane0 : Byte
  lane1 : Byte
  lane2 : Byte
  lane3 : Byte
  deriving DecidableEq, Repr

/-- The arrival of a channel-0 slot of kind MGMT with good checks. The fields are those of the slot header and of the
management record header (spec/01, Formats on the line), but for the operation code, which the command gives. `param`
holds the eight parameter bytes, `args` the bytes after the header; the payload is filled up with zeros. -/
structure MgmtSlot where
  index : Byte
  size : Byte
  dest : Byte
  source : Byte
  tag : Byte
  status : Byte
  flags : Byte
  argLen : Half
  param : List Byte
  args : List Byte
  deriving DecidableEq, Repr

/-- The arrival of a slot of kind DATA with good checks that carries a request segment. The fields are those of the slot
header and of the segment header, but for the operation and the offset, which the command gives. `data` holds the bytes
after the segment header; the payload is filled up with zeros. -/
structure SegSlot where
  index : Byte
  channel : Byte
  size : Byte
  dest : Byte
  source : Byte
  tag : Byte
  status : Byte
  flags : Byte
  total : Half
  count : Half
  addr : Word
  data : List Byte
  deriving DecidableEq, Repr

/-- The commands, in the table's order. -/
inductive Instr where
  -- the line and the ring
  | lineLoss
  | lineRestore
  | cycleMark (record : RawRecord)
  | cycleLost
  | timebaseTick
  -- the cycle mark next in order, at which this comes about (log 1)
  | scheduleSwap
  | assemblyGapExpiry
  | replyExpired
  | slotArrival (slot : RawSlot)
  -- management requests, each the arrival of its slot
  | identify (m : MgmtSlot)
  | assign (m : MgmtSlot)
  | configure (m : MgmtSlot)
  | schedLoad (m : MgmtSlot)
  | schedRead (m : MgmtSlot)
  | schedCommitNext (m : MgmtSlot)
  | schedCommitAt (m : MgmtSlot)
  | schedCancel (m : MgmtSlot)
  | windowLoad (m : MgmtSlot)
  | windowInvalidate (m : MgmtSlot)
  | windowRead (m : MgmtSlot)
  | start (m : MgmtSlot)
  | stop (m : MgmtSlot)
  | stopWithFlush (m : MgmtSlot)
  | abort (m : MgmtSlot)
  | abortQuiet (m : MgmtSlot)
  | status (m : MgmtSlot)
  | reportRead (m : MgmtSlot)
  | reportClear (m : MgmtSlot)
  | reset (m : MgmtSlot)
  | softResetTakesEffect
  -- request segments, each the arrival of its slot
  | read (g : SegSlot)
  | write (g : SegSlot)
  | writeQuiet (g : SegSlot)
  | swap (g : SegSlot)
  | add (g : SegSlot)
  | cswap (g : SegSlot)
  | laterSegment (op : ReqOp) (offset : Half) (g : SegSlot)
  -- the tributary bus
  | busCycleStart
  | beatTaken (waits : Nat) (answer : Answer) (width : Width) (data : LaneData)
  | busError (waits : Nat)
  | busTimeout
  | holdRequest
  | holdRelease
  | holdLong
  -- bridge control
  | drainComplete
  | pinReset
  | pinResetRelease
  | lockedSequenceNextCycle
  deriving DecidableEq, Repr

end Sys2Proof
end

