-- ==== Sys2Proof/Machine/State.lean ====
section
/-! DEFINITION. The state of the block, as plain data: every piece of state the spec gives it, grouped by the block that
holds it (spec/00_scope.md, block overview), the reasons a step can stop, and the state after reset. -/

namespace Sys2Proof.Machine

/-! ### Ring Port (spec/01) -/

/-- The four ring states (spec/01, section 1.6). -/
inductive RingState where
  | down | hunt | armed | sync
  deriving DecidableEq, Repr

/-- What the Ring Port last put on the line out (R9): idle fill, or a cycle record or a slot with the stray symbols before
it. -/
inductive LineOut where
  | idle
  | record (out : RawRecord)
  | slot (out : RawSlot)
  deriving DecidableEq, Repr

/-- The Ring Port's own state (R20). The prescaler and the cycle limit are configuration and stand in `Params`. -/
structure RingPort where
  state : RingState
  /-- the line receiver's condition (R1) -/
  lost : Bool
  lastCycle : Half
  /-- the blind count, 0 or 1: in SYNC it says whether the present cycle is blind (R14) -/
  blind : Bool
  /-- the slot count of the present cycle, handed to the Slot Engine with each slot (R2) -/
  slotCount : Byte
  captured : Option Word
  period : Option Word
  timebase : Word
  /-- tributary clocks counted since the last tick (R16) -/
  divider : Nat
  lineOut : LineOut
  deriving DecidableEq, Repr

/-! ### Schedule Store (spec/02) -/

/-- The action of a schedule entry (R22). -/
inductive Action where
  | pass | take | give | both
  deriving DecidableEq, Repr

/-- A schedule entry (R22); `none` stands for ANY. -/
structure SchedEntry where
  action : Action
  channel : Option Byte
  source : Option Byte
  deriving DecidableEq, Repr

/-- The commit state (R37); the target stands with PENDING-AT, the only state in which it has a meaning. -/
inductive CommitState where
  | none
  | pendingNext
  | pendingAt (target : Half)
  deriving DecidableEq, Repr

/-- The Schedule Store's state (R22, R37). -/
structure Schedule where
  active : List SchedEntry
  shadow : List SchedEntry
  commit : CommitState
  swapCycle : Option Half
  deriving DecidableEq, Repr

/-! ### Segment Intake (spec/03) -/

/-- The status values of a transaction segment (spec/01, Formats on the line). -/
inductive Status where
  | done | unchanged | busError | busTimeout | noWindow | denied | align | length | badRequest | tagInUse | orphan
  | sequence | incomplete | aborted
  deriving DecidableEq, Repr

/-- The content of a pending short-reply descriptor (R59). -/
structure ShortReply where
  requester : Byte
  tag : Byte
  status : Status
  total : Half
  addr : Word
  deriving DecidableEq, Repr

/-! ### Transaction Table and Data Pool (spec/04) -/

/-- The states of an entry (R68). -/
inductive EntryState where
  | free | assembling | queued | executing | replying
  deriving DecidableEq, Repr

/-- The abort mark of an entry (R81). -/
inductive AbortMark where
  | none | reply | quiet
  deriving DecidableEq, Repr

/-- One entry of the Transaction Table (R68). -/
structure Entry where
  state : EntryState
  source : Byte
  tag : Byte
  op : ReqOp
  addr : Word
  total : Nat
  window : Nat
  blocks : List Nat
  received : Nat
  done : Nat
  sent : Nat
  final : Option Status
  gap : Nat
  deadline : Nat
  mark : AbortMark
  /-- the old value of a locked operation, most significant byte first (R45, R77) -/
  old : Option (List Byte)
  deriving DecidableEq, Repr

/-- The Transaction Table (R68), the Request Queue (R80) and the contents of the Data Pool (R78). -/
structure Table where
  entries : List Entry
  order : List Nat
  requests : List Nat
  pool : List Host.Cell
  deriving DecidableEq, Repr

/-! ### Window Table (spec/05) -/

/-- The attributes of a window (R90). -/
structure Attrs where
  read : Bool
  write : Bool
  lock : Bool
  burst : Bool
  line : Bool
  deriving DecidableEq, Repr

/-- One window (R89); `none` in `owner` stands for ANY. -/
structure Window where
  valid : Bool
  base : Word
  size : Half
  width : Width
  attrs : Attrs
  budget : Byte
  owner : Option Byte
  inUse : Nat
  deriving DecidableEq, Repr

/-! ### Bus Engine (spec/05, spec/06) -/

/-- The engine states (R110). -/
inductive EngineState where
  | idle | cycle | locked | yielded
  deriving DecidableEq, Repr

/-- A beat (R98): its unit address, width, direction and enabled byte lanes, ascending. Whether it is the last of its
cycle is its place in the cycle. -/
structure Beat where
  addr : Nat
  width : Width
  write : Bool
  lanes : List Nat
  deriving DecidableEq, Repr

/-- A planned bus cycle (R102). `lineBurst` says that its line was planned as a burst, which R106 asks for when a cycle
that is cut short is grouped again. -/
structure BusCycle where
  lineBurst : Bool
  beats : List Beat
  deriving DecidableEq, Repr

/-- The Bus Engine's state (R110). `plan` holds the cycles not yet started, `rest` the beats of the cycle in progress not yet
offered; together with `current` they are the plan of R98. `separating`: a cycle has ended in IDLE, and the tributary clock
with cycle start removed that separates it from the next has not passed (R113). The hold limit is configuration. -/
structure Bus where
  engine : EngineState
  plan : List BusCycle
  current : Option Beat
  rest : List Beat
  lineBurst : Bool
  burst : Bool
  width : Width
  waitCount : Nat
  lock : Bool
  grant : Bool
  grantTime : Option Word
  holdLong : Bool
  separating : Bool
  deriving DecidableEq, Repr

/-! ### Reply Emitter (spec/07) -/

/-- A member of the Reply Queue (R133): a pending descriptor or an entry, by number. -/
inductive Member where
  | desc (i : Nat)
  | entry (i : Nat)
  deriving DecidableEq, Repr

/-! ### Management Unit (spec/08) -/

/-- The prescaler: 1, 8, 64 or 512 tributary clocks (R16). -/
inductive Prescaler where
  | p1 | p8 | p64 | p512
  deriving DecidableEq, Repr

/-- The four report banks (R173). -/
inductive BankName where
  | ring | slot | bus | mgmt
  deriving DecidableEq, Repr

/-- One enable for each bank (R162). -/
structure Enables where
  ring : Bool
  slot : Bool
  bus : Bool
  mgmt : Bool
  deriving DecidableEq, Repr

/-- The seven configuration parameters (R162). -/
structure Params where
  prescaler : Prescaler
  cycleLimit : Nat
  holdLimit : Nat
  gapLimit : Nat
  deadline : Nat
  bankEnables : Enables
  noticeEnables : Enables
  deriving DecidableEq, Repr

/-- A record of the Management Reply Queue (R158): a reply or a notice, without its source, which is written when the
record is given (R159). -/
structure MgmtReply where
  dest : Byte
  tag : Byte
  op : Byte
  status : Byte
  param : List Byte
  args : List Byte
  deriving DecidableEq, Repr

/-- The Management Unit's state (R151). -/
structure Mgmt where
  node : Byte
  manager : Option Byte
  params : Params
  queue : List MgmtReply
  noticeSeq : Byte
  deriving DecidableEq, Repr

/-! ### Report Unit (spec/09) -/

/-- The kinds of report (R177). -/
inductive ReportKind where
  | lineLoss | cycleLost | cycleSkip | cycleRecordFault | headerFault | slotSequence | scheduleMismatch | commitLate
  | payloadFault | refused | incomplete | sequence | orphan | replyUndelivered | replyExpired
  | busError | busTimeout | holdLong | abortedInFlight | quietFailure
  | denied | badRequest | replyReturned | softReset
  deriving DecidableEq, Repr

/-- The record of a bank while it is valid (R173). -/
structure BankRecord where
  kind : ReportKind
  cycle : Half
  index : Option Byte
  node : Option Byte
  tag : Option Byte
  addr : Option Word
  overflow : Bool
  later : Nat
  noticeLost : Bool
  deriving DecidableEq, Repr

/-- A report bank (R173): its event count and its record; `none` is the empty record. -/
structure Bank where
  events : Nat
  record : Option BankRecord
  deriving DecidableEq, Repr

/-- The activity counters (R182). -/
structure Counters where
  cyclesInSync : Word
  segmentsTaken : Word
  segmentsGiven : Word
  executed : Word
  beats : Word
  busyTicks : Word
  holdTicks : Word
  deriving DecidableEq, Repr

/-- The Last Transaction Record while it is present (R184). -/
structure LastTx where
  source : Byte
  tag : Byte
  op : ReqOp
  final : Status
  addr : Word
  done : Nat
  cycle : Half
  deriving DecidableEq, Repr

/-- The Report Unit's state (R173, R182, R184). -/
structure Reports where
  ring : Bank
  slot : Bank
  bus : Bank
  mgmt : Bank
  counters : Counters
  lastTx : Option LastTx
  deriving DecidableEq, Repr

/-! ### Bridge Control (spec/10) -/

/-- The bridge states (R187). -/
inductive BridgeState where
  | stopped | running | draining
  deriving DecidableEq, Repr

/-- Bridge Control's state (R187). `softReset` is present exactly while a soft reset is pending, and then holds the
RESET's source and tag. -/
structure Bridge where
  state : BridgeState
  flush : Bool
  softReset : Option (Byte × Byte)
  resetCount : Byte
  deriving DecidableEq, Repr

/-- The input pins that a command leaves at a level: the reset pin and the hold request (spec/00_scope.md, Signals). -/
structure Pins where
  reset : Bool
  holdRequest : Bool
  deriving DecidableEq, Repr

/-! ### The whole -/

/-- The state of the block. `choices` counts the uses of the free value `Config.order` (log 4); `pending` is the queue of
commands that wait, first in, first out. -/
structure State where
  ring : RingPort
  prevIndex : Option Byte
  sched : Schedule
  descriptors : List (Option ShortReply)
  table : Table
  windows : List Window
  bus : Bus
  replyQueue : List Member
  mgmt : Mgmt
  reports : Reports
  bridge : Bridge
  pins : Pins
  choices : Nat
  pending : List Instr
  deriving DecidableEq, Repr

/-- The spec names no condition that stops the block: every refusal, error, timeout, abort and loss of the line has an
outcome that it lives through. So no command ends in a fault. Safe: nothing is shut out. -/
inductive Fault where
  deriving DecidableEq, Repr

/-- Why a step could answer without a meaning. -/
inductive Refusal where
  /-- Raised by `exec` alone, for a command that has no meaning yet. Safe. No command is left so. -/
  | notModelled (mnemonic : String)
  deriving DecidableEq, Repr

/-! ### Reset values -/

/-- R20; the line receiver starts in the lost condition (R1). -/
def RingPort.initial : RingPort :=
  { state := .down, lost := true, lastCycle := 0, blind := false, slotCount := 0, captured := none, period := none,
    timebase := 0, divider := 0, lineOut := .idle }

/-- An entry PASS, ANY, ANY (R23). -/
def SchedEntry.initial : SchedEntry := { action := .pass, channel := none, source := none }

/-- A bank of 240 entries PASS, ANY, ANY (R23). -/
def bankInitial : List SchedEntry := List.replicate Config.slots SchedEntry.initial

/-- R23, R37. -/
def Schedule.initial : Schedule :=
  { active := bankInitial, shadow := bankInitial, commit := .none, swapCycle := none }

/-- All four descriptors free (R59). -/
def descriptorsInitial : List (Option ShortReply) := List.replicate Config.descriptors none

/-- A FREE entry; its other fields have no meaning (R68, log 8). -/
def Entry.initial : Entry :=
  { state := .free, source := 0, tag := 0, op := .read, addr := 0, total := 0, window := 0, blocks := [], received := 0,
    done := 0, sent := 0, final := none, gap := 0, deadline := 0, mark := .none, old := none }

/-- Every entry FREE (R68). -/
def entriesInitial : List Entry := List.replicate Config.entries Entry.initial

/-- R68, R80; the pool lists nothing (log 7). -/
def Table.initial : Table := { entries := entriesInitial, order := [], requests := [], pool := [] }

/-- R89. -/
def Window.initial : Window :=
  { valid := false, base := 0, size := 1, width := .w4,
    attrs := { read := false, write := false, lock := false, burst := false, line := false },
    budget := 1, owner := none, inUse := 0 }

/-- R89. -/
def windowsInitial : List Window := List.replicate Config.windows Window.initial

/-- R110; the width has no meaning while nothing executes (log 8). -/
def Bus.initial : Bus :=
  { engine := .idle, plan := [], current := none, rest := [], lineBurst := false, burst := false, width := .w4,
    waitCount := 0, lock := false, grant := false, grantTime := none, holdLong := false, separating := false }

/-- The defaults of R162. -/
def Params.initial : Params :=
  { prescaler := .p8, cycleLimit := 0, holdLimit := 0, gapLimit := 4, deadline := 8,
    bankEnables := { ring := true, slot := true, bus := true, mgmt := true },
    noticeEnables := { ring := false, slot := false, bus := false, mgmt := false } }

/-- R151. -/
def Mgmt.initial : Mgmt := { node := 0, manager := none, params := Params.initial, queue := [], noticeSeq := 0 }

/-- An empty record and an event count of 0 (R173). -/
def Bank.initial : Bank := { events := 0, record := none }

/-- R183. -/
def Counters.initial : Counters :=
  { cyclesInSync := 0, segmentsTaken := 0, segmentsGiven := 0, executed := 0, beats := 0, busyTicks := 0, holdTicks := 0 }

/-- R173, R183, R185. -/
def Reports.initial : Reports :=
  { ring := Bank.initial, slot := Bank.initial, bus := Bank.initial, mgmt := Bank.initial, counters := Counters.initial,
    lastTx := none }

/-- R187. -/
def Bridge.initial : Bridge := { state := .stopped, flush := false, softReset := none, resetCount := 0 }

/-- The machine right after a pin reset (R197): every block at its pin-reset value, the pin released, no hold request
(log 15), nothing waiting. -/
def State.reset : State :=
  { ring := RingPort.initial, prevIndex := none, sched := Schedule.initial, descriptors := descriptorsInitial,
    table := Table.initial, windows := windowsInitial, bus := Bus.initial, replyQueue := [], mgmt := Mgmt.initial,
    reports := Reports.initial, bridge := Bridge.initial, pins := { reset := false, holdRequest := false },
    choices := 0, pending := [] }

end Sys2Proof.Machine
end

