-- ==== Sys2Proof/Machine/Operands.lean ====
section
/-! DEFINITION. The formats on the line (spec/01, section 1.10): the check, cycle records, slots, segments, management
records, schedule entries, window records, and every code of their fields. Byte order is settled here alone: every
multi-byte field is sent most significant byte first (spec/00_scope.md, conventions). -/

namespace Sys2Proof
namespace Machine

/-! ### Bytes -/

/-- Byte `i` of a run of bytes; bytes past its end read as zero. -/
def byteAt (l : List Byte) (i : Nat) : Byte := l.getD i 0

/-- A two-byte field, most significant byte first. -/
def halfAt (l : List Byte) (i : Nat) : Half := byteAt l i ++ byteAt l (i + 1)

/-- A three-byte field, as a number. -/
def tripleAt (l : List Byte) (i : Nat) : Nat :=
  (byteAt l i).toNat * 65536 + (byteAt l (i + 1)).toNat * 256 + (byteAt l (i + 2)).toNat

/-- A four-byte field. -/
def wordAt (l : List Byte) (i : Nat) : Word := halfAt l i ++ halfAt l (i + 2)

/-- The two bytes of a field. -/
def halfBytes (h : Half) : List Byte := [h.extractLsb' 8 8, h.extractLsb' 0 8]

/-- The three bytes of a number below 2^24. -/
def tripleBytes (n : Nat) : List Byte := [BitVec.ofNat 8 (n / 65536), BitVec.ofNat 8 (n / 256), BitVec.ofNat 8 n]

/-- The four bytes of a field. -/
def wordBytes (w : Word) : List Byte :=
  [w.extractLsb' 24 8, w.extractLsb' 16 8, w.extractLsb' 8 8, w.extractLsb' 0 8]

/-- A run of bytes brought to length `n`: filled up with zeros, never longer. -/
def padTo (n : Nat) (l : List Byte) : List Byte := (l ++ List.replicate (n - l.length) 0).take n

/-! ### The check (R4) -/

/-- One bit of the check: feedback, shift, and the generator 8005H when the feedback is 1. -/
def checkBit (r : Half) (b : Bool) : Half :=
  if Bool.xor b r.msb then (r <<< 1) ^^^ 0x8005#16 else r <<< 1

/-- One byte of the check, most significant bit first. -/
def checkByte (r : Half) (x : Byte) : Half :=
  [7, 6, 5, 4, 3, 2, 1, 0].foldl (fun r i => checkBit r (x.getLsbD i)) r

/-- The check over a run of bytes, from a preset of all ones. -/
def check (bytes : List Byte) : Half := bytes.foldl checkByte 0xFFFF#16

end Machine

open Machine in
/-- The kind byte that stands for the Payload Mark in the payload check (R4). -/
def MarkKind.code : MarkKind → Byte
  | .void => 0x00
  | .data => 0x01
  | .mgmt => 0x02
  | .faulted => 0x03

namespace Machine

/-- The payload check: the kind byte, then the payload (R4). -/
def payloadCheck (kind : MarkKind) (payload : List Byte) : Half := check (kind.code :: payload)

/-! ### Cycle records (R2) -/

/-- What a valid cycle record gives: the cycle number and the slot count. -/
structure CycleInfo where
  number : Half
  slotCount : Byte
  deriving DecidableEq, Repr

/-- The judgement of a cycle record (R2): six bytes, a good check, format version 1, slot count 1..240. -/
def judgeCycle (record : List Byte) : Option CycleInfo :=
  if record.length = 6 ∧ halfAt record 4 = check (record.take 4) ∧ byteAt record 3 = 1
      ∧ 1 ≤ (byteAt record 2).toNat ∧ (byteAt record 2).toNat ≤ 240 then
    some { number := halfAt record 0, slotCount := byteAt record 2 }
  else none

/-- A valid cycle record of this number and slot count, as the ring source emits it. -/
def cycleRecord (number : Half) (slotCount : Byte) : List Byte :=
  halfBytes number ++ [slotCount, 1] ++ halfBytes (check (halfBytes number ++ [slotCount, 1]))

/-! ### Slots (R3) -/

/-- A slot at its arrival (R8): as it stands on the line, and with the Ring Port's judgements. The fields after
`headerGood` have a meaning only where it holds. -/
structure Arrival where
  raw : RawSlot
  headerGood : Bool
  index : Byte
  channel : Byte
  size : Byte
  kind : MarkKind
  payload : List Byte
  payloadGood : Bool
  deriving DecidableEq, Repr

/-- The payload length that a size code fixes: 16 × (size code + 1) (R3). -/
def payloadLength (size : Byte) : Nat := 16 * (size.toNat + 1)

/-- The ranges of R3: slot index 0..239, channel 0..63, size code 0..15. -/
def headerInRange (index channel size : Byte) : Bool :=
  decide (index.toNat < 240) && decide (channel.toNat < 64) && decide (size.toNat < 16)

/-- The Ring Port's judgement of a slot (R3). A slot that is not well framed is judged as one with a bad header. -/
def judgeSlot (raw : RawSlot) : Arrival :=
  let index := byteAt raw.header 0
  let channel := byteAt raw.header 1
  let size := byteAt raw.header 2
  let payload := raw.body.take (payloadLength size)
  let kind := raw.mark.getD .void
  { raw := raw
    headerGood := decide (raw.header.length = 5) && decide (halfAt raw.header 3 = check (raw.header.take 3))
      && headerInRange index channel size && raw.mark.isSome
      && decide (raw.body.length = payloadLength size + 2)
    index := index, channel := channel, size := size, kind := kind, payload := payload
    payloadGood := decide (halfAt raw.body (payloadLength size) = payloadCheck kind payload) }

/-- The bytes of a slot header with its check (R3, R4). -/
def headerBytes (index channel size : Byte) : List Byte :=
  [index, channel, size] ++ halfBytes (check [index, channel, size])

end Machine

open Machine in
/-- The same slot with a payload of this kind and its check; its header, and the strays before it, as they are (R9). -/
def RawSlot.withPayload (raw : RawSlot) (kind : MarkKind) (payload : List Byte) : RawSlot :=
  { raw with mark := some kind, body := payload ++ halfBytes (payloadCheck kind payload) }

namespace Machine

/-- A whole slot with good checks. -/
def encodeSlot (index channel size : Byte) (kind : MarkKind) (payload : List Byte) : RawSlot :=
  RawSlot.withPayload { header := headerBytes index channel size, mark := none, body := [] } kind payload

/-- The arrival of a slot with good checks. -/
def arrivalOf (index channel size : Byte) (kind : MarkKind) (payload : List Byte) : Arrival :=
  { raw := encodeSlot index channel size kind payload, headerGood := headerInRange index channel size,
    index := index, channel := channel, size := size, kind := kind, payload := payload, payloadGood := true }

/-- The capacity of a slot: its payload length less the 16-byte header (R31). -/
def Arrival.capacity (a : Arrival) : Nat := payloadLength a.size - 16

/-- The contents of a slot while the part works on it: the kind of its mark and its payload. -/
structure Image where
  kind : MarkKind
  payload : List Byte
  deriving DecidableEq, Repr

/-- The contents a slot arrives with. -/
def Arrival.image (a : Arrival) : Image := { kind := a.kind, payload := a.payload }

/-- A slot voided: the mark VOID and every payload byte zero (R5). -/
def Image.voided (im : Image) : Image := { kind := .void, payload := List.replicate im.payload.length 0 }

/-- The slot as it leaves the part (R34): unchanged with its received check, or with the check regenerated. The header
is the one it arrived with in either case (R9). -/
def Arrival.forwarded (a : Arrival) (im : Image) : RawSlot :=
  if im = a.image then a.raw else a.raw.withPayload im.kind im.payload

/-! ### Segments -/

/-- A segment header with the bytes that follow it (spec/01, Formats on the line). -/
structure Segment where
  dest : Byte
  source : Byte
  tag : Byte
  op : Byte
  status : Byte
  flags : Byte
  total : Half
  offset : Half
  count : Half
  addr : Word
  data : List Byte
  deriving DecidableEq, Repr

/-- The segment that a DATA payload opens with. -/
def Segment.ofBytes (p : List Byte) : Segment :=
  { dest := byteAt p 0, source := byteAt p 1, tag := byteAt p 2, op := byteAt p 3, status := byteAt p 4,
    flags := byteAt p 5, total := halfAt p 6, offset := halfAt p 8, count := halfAt p 10, addr := wordAt p 12,
    data := p.drop 16 }

/-- The bytes of a segment. -/
def Segment.toBytes (g : Segment) : List Byte :=
  [g.dest, g.source, g.tag, g.op, g.status, g.flags] ++ halfBytes g.total ++ halfBytes g.offset ++ halfBytes g.count
    ++ wordBytes g.addr ++ g.data

/-- The LAST flag: bit 0 of the flags. -/
def Segment.last (g : Segment) : Bool := g.flags.getLsbD 0

/-- Whether a reserved flag bit, 7..1, is set. -/
def Segment.reservedFlags (g : Segment) : Bool := decide (g.flags &&& 0xFE ≠ 0)

end Machine

open Machine in
/-- The codes of the request operations. -/
def ReqOp.code : ReqOp → Byte
  | .read => 0x01
  | .write => 0x02
  | .writeQuiet => 0x03
  | .swap => 0x04
  | .add => 0x05
  | .cswap => 0x06

open Machine in
/-- The request operation of a code, if it is one (R45). -/
def ReqOp.ofCode (c : Byte) : Option ReqOp :=
  if c = 0x01 then some .read
  else if c = 0x02 then some .write
  else if c = 0x03 then some .writeQuiet
  else if c = 0x04 then some .swap
  else if c = 0x05 then some .add
  else if c = 0x06 then some .cswap
  else none

namespace Machine

/-- The operation code REPLY. -/
def replyCode : Byte := 0x80

/-- The codes of the segment statuses. -/
def Status.code : Status → Byte
  | .done => 0x00
  | .unchanged => 0x01
  | .busError => 0x02
  | .busTimeout => 0x03
  | .noWindow => 0x04
  | .denied => 0x05
  | .align => 0x06
  | .length => 0x07
  | .badRequest => 0x08
  | .tagInUse => 0x09
  | .orphan => 0x0A
  | .sequence => 0x0B
  | .incomplete => 0x0C
  | .aborted => 0x0D

end Machine

open Machine in
/-- SWAP, ADD and CSWAP are the locked operations (spec/00_scope.md, Terms). -/
def ReqOp.locked : ReqOp → Bool
  | .swap | .add | .cswap => true
  | .read | .write | .writeQuiet => false

open Machine in
/-- WRITE and WRITE-QUIET. -/
def ReqOp.isWrite : ReqOp → Bool
  | .write | .writeQuiet => true
  | .read | .swap | .add | .cswap => false

open Machine in
/-- The segment that a request command sends. -/
def SegSlot.segment (g : SegSlot) (op : ReqOp) (offset : Half) : Segment :=
  { dest := g.dest, source := g.source, tag := g.tag, op := op.code, status := g.status, flags := g.flags,
    total := g.total, offset := offset, count := g.count, addr := g.addr, data := g.data }

open Machine in
/-- The arrival that a request command is. -/
def SegSlot.arrival (g : SegSlot) (op : ReqOp) (offset : Half) : Arrival :=
  arrivalOf g.index g.channel g.size .data (padTo (payloadLength g.size) (g.segment op offset).toBytes)

namespace Machine

/-! ### Management records -/

/-- A management record header with the bytes that follow it. -/
structure MgmtRecord where
  dest : Byte
  source : Byte
  tag : Byte
  op : Byte
  status : Byte
  flags : Byte
  argLen : Half
  param : List Byte
  rest : List Byte
  deriving DecidableEq, Repr

/-- The record that an MGMT payload opens with. -/
def MgmtRecord.ofBytes (p : List Byte) : MgmtRecord :=
  { dest := byteAt p 0, source := byteAt p 1, tag := byteAt p 2, op := byteAt p 3, status := byteAt p 4,
    flags := byteAt p 5, argLen := halfAt p 6, param := (p.drop 8).take 8, rest := p.drop 16 }

/-- The bytes of a record. -/
def MgmtRecord.toBytes (r : MgmtRecord) : List Byte :=
  [r.dest, r.source, r.tag, r.op, r.status, r.flags] ++ halfBytes r.argLen ++ padTo 8 r.param ++ r.rest

/-- Parameter byte `i` (spec/08, opening). -/
def MgmtRecord.paramByte (r : MgmtRecord) (i : Nat) : Byte := byteAt r.param i

/-- The arguments: argument length bytes after the header. -/
def MgmtRecord.args (r : MgmtRecord) : List Byte := r.rest.take r.argLen.toNat

/-- The sixteen request operations (spec/01, Formats on the line). -/
inductive MgmtOp where
  | identify | assign | configure | schedLoad | schedRead | schedCommit | schedCancel | windowLoad | windowRead | start
  | stop | abort | status | reportRead | reportClear | reset
  deriving DecidableEq, Repr

/-- The codes of the management operations. -/
def MgmtOp.code : MgmtOp → Byte
  | .identify => 0x01
  | .assign => 0x02
  | .configure => 0x03
  | .schedLoad => 0x04
  | .schedRead => 0x05
  | .schedCommit => 0x06
  | .schedCancel => 0x07
  | .windowLoad => 0x08
  | .windowRead => 0x09
  | .start => 0x0A
  | .stop => 0x0B
  | .abort => 0x0C
  | .status => 0x0D
  | .reportRead => 0x0E
  | .reportClear => 0x0F
  | .reset => 0x10

/-- The request operation of a code, if it is one. -/
def MgmtOp.ofCode (c : Byte) : Option MgmtOp :=
  [MgmtOp.identify, .assign, .configure, .schedLoad, .schedRead, .schedCommit, .schedCancel, .windowLoad, .windowRead,
    .start, .stop, .abort, .status, .reportRead, .reportClear, .reset].find? (fun o => o.code = c)

/-- The operation code NOTICE. -/
def noticeCode : Byte := 0x20

/-- The management statuses. -/
inductive MgmtStatus where
  | ok | busy | denied | badArg | state
  deriving DecidableEq, Repr

/-- The codes of the management statuses. -/
def MgmtStatus.code : MgmtStatus → Byte
  | .ok => 0x00
  | .busy => 0x01
  | .denied => 0x02
  | .badArg => 0x03
  | .state => 0x04

end Machine

open Machine in
/-- The record that a management command sends. -/
def MgmtSlot.record (m : MgmtSlot) (op : MgmtOp) : MgmtRecord :=
  { dest := m.dest, source := m.source, tag := m.tag, op := op.code, status := m.status, flags := m.flags,
    argLen := m.argLen, param := padTo 8 m.param, rest := m.args }

open Machine in
/-- The arrival that a management command is: on channel 0, of kind MGMT, with good checks (R28). -/
def MgmtSlot.arrival (m : MgmtSlot) (op : MgmtOp) : Arrival :=
  arrivalOf m.index 0 m.size .mgmt (padTo (payloadLength m.size) (m.record op).toBytes)

open Machine in
/-- The same slot with parameter byte `i` mapped by `f`. -/
def MgmtSlot.mapParam (m : MgmtSlot) (i : Nat) (f : Byte → Byte) : MgmtSlot :=
  { m with param := (padTo 8 m.param).modify i f }

open Machine in
/-- The same slot with argument byte `i`, where there is one, mapped by `f`. -/
def MgmtSlot.mapArg (m : MgmtSlot) (i : Nat) (f : Byte → Byte) : MgmtSlot :=
  { m with args := m.args.modify i f }

namespace Machine

/-! ### Codes used in management replies (spec/08, section 8.4) -/

/-- Ring state codes. -/
def RingState.code : RingState → Byte
  | .down => 0
  | .hunt => 1
  | .armed => 2
  | .sync => 3

/-- Bridge state codes. -/
def BridgeState.code : BridgeState → Byte
  | .stopped => 0
  | .running => 1
  | .draining => 2

/-- Commit state codes. -/
def CommitState.code : CommitState → Byte
  | .none => 0
  | .pendingNext => 1
  | .pendingAt _ => 2

/-- The target as STATUS and SCHED-COMMIT give it: 0 unless PENDING-AT. -/
def CommitState.target : CommitState → Half
  | .none => 0
  | .pendingNext => 0
  | .pendingAt n => n

/-- Engine state codes. -/
def EngineState.code : EngineState → Byte
  | .idle => 0
  | .cycle => 1
  | .locked => 2
  | .yielded => 3

/-- Bank codes. -/
def BankName.code : BankName → Byte
  | .ring => 0
  | .slot => 1
  | .bus => 2
  | .mgmt => 3

/-- The bank of a code 0..3. -/
def BankName.ofCode (c : Byte) : Option BankName :=
  if c = 0 then some .ring else if c = 1 then some .slot else if c = 2 then some .bus
  else if c = 3 then some .mgmt else none

/-- The bank of each kind (R177). -/
def ReportKind.bank : ReportKind → BankName
  | .lineLoss | .cycleLost | .cycleSkip | .cycleRecordFault | .headerFault | .slotSequence | .scheduleMismatch
  | .commitLate => .ring
  | .payloadFault | .refused | .incomplete | .sequence | .orphan | .replyUndelivered | .replyExpired => .slot
  | .busError | .busTimeout | .holdLong | .abortedInFlight | .quietFailure => .bus
  | .denied | .badRequest | .replyReturned | .softReset => .mgmt

/-- The code of each kind within its bank. -/
def ReportKind.code : ReportKind → Byte
  | .lineLoss => 1
  | .cycleLost => 2
  | .cycleSkip => 3
  | .cycleRecordFault => 4
  | .headerFault => 5
  | .slotSequence => 6
  | .scheduleMismatch => 7
  | .commitLate => 8
  | .payloadFault => 1
  | .refused => 2
  | .incomplete => 3
  | .sequence => 4
  | .orphan => 5
  | .replyUndelivered => 6
  | .replyExpired => 7
  | .busError => 1
  | .busTimeout => 2
  | .holdLong => 3
  | .abortedInFlight => 4
  | .quietFailure => 5
  | .denied => 1
  | .badRequest => 2
  | .replyReturned => 3
  | .softReset => 4

/-- A truth value as a byte, 1 or 0. -/
def boolByte (b : Bool) : Byte := if b then 1 else 0

/-- A byte from its bits, bit 0 first. -/
def flagByte (bits : List Bool) : Byte := bits.foldr (fun b acc => (acc <<< 1) ||| boolByte b) 0

/-- A node that may be absent, as a byte: 0 where it is absent. -/
def nodeByte (n : Option Byte) : Byte := n.getD 0

/-! ### Configuration fields (R162) -/

/-- Tributary clocks of a prescaler (R16). -/
def Prescaler.clocks : Prescaler → Nat
  | .p1 => 1
  | .p8 => 8
  | .p64 => 64
  | .p512 => 512

/-- Prescaler codes. -/
def Prescaler.code : Prescaler → Byte
  | .p1 => 0
  | .p8 => 1
  | .p64 => 2
  | .p512 => 3

/-- The prescaler of a code 0..3. -/
def Prescaler.ofCode (c : Byte) : Option Prescaler :=
  if c = 0 then some .p1 else if c = 1 then some .p8 else if c = 2 then some .p64
  else if c = 3 then some .p512 else none

/-- An enables byte: bit 0 RING, bit 1 SLOT, bit 2 BUS, bit 3 MGMT. -/
def Enables.code (e : Enables) : Byte := flagByte [e.ring, e.slot, e.bus, e.mgmt]

/-- The enables of a byte whose bits 7..4 are zero. -/
def Enables.ofCode (c : Byte) : Option Enables :=
  if c.toNat < 16 then
    some { ring := c.getLsbD 0, slot := c.getLsbD 1, bus := c.getLsbD 2, mgmt := c.getLsbD 3 }
  else none

/-- The enable of one bank. -/
def Enables.of (e : Enables) : BankName → Bool
  | .ring => e.ring
  | .slot => e.slot
  | .bus => e.bus
  | .mgmt => e.mgmt

/-- The configuration in the 11-byte layout of R162. -/
def Params.toBytes (p : Params) : List Byte :=
  [p.prescaler.code] ++ tripleBytes p.cycleLimit ++ tripleBytes p.holdLimit
    ++ [BitVec.ofNat 8 p.gapLimit, BitVec.ofNat 8 p.deadline, p.bankEnables.code, p.noticeEnables.code]

/-! ### Schedule entries -/

/-- Action codes. -/
def Action.code : Action → Byte
  | .pass => 0
  | .take => 1
  | .give => 2
  | .both => 3

/-- The action of bits 7..6 of the first byte. -/
def Action.ofCode (c : Byte) : Action :=
  if c = 0 then .pass else if c = 1 then .take else if c = 2 then .give else .both

/-- The two bytes of a schedule entry. -/
def SchedEntry.toBytes (e : SchedEntry) : List Byte :=
  [(e.action.code <<< 6) ||| nodeByte e.source,
    match e.channel with
    | none => 0x80
    | some c => c]

/-- The entry of two bytes (R35): not a source filter of 63, no reserved bit, no channel field beside channel ANY. -/
def SchedEntry.ofBytes (b0 b1 : Byte) : Option SchedEntry :=
  let source := b0 &&& 0x3F
  let channel := b1 &&& 0x3F
  if source = 0x3F ∨ b1.getLsbD 6 = true ∨ (b1.getLsbD 7 = true ∧ channel ≠ 0) then none
  else
    some { action := Action.ofCode (b0 >>> 6), channel := if b1.getLsbD 7 then none else some channel,
           source := if source = 0 then none else some source }

/-- `n` schedule entries in ascending slot index; none if any of them is bad (R35). -/
def schedEntries : Nat → List Byte → Option (List SchedEntry)
  | 0, _ => some []
  | n + 1, bytes =>
    match SchedEntry.ofBytes (byteAt bytes 0) (byteAt bytes 1), schedEntries n (bytes.drop 2) with
    | some e, some es => some (e :: es)
    | _, _ => none

/-! ### Window records -/

end Machine

open Machine in
/-- The bytes of a width. -/
def Width.bytes : Width → Nat
  | .w1 => 1
  | .w2 => 2
  | .w4 => 4

open Machine in
/-- The width of a port width byte. -/
def Width.ofByte (b : Byte) : Option Width :=
  if b = 1 then some .w1 else if b = 2 then some .w2 else if b = 4 then some .w4 else none

namespace Machine

/-- The attributes byte: bit 0 READ, bit 1 WRITE, bit 2 LOCK, bit 3 BURST, bit 4 LINE. -/
def Attrs.code (a : Attrs) : Byte := flagByte [a.read, a.write, a.lock, a.burst, a.line]

/-- The attributes of a byte. -/
def Attrs.ofCode (c : Byte) : Attrs :=
  { read := c.getLsbD 0, write := c.getLsbD 1, lock := c.getLsbD 2, burst := c.getLsbD 3, line := c.getLsbD 4 }

/-- The 12 bytes of window `i`, with its in-use count in byte 1 (R95). -/
def Window.toBytes (w : Window) (i : Nat) : List Byte :=
  [BitVec.ofNat 8 i, (boolByte w.valid <<< 7) ||| BitVec.ofNat 8 w.inUse, w.attrs.code, BitVec.ofNat 8 w.width.bytes]
    ++ wordBytes w.base ++ halfBytes w.size ++ [w.budget, nodeByte w.owner]

/-- The first address after a window's range, as a number: base + 256 × size (R91). -/
def Window.limit (w : Window) : Nat := w.base.toNat + 256 * w.size.toNat

/-- Step 4 of R93: the window that a record with the valid bit 1 describes, or none where a field is bad. The in-use
count is not read. -/
def Window.ofBytes (r : List Byte) : Option Window :=
  let owner := byteAt r 11
  let base := wordAt r 4
  let size := halfAt r 8
  match Width.ofByte (byteAt r 3) with
  | none => none
  | some width =>
    if byteAt r 1 &&& 0x70 ≠ 0 ∨ byteAt r 2 &&& 0xE0 ≠ 0 ∨ base.toNat % 256 ≠ 0 ∨ size = 0
        ∨ base.toNat + 256 * size.toNat > 2 ^ 32 ∨ byteAt r 10 = 0 ∨ owner.toNat > 62 then none
    else
      some { valid := true, base := base, size := size, width := width, attrs := Attrs.ofCode (byteAt r 2),
             budget := byteAt r 10, owner := if owner = 0 then none else some owner, inUse := 0 }

end Machine
end Sys2Proof
end

