-- ==== Sys2Proof/Machine/Update.lean ====
section
/-! DEFINITION. The named updates of State: one for each block of the part, and the accessors of its tables. Every other
operation changes State through these. -/

namespace Sys2Proof.Machine

/-! ### One update for each block -/

def State.withRing (s : State) (x : RingPort) : State := { s with ring := x }
def State.withPrevIndex (s : State) (x : Option Byte) : State := { s with prevIndex := x }
def State.withSched (s : State) (x : Schedule) : State := { s with sched := x }
def State.withDescriptors (s : State) (x : List (Option ShortReply)) : State := { s with descriptors := x }
def State.withTable (s : State) (x : Table) : State := { s with table := x }
def State.withWindows (s : State) (x : List Window) : State := { s with windows := x }
def State.withBus (s : State) (x : Bus) : State := { s with bus := x }
def State.withReplyQueue (s : State) (x : List Member) : State := { s with replyQueue := x }
def State.withMgmt (s : State) (x : Mgmt) : State := { s with mgmt := x }
def State.withReports (s : State) (x : Reports) : State := { s with reports := x }
def State.withBridge (s : State) (x : Bridge) : State := { s with bridge := x }
def State.withPins (s : State) (x : Pins) : State := { s with pins := x }
def State.withChoices (s : State) (x : Nat) : State := { s with choices := x }
def State.withPending (s : State) (x : List Instr) : State := { s with pending := x }

/-! ### The free value -/

/-- Put `a` at position `k` of a list, counted modulo the number of places. -/
def insertAt {α : Type} (k : Nat) (a : α) (l : List α) : List α :=
  l.take (k % (l.length + 1)) ++ a :: l.drop (k % (l.length + 1))

/-- The order of a list that the number `k` names; every order has a number. -/
def reorder {α : Type} : Nat → List α → List α
  | _, [] => []
  | k, a :: l => insertAt (k % (l.length + 1)) a (reorder (k / (l.length + 1)) l)

/-- Acts of different blocks at one moment, which the spec lets be taken in any order (R174): with two or more of them
the order is the free value `Config.order` (log 4). -/
def inSomeOrder (acts : List (State → State)) (s : State) : State :=
  match acts with
  | [] => s
  | [f] => f s
  | acts => (reorder (Config.order s.choices) acts).foldl (fun t f => f t) (s.withChoices (s.choices + 1))

/-! ### The Data Pool (R78) -/

/-- What a byte of the pool that is not listed reads as (log 7). -/
def poolDefault : Byte := 0

/-- One byte of the pool. -/
def poolRead : List Host.Cell → Nat → Byte
  | [], _ => poolDefault
  | (b, x) :: rest, a => if a = b then x else poolRead rest a

/-- Put a cell at the front, unless it holds what an unlisted address reads as. -/
def poolCons (a : Nat) (x : Byte) (rest : List Host.Cell) : List Host.Cell :=
  if x = poolDefault then rest else (a, x) :: rest

/-- Write one byte of the pool, keeping the canonical form. -/
def poolWrite : List Host.Cell → Nat → Byte → List Host.Cell
  | [], a, x => poolCons a x []
  | (b, y) :: rest, a, x =>
    if a < b then poolCons a x ((b, y) :: rest)
    else if a = b then poolCons a x rest
    else (b, y) :: poolWrite rest a x

/-- Write a run of bytes at ascending positions, `addr k` being the address of position `k`. -/
def poolWriteRun (addr : Nat → Nat) : Nat → List Byte → List Host.Cell → List Host.Cell
  | _, [], pool => pool
  | k, x :: xs, pool => poolWriteRun addr (k + 1) xs (poolWrite pool (addr k) x)

/-- Every listed address is above `low`, addresses rise strictly, and no listed byte is what an unlisted one reads as. -/
def poolWfFrom (low : Nat) : List Host.Cell → Bool
  | [] => true
  | (a, x) :: rest => decide (low ≤ a) && decide (x ≠ poolDefault) && poolWfFrom (a + 1) rest

/-- The canonical form of the pool. -/
def Memory.wf (pool : List Host.Cell) : Bool := poolWfFrom 0 pool

/-! ### Entries, windows, descriptors -/

/-- Entry `i` of the Transaction Table. -/
def State.entry (s : State) (i : Nat) : Entry := s.table.entries.getD i Entry.initial

/-- Window `i`. -/
def State.window (s : State) (i : Nat) : Window := s.windows.getD i Window.initial

/-- Descriptor `i`. -/
def State.descriptor (s : State) (i : Nat) : Option ShortReply := s.descriptors.getD i none

/-- Entry `i` mapped by `f`. -/
def State.modEntry (s : State) (i : Nat) (f : Entry → Entry) : State :=
  s.withTable { s.table with entries := s.table.entries.modify i f }

/-- The pool contents replaced. -/
def State.withPool (s : State) (pool : List Host.Cell) : State := s.withTable { s.table with pool := pool }

/-- Window `i` mapped by `f`. -/
def State.modWindow (s : State) (i : Nat) (f : Window → Window) : State := s.withWindows (s.windows.modify i f)

/-- The numbers of a list's members that satisfy `p`, ascending. -/
def indexesOf {α : Type} (p : α → Bool) (l : List α) : List Nat :=
  (List.range l.length).filter (fun i => (l[i]?).any p)

/-- The entries in a state, by number, ascending. -/
def State.entriesIn (s : State) (st : EntryState) : List Nat :=
  indexesOf (fun e => decide (e.state = st)) s.table.entries

/-- The entries that are not FREE, by number, ascending. -/
def State.openEntries (s : State) : List Nat :=
  indexesOf (fun e => decide (e.state ≠ .free)) s.table.entries

/-- The entry that is EXECUTING, if there is one; by R72 there is at most one. -/
def State.executing (s : State) : Option Nat := (s.entriesIn .executing).head?

/-- Whether block `b` of the pool is reserved by an open entry (R78). -/
def State.blockReserved (s : State) (b : Nat) : Bool :=
  s.table.entries.any (fun e => decide (e.state ≠ .free) && e.blocks.contains b)

/-- The free blocks of the pool, lowest-numbered first. -/
def State.freeBlocks (s : State) : List Nat := (List.range Config.blocks).filter (fun b => !s.blockReserved b)

/-- The pending short-reply descriptors, by number. -/
def State.pendingDescriptors (s : State) : List Nat := indexesOf Option.isSome s.descriptors

/-- The free short-reply descriptors, by number, lowest first. -/
def State.freeDescriptors (s : State) : List Nat := indexesOf Option.isNone s.descriptors

/-- The pool address of transaction byte `k`: in the block at position k div 256 of the entry's list, at byte k mod 256
of that block (R78). -/
def Entry.poolAddr (e : Entry) (k : Nat) : Nat := 256 * e.blocks.getD (k / 256) 0 + k % 256

/-- Transaction byte `k` of an entry, as the pool holds it. -/
def State.txByte (s : State) (e : Entry) (k : Nat) : Byte := poolRead s.table.pool (e.poolAddr k)

/-- Transaction bytes `k` to `k + n - 1`. -/
def State.txBytes (s : State) (e : Entry) (k n : Nat) : List Byte := (List.range n).map (fun j => s.txByte e (k + j))

/-- A run of transaction bytes from position `k` written into the entry's blocks. -/
def State.writeTx (s : State) (e : Entry) (k : Nat) (bytes : List Byte) : State :=
  s.withPool (poolWriteRun e.poolAddr k bytes s.table.pool)

end Sys2Proof.Machine
end

