-- ==== Sys2Proof/Machine/Planning.lean ====
section
/-! DEFINITION. Transfer planning (spec/05, sections 5.4 and 5.5): lines, words, beats, cycles, line reads, locked
sequences, the accepted part of a beat, and the plan rebuilt after a narrowing. -/

namespace Sys2Proof.Machine

/-- A byte of the transaction's range: a needed byte (R99). -/
def Entry.needs (e : Entry) (a : Nat) : Bool := decide (e.addr.toNat ≤ a) && decide (a < e.addr.toNat + e.total)

/-- The byte lanes, 0 to 3, of the needed bytes of the word at `wa`. -/
def Entry.neededLanes (e : Entry) (wa : Nat) : List Nat := [0, 1, 2, 3].filter (fun l => e.needs (wa + l))

/-- The units of a word at a width, as lanes, lower unit first (R101). -/
def unitsOf : Width → List (List Nat)
  | .w4 => [[0, 1, 2, 3]]
  | .w2 => [[0, 1], [2, 3]]
  | .w1 => [[0], [1], [2], [3]]

/-- The beats that carry the given lanes of the word at `wa` at a width: one for each unit that holds one of them, lower
unit first (R101). -/
def beatsFor (width : Width) (wa : Nat) (write : Bool) (lanes : List Nat) : List Beat :=
  (unitsOf width).filterMap (fun u =>
    let enabled := lanes.filter (fun l => u.contains l)
    if enabled.isEmpty then none
    else some { addr := wa + u.headD 0, width := width, write := write, lanes := enabled })

/-- The word that holds a beat's unit. -/
def Beat.word (b : Beat) : Nat := b.addr / 4 * 4

/-- A beat at an accepted width (R106): a wider one is split into units of that width, lower unit first. -/
def Beat.split (b : Beat) (width : Width) : List Beat :=
  if width.bytes < b.width.bytes then beatsFor width b.word b.write b.lanes else [b]

/-- A cycle of one beat. -/
def singleCycle (b : Beat) : BusCycle := { lineBurst := false, beats := [b] }

/-- The first line of a transaction, by number (line n is at address 16 n). -/
def Entry.firstLine (e : Entry) : Nat := e.addr.toNat / 16

/-- How many lines the range spans: ceil((A mod 16 + L) / 16) (R99). -/
def Entry.lineCount (e : Entry) : Nat := (e.addr.toNat % 16 + e.total + 15) / 16

/-- The transaction's lines, ascending (R99). -/
def Entry.lines (e : Entry) : List Nat := (List.range e.lineCount).map (fun i => e.firstLine + i)

/-- Whether a line is a line-read line (R100): of a READ in a window with LINE, its first and its last line. -/
def Entry.lineRead (e : Entry) (w : Window) (line : Nat) : Bool :=
  decide (e.op = .read) && w.attrs.line
    && (decide (line = e.firstLine) || decide (line + 1 = e.firstLine + e.lineCount))

/-- The wrap order of a line-read line (R100): from the word that holds its first needed byte. -/
def Entry.wrapWords (e : Entry) (line : Nat) : List Nat :=
  let start := if line = e.firstLine then e.addr.toNat % 16 / 4 else 0
  ([0, 1, 2, 3].drop start ++ [0, 1, 2, 3].take start).map (fun i => 16 * line + 4 * i)

/-- The words of an ordinary line that hold a needed byte, ascending (R99). -/
def Entry.ordinaryWords (e : Entry) (line : Nat) : List Nat :=
  ([0, 1, 2, 3].map (fun i => 16 * line + 4 * i)).filter (fun wa => !(e.neededLanes wa).isEmpty)

/-- The cycles of one line (R99 to R102). -/
def planLine (e : Entry) (w : Window) (width : Width) (line : Nat) : List BusCycle :=
  let full := e.lineRead w line
  let words := if full then e.wrapWords line else e.ordinaryWords line
  let beats := words.flatMap (fun wa =>
    beatsFor width wa e.op.isWrite (if full then [0, 1, 2, 3] else e.neededLanes wa))
  if w.attrs.burst && decide (2 ≤ words.length) then [{ lineBurst := true, beats := beats }]
  else beats.map singleCycle

/-- One part of a locked sequence (R103): single-beat cycles over the one word that holds the value. -/
def lockedPart (e : Entry) (width : Width) (write : Bool) : List BusCycle :=
  let wa := e.addr.toNat / 4 * 4
  (beatsFor width wa write (e.neededLanes wa)).map singleCycle

/-- The plan at handover (R98 to R103): the lines of a READ, WRITE or WRITE-QUIET, or the read part of a locked
sequence. -/
def planFor (e : Entry) (w : Window) (width : Width) : List BusCycle :=
  if e.op.locked then lockedPart e width false else e.lines.flatMap (planLine e w width)

/-- The lanes that an answer of this accepted width takes (R105): all of them, or those in the unit of the accepted width
that holds the lowest enabled byte. -/
def Beat.takenLanes (b : Beat) (accepted : Width) : List Nat :=
  if b.width.bytes ≤ accepted.bytes then b.lanes
  else b.lanes.filter (fun l => decide (l / accepted.bytes = b.lanes.headD 0 / accepted.bytes))

/-- The re-issue of a narrowed beat (R106, item 1). -/
def Beat.reissue (b : Beat) (accepted : Width) : List Beat :=
  beatsFor accepted b.word b.write (b.lanes.filter (fun l => !(b.takenLanes accepted).contains l))

/-- Cycles not yet started, at a new width (R106, items 2 and 3): a burst stays one cycle, single-beat cycles stay
single. -/
def replanCycles (width : Width) (cycles : List BusCycle) : List BusCycle :=
  cycles.flatMap (fun c =>
    let beats := c.beats.flatMap (fun b => b.split width)
    if c.lineBurst then [{ lineBurst := true, beats := beats }] else beats.map singleCycle)

/-- The cycles that the beats left of an ended cycle form (R106): one new cycle where their line was planned as a burst,
else a cycle each. -/
def regroup (lineBurst : Bool) (beats : List Beat) : List BusCycle :=
  if beats.isEmpty then [] else if lineBurst then [{ lineBurst := true, beats := beats }] else beats.map singleCycle

/-! ### Values of locked operations (R45, R104) -/

/-- A value from its bytes, most significant first. -/
def valueOf (bytes : List Byte) : Nat := bytes.foldl (fun acc b => acc * 256 + b.toNat) 0

/-- The `n` bytes of a value modulo 2^(8 n), most significant first. -/
def bytesOf (n value : Nat) : List Byte := (List.range n).map (fun k => BitVec.ofNat 8 (value / 256 ^ (n - 1 - k)))

/-- Where in the entry's block byte `k` of the old value lies, clear of the operand values, which take at most 8 bytes
(R77 gives the block and not the place; log 7). -/
def oldPlace (k : Nat) : Nat := 16 + k

/-- The first operand value of a locked request: the new value, the addend or the compare value (R46). -/
def State.firstOperand (s : State) (e : Entry) : List Byte := s.txBytes e 0 e.total

/-- The value to write (R104), from the old value. -/
def State.valueToWrite (s : State) (e : Entry) (old : List Byte) : List Byte :=
  match e.op with
  | .add => bytesOf e.total ((valueOf old + valueOf (s.firstOperand e)) % 2 ^ (8 * e.total))
  | .cswap => s.txBytes e e.total e.total
  | .swap | .read | .write | .writeQuiet => s.firstOperand e

end Sys2Proof.Machine
end

