-- ==== Sys2Proof/Machine/Flags.lean ====
section
/-! DEFINITION. The Report Unit's recording (spec/09): the four banks with their flags, the notices that a filling raises
(spec/08, section 8.6), the activity counters and the Last Transaction Record. -/

namespace Sys2Proof.Machine

/-- A report with the optional fields its kind carries (R177); the maker gives them. Its cycle number is the Ring Port's
last cycle number at the event, which is also the number of the slot's cycle and of the mark. -/
structure Report where
  kind : ReportKind
  index : Option Byte := none
  node : Option Byte := none
  tag : Option Byte := none
  addr : Option Word := none
  deriving DecidableEq, Repr

/-- The bank of a name. -/
def Reports.bank (r : Reports) : BankName → Bank
  | .ring => r.ring
  | .slot => r.slot
  | .bus => r.bus
  | .mgmt => r.mgmt

/-- The bank of a name replaced. -/
def Reports.setBank (r : Reports) (b : BankName) (x : Bank) : Reports :=
  match b with
  | .ring => { r with ring := x }
  | .slot => { r with slot := x }
  | .bus => { r with bus := x }
  | .mgmt => { r with mgmt := x }

/-- A count of 16 bits that saturates (R173). -/
def saturate (n : Nat) : Nat := min (n + 1) 65535

/-- The record that a report fills (R175). -/
def Report.toRecord (r : Report) (cycle : Half) (noticeLost : Bool) : BankRecord :=
  { kind := r.kind, cycle := cycle, index := r.index, node := r.node, tag := r.tag, addr := r.addr, overflow := false,
    later := 0, noticeLost := noticeLost }

/-- The notice of a filling, for the manager (R171). R171 does not give parameter bytes 4 to 7: the model sends 0 there (DESIGN
CHOICE, unsafe, log 23). -/
def noticeRecord (manager tag : Byte) (kind : ReportKind) (cycle : Half) : MgmtReply :=
  { dest := manager, tag := tag, op := noticeCode, status := MgmtStatus.ok.code,
    param := [kind.bank.code, kind.code] ++ halfBytes cycle ++ [0, 0, 0, 0], args := [] }

/-- The Management Unit with a notice queued: the record at the end of the queue, the notice sequence advanced (R171). -/
def Mgmt.pushNotice (m : Mgmt) (manager : Byte) (kind : ReportKind) (cycle : Half) : Mgmt :=
  { m with queue := m.queue ++ [noticeRecord manager m.noticeSeq kind cycle], noticeSeq := m.noticeSeq + 1 }

/-- The notice of a filling (R171, R179): the Management Unit after it, and whether the notice was lost. -/
def Mgmt.notice (m : Mgmt) (kind : ReportKind) (cycle : Half) : Mgmt × Bool :=
  match m.params.noticeEnables.of kind.bank, m.manager with
  | true, some manager =>
    if m.queue.length < Config.mgmtReplies then (m.pushNotice manager kind cycle, false) else (m, true)
  | _, _ => (m, false)

/-- The bank with one report more in its event count (R174). -/
def Bank.counted (b : Bank) : Bank := { b with events := saturate b.events }

/-- A valid record with a later report added (R176). -/
def BankRecord.added (r : BankRecord) : BankRecord := { r with overflow := true, later := saturate r.later }

/-- A report (R174 to R176, R179): counted always, then recorded where the bank is enabled. -/
def report (r : Report) (s : State) : State :=
  let name := r.kind.bank
  let bank := (s.reports.bank name).counted
  if s.mgmt.params.bankEnables.of name then
    match bank.record with
    | none =>
      let n := s.mgmt.notice r.kind s.ring.lastCycle
      (s.withMgmt n.1).withReports
        (s.reports.setBank name { bank with record := some (r.toRecord s.ring.lastCycle n.2) })
    | some rec => s.withReports (s.reports.setBank name { bank with record := some rec.added })
  else s.withReports (s.reports.setBank name bank)

/-- The activity counters mapped by `f` (R182). -/
def State.modCounters (s : State) (f : Counters → Counters) : State :=
  s.withReports { s.reports with counters := f s.reports.counters }

/-- One more segment taken (R48). -/
def countTaken (s : State) : State := s.modCounters (fun c => { c with segmentsTaken := c.segmentsTaken + 1 })

/-- One more segment given (R142). -/
def countGiven (s : State) : State := s.modCounters (fun c => { c with segmentsGiven := c.segmentsGiven + 1 })

/-- One more cycle in SYNC (R15). -/
def countCycle (s : State) : State := s.modCounters (fun c => { c with cyclesInSync := c.cyclesInSync + 1 })

/-- One more transaction executed (R73). -/
def countExecuted (s : State) : State := s.modCounters (fun c => { c with executed := c.executed + 1 })

/-- One more beat taken (R115). -/
def countBeat (s : State) : State := s.modCounters (fun c => { c with beats := c.beats + 1 })

/-- The tick counters at a tick, by the engine state (R127). -/
def countTick (s : State) : State :=
  match s.bus.engine with
  | .idle => s
  | .cycle | .locked => s.modCounters (fun c => { c with busyTicks := c.busyTicks + 1 })
  | .yielded => s.modCounters (fun c => { c with holdTicks := c.holdTicks + 1 })

end Sys2Proof.Machine
end

