-- ==== Sys2Proof/Machine/Supervision.lean ====
section
/-! DEFINITION. What the timebase supervises (spec/01, sections 1.7 and 1.8; spec/06, R125, R126): the cycle limit, the hold
limit, captures and the measured period, and the tick. -/

namespace Sys2Proof.Machine

/-- The span from a captured value to the present one, modulo 2^32 (R16). -/
def spanFrom (captured present : Word) : Nat := (present - captured).toNat

/-- The effective cycle limit (R19): the configured one, or twice the measured period when that is 0, if there is one. -/
def State.effectiveLimit (s : State) : Option Nat :=
  if s.mgmt.params.cycleLimit ≠ 0 then some s.mgmt.params.cycleLimit else s.ring.period.map (fun p => 2 * p.toNat)

/-- Whether the cycle limit has expired (R19). Supervision applies in SYNC, with a capture and an effective limit. -/
def State.cycleLimitExpired (s : State) : Bool :=
  match s.ring.state, s.ring.captured, s.effectiveLimit with
  | .sync, some c, some limit => decide (limit ≤ spanFrom c s.ring.timebase)
  | _, _, _ => false

/-- Entry to HUNT from SYNC: the blind count 0 and no capture (R14, R17, R19). -/
def RingPort.toHunt (r : RingPort) : RingPort := { r with state := .hunt, blind := false, captured := none }

/-- Expiry of the cycle limit (R19). -/
def cycleLost (s : State) : State := report { kind := .cycleLost } (s.withRing s.ring.toHunt)

/-- Whether the hold limit is exceeded and not yet reported for the present grant (R125). -/
def State.holdLimitExceeded (s : State) : Bool :=
  match s.bus.engine, s.bus.grantTime with
  | .yielded, some g =>
    decide (s.mgmt.params.holdLimit ≠ 0) && !s.bus.holdLong
      && decide (s.mgmt.params.holdLimit < spanFrom g s.ring.timebase)
  | _, _ => false

/-- The report of a long hold; the grant goes on (R125). -/
def holdLong (s : State) : State := report { kind := .holdLong } (s.withBus { s.bus with holdLong := true })

/-- Expiries that the present timebase value and limits call for, at a tick (R19, R125) or at a CONFIGURE (R19, R126).
They are reports of two blocks at one moment. -/
def expireLimits (s : State) : State :=
  inSomeOrder ((if s.cycleLimitExpired then [cycleLost] else []) ++ (if s.holdLimitExceeded then [holdLong] else [])) s

/-- The advance of the counter, with the divider back at zero (R16), and the tick counters (R127). -/
def advanceTimebase (s : State) : State :=
  countTick (s.withRing { s.ring with timebase := s.ring.timebase + 1, divider := 0 })

/-- One tick: the timebase, the tick counters, then the limits that the new value reaches. -/
def tick (s : State) : State := expireLimits (advanceTimebase s)

/-- A prescaler change seen by the Ring Port (R18): the divider at zero, no capture and no period. -/
def RingPort.prescalerChanged (r : RingPort) : RingPort := { r with divider := 0, captured := none, period := none }

/-- A prescaler change seen by the Bus Engine (R126): a grant in force is measured from now. -/
def Bus.prescalerChanged (b : Bus) (now : Word) : Bus := { b with grantTime := b.grantTime.map (fun _ => now) }

/-- The measurement at a cycle mark (R17): made only where a capture was present; a span of 0 makes the period absent. -/
def RingPort.measured (r : RingPort) : Option Word :=
  match r.captured with
  | none => r.period
  | some c => if r.timebase - c = 0 then none else some (r.timebase - c)

/-- A cycle mark that measures and captures (R17). -/
def RingPort.measureAndCapture (r : RingPort) : RingPort :=
  { r with period := r.measured, captured := some r.timebase }

/-- A cycle mark that captures only (R17). -/
def RingPort.capture (r : RingPort) : RingPort := { r with captured := some r.timebase }

end Sys2Proof.Machine
end

