-- ==== Sys2Proof/Machine/Ops.lean ====
section
/-! DEFINITION. The operations that several blocks share: the lifecycle of an entry (spec/04), the end of an execution
(R73), claims from outside (R81), the decision of the Bus Engine in IDLE and the start of a cycle (R111), the end of a drain
(R191) and the soft reset (R196). -/

namespace Sys2Proof.Machine

/-! ### Leaving a state of the table -/

/-- An entry becomes FREE (R75): its blocks are free, it leaves the allocation order, the Request Queue and the Reply
Queue, and its source node and tag name nothing. -/
def freeEntry (i : Nat) (s : State) : State :=
  (s.withTable { s.table with
      entries := s.table.entries.set i Entry.initial
      order := s.table.order.filter (fun j => decide (j ≠ i))
      requests := s.table.requests.filter (fun j => decide (j ≠ i)) }).withReplyQueue
    (s.replyQueue.filter (fun m => decide (m ≠ .entry i)))

/-- The window's in-use count is decremented (R79). -/
def releaseWindow (i : Nat) (s : State) : State :=
  s.modWindow (s.entry i).window (fun w => { w with inUse := w.inUse - 1 })

/-- An entry joins the Reply Queue at its end (R133). -/
def joinReplyQueue (m : Member) (s : State) : State := s.withReplyQueue (s.replyQueue ++ [m])

/-- An entry in ASSEMBLING or QUEUED ends without execution and becomes FREE (R83, R86, R87). -/
def dropEntry (i : Nat) (s : State) : State := freeEntry i (releaseWindow i s)

/-- An entry in ASSEMBLING or QUEUED ends without execution and is answered (R65, R66, R83): REPLYING with done 0, its
window released, out of the Request Queue, at the end of the Reply Queue. -/
def answerUnexecuted (i : Nat) (status : Status) (s : State) : State :=
  let t := releaseWindow i s
  joinReplyQueue (.entry i)
    (t.withTable { t.table with
      entries := t.table.entries.modify i (fun e =>
        { e with state := .replying, final := some status, done := 0, deadline := 0 })
      requests := t.table.requests.filter (fun j => decide (j ≠ i)) })

/-! ### The end of an execution (R73) -/

/-- Whether a bus cycle or a locked sequence is in progress. -/
def Bus.busy (b : Bus) : Bool := decide (b.engine = .cycle) || decide (b.engine = .locked)

/-- The Bus Engine with no transaction in execution: no plan, no beat, lock off; IDLE, or YIELDED as it was. A cycle or
sequence in progress ends, and the next is separated from it (R113). -/
def Bus.cleared (b : Bus) : Bus :=
  { Bus.initial with
    engine := match b.engine with
      | .yielded => .yielded
      | .idle | .cycle | .locked => .idle
    grant := b.grant, grantTime := b.grantTime, holdLong := b.holdLong, separating := b.separating || b.busy }

/-- Done at the end of an execution (R77): for a locked operation the total length when the old value is present. -/
def Entry.finalDone (e : Entry) : Nat :=
  if e.op.locked then (if e.old.isSome then e.total else 0) else e.done

/-- The status an execution ends with: ABORTED where the abort mark is set (R81). -/
def Entry.finalStatus (e : Entry) (status : Status) : Status := if e.mark = .none then status else .aborted

/-- The Last Transaction Record of an execution's end (R184). -/
def Entry.lastTx (e : Entry) (status : Status) (cycle : Half) : LastTx :=
  { source := e.source, tag := e.tag, op := e.op, final := e.finalStatus status, addr := e.addr, done := e.finalDone,
    cycle := cycle }

/-- The reports of an end of execution: ABORTED-IN-FLIGHT where the mark is set (R128), QUIET-FAILURE where a WRITE-QUIET
fails (R148). -/
def reportEnd (e : Entry) (status : Status) (s : State) : State :=
  if e.mark ≠ .none then
    report { kind := .abortedInFlight, node := some e.source, tag := some e.tag, addr := some e.addr } s
  else if e.op = .writeQuiet ∧ (status = .busError ∨ status = .busTimeout) then
    report { kind := .quietFailure, node := some e.source, tag := some e.tag, addr := some e.addr } s
  else s

/-- Where an executed entry goes on to (R73): FREE with the mark quiet or as a WRITE-QUIET, else REPLYING; a READ keeps its
place in the Reply Queue. -/
def leaveExecuting (i : Nat) (e : Entry) (status : Status) (s : State) : State :=
  if e.mark = .quiet ∨ e.op = .writeQuiet then freeEntry i s
  else
    let t := s.modEntry i (fun e' =>
      { e' with state := .replying, final := some (e.finalStatus status), done := e.finalDone, deadline := 0 })
    if e.op = .read then t else joinReplyQueue (.entry i) t

/-- The end of the execution of entry `i` with a status (R73, R119, R128). -/
def endExecution (i : Nat) (status : Status) (s : State) : State :=
  let e := s.entry i
  let t := countExecuted (releaseWindow i (s.withBus s.bus.cleared))
  let t := t.withReports { t.reports with lastTx := some (e.lastTx status s.ring.lastCycle) }
  leaveExecuting i e status (reportEnd e status t)

/-! ### The start of a cycle -/

/-- The Bus Engine with the first planned cycle started (R111 step 2, R113, R120): its first beat is presented with wait
count 0; CYCLE, or LOCKED with the lock indication on for a locked operation. With nothing planned nothing starts. -/
def Bus.started (bus : Bus) (locked : Bool) : Bus :=
  match bus.plan with
  | [] => bus
  | c :: cycles =>
    match c.beats with
    | [] => bus
    | b :: bs =>
      { bus with
        engine := if locked then .locked else .cycle
        plan := cycles, current := some b, rest := bs, lineBurst := c.lineBurst
        burst := c.lineBurst && decide (2 ≤ c.beats.length), waitCount := 0, lock := locked }

/-- The first planned cycle of the EXECUTING entry starts. -/
def startCycle (s : State) : State :=
  match s.executing with
  | none => s
  | some i => s.withBus (s.bus.started (s.entry i).op.locked)

/-- Whether the EXECUTING entry `i` is a locked operation whose sequence starts next: it was handed over before the
separating clock (R80, R113), and the Bus Engine is still IDLE before that clock (log 2). -/
def State.sequenceDue (s : State) (i : Nat) : Bool := decide (s.bus.engine = .idle) && (s.entry i).op.locked

/-- The locked sequence that is due starts, the separating clock before it having passed (R111, R113). -/
def startDueSequence (s : State) : State := startCycle (s.withBus { s.bus with separating := false })

/-! ### Claims from outside -/

/-- The abort mark after a further claim (R81): quiet stays quiet. -/
def AbortMark.claim (old : AbortMark) (quiet : Bool) : AbortMark :=
  if quiet then .quiet else match old with
    | .quiet => .quiet
    | .none | .reply => .reply

/-- The abort mark of the EXECUTING entry `i` is set by a claim (R81). A locked sequence that is due in IDLE starts first: the
claim and its start fall at one moment, and the start is taken first, as R128 allows, so that the operation runs its whole
sequence (R77; log 2). While the bus is lent nothing starts (R124, R125). -/
def setMark (quiet : Bool) (i : Nat) (s : State) : State :=
  (if s.sequenceDue i then startDueSequence s else s).modEntry i (fun e => { e with mark := e.mark.claim quiet })

/-- A claim on the EXECUTING entry (R81, R128): the mark is set, and where no cycle or sequence is in progress the
execution ends at once. -/
def claimExecuting (quiet : Bool) (i : Nat) (s : State) : State :=
  let t := setMark quiet i s
  if t.bus.busy then t else endExecution i .aborted t

/-- An ABORT that matches entry `i` (R83, R84; the table of spec/04, section 4.5). -/
def abortEntry (quiet : Bool) (s : State) (i : Nat) : State :=
  match (s.entry i).state with
  | .free => s
  | .assembling | .queued => if quiet then dropEntry i s else answerUnexecuted i .aborted s
  | .executing => claimExecuting quiet i s
  | .replying => freeEntry i s

/-- Entries claimed one after another, in the order given. -/
def abortEntries (quiet : Bool) (is : List Nat) (s : State) : State := is.foldl (abortEntry quiet) s

/-- Whether entry `i` is EXECUTING. -/
def State.isExecuting (s : State) (i : Nat) : Bool := decide ((s.entry i).state = .executing)

/-- How many entries in ASSEMBLING or QUEUED refer to window `w`. -/
def State.waitingIn (s : State) (w : Nat) : Nat :=
  (s.table.entries.filter (fun e => (decide (e.state = .assembling) || decide (e.state = .queued)) && decide (e.window = w))).length

/-- Every entry but the EXECUTING one becomes FREE (R86, R87): ASSEMBLING and QUEUED entries release their windows. -/
def freeAllButExecuting (s : State) : State :=
  ((s.withTable { s.table with
      entries := s.table.entries.map (fun e => if e.state = .executing then e else Entry.initial)
      order := s.table.order.filter s.isExecuting
      requests := [] }).withWindows
    (s.windows.mapIdx (fun i w => { w with inUse := w.inUse - s.waitingIn i }))).withReplyQueue
    (s.replyQueue.filter (fun m =>
      match m with
      | .desc _ => true
      | .entry i => s.isExecuting i))

/-- Every pending short-reply descriptor becomes free and leaves the Reply Queue (R61). -/
def freeAllDescriptors (s : State) : State :=
  (s.withDescriptors descriptorsInitial).withReplyQueue (s.replyQueue.filter (fun m =>
    match m with
    | .desc _ => false
    | .entry _ => true))

/-! ### The end of a drain (R191) -/

/-- The drain completion condition, in the form the flush indication selects. -/
def State.drained (s : State) : Bool :=
  s.openEntries.isEmpty && (s.bridge.flush || s.pendingDescriptors.isEmpty)

/-- Bridge Control judges the condition while the bridge is DRAINING. -/
def judgeDrain (s : State) : State :=
  if s.bridge.state = .draining ∧ s.drained = true then
    s.withBridge { s.bridge with state := .stopped, flush := false }
  else s

/-! ### The soft reset (R196) -/

/-- The Ring Port's soft-reset values (R21). -/
def RingPort.softReset (r : RingPort) (changed : Bool) : RingPort :=
  if changed then r.prescalerChanged else { r with divider := 0 }

/-- The Bus Engine's soft-reset values (R131): a grant in force is kept, and so is the separation from a cycle that has just
ended (R113). -/
def Bus.softReset (b : Bus) (changed : Bool) (now : Word) : Bus :=
  match b.engine with
  | .yielded => if changed then b.cleared.prescalerChanged now else b.cleared
  | .idle | .cycle | .locked => { Bus.initial with separating := b.separating }

/-- Every block takes its soft-reset values, and the soft-reset count advances (R196, steps 1, 2 and 4). -/
def softResetValues (s : State) : State :=
  let changed := decide (s.mgmt.params.prescaler ≠ .p8)
  { s with
    ring := s.ring.softReset changed
    prevIndex := none
    sched := Schedule.initial
    descriptors := descriptorsInitial
    table := { Table.initial with pool := s.table.pool }
    windows := windowsInitial
    bus := s.bus.softReset changed s.ring.timebase
    replyQueue := []
    mgmt := { s.mgmt with params := Params.initial, queue := [], noticeSeq := 0 }
    reports := { s.reports with counters := Counters.initial, lastTx := none }
    bridge := { state := .stopped, flush := false, softReset := none, resetCount := s.bridge.resetCount + 1 } }

/-- The soft reset takes effect (R196): the values, MGMT SOFT-RESET with the held source and tag, and the cycle limit
judged afresh where the reset changed it (R19). -/
def softResetEffect (source tag : Byte) (s : State) : State :=
  let t := report { kind := .softReset, node := some source, tag := some tag } (softResetValues s)
  if t.cycleLimitExpired then cycleLost t else t

/-- A pending soft reset takes effect once no entry is EXECUTING (R88, R195). -/
def softResetIfDue (s : State) : State :=
  match s.bridge.softReset with
  | none => s
  | some (source, tag) => if s.executing.isNone then softResetEffect source tag s else s

/-! ### The decision of the Bus Engine in IDLE (R111) -/

/-- The bus is granted to the local agent (R122). The grant separates the cycles before and after it (log 2). -/
def grantHold (s : State) : State :=
  s.withBus { s.bus with
    engine := .yielded, grant := true, grantTime := some s.ring.timebase, holdLong := false, separating := false }

/-- Handover of entry `i` (R72, R80, R98): out of the Request Queue, EXECUTING, planned at its window's port width; a READ
joins the Reply Queue. -/
def handOver (i : Nat) (s : State) : State :=
  let e := s.entry i
  let w := s.window e.window
  let t := s.withTable { s.table with
    entries := s.table.entries.modify i (fun e => { e with state := .executing, done := 0 })
    requests := s.table.requests.filter (fun j => decide (j ≠ i)) }
  let t := t.withBus { t.bus with plan := planFor e w w.width, width := w.width }
  if e.op = .read then joinReplyQueue (.entry i) t else t

/-- The first planned cycle is started, unless the separating clock before it is still to come (R113). -/
def startSeparated (s : State) : State := if s.bus.separating then s else startCycle s

/-- R111, in IDLE, the first that applies: a hold request is granted (R121, R122); the next cycle of the EXECUTING entry starts; where no
soft reset is pending, the head of the Request Queue is handed over (R80) and its first cycle starts. Where the separating
clock is still to come, the entry is EXECUTING and its cycle or locked sequence starts at that clock (R113, log 2). -/
def arbitrate (s : State) : State :=
  if s.bus.engine ≠ .idle then s
  else if s.pins.holdRequest then grantHold s
  else if s.executing.isSome then startSeparated s
  else if s.bridge.softReset.isSome then s
  else match s.table.requests with
    | [] => s
    | i :: _ => startSeparated (handOver i s)

/-- A tributary clock in IDLE: it separates the cycles before and after it, and R111 decides at it (R113). -/
def separatingClock (s : State) : State :=
  if s.bus.engine = .idle then arbitrate (s.withBus { s.bus with separating := false }) else s

/-- What follows an event that may have freed an entry or ended a cycle: the drain is judged (R191), a soft reset that waited
takes effect (R196), and the Bus Engine decides (R111). -/
def settle (s : State) : State := arbitrate (softResetIfDue (judgeDrain s))

/-- A command while the reset pin is asserted has no effect: every block stays at its pin-reset values (R197). -/
def unlessPinReset (f : State → State) (s : State) : State := if s.pins.reset then s else f s

end Sys2Proof.Machine
end

