-- ==== Sys2Proof/Machine/BusEngine.lean ====
section
/-! DEFINITION. The Bus Engine (spec/06): cycles and beats, the answers of the target, locked sequences, the hold, the
tributary outputs, and the meanings of the bus commands. -/

namespace Sys2Proof.Machine

/-! ### Between the cycles of a locked sequence -/

/-- The separating clock between two cycles of a locked sequence has passed: the next cycle starts, still LOCKED with the
lock indication on (R120). -/
def lockedNextCycle (s : State) : State :=
  if s.bus.engine = .locked ∧ s.bus.current = none then startCycle s else s

/-! ### Taking a beat (R105, R107, R115) -/

/-- The data of a lane. -/
def LaneData.lane (d : LaneData) : Nat → Byte
  | 0 => d.lane0
  | 1 => d.lane1
  | 2 => d.lane2
  | _ => d.lane3

/-- Where in the entry's blocks the byte read at transaction position `k` goes (R77, R107). -/
def Entry.readPlace (e : Entry) (k : Nat) : Nat := if e.op.locked then oldPlace k else k

/-- The transaction positions that the given lanes of a beat complete: its needed bytes among them (R107). -/
def Beat.positions (b : Beat) (e : Entry) (lanes : List Nat) : List Nat :=
  (lanes.filter (fun l => e.needs (b.word + l))).map (fun l => b.word + l - e.addr.toNat)

/-- The data of the taken needed bytes of a read beat placed in the entry's blocks; other bytes are discarded (R107). -/
def placeRead (e : Entry) (b : Beat) (lanes : List Nat) (data : LaneData) (s : State) : State :=
  if b.write then s
  else
    s.withPool ((lanes.filter (fun l => e.needs (b.word + l))).foldl
      (fun pool l => poolWrite pool (e.poolAddr (e.readPlace (b.word + l - e.addr.toNat))) (LaneData.lane data l))
      s.table.pool)

/-- Done after a beat completes the given positions, ascending: the contiguous prefix grows (R107). -/
def extendDone (done : Nat) (positions : List Nat) : Nat :=
  positions.foldl (fun d k => if k = d then d + 1 else d) done

/-- Done written into the entry at the taking of a beat (R109); a locked operation's stays 0 while its sequence runs
(R77). -/
def advanceDone (i : Nat) (positions : List Nat) (s : State) : State :=
  s.modEntry i (fun e => if e.op.locked then e else { e with done := extendDone e.done positions })

/-- The beats left of the cycle in progress after a beat is taken at an accepted width (R106). -/
def Bus.beatsLeft (bus : Bus) (b : Beat) (accepted : Width) : List Beat :=
  if accepted.bytes < b.width.bytes then b.reissue accepted ++ bus.rest.flatMap (fun x => x.split accepted)
  else bus.rest

/-- The Bus Engine after a beat is taken (R105, R106, R115): a narrowing lowers the width and rebuilds what is left. The
cycle goes on after BURST-READY on a beat not marked last; otherwise it ends, and its beats left are grouped again. -/
def Bus.afterBeat (bus : Bus) (b : Beat) (answer : Answer) (accepted : Width) : Bus :=
  let narrowed := decide (accepted.bytes < b.width.bytes)
  let left := bus.beatsLeft b accepted
  let later := if narrowed then replanCycles accepted bus.plan else bus.plan
  let width := if narrowed then accepted else bus.width
  match answer, bus.rest, left with
  | .burstReady, _ :: _, next :: others =>
    { bus with current := some next, rest := others, plan := later, width := width, waitCount := 0 }
  | _, _, _ =>
    { bus with current := none, rest := [], plan := regroup bus.lineBurst left ++ later, width := width, waitCount := 0,
               lineBurst := false, burst := false }

/-- The old value held in the entry (R77, R104). -/
def holdOld (i : Nat) (old : List Byte) (s : State) : State := s.modEntry i (fun e => { e with old := some old })

/-- The write part of a locked sequence built at the current width (R103, R104). -/
def buildWritePart (i : Nat) (s : State) : State :=
  s.withBus { s.bus with plan := lockedPart (s.entry i) s.bus.width true }

/-- The end of a part of a locked sequence (R104, R119, R120): after the read part the old value is held and the write
part is built, unless a comparison failed; after the write part the execution ends. -/
def endLockedPart (i : Nat) (s : State) : State :=
  let e := s.entry i
  match e.old with
  | some _ => settle (endExecution i .done s)
  | none =>
    let old := s.txBytes e (oldPlace 0) e.total
    let t := holdOld i old s
    if e.op = .cswap ∧ old ≠ s.firstOperand e then settle (endExecution i .unchanged t)
    else buildWritePart i t

/-- The return to IDLE between two cycles of a transaction, for the separating clock (R113, R115). -/
def toIdle (s : State) : State := s.withBus { s.bus with engine := .idle, separating := true }

/-- The end of a cycle whose last beat was taken (R115, R119, R128): in CYCLE the execution ends where the abort mark is
set or the plan is empty, else the Bus Engine is IDLE for the separating clock, in which a hold request is granted; a locked
sequence goes on to its next cycle or ends its part. -/
def endCycle (i : Nat) (s : State) : State :=
  match s.bus.engine with
  | .locked => if s.bus.plan.isEmpty then endLockedPart i s else s
  | .cycle =>
    if (s.entry i).mark ≠ .none then settle (endExecution i .aborted s)
    else if s.bus.plan.isEmpty then settle (endExecution i .done s)
    else settle (toIdle s)
  | .idle | .yielded => s

/-- The taking of a beat answered READY or BURST-READY with an accepted width (R105, R107, R115): its data, done and the
plan. -/
def takenBeat (i : Nat) (b : Beat) (answer : Answer) (accepted : Width) (data : LaneData) (s : State) : State :=
  let e := s.entry i
  let lanes := b.takenLanes accepted
  let t := advanceDone i (b.positions e lanes) (placeRead e b lanes data (countBeat s))
  t.withBus (t.bus.afterBeat b answer accepted)

/-- A beat taken, and the end of its cycle where the cycle does not go on (R115). -/
def takeBeat (i : Nat) (b : Beat) (answer : Answer) (accepted : Width) (data : LaneData) (s : State) : State :=
  let t := takenBeat i b answer accepted data s
  if t.bus.current.isNone then endCycle i t else t

/-- A beat that fails (R108, R116, R117): none of its bytes is completed, the failure is reported with the unit address,
and the execution ends. -/
def failBeat (kind : ReportKind) (status : Status) (i : Nat) (b : Beat) (s : State) : State :=
  let e := s.entry i
  settle (endExecution i status
    (report { kind := kind, node := some e.source, tag := some e.tag, addr := some (BitVec.ofNat 32 b.addr) } s))

/-- A beat answered ERROR (R117). -/
def beatError (i : Nat) (b : Beat) (s : State) : State := failBeat .busError .busError i b s

/-- A beat abandoned for want of an answer (R116). -/
def beatTimeout (i : Nat) (b : Beat) (s : State) : State := failBeat .busTimeout .busTimeout i b s

/-- The wait budget of the executing transaction's window (R114). -/
def State.budgetOf (s : State) (i : Nat) : Nat := (s.window (s.entry i).window).budget.toNat

/-- An answer to the beat on the bus after `waits` further samples of WAIT (R114). In any other engine state, and between
the cycles of a locked sequence, no answer is sampled (R112). Where the budget runs out before the answer, the beat is
abandoned. -/
def answerBeat (waits : Nat) (act : Nat → Beat → State → State) (s : State) : State :=
  if s.bus.busy then
    match s.bus.current, s.executing with
    | some b, some i =>
      if s.budgetOf i ≤ s.bus.waitCount + waits then beatTimeout i b s else act i b s
    | _, _ => s
  else s

/-! ### The hold (R121 to R123) -/

/-- The hold request is asserted; in IDLE it is granted at once. -/
def holdRequest (s : State) : State := arbitrate (s.withPins { s.pins with holdRequest := true })

/-- The end of a grant: the Bus Engine returns to IDLE (R123). -/
def endGrant (s : State) : State := s.withBus { s.bus with engine := .idle, grant := false, grantTime := none }

/-- The hold request is removed; a grant in force ends, and from IDLE R111 decides. -/
def holdRelease (s : State) : State :=
  let t := s.withPins { s.pins with holdRequest := false }
  match t.bus.engine with
  | .yielded => arbitrate (endGrant t)
  | .idle | .cycle | .locked => t

/-! ### The tributary outputs (R112, R113) -/

/-- What the part drives on the tributary lines. -/
structure BusOut where
  /-- the address, data, lane enable, direction, width, cycle start, burst, last-beat and lock outputs are released -/
  released : Bool
  cycleStart : Bool
  lock : Bool
  grant : Bool
  burst : Bool
  last : Bool
  beat : Option Beat
  /-- for a write beat, the data of each enabled lane -/
  data : List (Nat × Byte)
  deriving DecidableEq, Repr

/-- The byte that a write beat carries for transaction position `k` (R101, R104). -/
def State.writeByte (s : State) (e : Entry) (k : Nat) : Byte :=
  match e.op.locked, e.old with
  | true, some old => byteAt (s.valueToWrite e old) k
  | _, _ => s.txByte e k

/-- The data of a write beat's enabled lanes. -/
def State.writeData (s : State) (i : Nat) (b : Beat) : List (Nat × Byte) :=
  if b.write then
    b.lanes.map (fun l => (l, s.writeByte (s.entry i) (b.word + l - (s.entry i).addr.toNat)))
  else []

/-- The tributary outputs in a state. -/
def busOut (s : State) : BusOut :=
  match s.bus.engine, s.bus.current, s.executing with
  | .yielded, _, _ =>
    { released := true, cycleStart := false, lock := false, grant := s.bus.grant, burst := false, last := false,
      beat := none, data := [] }
  | .cycle, some b, some i | .locked, some b, some i =>
    { released := false, cycleStart := true, lock := s.bus.lock, grant := s.bus.grant, burst := s.bus.burst,
      last := s.bus.rest.isEmpty, beat := some b, data := s.writeData i b }
  | _, _, _ =>
    { released := false, cycleStart := false, lock := s.bus.lock, grant := s.bus.grant, burst := false, last := false,
      beat := none, data := [] }

/-! ### The meanings of the bus commands -/

/-- BUS_CYCLE_START (R111): the separating clock has passed, and the Bus Engine decides in IDLE (log 2). -/
def execBusCycleStart (s : State) : Host.Outcome State Fault Refusal := .next (unlessPinReset separatingClock s)

/-- BEAT_TAKEN (R115): the beat is answered after `waits` samples of WAIT. -/
def execBeatTaken (waits : Nat) (answer : Answer) (width : Width) (data : LaneData) (s : State) :
    Host.Outcome State Fault Refusal :=
  .next (unlessPinReset (answerBeat waits (fun i b => takeBeat i b answer width data)) s)

/-- BUS_ERROR (R117). -/
def execBusError (waits : Nat) (s : State) : Host.Outcome State Fault Refusal :=
  .next (unlessPinReset (answerBeat waits beatError) s)

/-- BUS_TIMEOUT (R116): the wait budget runs out on the beat on the bus. -/
def execBusTimeout (s : State) : Host.Outcome State Fault Refusal :=
  .next (unlessPinReset (answerBeat 0 beatTimeout) s)

/-- HOLD_REQUEST (R121). While the reset pin is asserted only the input's level changes (R132, R197). -/
def execHoldRequest (s : State) : Host.Outcome State Fault Refusal :=
  .next (if s.pins.reset then s.withPins { s.pins with holdRequest := true } else holdRequest s)

/-- HOLD_RELEASE (R123). While the reset pin is asserted only the input's level changes (R132, R197). -/
def execHoldRelease (s : State) : Host.Outcome State Fault Refusal :=
  .next (if s.pins.reset then s.withPins { s.pins with holdRequest := false } else holdRelease s)

/-- HOLD_LONG (R125): reported where the limit is exceeded and it has not been reported for this grant. -/
def execHoldLong (s : State) : Host.Outcome State Fault Refusal :=
  .next (unlessPinReset (fun s => if s.holdLimitExceeded then holdLong s else s) s)

/-- LOCKED_SEQUENCE_NEXT_CYCLE (R120). -/
def execLockedSequenceNextCycle (s : State) : Host.Outcome State Fault Refusal :=
  .next (unlessPinReset lockedNextCycle s)

end Sys2Proof.Machine
end

