-- ==== Sys2Proof/Machine/Clock.lean ====
section
/-! DEFINITION. One tributary clock (spec/00_scope.md, "Time"): what a step does while no command waits (log 3). -/

namespace Sys2Proof.Machine

/-- The divider counts one tributary clock; at the prescaler it starts again and the counter ticks (R16). -/
def clockTimebase (s : State) : State :=
  if s.mgmt.params.prescaler.clocks ≤ s.ring.divider + 1 then tick s
  else s.withRing { s.ring with divider := s.ring.divider + 1 }

/-- The beat on the bus is sampled WAIT (R114): the wait count grows, and at the wait budget the beat is abandoned. -/
def sampleWait (i : Nat) (b : Beat) (s : State) : State :=
  if s.budgetOf i ≤ s.bus.waitCount + 1 then beatTimeout i b s
  else s.withBus { s.bus with waitCount := s.bus.waitCount + 1 }

/-- The tributary bus at a clock with no answer: a beat on the bus waits, a separating clock passes (R113, R120). -/
def clockBus (s : State) : State :=
  match s.bus.engine, s.bus.current, s.executing with
  | .cycle, some b, some i | .locked, some b, some i => sampleWait i b s
  | .locked, none, _ => lockedNextCycle s
  | .idle, _, _ => separatingClock s
  | _, _, _ => s

/-- One tributary clock. While the reset pin is asserted nothing counts (R197). -/
def clock (s : State) : State := unlessPinReset (fun s => clockBus (clockTimebase s)) s

end Sys2Proof.Machine
end

