-- ==== Sys2Proof/Machine/BridgeControl.lean ====
section
/-! DEFINITION. Bridge Control's events from outside management (spec/10): the teardown that follows loss of the line, the
soft reset that waited, the end of a drain, the pin reset, and the line events themselves (R10). -/

namespace Sys2Proof.Machine

/-! ### Line loss and teardown (R10, R193) -/

/-- Entry to DOWN (R10): nothing is being received or sent, the blind count is 0, no capture. -/
def RingPort.toDown (r : RingPort) : RingPort :=
  { r with state := .down, lost := true, blind := false, captured := none, lineOut := .idle }

/-- The rows of R193 that make no report: the entries, the descriptors, the queues, the commit and the bridge. -/
def tearDownBlocks (s : State) : State :=
  let t := ((freeAllButExecuting s).withReplyQueue []).withDescriptors descriptorsInitial
  (t.withSched { t.sched with commit := .none }).withBridge { t.bridge with state := .stopped, flush := false }

/-- The Management Reply Queue is emptied, and then RING LINE-LOSS is recorded (R181, R193). -/
def reportLineLoss (s : State) : State := report { kind := .lineLoss } (s.withMgmt { s.mgmt with queue := [] })

/-- The EXECUTING entry, if there is one, is marked quiet (R87). -/
def markQuiet (s : State) : State :=
  match s.executing with
  | none => s
  | some i => setMark true i s

/-- The teardown (R193). The EXECUTING entry is marked quiet; where no cycle or sequence is in progress its execution ends
at once, and its report and RING LINE-LOSS are those of two blocks at one moment (log 4). -/
def tearDown (s : State) : State :=
  let t := tearDownBlocks (markQuiet s)
  settle (match t.executing with
    | none => reportLineLoss t
    | some i => if t.bus.busy then reportLineLoss t else inSomeOrder [reportLineLoss, endExecution i .aborted] t)

/-- Line loss (R10): in DOWN it has no effect. -/
def lineLoss (s : State) : State :=
  if s.ring.state = .down then s else tearDown (s.withRing s.ring.toDown)

/-- From DOWN to HUNT (R10). -/
def RingPort.restored (r : RingPort) : RingPort :=
  { r with state := .hunt, lost := false, blind := false, captured := none }

/-- Line restore (R10): in any state but DOWN it has no effect. -/
def lineRestore (s : State) : State := if s.ring.state = .down then s.withRing s.ring.restored else s

/-! ### The pin reset (R197) -/

/-- The assertion of the reset pin: every block takes its pin-reset value, with no teardown, no report and no answer. The
level of the hold request is the local agent's, and the commands that wait are the sender's. -/
def pinReset (s : State) : State :=
  { State.reset with pins := { reset := true, holdRequest := s.pins.holdRequest }, choices := s.choices, pending := s.pending }

/-- The release of the reset pin: a hold request that is present is granted at once (R132). -/
def pinResetRelease (s : State) : State :=
  if s.pins.reset then arbitrate (s.withPins { s.pins with reset := false }) else s

/-! ### The meanings -/

/-- LINE_LOSS (R10, R193). -/
def execLineLoss (s : State) : Host.Outcome State Fault Refusal := .next (unlessPinReset lineLoss s)

/-- LINE_RESTORE (R10). -/
def execLineRestore (s : State) : Host.Outcome State Fault Refusal := .next (unlessPinReset lineRestore s)

/-- SOFT_RESET_TAKES_EFFECT (R196): a pending soft reset that waits for nothing more takes effect, and the Bus Engine
decides. -/
def execSoftResetTakesEffect (s : State) : Host.Outcome State Fault Refusal :=
  .next (unlessPinReset (fun s => arbitrate (softResetIfDue s)) s)

/-- DRAIN_COMPLETE (R191): Bridge Control judges the condition. -/
def execDrainComplete (s : State) : Host.Outcome State Fault Refusal := .next (unlessPinReset judgeDrain s)

/-- PIN_RESET (R197). -/
def execPinReset (s : State) : Host.Outcome State Fault Refusal := .next (pinReset s)

/-- PIN_RESET_RELEASE (R197). -/
def execPinResetRelease (s : State) : Host.Outcome State Fault Refusal := .next (pinResetRelease s)

end Sys2Proof.Machine
end

