-- ==== Sys2Proof/Machine/CycleMarks.lean ====
section
/-! DEFINITION. The arrival of a cycle mark (spec/01, sections 1.6 and 1.7) and what the blocks do at a cycle mark in SYNC:
the swap of the schedule banks (spec/02, section 2.4), the gap counts (R66) and the reply deadlines (R146). -/

namespace Sys2Proof.Machine

/-! ### The Schedule Store at a cycle mark in SYNC -/

/-- Whether a pending commit is due at a mark of this number, and if so whether it is late (R39, R40). -/
def CommitState.due (c : CommitState) (number : Half) : Option Bool :=
  match c with
  | .none => Option.none
  | .pendingNext => some false
  | .pendingAt n =>
    let d := (number - n).toNat
    if d = 0 then some false else if d ≤ 32767 then some true else Option.none

/-- The swap of the banks (R41). -/
def Schedule.swapped (c : Schedule) (number : Half) : Schedule :=
  { active := c.shadow, shadow := c.shadow, commit := .none, swapCycle := some number }

/-- The swap takes place at the mark whose number is the last cycle number. -/
def swapBanks (s : State) : State := s.withSched (s.sched.swapped s.ring.lastCycle)

/-- A late swap, with RING COMMIT-LATE (R40). -/
def swapLate (s : State) : State := report { kind := .commitLate } (swapBanks s)

/-! ### The counts of the Transaction Table -/

/-- An entry's counts at a cycle mark in SYNC (R66, R146). -/
def Entry.markCounted (e : Entry) : Entry :=
  match e.state with
  | .assembling => { e with gap := e.gap + 1 }
  | .replying => { e with deadline := e.deadline + 1 }
  | .free | .queued | .executing => e

/-- Every gap count and reply-deadline count advances (R66, R146). -/
def advanceCounts (s : State) : State :=
  s.withTable { s.table with entries := s.table.entries.map Entry.markCounted }

/-- Entry `i` is in ASSEMBLING with a gap count that has reached the limit (R66). -/
def State.gapReached (s : State) (i : Nat) : Bool :=
  decide ((s.entry i).state = .assembling) && decide (s.mgmt.params.gapLimit ≤ (s.entry i).gap)

/-- A report about an entry: its source node as node, its tag and its local address. -/
def Entry.reportOf (e : Entry) (kind : ReportKind) (index : Option Byte) : Report :=
  { kind := kind, index := index, node := some e.source, tag := some e.tag, addr := some e.addr }

/-- One entry ends INCOMPLETE where its gap count has reached the limit (R66). -/
def endIncomplete (s : State) (i : Nat) : State :=
  if s.gapReached i then report ((s.entry i).reportOf .incomplete none) (answerUnexecuted i .incomplete s) else s

/-- Every entry whose gap count has reached the limit ends INCOMPLETE, in allocation order (R66). -/
def expireGaps (s : State) : State := s.table.order.foldl endIncomplete s

/-- Entry `i` is REPLYING with a reply-deadline count that has reached the deadline (R146). -/
def State.deadlineReached (s : State) (i : Nat) : Bool :=
  decide ((s.entry i).state = .replying) && decide (s.mgmt.params.deadline ≤ (s.entry i).deadline)

/-- One reply is abandoned where its deadline is reached (R146). -/
def abandonExpired (s : State) (m : Member) : State :=
  match m with
  | .desc _ => s
  | .entry i =>
    if s.deadlineReached i then report ((s.entry i).reportOf .replyExpired none) (freeEntry i s) else s

/-- Every reply whose deadline is reached is abandoned, in Reply Queue order (R146). -/
def expireReplies (s : State) : State := s.replyQueue.foldl abandonExpired s

/-- Whether the gap limit ends some entry. -/
def State.someGapReached (s : State) : Bool := s.table.order.any s.gapReached

/-- Whether the deadline ends some reply. -/
def State.someDeadlineReached (s : State) : Bool :=
  s.replyQueue.any (fun m =>
    match m with
    | .desc _ => false
    | .entry i => s.deadlineReached i)

/-! ### A cycle mark in SYNC (R15) -/

/-- A swap that is due in time, at a mark in SYNC (R39, R40). -/
def swapInTime (s : State) : State :=
  if s.sched.commit.due s.ring.lastCycle = some false then swapBanks s else s

/-- The acts of a cycle mark in SYNC that report, each of its own block. -/
def markActs (ringReport : List (State → State)) (s : State) : List (State → State) :=
  ringReport ++ (if s.sched.commit.due s.ring.lastCycle = some true then [swapLate] else [])
    ++ (if s.someGapReached then [expireGaps] else [])
    ++ (if s.someDeadlineReached then [expireReplies] else [])

/-- The blocks act at a cycle mark in SYNC. Their state is separate; where two or more of them report, and the Ring Port's
own report of the mark among these, the order is open (R15, R174; log 4). -/
def markInSync (ringReport : List (State → State)) (s : State) : State :=
  let t := swapInTime (countCycle (advanceCounts s))
  settle (inSomeOrder (markActs ringReport t) t)

/-! ### The Ring Port at a cycle mark -/

/-- A valid record outside SYNC makes a new reference: its number, a capture, the state ARMED (R11, R12). -/
def RingPort.armedAt (r : RingPort) (c : CycleInfo) : RingPort :=
  { r.capture with state := .armed, lastCycle := c.number, slotCount := c.slotCount }

/-- A valid record that leaves the Ring Port in SYNC (R12, R13). -/
def RingPort.syncAt (r : RingPort) (c : CycleInfo) : RingPort :=
  { r.measureAndCapture with state := .sync, blind := false, lastCycle := c.number, slotCount := c.slotCount }

/-- The first invalid record of a row in SYNC: the cycle is blind and the number is stood in for (R14). -/
def RingPort.blindMark (r : RingPort) : RingPort :=
  { r.measureAndCapture with blind := true, lastCycle := r.lastCycle + 1 }

/-- The Ring Port judges the record, by its state (R11 to R14). -/
def judgeMark (info : Option CycleInfo) (s : State) : State :=
  match s.ring.state, info with
  | .down, _ => s
  | .hunt, none => s
  | .hunt, some c => s.withRing (s.ring.armedAt c)
  | .armed, none => s
  | .armed, some c =>
    if c.number = s.ring.lastCycle + 1 then markInSync [] (s.withRing (s.ring.syncAt c))
    else s.withRing (s.ring.armedAt c)
  | .sync, some c =>
    markInSync (if c.number = s.ring.lastCycle + 1 then [] else [report { kind := .cycleSkip }])
      (s.withRing (s.ring.syncAt c))
  | .sync, none =>
    if s.ring.blind then report { kind := .cycleRecordFault } (s.withRing s.ring.toHunt)
    else markInSync [report { kind := .cycleRecordFault }] (s.withRing s.ring.blindMark)

/-- The arrival of a cycle mark: the record, with the strays before it, is forwarded unchanged (R9), the previous slot index
becomes none (R24), and the record is judged. In DOWN nothing is received (R8). -/
def cycleMark (record : RawRecord) (s : State) : State :=
  if s.ring.state = .down then s
  else judgeMark (judgeCycle record.bytes) ((s.withRing { s.ring with lineOut := .record record }).withPrevIndex none)

/-! ### What comes about at a cycle mark -/

/-- The cycle number at a mark that leaves the Ring Port in SYNC (R12 to R15); none at any other mark. -/
def RingPort.markNumber (r : RingPort) (info : Option CycleInfo) : Option Half :=
  match r.state, info with
  | .armed, some c => if c.number = r.lastCycle + 1 then some c.number else none
  | .sync, some c => some c.number
  | .sync, none => if r.blind then none else some (r.lastCycle + 1)
  | .down, _ | .hunt, _ | .armed, none => none

/-- A mark in SYNC of this record's at which a pending commit is due (R39, R40). -/
def State.swapsAt (s : State) (record : List Byte) : Bool :=
  match s.ring.markNumber (judgeCycle record) with
  | none => false
  | some number => (s.sched.commit.due number).isSome

/-- A mark in SYNC of this record's at which the gap count of some entry, advanced, reaches the limit (R66). -/
def State.gapExpiresAt (s : State) (record : List Byte) : Bool :=
  (s.ring.markNumber (judgeCycle record)).isSome && (advanceCounts s).someGapReached

/-- A mark in SYNC of this record's at which the reply-deadline count of some entry, advanced, reaches the deadline (R146). -/
def State.replyExpiresAt (s : State) (record : List Byte) : Bool :=
  (s.ring.markNumber (judgeCycle record)).isSome && (advanceCounts s).someDeadlineReached

/-- The record of the next cycle in order, of as many slots as the present one (R2, R6). -/
def RingPort.nextRecord (r : RingPort) : RawRecord := { bytes := cycleRecord (r.lastCycle + 1) r.slotCount }

/-- The arrival of the cycle mark next in order, where something comes about at it; else nothing (log 1). -/
def nextMarkIf (comesAbout : List Byte → Bool) (s : State) : State :=
  if comesAbout s.ring.nextRecord.bytes then cycleMark s.ring.nextRecord s else s

/-! ### The meanings -/

/-- CYCLE_MARK (R15). -/
def execCycleMark (record : RawRecord) (s : State) : Host.Outcome State Fault Refusal :=
  .next (unlessPinReset (cycleMark record) s)

/-- SCHEDULE_SWAP (R41): the arrival of the next cycle mark, where the banks are swapped at it (log 1). -/
def execScheduleSwap (s : State) : Host.Outcome State Fault Refusal :=
  .next (unlessPinReset (fun s => nextMarkIf s.swapsAt s) s)

/-- ASSEMBLY_GAP_EXPIRY (R66): the arrival of the next cycle mark, where a write ends INCOMPLETE at it (log 1). -/
def execAssemblyGapExpiry (s : State) : Host.Outcome State Fault Refusal :=
  .next (unlessPinReset (fun s => nextMarkIf s.gapExpiresAt s) s)

/-- REPLY_EXPIRED (R146): the arrival of the next cycle mark, where a reply is abandoned at it (log 1). -/
def execReplyExpired (s : State) : Host.Outcome State Fault Refusal :=
  .next (unlessPinReset (fun s => nextMarkIf s.replyExpiresAt s) s)

/-- CYCLE_LOST (R19). -/
def execCycleLost (s : State) : Host.Outcome State Fault Refusal :=
  .next (unlessPinReset (fun s => if s.cycleLimitExpired then cycleLost s else s) s)

/-- TIMEBASE_TICK (R16): the divider reaches the prescaler. -/
def execTimebaseTick (s : State) : Host.Outcome State Fault Refusal := .next (unlessPinReset tick s)

end Sys2Proof.Machine
end

