-- ==== Sys2Proof/Machine/Intake.lean ====
section
/-! DEFINITION. The Segment Intake (spec/03) with resolution and permission (spec/05, section 5.3): the ordered checks,
allocation, refusal, short replies and the assembly of writes. -/

namespace Sys2Proof.Machine

/-! ### Turning a request down -/

/-- A report about a segment at its slot (R58, R62, R65). -/
def Segment.reportOf (g : Segment) (kind : ReportKind) (index : Byte) : Report :=
  { kind := kind, index := some index, node := some g.source, tag := some g.tag, addr := some g.addr }

/-- A refusal (R58): the slot is left, and SLOT REFUSED is reported. The truth value says whether the slot is consumed. -/
def refuse (index : Byte) (g : Segment) (s : State) : State × Bool := (report (g.reportOf .refused index) s, false)

/-- The short reply to a segment (R59). -/
def Segment.shortReply (g : Segment) (status : Status) : ShortReply :=
  { requester := g.source, tag := g.tag, status := status, total := g.total, addr := g.addr }

/-- Descriptor `d` is filled and joins the Reply Queue (R60). -/
def queueShortReply (d : Nat) (r : ShortReply) (s : State) : State :=
  joinReplyQueue (.desc d) (s.withDescriptors (s.descriptors.set d (some r)))

/-- A rejection (R60): with a free descriptor the slot is taken and a short reply is queued, and ORPHAN is reported (R62);
without one the segment is refused. -/
def reject (index : Byte) (g : Segment) (status : Status) (s : State) : State × Bool :=
  match s.freeDescriptors with
  | [] => refuse index g s
  | d :: _ =>
    let t := countTaken (queueShortReply d (g.shortReply status) s)
    (if status = .orphan then report (g.reportOf .orphan index) t else t, true)

/-! ### The checks of a first segment -/

/-- R51. -/
def badRequest (op : ReqOp) (g : Segment) (capacity : Nat) : Bool :=
  let count := g.count.toNat
  let total := g.total.toNat
  decide (g.status ≠ 0) || g.reservedFlags || decide (capacity < count)
    || (match op with
      | .read => decide (count ≠ 0) || !g.last
      | .write | .writeQuiet =>
        decide (count = 0) || (g.last && decide (count < total)) || (!g.last && decide (count = total))
      | .swap | .add => decide (count ≠ total) || !g.last
      | .cswap => decide (count ≠ 2 * total) || !g.last)

/-- R52. -/
def badLength (op : ReqOp) (g : Segment) : Bool :=
  let total := g.total.toNat
  decide (total = 0) || decide (1024 < total) || (op.isWrite && decide (total < g.count.toNat))
    || decide (2 ^ 32 < g.addr.toNat + total)

/-- R53. -/
def badAlign (op : ReqOp) (g : Segment) : Bool :=
  let total := g.total.toNat
  op.locked && (!(decide (total = 1) || decide (total = 2) || decide (total = 4)) || decide (g.addr.toNat % total ≠ 0))

/-- Whether an open entry names this source node and tag (R54, R69). -/
def Entry.names (e : Entry) (source tag : Byte) : Bool :=
  decide (e.state ≠ .free) && decide (e.source = source) && decide (e.tag = tag)

/-- R54. -/
def State.tagInUse (s : State) (source tag : Byte) : Bool := s.table.entries.any (fun e => e.names source tag)

/-- A valid window whose range holds an address (R91, R96). -/
def Window.holds (w : Window) (a : Nat) : Bool :=
  w.valid && decide (w.base.toNat ≤ a) && decide (a < w.limit)

/-- Resolution (R96): the valid window that holds the first address, where it also holds the last. -/
def State.resolve (s : State) (addr total : Nat) : Option Nat :=
  match indexesOf (fun w => w.holds addr) s.windows with
  | [] => none
  | i :: _ => if (s.window i).holds (addr + total - 1) then some i else none

/-- Permission (R97): the attributes the operation needs, and the owner filter. -/
def Window.permits (w : Window) (op : ReqOp) (source : Byte) : Bool :=
  (match op with
    | .read => w.attrs.read
    | .write | .writeQuiet => w.attrs.write
    | .swap | .add | .cswap => w.attrs.read && w.attrs.write && w.attrs.lock)
  && (match w.owner with
    | none => true
    | some n => decide (n = source))

/-- The checks of R51 to R55 in their order: the status of a rejection, or the window. -/
def firstChecks (op : ReqOp) (g : Segment) (capacity : Nat) (s : State) : Except Status Nat :=
  if badRequest op g capacity then .error .badRequest
  else if badLength op g then .error .length
  else if badAlign op g then .error .align
  else if s.tagInUse g.source g.tag then .error .tagInUse
  else match s.resolve g.addr.toNat g.total.toNat with
    | none => .error .noWindow
    | some w => if (s.window w).permits op g.source then .ok w else .error .denied

/-- The blocks a request needs (R56). -/
def blocksNeeded (op : ReqOp) (total : Nat) : Nat := if op.locked then 1 else (total + 255) / 256

/-! ### Allocation (R57) -/

/-- The entry of a new transaction (R57). -/
def newEntry (op : ReqOp) (g : Segment) (window : Nat) (blocks : List Nat) : Entry :=
  let received := if op.isWrite then g.count.toNat else 0
  { state := if op.isWrite && decide (received < g.total.toNat) then .assembling else .queued
    source := g.source, tag := g.tag, op := op, addr := g.addr, total := g.total.toNat, window := window, blocks := blocks,
    received := received, done := 0, sent := 0, final := none, gap := 0, deadline := 0, mark := .none, old := none }

/-- The Request Queue with an entry that has just become QUEUED at its end (R71, R80). -/
def Table.enrol (t : Table) (i : Nat) (queued : Bool) : List Nat := if queued then t.requests ++ [i] else t.requests

/-- A first segment is taken into entry `i` with its blocks and window (R57). -/
def allocate (i : Nat) (op : ReqOp) (g : Segment) (window : Nat) (blocks : List Nat) (s : State) : State :=
  let e := newEntry op g window blocks
  let t := s.withTable { s.table with
    entries := s.table.entries.set i e
    order := s.table.order ++ [i]
    requests := s.table.enrol i (decide (e.state = .queued)) }
  countTaken ((t.modWindow window (fun w => { w with inUse := w.inUse + 1 })).writeTx e 0 (g.data.take g.count.toNat))

/-- An entry that has just become QUEUED is an event at which the Bus Engine decides (R111). -/
def decideIfQueued (i : Nat) (s : State) : State := if (s.entry i).state = .queued then arbitrate s else s

/-- A first segment (R51 to R57). -/
def intakeFirst (op : ReqOp) (index : Byte) (capacity : Nat) (g : Segment) (s : State) : State × Bool :=
  match firstChecks op g capacity s with
  | .error status => reject index g status s
  | .ok window =>
    let need := blocksNeeded op g.total.toNat
    match s.entriesIn .free with
    | [] => refuse index g s
    | i :: _ =>
      if s.freeBlocks.length < need then refuse index g s
      else (decideIfQueued i (allocate i op g window (s.freeBlocks.take need) s), true)

/-! ### Later segments (spec/03, section 3.5) -/

/-- The write in ASSEMBLING that a later segment belongs to (R62). -/
def State.assembling (s : State) (source tag : Byte) : Option Nat :=
  (indexesOf (fun e => decide (e.state = .assembling) && e.names source tag) s.table.entries).head?

/-- The inconsistencies of R63. -/
def inconsistent (e : Entry) (op : ReqOp) (g : Segment) (capacity : Nat) : Bool :=
  let stop := g.offset.toNat + g.count.toNat
  decide (op ≠ e.op) || decide (g.total.toNat ≠ e.total) || decide (g.addr ≠ e.addr) || decide (g.status ≠ 0)
    || g.reservedFlags || decide (capacity < g.count.toNat) || decide (e.total < stop)
    || (g.last && decide (stop < e.total)) || (!g.last && decide (stop = e.total))

/-- A later segment ends its entry with SEQUENCE (R65). The report's local address is the segment's (log 11). -/
def endSequence (i : Nat) (index : Byte) (g : Segment) (s : State) : State :=
  report (g.reportOf .sequence index) (answerUnexecuted i .sequence s)

/-- An append (R64): the bytes from received on are copied, received grows, the gap count becomes 0; a complete write is
QUEUED. -/
def appendSegment (i : Nat) (g : Segment) (s : State) : State :=
  let e := s.entry i
  let stop := g.offset.toNat + g.count.toNat
  let fresh := (g.data.take g.count.toNat).drop (e.received - g.offset.toNat)
  let complete := decide (stop = e.total)
  let t := s.writeTx e e.received fresh
  t.withTable { t.table with
    entries := t.table.entries.modify i (fun e =>
      { e with received := stop, gap := 0, state := if complete then .queued else e.state })
    requests := t.table.enrol i complete }

/-- A later segment that finds its entry (R63, R64): inconsistent, duplicate, append or gap, in that order. -/
def judgeLater (i : Nat) (op : ReqOp) (index : Byte) (capacity : Nat) (g : Segment) (s : State) : State :=
  let e := s.entry i
  if inconsistent e op g capacity then endSequence i index g s
  else if g.offset.toNat + g.count.toNat ≤ e.received then s
  else if g.offset.toNat ≤ e.received then decideIfQueued i (appendSegment i g s)
  else endSequence i index g s

/-- A later segment (R62 to R65). -/
def intakeLater (op : ReqOp) (index : Byte) (capacity : Nat) (g : Segment) (s : State) : State × Bool :=
  match s.assembling g.source g.tag with
  | none => reject index g .orphan s
  | some i => (judgeLater i op index capacity g (countTaken s), true)

/-! ### The decision (R47 to R50) -/

/-- The operation of a request for this node (R47), or none where the payload is left. -/
def State.requestFor (s : State) (g : Segment) : Option ReqOp :=
  if s.mgmt.node ≠ 0 ∧ g.dest = s.mgmt.node ∧ 1 ≤ g.source.toNat ∧ g.source.toNat ≤ 62 then ReqOp.ofCode g.op else none

/-- The source filter (R49). -/
def filterAdmits (filter : Option Byte) (source : Byte) : Bool :=
  match filter with
  | none => true
  | some n => decide (n = source)

/-- Whether the bridge state refuses a segment (R50). -/
def BridgeState.refuses (b : BridgeState) (offset : Half) : Bool :=
  match b with
  | .running => false
  | .draining => decide (offset = 0)
  | .stopped => true

/-- The intake decision on a segment (R48): the state after it, and whether the slot is consumed. -/
def intakeSegment (filter : Option Byte) (index : Byte) (capacity : Nat) (g : Segment) (s : State) : State × Bool :=
  match s.requestFor g with
  | none => (s, false)
  | some op =>
    if !filterAdmits filter g.source then (s, false)
    else if s.bridge.state.refuses g.offset then refuse index g s
    else if g.offset = 0 then intakeFirst op index capacity g s
    else intakeLater op index capacity g s

/-- The intake step on a slot (R31, R33): a DATA payload is judged, and voided where it is taken. -/
def intakeStep (filter : Option Byte) (a : Arrival) (im : Image) (s : State) : State × Image :=
  if im.kind = .data then
    let r := intakeSegment filter a.index a.capacity (Segment.ofBytes im.payload) s
    (r.1, if r.2 then im.voided else im)
  else (s, im)

end Sys2Proof.Machine
end

