-- ==== Sys2Proof/Machine/Management.lean ====
section
/-! DEFINITION. The Management Unit (spec/08): the judgement of a management record, every operation, the replies, and the
giving of queued records. -/

namespace Sys2Proof.Machine

/-! ### Judging a record (R152 to R156) -/

/-- How a record that is not a return is classed by its destination (R152). -/
inductive Reach where
  | left | addressed | broadcast
  deriving DecidableEq, Repr

/-- The table of R152. -/
def State.reach (s : State) (dest : Byte) : Reach :=
  if s.mgmt.node = 0 then (if dest = 0 then .addressed else .left)
  else if dest = s.mgmt.node then .addressed
  else if dest = 63 then .broadcast
  else .left

/-- One of the part's own returning records (R152). -/
def State.ownRecord (s : State) (r : MgmtRecord) : Bool :=
  decide (s.mgmt.node ≠ 0) && decide (r.source = s.mgmt.node) && decide (r.dest ≠ s.mgmt.node)

/-- A code of a reply, or of NOTICE: meant for a manager (R153). -/
def MgmtRecord.forManager (r : MgmtRecord) : Bool := decide (128 ≤ r.op.toNat) || decide (r.op = noticeCode)

/-- The faults of the header that make a request malformed (R153). -/
def State.malformed (s : State) (reach : Reach) (capacity : Nat) (r : MgmtRecord) : Bool :=
  decide (r.status ≠ 0) || decide (r.flags ≠ 0) || decide (capacity < r.argLen.toNat)
    || (decide (reach = .addressed) && decide (s.mgmt.node ≠ 0) && decide (r.source = s.mgmt.node))

/-- Whether the sender is the manager. -/
def State.fromManager (s : State) (r : MgmtRecord) : Bool := decide (s.mgmt.manager = some r.source)

/-- The refusal of R154. -/
def State.refusesRequest (s : State) (reach : Reach) (op : MgmtOp) (r : MgmtRecord) : Bool :=
  (decide (Config.mgmtReplies ≤ s.mgmt.queue.length)
      && !(decide (op = .reset) && decide (reach = .addressed) && s.fromManager r))
    || s.bridge.softReset.isSome

/-- The operations that a broadcast may carry (R155). -/
def MgmtOp.mayBroadcast : MgmtOp → Bool
  | .identify | .schedCommit | .start | .stop => true
  | _ => false

/-- The operations executed for any source (R156); ASSIGN has its own authority (R161). -/
def MgmtOp.anySource : MgmtOp → Bool
  | .identify | .status | .reportRead | .schedRead | .windowRead | .assign => true
  | _ => false

/-! ### Verdicts -/

/-- What an operation comes to: the reply's status, parameter bytes and arguments, and what is carried out. -/
structure Verdict where
  status : MgmtStatus
  param : List Byte
  args : List Byte := []
  act : State → State := id

/-- The report of a DENIED answer (R156). A source above 63 is recorded as it arrived (log 20). -/
def reportDenied (index : Byte) (r : MgmtRecord) (s : State) : State :=
  report { kind := .denied, index := some index, node := some r.source, tag := some r.tag } s

/-- A read's verdict: OK with its arguments where they fit the slot, else BAD-ARG (R158). -/
def readVerdict (capacity : Nat) (param badParam args : List Byte) : Verdict :=
  if args.length ≤ capacity then { status := .ok, param := param, args := args }
  else { status := .badArg, param := badParam }

/-! ### Identity (R160, R161) -/

/-- The arguments of an IDENTIFY leaf (R160). -/
def State.identifyLeaf (s : State) (leaf : Byte) : Option (List Byte) :=
  if leaf = 0 then some [0x0E, 0x27, 0x03, 0x16, 2]
  else if leaf = 1 then some [240, 16, 8, 24, 4, 12, 4]
  else if leaf = 2 then some [0x0F]
  else if leaf = 3 then
    some ([s.mgmt.node, nodeByte s.mgmt.manager, s.bridge.state.code, s.ring.state.code, s.bridge.resetCount]
      ++ halfBytes s.ring.lastCycle)
  else none

/-- R160. A leaf that does not fit the slot's capacity is answered BAD-ARG with the leaf, as a leaf above 3 is (log 22). -/
def judgeIdentify (capacity : Nat) (r : MgmtRecord) (s : State) : Verdict :=
  let leaf := r.paramByte 0
  match s.identifyLeaf leaf with
  | none => { status := .badArg, param := [leaf] }
  | some args => readVerdict capacity [leaf] [leaf] args

/-- A node that a number 1..62 names. -/
def isNode (n : Byte) : Bool := decide (1 ≤ n.toNat) && decide (n.toNat ≤ 62)

/-- R161, cases 2 to 7; case 1 is the rule for broadcasts. On an unassigned node a source above 63, which no case admits as
manager, is answered BAD-ARG (log 21). -/
def judgeAssign (index : Byte) (r : MgmtRecord) (s : State) : Verdict :=
  let number := r.paramByte 0
  if r.source = 0 ∨ r.source = 63 ∨ isNode number = false then { status := .badArg, param := [s.mgmt.node] }
  else if s.mgmt.node = 0 then
    if isNode r.source then
      { status := .ok, param := [number]
        act := fun t => t.withMgmt { t.mgmt with node := number, manager := some r.source } }
    else { status := .badArg, param := [s.mgmt.node] }
  else if !s.fromManager r then { status := .denied, param := [s.mgmt.node], act := reportDenied index r }
  else if number = s.mgmt.node then { status := .ok, param := [s.mgmt.node] }
  else if s.bridge.state = .stopped then
    { status := .ok, param := [number], act := fun t => t.withMgmt { t.mgmt with node := number } }
  else { status := .state, param := [s.mgmt.node] }

/-! ### Configuration (R162) -/

/-- One field of CONFIGURE: kept where it is not selected, else read, and none where it is out of range. -/
def selected {α : Type} (mask : Byte) (bit : Nat) (old : α) (read : Option α) : Option α :=
  if mask.getLsbD bit then read else some old

/-- A limit of 1..15 cycles. -/
def cycleCount (b : Byte) : Option Nat := if 1 ≤ b.toNat ∧ b.toNat ≤ 15 then some b.toNat else none

/-- The configuration that a CONFIGURE sets, or none where a selected field is out of range (R162). -/
def Params.configured (p : Params) (mask : Byte) (args : List Byte) : Option Params :=
  match selected mask 0 p.prescaler (Prescaler.ofCode (byteAt args 0)), selected mask 3 p.gapLimit (cycleCount (byteAt args 7)),
    selected mask 4 p.deadline (cycleCount (byteAt args 8)),
    selected mask 5 p.bankEnables (Enables.ofCode (byteAt args 9)),
    selected mask 6 p.noticeEnables (Enables.ofCode (byteAt args 10)) with
  | some prescaler, some gapLimit, some deadline, some bankEnables, some noticeEnables =>
    some { prescaler := prescaler
           cycleLimit := if mask.getLsbD 1 then tripleAt args 1 else p.cycleLimit
           holdLimit := if mask.getLsbD 2 then tripleAt args 4 else p.holdLimit
           gapLimit := gapLimit, deadline := deadline, bankEnables := bankEnables, noticeEnables := noticeEnables }
  | _, _, _, _, _ => none

/-- The configuration replaced, with the effects on the timebase and on a hold grant (R18, R126). -/
def setParams (p : Params) (s : State) : State :=
  let t := s.withMgmt { s.mgmt with params := p }
  if p.prescaler = s.mgmt.params.prescaler then t
  else (t.withRing t.ring.prescalerChanged).withBus (t.bus.prescalerChanged t.ring.timebase)

/-- The new configuration in force, and the limits judged against it (R19, R126). -/
def configure (p : Params) (s : State) : State :=
  if p = s.mgmt.params then s else expireLimits (setParams p s)

/-- R162. A BAD-ARG reply to a request of argument length 11 carries the configuration as it stands. -/
def judgeConfigure (r : MgmtRecord) (s : State) : Verdict :=
  let mask := r.paramByte 0
  if r.argLen.toNat ≠ 11 then { status := .badArg, param := [mask] }
  else if mask.getLsbD 7 then { status := .badArg, param := [mask], args := s.mgmt.params.toBytes }
  else match s.mgmt.params.configured mask r.args with
    | none => { status := .badArg, param := [mask], args := s.mgmt.params.toBytes }
    | some p => { status := .ok, param := [mask], args := p.toBytes, act := configure p }

/-! ### Schedule (R35, R36, R38, R42, R163) -/

/-- The commit state and its target as replies carry them (R163). -/
def CommitState.toBytes (c : CommitState) : List Byte := c.code :: halfBytes c.target

/-- Whether a commit is pending. -/
def CommitState.isPending (c : CommitState) : Bool := decide (c ≠ .none)

/-- The ranges of R35 and R36. -/
def scheduleRange (first count : Nat) : Bool :=
  decide (first ≤ 239) && decide (1 ≤ count) && decide (count ≤ 120) && decide (first + count ≤ 240)

/-- The entries written into the shadow bank from `first` on (R35). -/
def Schedule.load (c : Schedule) (first : Nat) (es : List SchedEntry) : Schedule :=
  { c with shadow := c.shadow.take first ++ es ++ c.shadow.drop (first + es.length) }

/-- R35. -/
def judgeSchedLoad (r : MgmtRecord) (s : State) : Verdict :=
  let first := (r.paramByte 0).toNat
  let count := (r.paramByte 1).toNat
  let param := [r.paramByte 0, r.paramByte 1]
  if s.sched.commit.isPending then { status := .busy, param := param }
  else if !scheduleRange first count || decide (r.argLen.toNat ≠ 2 * count) then { status := .badArg, param := param }
  else match schedEntries count r.args with
    | none => { status := .badArg, param := param }
    | some es => { status := .ok, param := param, act := fun t => t.withSched (t.sched.load first es) }

/-- The bank of a SCHED-READ selector. -/
def Schedule.bankOf (c : Schedule) (selector : Byte) : Option (List SchedEntry) :=
  if selector = 0 then some c.active else if selector = 1 then some c.shadow else none

/-- R36. -/
def judgeSchedRead (capacity : Nat) (r : MgmtRecord) (s : State) : Verdict :=
  let first := (r.paramByte 1).toNat
  let count := (r.paramByte 2).toNat
  let param := [r.paramByte 0, r.paramByte 1, r.paramByte 2]
  match s.sched.bankOf (r.paramByte 0) with
  | none => { status := .badArg, param := param }
  | some bank =>
    if scheduleRange first count then
      readVerdict capacity param param (((bank.drop first).take count).flatMap SchedEntry.toBytes)
    else { status := .badArg, param := param }

/-- The commit state that a SCHED-COMMIT asks for (R38). -/
def MgmtRecord.commitAsked (r : MgmtRecord) : Option CommitState :=
  if r.paramByte 0 = 1 then some .pendingNext
  else if r.paramByte 0 = 2 then some (.pendingAt (halfAt r.param 1)) else none

/-- R38. -/
def judgeSchedCommit (r : MgmtRecord) (s : State) : Verdict :=
  match r.commitAsked with
  | none => { status := .badArg, param := s.sched.commit.toBytes }
  | some c => { status := .ok, param := c.toBytes, act := fun t => t.withSched { t.sched with commit := c } }

/-- R42. -/
def judgeSchedCancel (s : State) : Verdict :=
  if s.sched.commit.isPending then
    { status := .ok, param := [CommitState.none.code], act := fun t => t.withSched { t.sched with commit := .none } }
  else { status := .state, param := [CommitState.none.code] }

/-! ### Windows (R93 to R95, R164) -/

/-- Whether the ranges of two windows share an address (R93, step 5). -/
def Window.overlaps (v w : Window) : Bool := decide (v.base.toNat < w.limit) && decide (w.base.toNat < v.limit)

/-- Whether a record's range shares an address with another valid window than window `i` (R93, step 5). -/
def State.windowClash (s : State) (i : Nat) (w : Window) : Bool :=
  (List.range s.windows.length).any (fun j => decide (j ≠ i) && (s.window j).valid && (s.window j).overlaps w)

/-- R93, R94. -/
def judgeWindowLoad (r : MgmtRecord) (s : State) : Verdict :=
  let record := r.args
  let param := [byteAt record 0]
  let i := (byteAt record 0).toNat
  if r.argLen.toNat ≠ 12 ∨ 15 < i then { status := .badArg, param := param }
  else if 0 < (s.window i).inUse then { status := .busy, param := param }
  else if !(byteAt record 1).getLsbD 7 then
    { status := .ok, param := param, act := fun t => t.modWindow i (fun w => { w with valid := false }) }
  else match Window.ofBytes record with
    | none => { status := .badArg, param := param }
    | some w =>
      if s.windowClash i w then { status := .badArg, param := param }
      else { status := .ok, param := param, act := fun t => t.modWindow i (fun old => { w with inUse := old.inUse }) }

/-- R95. -/
def judgeWindowRead (capacity : Nat) (r : MgmtRecord) (s : State) : Verdict :=
  let i := (r.paramByte 0).toNat
  let param := [r.paramByte 0]
  if 15 < i then { status := .badArg, param := param }
  else readVerdict capacity param param ((s.window i).toBytes i)

/-! ### Bridge operations (R165, R166) -/

/-- START taken in STOPPED or DRAINING (R188). -/
def startBridge (s : State) : State := s.withBridge { s.bridge with state := .running, flush := false }

/-- STOP without flush, taken in RUNNING or DRAINING (R189): in RUNNING the drain begins, and the condition is judged. -/
def stopBridge (s : State) : State :=
  judgeDrain (if s.bridge.state = .running then s.withBridge { s.bridge with state := .draining, flush := false } else s)

/-- The bridge after the flush itself (R190): STOPPED where no entry remains open, else DRAINING with the flush indication
set. -/
def Bridge.flushed (b : Bridge) (remains : Bool) : Bridge :=
  if remains then { b with state := .draining, flush := true } else { b with state := .stopped, flush := false }

/-- A claim on whatever is EXECUTING, with the mark quiet (R86, R88). -/
def claimQuiet (s : State) : State :=
  match s.executing with
  | none => s
  | some i => claimExecuting true i s

/-- STOP with flush, taken in RUNNING or DRAINING (R86, R190): every entry is ended as a quiet ABORT of scope ALL does, every
descriptor is freed, and the Bus Engine then decides. -/
def flushBridge (s : State) : State :=
  let t := claimQuiet (freeAllDescriptors (freeAllButExecuting s))
  settle (t.withBridge (t.bridge.flushed (!t.openEntries.isEmpty)))

/-- R165, R188. -/
def judgeStart (s : State) : Verdict :=
  if s.bridge.state = .running then { status := .state, param := [s.bridge.state.code] }
  else { status := .ok, param := [BridgeState.running.code], act := startBridge }

/-- R165, R189, R190. The reply carries the bridge state as it stands after the arrival. -/
def judgeStop (r : MgmtRecord) (s : State) : Verdict :=
  let options := r.paramByte 0
  if 1 < options.toNat then { status := .badArg, param := [s.bridge.state.code] }
  else if s.bridge.state = .stopped then { status := .state, param := [s.bridge.state.code] }
  else
    let act := if options.getLsbD 0 then flushBridge else stopBridge
    { status := .ok, param := [(act s).bridge.state.code], act := act }

/-- The entries an ABORT matches, in allocation order (R82, R83). -/
def State.abortMatches (s : State) (scope node tag : Byte) : List Nat :=
  s.table.order.filter (fun i =>
    let e := s.entry i
    decide (e.state ≠ .free) && (decide (scope = 1) || (decide (e.source = node) && (decide (scope = 2) || decide (e.tag = tag)))))

/-- R166. -/
def judgeAbort (r : MgmtRecord) (s : State) : Verdict :=
  let scope := r.paramByte 0
  let node := r.paramByte 1
  let options := r.paramByte 3
  if ¬(1 ≤ scope.toNat ∧ scope.toNat ≤ 3) ∨ (scope ≠ 1 ∧ isNode node = false) ∨ 1 < options.toNat then
    { status := .badArg, param := [] }
  else
    let is := s.abortMatches scope node (r.paramByte 2)
    { status := .ok, param := [BitVec.ofNat 8 is.length, scope]
      act := fun t => settle (abortEntries (options.getLsbD 0) is t) }

/-! ### Reading state (R167 to R169) -/

/-- A count as a byte. -/
def countByte (n : Nat) : Byte := BitVec.ofNat 8 n

/-- The 24 bytes of STATUS (R167). -/
def State.statusBytes (s : State) : List Byte :=
  [s.ring.state.code, s.bridge.state.code] ++ halfBytes s.ring.lastCycle ++ wordBytes (s.ring.period.getD 0)
    ++ [s.sched.commit.code] ++ halfBytes s.sched.commit.target
    ++ [boolByte s.sched.swapCycle.isSome] ++ halfBytes (s.sched.swapCycle.getD 0)
    ++ [countByte (s.entriesIn .assembling).length, countByte (s.entriesIn .queued).length,
        countByte (s.entriesIn .executing).length, countByte (s.entriesIn .replying).length,
        countByte s.freeBlocks.length, countByte s.pendingDescriptors.length, countByte s.replyQueue.length,
        countByte s.mgmt.queue.length, s.bus.engine.code, boolByte s.bus.grant]

/-- The present-fields byte and the optional fields of a record (R168). -/
def BankRecord.fieldBytes (r : BankRecord) : List Byte :=
  [flagByte [r.index.isSome, r.node.isSome, r.tag.isSome, r.addr.isSome], r.index.getD 0, r.node.getD 0, r.tag.getD 0]
    ++ wordBytes (r.addr.getD 0)

/-- The 16 bytes of a bank (R168). -/
def Bank.toBytes (b : Bank) (enable noticeEnable : Bool) : List Byte :=
  match b.record with
  | none =>
    [flagByte [enable, noticeEnable], 0] ++ halfBytes (BitVec.ofNat 16 b.events) ++ List.replicate 12 0
  | some r =>
    [flagByte [enable, noticeEnable, true, r.overflow, r.noticeLost], r.kind.code]
      ++ halfBytes (BitVec.ofNat 16 b.events) ++ halfBytes r.cycle ++ r.fieldBytes
      ++ halfBytes (BitVec.ofNat 16 r.later)

/-- The 28 bytes of the activity counters (R168). -/
def Counters.toBytes (c : Counters) : List Byte :=
  wordBytes c.cyclesInSync ++ wordBytes c.segmentsTaken ++ wordBytes c.segmentsGiven ++ wordBytes c.executed
    ++ wordBytes c.beats ++ wordBytes c.busyTicks ++ wordBytes c.holdTicks

/-- The 13 bytes of the Last Transaction Record (R168). -/
def LastTx.toBytes (l : Option LastTx) : List Byte :=
  match l with
  | none => List.replicate 13 0
  | some r =>
    [1, r.source, r.tag, r.op.code, r.final.code] ++ wordBytes r.addr ++ halfBytes (BitVec.ofNat 16 r.done)
      ++ halfBytes r.cycle

/-- What a REPORT-READ selector reads (R168, R186). -/
def State.reportBytes (s : State) (selector : Byte) : Option (List Byte) :=
  match BankName.ofCode selector with
  | some b =>
    some ((s.reports.bank b).toBytes (s.mgmt.params.bankEnables.of b) (s.mgmt.params.noticeEnables.of b))
  | none =>
    if selector = 4 then some s.reports.counters.toBytes
    else if selector = 5 then some (LastTx.toBytes s.reports.lastTx) else none

/-- R168. -/
def judgeReportRead (capacity : Nat) (r : MgmtRecord) (s : State) : Verdict :=
  match s.reportBytes (r.paramByte 0) with
  | none => { status := .badArg, param := [] }
  | some args => readVerdict capacity [r.paramByte 0] [] args

/-- The record of a bank emptied (R180): its event count is kept. -/
def clearBank (b : BankName) (s : State) : State :=
  s.withReports (s.reports.setBank b { s.reports.bank b with record := none })

/-- R169. -/
def judgeReportClear (r : MgmtRecord) : Verdict :=
  match BankName.ofCode (r.paramByte 0) with
  | none => { status := .badArg, param := [] }
  | some b => { status := .ok, param := [r.paramByte 0], act := clearBank b }

/-! ### Execution and answer (R157) -/

/-- A RESET that passes (R170, R195): the soft reset is pending with the source and tag held, the executing entry is
claimed, and the reset takes effect at once where no cycle or sequence is in progress. -/
def startReset (source tag : Byte) (s : State) : State :=
  settle (claimQuiet (s.withBridge { s.bridge with softReset := some (source, tag) }))

/-- The verdict of an operation that has passed R152 to R156, for every operation but RESET. -/
def judgeOperation (op : MgmtOp) (index : Byte) (capacity : Nat) (r : MgmtRecord) (s : State) : Verdict :=
  match op with
  | .identify => judgeIdentify capacity r s
  | .assign => judgeAssign index r s
  | .configure => judgeConfigure r s
  | .schedLoad => judgeSchedLoad r s
  | .schedRead => judgeSchedRead capacity r s
  | .schedCommit => judgeSchedCommit r s
  | .schedCancel => judgeSchedCancel s
  | .windowLoad => judgeWindowLoad r s
  | .windowRead => judgeWindowRead capacity r s
  | .start => judgeStart s
  | .stop => judgeStop r s
  | .abort => judgeAbort r s
  | .status => readVerdict capacity [] [] s.statusBytes
  | .reportRead => judgeReportRead capacity r s
  | .reportClear => judgeReportClear r
  | .reset => { status := .badArg, param := [] }

/-- The parameter of a reply that turns the request down before its own rule (R155, R156): what the operation's rule names
for any status, the rest 0 (log 12). -/
def refusalParam (op : MgmtOp) (r : MgmtRecord) (s : State) : List Byte :=
  match op with
  | .identify | .configure | .windowRead => [r.paramByte 0]
  | .assign => [s.mgmt.node]
  | .schedLoad => [r.paramByte 0, r.paramByte 1]
  | .schedRead => [r.paramByte 0, r.paramByte 1, r.paramByte 2]
  | .schedCommit => s.sched.commit.toBytes
  | .schedCancel => [s.sched.commit.code]
  | .windowLoad => [byteAt r.args 0]
  | .start | .stop => [s.bridge.state.code]
  | .abort | .status | .reportRead | .reportClear | .reset => []

/-- The arguments of a BAD-ARG reply to a broadcast: the configuration for a CONFIGURE of argument length 11, else none
(R155, R158, R162). -/
def broadcastArgs (op : MgmtOp) (r : MgmtRecord) (s : State) : List Byte :=
  if op = .configure ∧ r.argLen.toNat = 11 then s.mgmt.params.toBytes else []

/-- The judgement of R155 and R156, and then of the operation's own rule. -/
def judgeRequest (reach : Reach) (op : MgmtOp) (index : Byte) (capacity : Nat) (r : MgmtRecord) (s : State) : Verdict :=
  if reach = .broadcast ∧ op.mayBroadcast = false then
    { status := .badArg, param := refusalParam op r s, args := broadcastArgs op r s }
  else if op.anySource then judgeOperation op index capacity r s
  else if s.mgmt.node = 0 then { status := .state, param := refusalParam op r s }
  else if !s.fromManager r then { status := .denied, param := refusalParam op r s, act := reportDenied index r }
  else judgeOperation op index capacity r s

/-- The reply record (R158). -/
def MgmtRecord.reply (r : MgmtRecord) (v : Verdict) : MgmtReply :=
  { dest := r.source, tag := r.tag, op := r.op + 0x80, status := v.status.code, param := padTo 8 v.param, args := v.args }

/-- A record joins the Management Reply Queue at its end. -/
def queueReply (x : MgmtReply) (s : State) : State := s.withMgmt { s.mgmt with queue := s.mgmt.queue ++ [x] }

/-- The request answered (R157): the reply takes its place before what the operation carries out and reports. -/
def answerRequest (r : MgmtRecord) (v : Verdict) (s : State) : State := v.act (queueReply (r.reply v) s)

/-- Whether a RESET passes R155 and R156 (R170). -/
def State.resetPasses (s : State) (reach : Reach) (r : MgmtRecord) : Bool :=
  decide (reach = .addressed) && decide (s.mgmt.node ≠ 0) && s.fromManager r

/-- A request that is well formed and has room: RESET that passes begins the soft reset and is not answered; every other
request is answered. -/
def executeRequest (reach : Reach) (op : MgmtOp) (index : Byte) (capacity : Nat) (r : MgmtRecord) (s : State) : State :=
  if op = .reset ∧ s.resetPasses reach r = true then startReset r.source r.tag s
  else answerRequest r (judgeRequest reach op index capacity r s) s

/-- MGMT BAD-REQUEST (R153). A source above 63 is recorded as it arrived (log 20). -/
def reportBadRequest (index : Byte) (r : MgmtRecord) (s : State) : State :=
  report { kind := .badRequest, index := some index, node := some r.source, tag := some r.tag } s

/-- What a request leaves of its slot once it is settled: an addressed one is consumed, a broadcast is forwarded. -/
def Reach.leaves (reach : Reach) (im : Image) : Image :=
  match reach with
  | .addressed => im.voided
  | .left | .broadcast => im

/-- A record that is addressed or broadcast, and no return (R153, R154). -/
def judgeReached (reach : Reach) (index : Byte) (capacity : Nat) (r : MgmtRecord) (im : Image) (s : State) : State × Image :=
  if r.forManager then (s, im)
  else match MgmtOp.ofCode r.op with
    | none => (reportBadRequest index r s, reach.leaves im)
    | some op =>
      if s.malformed reach capacity r then (reportBadRequest index r s, reach.leaves im)
      else if s.refusesRequest reach op r then (s, im)
      else (executeRequest reach op index capacity r s, reach.leaves im)

/-- MGMT REPLY-RETURNED (R152). A destination above 63 is recorded as it arrived (log 20). -/
def reportReturned (index : Byte) (r : MgmtRecord) (s : State) : State :=
  report { kind := .replyReturned, index := some index, node := some r.dest, tag := some r.tag } s

/-- A channel-0 slot of kind MGMT (R152). -/
def judgeRecord (index : Byte) (capacity : Nat) (im : Image) (s : State) : State × Image :=
  let r := MgmtRecord.ofBytes im.payload
  if s.ownRecord r then (reportReturned index r s, im.voided)
  else match s.reach r.dest with
    | .left => (s, im)
    | reach => judgeReached reach index capacity r im s

/-! ### Giving (R159) -/

/-- A queued record as it is given: with the node number at that moment as its source (R158, R171). R158 gives flags 0 for a
reply; R171 gives none for a notice, which the model sends with 0 too (DESIGN CHOICE, unsafe, log 23). -/
def MgmtReply.record (x : MgmtReply) (node : Byte) : MgmtRecord :=
  { dest := x.dest, source := node, tag := x.tag, op := x.op, status := x.status, flags := 0,
    argLen := BitVec.ofNat 16 x.args.length, param := x.param, rest := x.args }

/-- A channel-0 slot of kind VOID: the oldest record is given where its arguments fit (R159). -/
def giveRecord (length capacity : Nat) (im : Image) (s : State) : State × Image :=
  match s.mgmt.queue with
  | [] => (s, im)
  | x :: rest =>
    if x.args.length ≤ capacity then
      (s.withMgmt { s.mgmt with queue := rest },
       { kind := .mgmt, payload := padTo length (x.record s.mgmt.node).toBytes })
    else (s, im)

/-- A channel-0 slot with a good payload check (R28). -/
def managementSlot (length : Nat) (index : Byte) (capacity : Nat) (im : Image) (s : State) : State × Image :=
  match im.kind with
  | .mgmt => judgeRecord index capacity im s
  | .void => giveRecord length capacity im s
  | .data | .faulted => (s, im)

end Sys2Proof.Machine
end

