-- ==== Sys2Proof/Machine/Replies.lean ====
section
/-! DEFINITION. The Reply Emitter (spec/07): the stripping of returning segments, the choice at a slot, and the reply segments
of each kind. -/

namespace Sys2Proof.Machine

/-! ### Stripping (R143 to R145) -/

/-- One of the part's own returning segments (R143). -/
def State.ownReturn (s : State) (g : Segment) : Bool := decide (g.source = s.mgmt.node) && decide (g.op = replyCode)

/-- Entry `i` has sent the range of a return (R144). -/
def Entry.hasSent (e : Entry) (g : Segment) : Bool :=
  decide (e.source = g.dest) && decide (e.tag = g.tag) && decide (e.total = g.total.toNat) && decide (e.addr = g.addr)
    && decide (g.offset.toNat + g.count.toNat ≤ e.sent)

/-- The entry that a return belongs to, if there is one (R144). -/
def State.returnOwner (s : State) (g : Segment) : Option Nat :=
  if g.last then none
  else s.replyQueue.findSome? (fun m =>
    match m with
    | .desc _ => none
    | .entry i => if (s.entry i).hasSent g then some i else none)

/-- SLOT REPLY-UNDELIVERED (R145). A destination above 63 is recorded as it arrived (log 20). -/
def reportUndelivered (index : Byte) (g : Segment) (s : State) : State :=
  report { kind := .replyUndelivered, index := some index, node := some g.dest, tag := some g.tag, addr := some g.addr } s

/-- A return acted on (R145): the reply of the entry it belongs to is abandoned, and the return is reported. Where that ends
an execution at once, two blocks report at one moment (log 4). -/
def actOnReturn (index : Byte) (g : Segment) (s : State) : State :=
  match s.returnOwner g with
  | none => reportUndelivered index g s
  | some i =>
    match (s.entry i).state with
    | .executing =>
      let t := setMark true i s
      if t.bus.busy then reportUndelivered index g t
      else settle (inSomeOrder [reportUndelivered index g, endExecution i .aborted] t)
    | .replying => judgeDrain (reportUndelivered index g (freeEntry i s))
    | .free | .assembling | .queued => reportUndelivered index g s

/-- The stripping step of a GIVE or BOTH slot (R32, R143). -/
def stripStep (index : Byte) (im : Image) (s : State) : State × Image :=
  if im.kind = .data ∧ s.ownReturn (Segment.ofBytes im.payload) = true then
    (actOnReturn index (Segment.ofBytes im.payload) s, im.voided)
  else (s, im)

/-! ### The choice (R135) -/

/-- Whether an entry that is a member of the Reply Queue can make progress in a slot of this capacity (R135). -/
def Entry.canProgress (e : Entry) (capacity : Nat) : Bool :=
  match e.op, e.state with
  | .read, .executing => decide (e.mark ≠ .quiet) && decide (e.sent < e.done) && decide (1 ≤ capacity)
  | .read, .replying => (decide (e.sent < e.done) && decide (1 ≤ capacity)) || decide (e.sent = e.done)
  | .write, .replying | .writeQuiet, .replying => true
  | .swap, .replying | .add, .replying | .cswap, .replying => decide (e.done ≤ capacity)
  | _, _ => false

/-- Whether a member can make progress (R135). -/
def State.memberCanProgress (s : State) (capacity : Nat) : Member → Bool
  | .desc _ => true
  | .entry i => (s.entry i).canProgress capacity

/-! ### The segment given (R134, R136 to R141) -/

/-- What R136 to R140 fix of an entry's segment: its offset, its data, and whether it carries LAST. -/
structure Piece where
  offset : Nat
  data : List Byte
  last : Bool
  deriving DecidableEq, Repr

/-- The piece given for an entry in a slot of this capacity (R136 to R140). An entry has its final status from its entry to
REPLYING on. -/
def State.pieceOf (s : State) (e : Entry) (capacity : Nat) : Piece :=
  match e.op with
  | .read =>
    if e.state = .replying ∧ e.sent = e.done then { offset := e.done, data := [], last := true }
    else
      let n := min (e.done - e.sent) capacity
      { offset := e.sent, data := s.txBytes e e.sent n,
        last := decide (e.state = .replying) && decide (e.final = some .done) && decide (e.sent + n = e.done) }
  | .write | .writeQuiet => { offset := e.done, data := [], last := true }
  | .swap | .add | .cswap => { offset := 0, data := (e.old.getD []).take e.done, last := true }

/-- The status byte of an entry's segment (R134). -/
def Entry.replyStatus (e : Entry) (last : Bool) : Byte :=
  match last, e.final with
  | true, some status => status.code
  | _, _ => Status.done.code

/-- The reply segment to an entry (R134). -/
def Entry.replySegment (e : Entry) (node : Byte) (p : Piece) : Segment :=
  { dest := e.source, source := node, tag := e.tag, op := replyCode, status := e.replyStatus p.last,
    flags := boolByte p.last, total := BitVec.ofNat 16 e.total, offset := BitVec.ofNat 16 p.offset,
    count := BitVec.ofNat 16 p.data.length, addr := e.addr, data := p.data }

/-- The reply segment of a descriptor (R134, R141). -/
def ShortReply.segment (r : ShortReply) (node : Byte) : Segment :=
  { dest := r.requester, source := node, tag := r.tag, op := replyCode, status := r.status.code, flags := 1,
    total := r.total, offset := 0, count := 0, addr := r.addr, data := [] }

/-- A slot's contents with a segment given into it: zeros after the data (R134, R142). -/
def segmentImage (length : Nat) (g : Segment) : Image := { kind := .data, payload := padTo length g.toBytes }

/-- The entry's side of a giving (R142): sent grows, the deadline count becomes 0, and a LAST segment frees the entry. -/
def sendPiece (i : Nat) (p : Piece) (s : State) : State :=
  let t := s.modEntry i (fun e => { e with sent := e.sent + p.data.length, deadline := 0 })
  if p.last then freeEntry i t else t

/-- The descriptor's side of a giving (R141): it becomes free and leaves the Reply Queue. -/
def freeDescriptor (d : Nat) (s : State) : State :=
  (s.withDescriptors (s.descriptors.set d none)).withReplyQueue (s.replyQueue.filter (fun m => decide (m ≠ .desc d)))

/-- A segment of an entry given (R142); a LAST segment may complete a drain (R191). -/
def giveEntry (i : Nat) (p : Piece) (s : State) : State :=
  if p.last then judgeDrain (countGiven (sendPiece i p s)) else countGiven (sendPiece i p s)

/-- A short reply given (R141, R142), which may complete a drain (R191). -/
def giveShort (d : Nat) (s : State) : State := judgeDrain (countGiven (freeDescriptor d s))

/-- One segment given for a member (R142). -/
def giveMember (length capacity : Nat) (m : Member) (im : Image) (s : State) : State × Image :=
  match m with
  | .desc d =>
    match s.descriptor d with
    | none => (s, im)
    | some r => (giveShort d s, segmentImage length (r.segment s.mgmt.node))
  | .entry i =>
    let p := s.pieceOf (s.entry i) capacity
    (giveEntry i p s, segmentImage length ((s.entry i).replySegment s.mgmt.node p))

/-- The filling step of a GIVE or BOTH slot (R32, R135). -/
def fillStep (length capacity : Nat) (im : Image) (s : State) : State × Image :=
  if im.kind = .void then
    match s.replyQueue.find? (s.memberCanProgress capacity) with
    | none => (s, im)
    | some m => giveMember length capacity m im s
  else (s, im)

end Sys2Proof.Machine
end

