-- ==== Sys2Proof/Machine/SlotEngine.lean ====
section
/-! DEFINITION. The Slot Engine (spec/02, section 2.2): the arrival of a slot, its routing, and its forwarding; and the
meanings of the commands that are arrivals of slots. -/

namespace Sys2Proof.Machine

/-! ### The decision on a presented slot (R25 to R33) -/

/-- Whether a slot with a good header is in sequence (R26). -/
def State.inSequence (s : State) (index : Byte) : Bool :=
  decide (index.toNat < s.ring.slotCount.toNat)
    && (match s.prevIndex with
      | none => true
      | some p => decide (p.toNat < index.toNat))

/-- The active entry of a slot index. -/
def State.activeEntry (s : State) (index : Byte) : SchedEntry := s.sched.active.getD index.toNat SchedEntry.initial

/-- Whether an entry's channel match admits a channel (R29). -/
def SchedEntry.matchesChannel (e : SchedEntry) (channel : Byte) : Bool :=
  match e.channel with
  | none => true
  | some c => decide (c = channel)

/-- The stripping step on a slot. -/
def Arrival.strip (a : Arrival) (x : State × Image) : State × Image := stripStep a.index x.2 x.1

/-- The intake step on a slot. -/
def Arrival.intake (a : Arrival) (filter : Option Byte) (x : State × Image) : State × Image :=
  intakeStep filter a x.2 x.1

/-- The filling step on a slot. -/
def Arrival.fill (a : Arrival) (x : State × Image) : State × Image :=
  fillStep (payloadLength a.size) a.capacity x.2 x.1

/-- A slot handled under its entry's action (R30 to R33). -/
def applyAction (action : Action) (filter : Option Byte) (a : Arrival) (s : State) : State × Image :=
  match action with
  | .pass => (s, a.image)
  | .take => a.intake filter (s, a.image)
  | .give => a.fill (a.strip (s, a.image))
  | .both => a.fill (a.intake filter (a.strip (s, a.image)))

/-- A slot on a channel other than 0 with a good payload check (R29). -/
def scheduledSlot (a : Arrival) (s : State) : State × Image :=
  let e := s.activeEntry a.index
  if e.matchesChannel a.channel then applyAction e.action e.source a s
  else (report { kind := .scheduleMismatch, index := some a.index } s, a.image)

/-- An in-sequence slot (R27, R28, R29): the state after it, and the slot as it leaves. A slot re-marked FAULTED carries the
regenerated check whatever mark it arrived with. -/
def inSequenceSlot (a : Arrival) (s : State) : State × RawSlot :=
  if a.payloadGood then
    let r := if a.channel = 0 then managementSlot (payloadLength a.size) a.index a.capacity a.image s
      else scheduledSlot a s
    (r.1, a.forwarded r.2)
  else (report { kind := .payloadFault, index := some a.index } s, a.raw.withPayload .faulted a.payload)

/-- A slot presented to the Slot Engine (R25, R26): the first step that settles it ends the decision. -/
def presentSlot (a : Arrival) (s : State) : State × RawSlot :=
  if !a.headerGood then (report { kind := .headerFault } s, a.raw)
  else if !s.inSequence a.index then (report { kind := .slotSequence, index := some a.index } s, a.raw)
  else inSequenceSlot a (s.withPrevIndex (some a.index))

/-- The slot leaves on the line out (R9, R34). -/
def forwardSlot (out : RawSlot) (s : State) : State := s.withRing { s.ring with lineOut := .slot out }

/-- Whether slots are presented to the Slot Engine: in SYNC, in a cycle that is not blind (R8). -/
def State.presents (s : State) : Bool := decide (s.ring.state = .sync) && !s.ring.blind

/-- The arrival of a slot (R8). -/
def slotArrival (a : Arrival) (s : State) : State :=
  if s.ring.state = .down then s
  else if s.presents then forwardSlot (presentSlot a s).2 (presentSlot a s).1
  else forwardSlot a.raw s

/-- What a command that is the arrival of a slot answers. -/
def arrive (a : Arrival) (s : State) : Host.Outcome State Fault Refusal := .next (unlessPinReset (slotArrival a) s)

/-! ### The meanings: any slot -/

/-- SLOT_ARRIVAL (R8). -/
def execSlotArrival (slot : RawSlot) (s : State) : Host.Outcome State Fault Refusal := arrive (judgeSlot slot) s

/-! ### The meanings: management requests

Each is the arrival of a channel-0 slot of kind MGMT with good checks that carries the record. Where a row fixes a bit of
the record (NEXT or AT, the flush and quiet options, the valid bit), the command sets that bit. -/

/-- IDENTIFY (R160). -/
def execIdentify (m : MgmtSlot) (s : State) : Host.Outcome State Fault Refusal := arrive (m.arrival .identify) s

/-- ASSIGN (R161). -/
def execAssign (m : MgmtSlot) (s : State) : Host.Outcome State Fault Refusal := arrive (m.arrival .assign) s

/-- CONFIGURE (R162). -/
def execConfigure (m : MgmtSlot) (s : State) : Host.Outcome State Fault Refusal := arrive (m.arrival .configure) s

/-- SCHED-LOAD (R35). -/
def execSchedLoad (m : MgmtSlot) (s : State) : Host.Outcome State Fault Refusal := arrive (m.arrival .schedLoad) s

/-- SCHED-READ (R36). -/
def execSchedRead (m : MgmtSlot) (s : State) : Host.Outcome State Fault Refusal := arrive (m.arrival .schedRead) s

/-- SCHED-COMMIT NEXT (R38): the selector is 1. -/
def execSchedCommitNext (m : MgmtSlot) (s : State) : Host.Outcome State Fault Refusal :=
  arrive ((m.mapParam 0 (fun _ => 1)).arrival .schedCommit) s

/-- SCHED-COMMIT AT (R38): the selector is 2. -/
def execSchedCommitAt (m : MgmtSlot) (s : State) : Host.Outcome State Fault Refusal :=
  arrive ((m.mapParam 0 (fun _ => 2)).arrival .schedCommit) s

/-- SCHED-CANCEL (R42). -/
def execSchedCancel (m : MgmtSlot) (s : State) : Host.Outcome State Fault Refusal := arrive (m.arrival .schedCancel) s

/-- WINDOW-LOAD of a record with the valid bit 1 (R93). -/
def execWindowLoad (m : MgmtSlot) (s : State) : Host.Outcome State Fault Refusal :=
  arrive ((m.mapArg 1 (fun b => b ||| 0x80)).arrival .windowLoad) s

/-- WINDOW-LOAD of a record with the valid bit 0 (R94). -/
def execWindowInvalidate (m : MgmtSlot) (s : State) : Host.Outcome State Fault Refusal :=
  arrive ((m.mapArg 1 (fun b => b &&& 0x7F)).arrival .windowLoad) s

/-- WINDOW-READ (R95). -/
def execWindowRead (m : MgmtSlot) (s : State) : Host.Outcome State Fault Refusal := arrive (m.arrival .windowRead) s

/-- START (R188). -/
def execStart (m : MgmtSlot) (s : State) : Host.Outcome State Fault Refusal := arrive (m.arrival .start) s

/-- STOP without the flush option (R189). -/
def execStop (m : MgmtSlot) (s : State) : Host.Outcome State Fault Refusal :=
  arrive ((m.mapParam 0 (fun b => b &&& 0xFE)).arrival .stop) s

/-- STOP with the flush option (R190). -/
def execStopWithFlush (m : MgmtSlot) (s : State) : Host.Outcome State Fault Refusal :=
  arrive ((m.mapParam 0 (fun b => b ||| 0x01)).arrival .stop) s

/-- ABORT without the quiet option (R82). -/
def execAbort (m : MgmtSlot) (s : State) : Host.Outcome State Fault Refusal :=
  arrive ((m.mapParam 3 (fun b => b &&& 0xFE)).arrival .abort) s

/-- ABORT with the quiet option (R82). -/
def execAbortQuiet (m : MgmtSlot) (s : State) : Host.Outcome State Fault Refusal :=
  arrive ((m.mapParam 3 (fun b => b ||| 0x01)).arrival .abort) s

/-- STATUS (R167). -/
def execStatus (m : MgmtSlot) (s : State) : Host.Outcome State Fault Refusal := arrive (m.arrival .status) s

/-- REPORT-READ (R168). -/
def execReportRead (m : MgmtSlot) (s : State) : Host.Outcome State Fault Refusal := arrive (m.arrival .reportRead) s

/-- REPORT-CLEAR (R169). -/
def execReportClear (m : MgmtSlot) (s : State) : Host.Outcome State Fault Refusal := arrive (m.arrival .reportClear) s

/-- RESET (R170). -/
def execReset (m : MgmtSlot) (s : State) : Host.Outcome State Fault Refusal := arrive (m.arrival .reset) s

/-! ### The meanings: request segments

Each is the arrival of a slot of kind DATA with good checks that carries the segment; the slot's channel and the active
schedule decide what becomes of it. -/

/-- READ (R46): a first segment. -/
def execRead (g : SegSlot) (s : State) : Host.Outcome State Fault Refusal := arrive (g.arrival .read 0) s

/-- WRITE (R46): a first segment. -/
def execWrite (g : SegSlot) (s : State) : Host.Outcome State Fault Refusal := arrive (g.arrival .write 0) s

/-- WRITE-QUIET (R46): a first segment. -/
def execWriteQuiet (g : SegSlot) (s : State) : Host.Outcome State Fault Refusal := arrive (g.arrival .writeQuiet 0) s

/-- SWAP (R45, R46). -/
def execSwap (g : SegSlot) (s : State) : Host.Outcome State Fault Refusal := arrive (g.arrival .swap 0) s

/-- ADD (R45, R46). -/
def execAdd (g : SegSlot) (s : State) : Host.Outcome State Fault Refusal := arrive (g.arrival .add 0) s

/-- CSWAP (R45, R46). -/
def execCswap (g : SegSlot) (s : State) : Host.Outcome State Fault Refusal := arrive (g.arrival .cswap 0) s

/-- LATER_SEGMENT (R63): a segment of any request operation with its own offset. -/
def execLaterSegment (op : ReqOp) (offset : Half) (g : SegSlot) (s : State) : Host.Outcome State Fault Refusal :=
  arrive (g.arrival op offset) s

end Sys2Proof.Machine
end

