-- ==== Sys2Proof/Machine/Dispatch.lean ====
section
/-! DEFINITION. The meaning of each command, one arm per constructor. -/

namespace Sys2Proof.Machine

def exec (i : Instr) (s : State) : Host.Outcome State Fault Refusal :=
  match i with
  | .lineLoss => Sys2Proof.Machine.execLineLoss s
  | .lineRestore => Sys2Proof.Machine.execLineRestore s
  | .cycleMark record => Sys2Proof.Machine.execCycleMark record s
  | .cycleLost => Sys2Proof.Machine.execCycleLost s
  | .timebaseTick => Sys2Proof.Machine.execTimebaseTick s
  | .scheduleSwap => Sys2Proof.Machine.execScheduleSwap s
  | .assemblyGapExpiry => Sys2Proof.Machine.execAssemblyGapExpiry s
  | .replyExpired => Sys2Proof.Machine.execReplyExpired s
  | .slotArrival slot => Sys2Proof.Machine.execSlotArrival slot s
  | .identify m => Sys2Proof.Machine.execIdentify m s
  | .assign m => Sys2Proof.Machine.execAssign m s
  | .configure m => Sys2Proof.Machine.execConfigure m s
  | .schedLoad m => Sys2Proof.Machine.execSchedLoad m s
  | .schedRead m => Sys2Proof.Machine.execSchedRead m s
  | .schedCommitNext m => Sys2Proof.Machine.execSchedCommitNext m s
  | .schedCommitAt m => Sys2Proof.Machine.execSchedCommitAt m s
  | .schedCancel m => Sys2Proof.Machine.execSchedCancel m s
  | .windowLoad m => Sys2Proof.Machine.execWindowLoad m s
  | .windowInvalidate m => Sys2Proof.Machine.execWindowInvalidate m s
  | .windowRead m => Sys2Proof.Machine.execWindowRead m s
  | .start m => Sys2Proof.Machine.execStart m s
  | .stop m => Sys2Proof.Machine.execStop m s
  | .stopWithFlush m => Sys2Proof.Machine.execStopWithFlush m s
  | .abort m => Sys2Proof.Machine.execAbort m s
  | .abortQuiet m => Sys2Proof.Machine.execAbortQuiet m s
  | .status m => Sys2Proof.Machine.execStatus m s
  | .reportRead m => Sys2Proof.Machine.execReportRead m s
  | .reportClear m => Sys2Proof.Machine.execReportClear m s
  | .reset m => Sys2Proof.Machine.execReset m s
  | .softResetTakesEffect => Sys2Proof.Machine.execSoftResetTakesEffect s
  | .read g => Sys2Proof.Machine.execRead g s
  | .write g => Sys2Proof.Machine.execWrite g s
  | .writeQuiet g => Sys2Proof.Machine.execWriteQuiet g s
  | .swap g => Sys2Proof.Machine.execSwap g s
  | .add g => Sys2Proof.Machine.execAdd g s
  | .cswap g => Sys2Proof.Machine.execCswap g s
  | .laterSegment op offset g => Sys2Proof.Machine.execLaterSegment op offset g s
  | .busCycleStart => Sys2Proof.Machine.execBusCycleStart s
  | .beatTaken waits answer width data => Sys2Proof.Machine.execBeatTaken waits answer width data s
  | .busError waits => Sys2Proof.Machine.execBusError waits s
  | .busTimeout => Sys2Proof.Machine.execBusTimeout s
  | .holdRequest => Sys2Proof.Machine.execHoldRequest s
  | .holdRelease => Sys2Proof.Machine.execHoldRelease s
  | .holdLong => Sys2Proof.Machine.execHoldLong s
  | .drainComplete => Sys2Proof.Machine.execDrainComplete s
  | .pinReset => Sys2Proof.Machine.execPinReset s
  | .pinResetRelease => Sys2Proof.Machine.execPinResetRelease s
  | .lockedSequenceNextCycle => Sys2Proof.Machine.execLockedSequenceNextCycle s

end Sys2Proof.Machine
end

