-- ==== Sys2Proof/WellFormed.lean ====
section
/-! DEFINITION. Which commands are well formed: operands that the line or the bus can carry. `exec` is total on every
command; an operand that cannot stand on the line is caught here. -/

namespace Sys2Proof

/-- A slot header that R3 can judge good: index 0..239, size code 0..15. -/
def headerFits (index size : Byte) : Bool :=
  decide (index.toNat < 240) && decide (size.toNat < 16)

/-- The capacity of a slot of this size code: its payload length less 16 (R31). -/
def capacityOf (size : Byte) : Nat := 16 * size.toNat

/-- A management slot fits: a good header, eight parameter bytes, and arguments within the capacity. -/
def MgmtSlot.fits (m : MgmtSlot) : Bool :=
  headerFits m.index m.size && decide (m.param.length = 8) && decide (m.args.length ≤ capacityOf m.size)

/-- A segment slot fits: a good header on a channel of 1..63, and data within the capacity. -/
def SegSlot.fits (g : SegSlot) : Bool :=
  headerFits g.index g.size && decide (0 < g.channel.toNat) && decide (g.channel.toNat < 64)
    && decide (g.data.length ≤ capacityOf g.size)

/-- A record fits: up to six bytes are the record's (R2). Which symbols can stand before its mark depends on what arrived
before it; any are taken. -/
def RawRecord.fits (record : RawRecord) : Bool := decide (record.bytes.length ≤ 6)

/-- A slot fits: bytes that follow no Payload Mark are header bytes (R3). -/
def RawSlot.fits (slot : RawSlot) : Bool := slot.mark.isSome || slot.body.isEmpty

/-- The well-formedness of a command. -/
def Instr.wellFormed : Instr → Bool
  | .lineLoss | .lineRestore | .cycleLost | .timebaseTick | .scheduleSwap | .assemblyGapExpiry | .replyExpired
  | .softResetTakesEffect | .busCycleStart | .busTimeout
  | .holdRequest | .holdRelease | .holdLong | .drainComplete | .pinReset | .pinResetRelease
  | .lockedSequenceNextCycle => true
  | .cycleMark record => record.fits
  | .slotArrival slot => slot.fits
  | .identify m | .assign m | .configure m | .schedLoad m | .schedRead m | .schedCommitNext m | .schedCommitAt m
  | .schedCancel m | .windowLoad m | .windowInvalidate m | .windowRead m | .start m | .stop m | .stopWithFlush m
  | .abort m | .abortQuiet m | .status m | .reportRead m | .reportClear m | .reset m => m.fits
  | .read g | .write g | .writeQuiet g | .swap g | .add g | .cswap g => g.fits
  | .laterSegment _ offset g => g.fits && decide (0 < offset.toNat)
  | .beatTaken waits _ _ _ => decide (waits < 255)
  | .busError waits => decide (waits < 255)

end Sys2Proof
end

