-- ==== Sys2Proof/Safety.lean ====
section
/-! DEFINITION. What it means for a state to obey the laws of the device: the invariants that the spec calls laws, block by
block, and the conditions on a state and a command under which a command has its own effect. -/

namespace Sys2Proof.Machine

/-! ### Laws of a state -/

/-- R110, R112, R120: the lock indication is on exactly in LOCKED, the grant exactly in YIELDED, where a grant time is held;
a beat is on the bus only in CYCLE and LOCKED. R113: a separating clock is awaited only in IDLE. -/
def State.busLaw (s : State) : Prop :=
  (s.bus.lock = true ↔ s.bus.engine = .locked) ∧ (s.bus.grant = true ↔ s.bus.engine = .yielded)
    ∧ (s.bus.grantTime.isSome = true ↔ s.bus.engine = .yielded)
    ∧ (s.bus.current.isSome = true → s.bus.busy = true) ∧ (s.bus.separating = true → s.bus.engine = .idle)

/-- R1, R10, R14, R16, R17, R24, R26: the line is lost exactly in DOWN; only a cycle in SYNC is blind; a capture is held only in
ARMED and SYNC; a measured period is not 0; the divider is below the prescaler; slot indices are in range. -/
def State.ringLaw (s : State) : Prop :=
  (s.ring.lost = true ↔ s.ring.state = .down) ∧ (s.ring.blind = true → s.ring.state = .sync)
    ∧ (s.ring.captured.isSome = true → s.ring.state = .armed ∨ s.ring.state = .sync)
    ∧ s.ring.period ≠ some 0 ∧ s.ring.divider < s.mgmt.params.prescaler.clocks
    ∧ s.ring.slotCount.toNat ≤ 240 ∧ (∀ i, s.prevIndex = some i → i.toNat < 240)

/-- R151, R154, R162: the manager is none exactly while the node number is 0; both are in range; the Management Reply Queue
holds at most four records; the configuration is in range. -/
def State.mgmtLaw (s : State) : Prop :=
  (s.mgmt.manager = none ↔ s.mgmt.node = 0) ∧ s.mgmt.node.toNat ≤ 62
    ∧ (∀ n, s.mgmt.manager = some n → isNode n = true) ∧ s.mgmt.queue.length ≤ Config.mgmtReplies
    ∧ s.mgmt.params.cycleLimit < 2 ^ 24 ∧ s.mgmt.params.holdLimit < 2 ^ 24
    ∧ 1 ≤ s.mgmt.params.gapLimit ∧ s.mgmt.params.gapLimit ≤ 15
    ∧ 1 ≤ s.mgmt.params.deadline ∧ s.mgmt.params.deadline ≤ 15

/-- R187: the flush indication is set only while the bridge is DRAINING. -/
def State.bridgeLaw (s : State) : Prop := s.bridge.flush = true → s.bridge.state = .draining

/-- R173, R176: the counts saturate; a record's kind belongs to its bank; overflow is set exactly when later reports have been
added. -/
def Bank.law (b : Bank) (name : BankName) : Prop :=
  b.events ≤ 65535 ∧ ∀ r, b.record = some r → r.kind.bank = name ∧ r.later ≤ 65535 ∧ (r.overflow = true ↔ 0 < r.later)

/-- The law of the four banks. -/
def State.reportLaw (s : State) : Prop := ∀ name, (s.reports.bank name).law name

/-- R22: a schedule entry's fields are in range. -/
def SchedEntry.law (e : SchedEntry) : Prop :=
  (∀ c, e.channel = some c → c.toNat < 64) ∧ (∀ n, e.source = some n → isNode n = true)

/-- R22: two banks of 240 entries. -/
def State.schedLaw (s : State) : Prop :=
  s.sched.active.length = Config.slots ∧ s.sched.shadow.length = Config.slots
    ∧ (∀ e ∈ s.sched.active, e.law) ∧ (∀ e ∈ s.sched.shadow, e.law)

/-- R89, R91: a window's fields are in range while it is valid. -/
def Window.law (w : Window) : Prop :=
  w.valid = true → w.base.toNat % 256 = 0 ∧ w.size ≠ 0 ∧ w.limit ≤ 2 ^ 32 ∧ w.budget ≠ 0
    ∧ ∀ n, w.owner = some n → isNode n = true

/-- R89, R91: sixteen windows, and no two valid windows cover a common address. -/
def State.windowLaw (s : State) : Prop :=
  s.windows.length = Config.windows ∧ (∀ i, (s.window i).law)
    ∧ ∀ i j a, (s.window i).holds a = true → (s.window j).holds a = true → i = j

/-- R78, log 7: the pool's list of bytes is in its canonical form. -/
def State.poolLaw (s : State) : Prop := Memory.wf s.table.pool = true

/-- R72: at most one entry is EXECUTING. -/
def State.oneExecuting (s : State) : Prop :=
  ∀ i j, (s.entry i).state = .executing → (s.entry j).state = .executing → i = j

/-- R110, R120: a cycle in progress belongs to an EXECUTING entry that is no locked operation, and a locked sequence to an
EXECUTING locked operation. -/
def State.lockLaw (s : State) : Prop :=
  (s.bus.engine = .cycle → ∃ i, (s.entry i).state = .executing ∧ (s.entry i).op.locked = false)
    ∧ (s.bus.engine = .locked → ∃ i, (s.entry i).state = .executing ∧ (s.entry i).op.locked = true)

/-- R81: an entry that has not been handed over is not marked. R80, R111, R113, R120, R122: a locked operation that is EXECUTING
is in its locked sequence, or, unmarked and with its read part planned, waits for its sequence to start: in IDLE for the
separating clock, or in YIELDED for the hold release (log 2). -/
def State.sequenceLaw (s : State) : Prop :=
  (∀ i, (s.entry i).state = .assembling ∨ (s.entry i).state = .queued → (s.entry i).mark = .none)
    ∧ ∀ i, (s.entry i).state = .executing → (s.entry i).op.locked = true →
        s.bus.engine = .locked
          ∨ (s.bus.engine = .idle ∧ s.bus.separating = true ∨ s.bus.engine = .yielded) ∧ (s.entry i).mark = .none
            ∧ s.bus.plan = lockedPart (s.entry i) s.bus.width false

/-- R68, R80, R133: the allocation order lists exactly the open entries, the Request Queue exactly the QUEUED ones, and the
Reply Queue the pending descriptors, the REPLYING entries and EXECUTING READs (all of them but one that a claim has marked
quiet, which a teardown takes out: log 9), each once. -/
def State.queueLaw (s : State) : Prop :=
  s.table.entries.length = Config.entries ∧ s.descriptors.length = Config.descriptors
    ∧ s.table.order.Nodup ∧ (∀ i, i ∈ s.table.order ↔ (s.entry i).state ≠ .free)
    ∧ s.table.requests.Nodup ∧ (∀ i, i ∈ s.table.requests ↔ (s.entry i).state = .queued)
    ∧ s.replyQueue.Nodup ∧ (∀ d, .desc d ∈ s.replyQueue ↔ (s.descriptor d).isSome = true)
    ∧ (∀ i, .entry i ∈ s.replyQueue → (s.entry i).state = .replying ∨ (s.entry i).state = .executing ∧ (s.entry i).op = .read)
    ∧ (∀ i, (s.entry i).state = .replying → .entry i ∈ s.replyQueue)
    ∧ (∀ i, (s.entry i).state = .executing → (s.entry i).op = .read → (s.entry i).mark ≠ .quiet → .entry i ∈ s.replyQueue)

/-- R68, R70, R71, R76, R77: the total length of an open entry is 1..1024; sent is not above done, done not above the total
length, and both are 0, and no old value held, before execution; only a write receives: bytes are lacking while it assembles,
and none while it waits, executes, or replies after execution; one that ended while it assembled still lacks them and has
done 0. -/
def Entry.countLaw (e : Entry) : Prop :=
  e.sent ≤ e.done ∧ e.done ≤ e.total ∧ (e.op ≠ .read → e.sent = 0)
    ∧ (e.state = .assembling ∨ e.state = .queued → e.done = 0 ∧ e.old = none)
    ∧ (e.state ≠ .free → 1 ≤ e.total ∧ e.total ≤ 1024)
    ∧ (e.state ≠ .free → e.op.isWrite = false → e.received = 0)
    ∧ (e.state = .assembling → e.op.isWrite = true ∧ e.received < e.total)
    ∧ (e.state = .queued ∨ e.state = .executing → e.op.isWrite = true → e.received = e.total)
    ∧ (e.state = .replying → e.op.isWrite = true →
        e.received ≤ e.total
          ∧ (e.final = some .sequence ∨ e.final = some .incomplete → e.received < e.total ∧ e.done = 0)
          ∧ (e.final ≠ some .sequence ∧ e.final ≠ some .incomplete ∧ e.final ≠ some .aborted ∨ e.done ≠ 0 →
              e.received = e.total))

/-- R76, for every entry. -/
def State.countLaw (s : State) : Prop := ∀ i, (s.entry i).countLaw

/-- R78: an open entry's blocks are blocks of the pool, each once, as many as its operation and total length ask for. -/
def Entry.blockLaw (e : Entry) : Prop :=
  e.blocks.length = (if e.op.locked then 1 else (e.total + 255) / 256) ∧ e.blocks.Nodup ∧ ∀ b ∈ e.blocks, b < Config.blocks

/-- R78: so for every open entry; and no two of them hold the same block. -/
def State.blockLaw (s : State) : Prop :=
  (∀ i, (s.entry i).state ≠ .free → (s.entry i).blockLaw)
    ∧ ∀ i j, (s.entry i).state ≠ .free → (s.entry j).state ≠ .free → ∀ b ∈ (s.entry i).blocks, b ∈ (s.entry j).blocks → i = j

/-- R69: no two open entries have the same source node and tag. -/
def State.pairLaw (s : State) : Prop :=
  ∀ i j, (s.entry i).state ≠ .free → (s.entry j).state ≠ .free → (s.entry i).source = (s.entry j).source →
    (s.entry i).tag = (s.entry j).tag → i = j

/-- R79, R92: the in-use count of a window is the number of entries in ASSEMBLING, QUEUED or EXECUTING that refer to it. -/
def Entry.holdsWindow (e : Entry) (w : Nat) : Bool :=
  (decide (e.state = .assembling) || decide (e.state = .queued) || decide (e.state = .executing)) && decide (e.window = w)

/-- R92, for every window; entries refer to windows that exist. -/
def State.inUseLaw (s : State) : Prop :=
  s.windows.length = Config.windows ∧ (∀ i, (s.entry i).window < Config.windows)
    ∧ ∀ w, w < Config.windows → (s.window w).inUse = (s.table.entries.filter (fun e => e.holdsWindow w)).length

/-! ### Codes -/

/-- The codes of the banks, and of the kinds within each bank, as the table of spec/08, section 8.4, gives them. -/
def ReportKind.codesAreOfTheTables : Prop :=
  [BankName.ring, .slot, .bus, .mgmt].map BankName.code = [0, 1, 2, 3]
    ∧ [ReportKind.lineLoss, .cycleLost, .cycleSkip, .cycleRecordFault, .headerFault, .slotSequence, .scheduleMismatch,
        .commitLate].map (fun k => (k.bank, k.code))
      = [(.ring, 1), (.ring, 2), (.ring, 3), (.ring, 4), (.ring, 5), (.ring, 6), (.ring, 7), (.ring, 8)]
    ∧ [ReportKind.payloadFault, .refused, .incomplete, .sequence, .orphan, .replyUndelivered, .replyExpired].map
        (fun k => (k.bank, k.code))
      = [(.slot, 1), (.slot, 2), (.slot, 3), (.slot, 4), (.slot, 5), (.slot, 6), (.slot, 7)]
    ∧ [ReportKind.busError, .busTimeout, .holdLong, .abortedInFlight, .quietFailure].map (fun k => (k.bank, k.code))
      = [(.bus, 1), (.bus, 2), (.bus, 3), (.bus, 4), (.bus, 5)]
    ∧ [ReportKind.denied, .badRequest, .replyReturned, .softReset].map (fun k => (k.bank, k.code))
      = [(.mgmt, 1), (.mgmt, 2), (.mgmt, 3), (.mgmt, 4)]

/-! ### When an arrival has its own effect -/

/-- Slots are presented to the Slot Engine, and one of this index is in sequence (R8, R26). -/
def State.admits (s : State) (index : Byte) : Prop :=
  s.pins.reset = false ∧ s.ring.state = .sync ∧ s.ring.blind = false ∧ index.toNat < s.ring.slotCount.toNat
    ∧ ∀ p, s.prevIndex = some p → p.toNat < index.toNat

/-- The reply to a request queued (R157, R158), its slot's index held as the previous one (R26). -/
def State.replied (s : State) (m : MgmtSlot) (op : MgmtOp) (status : MgmtStatus) (param args : List Byte) : State :=
  { s with
    prevIndex := some m.index
    mgmt := { s.mgmt with
      queue := s.mgmt.queue
        ++ [{ dest := m.source, tag := m.tag, op := op.code + 0x80, status := status.code, param := padTo 8 param, args := args }] } }

/-- A slot put on the line out. -/
def State.leaving (s : State) (out : RawSlot) : State := { s with ring := { s.ring with lineOut := .slot out } }

/-- The lowest-numbered FREE entry and the lowest-numbered free blocks are `i` and `blocks` (R56, R57). -/
def State.offers (s : State) (i : Nat) (blocks : List Nat) (need : Nat) : Prop :=
  i < s.table.entries.length ∧ (s.entry i).state = .free ∧ (∀ j, j < i → (s.entry j).state ≠ .free)
    ∧ need ≤ s.freeBlocks.length ∧ blocks = s.freeBlocks.take need

/-- A cycle mark in SYNC at which nothing expires: the Ring Port as `ring`, with the mark's number; the previous slot index
none (R24); the gap counts and reply-deadline counts advanced (R66, R146); the banks swapped where a commit is due in time
(R39 to R41); one more cycle in SYNC (R182). -/
def State.markedAs (s : State) (ring : RingPort) : State :=
  { s with
    ring := ring
    prevIndex := none
    sched := (match s.sched.commit with
      | .none => s.sched
      | .pendingNext =>
        { active := s.sched.shadow, shadow := s.sched.shadow, commit := .none, swapCycle := some ring.lastCycle }
      | .pendingAt n =>
        if n = ring.lastCycle then
          { active := s.sched.shadow, shadow := s.sched.shadow, commit := .none, swapCycle := some ring.lastCycle }
        else s.sched)
    table := { s.table with
      entries := s.table.entries.map (fun e =>
        if e.state = .assembling then { e with gap := e.gap + 1 }
        else if e.state = .replying then { e with deadline := e.deadline + 1 } else e) }
    reports := { s.reports with
      counters := { s.reports.counters with cyclesInSync := s.reports.counters.cyclesInSync + 1 } } }

/-- At the next cycle mark in SYNC entry `i`, in ASSEMBLING, reaches the gap limit (R66). -/
def State.reachesGapLimit (s : State) (i : Nat) : Prop :=
  (s.entry i).state = .assembling ∧ s.mgmt.params.gapLimit ≤ (s.entry i).gap + 1

/-- At the next cycle mark in SYNC entry `i`, in REPLYING, reaches the reply deadline (R146). -/
def State.reachesDeadline (s : State) (i : Nat) : Prop :=
  (s.entry i).state = .replying ∧ s.mgmt.params.deadline ≤ (s.entry i).deadline + 1

/-- At a cycle mark of this number the pending commit's target has passed (R40). -/
def State.commitLateAt (s : State) (number : Half) : Prop :=
  ∃ n, s.sched.commit = .pendingAt n ∧ 1 ≤ (number - n).toNat ∧ (number - n).toNat ≤ 32767

/-- At a cycle mark of this number no write reaches the gap limit, no reply its deadline, and no commit is late. -/
def State.nothingExpires (s : State) (number : Half) : Prop :=
  (∀ i, ¬s.reachesGapLimit i) ∧ (∀ i, ¬s.reachesDeadline i) ∧ ¬s.commitLateAt number

/-- The arrival of a cycle mark with this record is a cycle mark in SYNC of this number (R12 to R15). -/
def State.marksSync (s : State) (record : List Byte) (number : Half) : Prop :=
  (∃ c, judgeCycle record = some c ∧ c.number = number
      ∧ (s.ring.state = .sync ∨ s.ring.state = .armed ∧ number = s.ring.lastCycle + 1))
    ∨ judgeCycle record = none ∧ s.ring.state = .sync ∧ s.ring.blind = false ∧ number = s.ring.lastCycle + 1

end Sys2Proof.Machine

namespace Sys2Proof

open Machine

/-- A management request is judged by its own operation's authority and rule: its slot is admitted, it is addressed or
broadcast and no return (R152), it is not malformed (R153), and it has room for its reply (R154). -/
def MgmtSlot.reaches (m : MgmtSlot) (s : State) : Prop :=
  m.fits = true ∧ s.admits m.index ∧ (m.dest = s.mgmt.node ∨ s.mgmt.node ≠ 0 ∧ m.dest = 63)
    ∧ (s.mgmt.node ≠ 0 → m.source ≠ s.mgmt.node) ∧ m.status = 0 ∧ m.flags = 0 ∧ m.argLen.toNat ≤ capacityOf m.size
    ∧ s.mgmt.queue.length < 4 ∧ s.bridge.softReset = none

/-- The node has a manager, and the request comes from it (R156). -/
def MgmtSlot.authorised (m : MgmtSlot) (s : State) : Prop := s.mgmt.node ≠ 0 ∧ s.mgmt.manager = some m.source

/-- How the slot of an answered request leaves (R152, R157): voided where it was addressed, unchanged where it was
broadcast. -/
def MgmtSlot.leavesAs (m : MgmtSlot) (op : MgmtOp) (s : State) : RawSlot :=
  if m.dest = s.mgmt.node then encodeSlot m.index 0 m.size .void (List.replicate (payloadLength m.size) 0)
  else (m.arrival op).raw

/-- A request segment comes to the Segment Intake: its slot is admitted, its schedule entry matches and takes requests from
this source (R29, R31, R33, R49), and it is for this node (R47). -/
def SegSlot.presented (g : SegSlot) (s : State) : Prop :=
  g.fits = true ∧ s.admits g.index
    ∧ ((s.activeEntry g.index).channel = none ∨ (s.activeEntry g.index).channel = some g.channel)
    ∧ ((s.activeEntry g.index).action = .take ∨ (s.activeEntry g.index).action = .both)
    ∧ ((s.activeEntry g.index).source = none ∨ (s.activeEntry g.index).source = some g.source)
    ∧ s.mgmt.node ≠ 0 ∧ g.dest = s.mgmt.node ∧ isNode g.source = true

/-- It comes to the checks: the bridge state lets it through (R50). -/
def SegSlot.reaches (g : SegSlot) (offset : Half) (s : State) : Prop :=
  g.presented s ∧ (s.bridge.state = .running ∨ s.bridge.state = .draining ∧ offset ≠ 0)

/-- What follows a segment that was taken (R31, R33): the slot is voided, the filling step of a BOTH slot may put a reply
segment into it, and it leaves. `s` is the state at the arrival, `t` the state after the intake. -/
def SegSlot.consumed (g : SegSlot) (s t : State) : State :=
  let void : Image := { kind := .void, payload := List.replicate (payloadLength g.size) 0 }
  let r := if (s.activeEntry g.index).action = .both then fillStep (payloadLength g.size) (capacityOf g.size) void t else (t, void)
  r.1.leaving (encodeSlot g.index g.channel g.size r.2.kind r.2.payload)

/-- What follows a segment that was left: the slot leaves as it arrived (R58). -/
def SegSlot.left (g : SegSlot) (op : ReqOp) (offset : Half) (t : State) : State := t.leaving (g.arrival op offset).raw

/-- A first segment that passes R51 to R55 in window `w`, the fields as R46 gives them for its operation. -/
def SegSlot.passes (g : SegSlot) (op : ReqOp) (w : Nat) (s : State) : Prop :=
  g.status = 0 ∧ g.flags &&& 0xFE = 0 ∧ g.count.toNat ≤ capacityOf g.size
    ∧ 1 ≤ g.total.toNat ∧ g.total.toNat ≤ 1024 ∧ g.addr.toNat + g.total.toNat ≤ 2 ^ 32
    ∧ (match op with
      | .read => g.count = 0 ∧ g.flags = 1
      | .write | .writeQuiet =>
        1 ≤ g.count.toNat ∧ g.count.toNat ≤ g.total.toNat ∧ (g.flags = 1 ↔ g.count = g.total)
      | .swap | .add => g.count = g.total ∧ g.flags = 1
      | .cswap => g.count.toNat = 2 * g.total.toNat ∧ g.flags = 1)
    ∧ (op.locked = true → (g.total = 1 ∨ g.total = 2 ∨ g.total = 4) ∧ g.addr.toNat % g.total.toNat = 0)
    ∧ (∀ i, (s.entry i).state ≠ .free → ¬((s.entry i).source = g.source ∧ (s.entry i).tag = g.tag))
    ∧ (s.window w).valid = true ∧ (s.window w).base.toNat ≤ g.addr.toNat
    ∧ g.addr.toNat + g.total.toNat ≤ (s.window w).base.toNat + 256 * (s.window w).size.toNat
    ∧ ((s.window w).owner = none ∨ (s.window w).owner = some g.source)
    ∧ (match op with
      | .read => (s.window w).attrs.read = true
      | .write | .writeQuiet => (s.window w).attrs.write = true
      | .swap | .add | .cswap =>
        (s.window w).attrs.read = true ∧ (s.window w).attrs.write = true ∧ (s.window w).attrs.lock = true)

/-- A RESET that passes: addressed, from the manager, well formed, with no soft reset pending; the Management Reply Queue is
not looked at (R154, R170). -/
def MgmtSlot.resets (m : MgmtSlot) (s : State) : Prop :=
  m.fits = true ∧ s.admits m.index ∧ m.dest = s.mgmt.node ∧ m.authorised s ∧ m.source ≠ s.mgmt.node ∧ m.status = 0
    ∧ m.flags = 0 ∧ m.argLen.toNat ≤ capacityOf m.size ∧ s.bridge.softReset = none

/-- The management request that a command is the arrival of: its slot, with the bits the row fixes, and its operation. -/
def Instr.managementRequest : Instr → Option (MgmtSlot × MgmtOp)
  | .identify m => some (m, .identify)
  | .assign m => some (m, .assign)
  | .configure m => some (m, .configure)
  | .schedLoad m => some (m, .schedLoad)
  | .schedRead m => some (m, .schedRead)
  | .schedCommitNext m => some (m.mapParam 0 (fun _ => 1), .schedCommit)
  | .schedCommitAt m => some (m.mapParam 0 (fun _ => 2), .schedCommit)
  | .schedCancel m => some (m, .schedCancel)
  | .windowLoad m => some (m.mapArg 1 (fun b => b ||| 0x80), .windowLoad)
  | .windowInvalidate m => some (m.mapArg 1 (fun b => b &&& 0x7F), .windowLoad)
  | .windowRead m => some (m, .windowRead)
  | .start m => some (m, .start)
  | .stop m => some (m.mapParam 0 (fun b => b &&& 0xFE), .stop)
  | .stopWithFlush m => some (m.mapParam 0 (fun b => b ||| 0x01), .stop)
  | .abort m => some (m.mapParam 3 (fun b => b &&& 0xFE), .abort)
  | .abortQuiet m => some (m.mapParam 3 (fun b => b ||| 0x01), .abort)
  | .status m => some (m, .status)
  | .reportRead m => some (m, .reportRead)
  | .reportClear m => some (m, .reportClear)
  | .reset m => some (m, .reset)
  | _ => none

/-- The request segment that a command is the arrival of: its slot, its operation and its offset. -/
def Instr.segmentRequest : Instr → Option (SegSlot × ReqOp × Half)
  | .read g => some (g, .read, 0)
  | .write g => some (g, .write, 0)
  | .writeQuiet g => some (g, .writeQuiet, 0)
  | .swap g => some (g, .swap, 0)
  | .add g => some (g, .add, 0)
  | .cswap g => some (g, .cswap, 0)
  | .laterSegment op offset g => some (g, op, offset)
  | _ => none

/-- The commands that are arrivals of a cycle mark. -/
def Instr.isMark : Instr → Bool
  | .cycleMark _ | .scheduleSwap | .assemblyGapExpiry | .replyExpired => true
  | _ => false

/-- The command of a first segment of an operation. -/
def ReqOp.first (op : ReqOp) (g : SegSlot) : Instr :=
  match op with
  | .read => .read g
  | .write => .write g
  | .writeQuiet => .writeQuiet g
  | .swap => .swap g
  | .add => .add g
  | .cswap => .cswap g

end Sys2Proof
end

