-- ==== Sys2Proof/Certificates/Slice0/Obligations.lean ====
section
/-! DEFINITION. The statements for the provers. Each docstring names the rules it comes from; OBLIGATIONS.json lists them. What
a management command leaves is written with `State.replied`, `MgmtSlot.leavesAs` and `State.leaving`, and what a request segment
leaves with `SegSlot.consumed` and `SegSlot.left` (Sys2Proof/Safety.lean). -/

section
open Sys2Proof Sys2Proof.Machine

/-! ### The step -/

/-- The command at the front of the queue runs over the rest of the queue. -/
def Obligations.StepRunsTheFrontCommand : Prop :=
  ∀ (c : Instr) (rest : List Instr) (s : State),
    step { s with pending := c :: rest } = exec c { s with pending := rest }

/-- Every command answers a next state, in every state, and leaves the commands that wait as they are. -/
def Obligations.EveryCommandCompletesAndKeepsTheQueue : Prop :=
  ∀ (c : Instr) (s : State), ∃ t, exec c s = .next t ∧ t.pending = s.pending

/-- With nothing waiting, one tributary clock passes (the model's choice, log 3, and log 2 for the separating clock): the
divider counts, and at the prescaler a tick comes; then a beat on the bus is sampled WAIT, a separating clock passes, or
nothing moves. -/
def Obligations.StepOnAnEmptyQueueIsOneClock : Prop :=
  ∀ s t : State, s.pending = [] →
    (s.pins.reset = true → step s = .next s)
    ∧ (s.pins.reset = false →
        (if s.mgmt.params.prescaler.clocks ≤ s.ring.divider + 1 then exec .timebaseTick s = .next t
          else t = { s with ring := { s.ring with divider := s.ring.divider + 1 } }) →
        (t.bus.engine = .yielded → step s = .next t)
        ∧ (t.bus.engine = .idle → step s = exec .busCycleStart t)
        ∧ (t.bus.engine = .locked → t.bus.current = none → step s = exec .lockedSequenceNextCycle t)
        ∧ ∀ b i, (t.bus.engine = .cycle ∨ t.bus.engine = .locked) → t.bus.current = some b → t.executing = some i →
            ((t.window (t.entry i).window).budget.toNat ≤ t.bus.waitCount + 1 → step s = exec .busTimeout t)
            ∧ (t.bus.waitCount + 1 < (t.window (t.entry i).window).budget.toNat →
                step s = .next { t with bus := { t.bus with waitCount := t.bus.waitCount + 1 } }))

/-! ### Resets -/

/-- The state right after a pin reset, in every item whose value the spec gives. -/
def Obligations.ResetValues : Prop :=
  let s := State.reset
  (s.ring.state = .down ∧ s.ring.lost = true ∧ s.ring.lastCycle = 0 ∧ s.ring.blind = false ∧ s.ring.captured = none
      ∧ s.ring.period = none ∧ s.ring.timebase = 0 ∧ s.ring.divider = 0 ∧ s.ring.lineOut = .idle)
  ∧ s.prevIndex = none
  ∧ (s.sched.active = List.replicate 240 { action := .pass, channel := none, source := none }
      ∧ s.sched.shadow = List.replicate 240 { action := .pass, channel := none, source := none }
      ∧ s.sched.commit = .none ∧ s.sched.swapCycle = none)
  ∧ s.descriptors = [none, none, none, none]
  ∧ (s.table.entries.length = 8 ∧ (∀ e ∈ s.table.entries, e.state = .free) ∧ s.table.order = [] ∧ s.table.requests = [])
  ∧ s.windows = List.replicate 16
      { valid := false, base := 0, size := 1, width := .w4,
        attrs := { read := false, write := false, lock := false, burst := false, line := false },
        budget := 1, owner := none, inUse := 0 }
  ∧ (s.bus.engine = .idle ∧ s.bus.plan = [] ∧ s.bus.current = none ∧ s.bus.waitCount = 0 ∧ s.bus.lock = false
      ∧ s.bus.grant = false ∧ s.bus.grantTime = none ∧ s.bus.holdLong = false)
  ∧ s.replyQueue = []
  ∧ (s.mgmt.node = 0 ∧ s.mgmt.manager = none ∧ s.mgmt.queue = [] ∧ s.mgmt.noticeSeq = 0
      ∧ s.mgmt.params = { prescaler := .p8, cycleLimit := 0, holdLimit := 0, gapLimit := 4, deadline := 8,
                          bankEnables := { ring := true, slot := true, bus := true, mgmt := true },
                          noticeEnables := { ring := false, slot := false, bus := false, mgmt := false } })
  ∧ (∀ name, s.reports.bank name = { events := 0, record := none })
  ∧ (s.reports.counters = { cyclesInSync := 0, segmentsTaken := 0, segmentsGiven := 0, executed := 0, beats := 0,
                            busyTicks := 0, holdTicks := 0 } ∧ s.reports.lastTx = none)
  ∧ (s.bridge.state = .stopped ∧ s.bridge.flush = false ∧ s.bridge.softReset = none ∧ s.bridge.resetCount = 0)

/-- R197: the assertion of the reset pin gives every block its pin-reset value, from any state. While the pin is asserted only
the pins change (the model's reading, log 5). R132, R197: the release of an asserted pin leaves every block as it is and lets
the Bus Engine decide: in IDLE a hold request that is present is granted, and with nothing to do the pin alone changes. The
release of a pin that is not asserted does nothing (the model's choice, log 14); a grant passes the separating clock that
`separating` holds (log 2). -/
def Obligations.PinResetTakesEveryBlockToItsResetValue : Prop :=
  (∀ s : State, exec .pinReset s
    = .next { State.reset with
        pins := { reset := true, holdRequest := s.pins.holdRequest }, choices := s.choices, pending := s.pending })
  ∧ (∀ (c : Instr) (s : State), s.pins.reset = true → c ≠ .pinReset → c ≠ .pinResetRelease → c ≠ .holdRequest →
      c ≠ .holdRelease → exec c s = .next s)
  ∧ (∀ s : State, s.pins.reset = true →
      exec .holdRequest s = .next { s with pins := { s.pins with holdRequest := true } }
      ∧ exec .holdRelease s = .next { s with pins := { s.pins with holdRequest := false } })
  ∧ (∀ s t : State, exec .pinReset s = .next t →
      (s.pins.holdRequest = false → exec .pinResetRelease t = .next { t with pins := { t.pins with reset := false } })
      ∧ (s.pins.holdRequest = true → exec .pinResetRelease t
          = .next { t with
              pins := { t.pins with reset := false }
              bus := { t.bus with engine := .yielded, grant := true, grantTime := some 0, holdLong := false } }))
  ∧ (∀ s : State, s.pins.reset = true →
      let released : State := { s with pins := { s.pins with reset := false } }
      exec .pinResetRelease s = .next (arbitrate released)
      ∧ (s.bus.engine = .idle → s.pins.holdRequest = true →
          exec .pinResetRelease s
            = .next { released with
                bus := { s.bus with
                  engine := .yielded, grant := true, grantTime := some s.ring.timebase, holdLong := false
                  separating := false } })
      ∧ (s.bus.engine = .idle → s.pins.holdRequest = false → s.executing = none → s.table.requests = [] →
          exec .pinResetRelease s = .next released))
  ∧ (∀ s : State, s.pins.reset = false → exec .pinResetRelease s = .next s)

/-! ### The Ring Port -/

/-- R10: a line restore takes the Ring Port from DOWN to HUNT and changes nothing else; in any other state it has no effect.
R10, R193: a line loss outside DOWN, with nothing EXECUTING or with a bus cycle in progress, carries out the teardown and
then reports RING LINE-LOSS. That the Reply Queue loses an EXECUTING READ too is the model's reading (log 9). -/
def Obligations.LineEventsMoveTheRingPort : Prop :=
  (∀ s : State, s.pins.reset = false →
       (s.ring.state = .down →
         exec .lineRestore s
           = .next { s with ring := { s.ring with state := .hunt, lost := false, blind := false, captured := none } })
       ∧ (s.ring.state ≠ .down → exec .lineRestore s = .next s))
  ∧ ((∀ s : State, s.pins.reset = false → s.ring.state = .down → exec .lineLoss s = .next s)
     ∧ ∀ s : State, s.pins.reset = false → s.ring.state ≠ .down → s.bridge.softReset = none →
         (s.executing = none ∧ ¬(s.bus.engine = .idle ∧ s.pins.holdRequest = true)
           ∨ s.bus.engine = .cycle ∨ s.bus.engine = .locked) →
         ∃ u, exec .lineLoss s = .next (report { kind := .lineLoss } u)
           ∧ u.ring = { s.ring with state := .down, lost := true, blind := false, captured := none, lineOut := .idle }
           ∧ u.prevIndex = s.prevIndex
           ∧ u.sched = { s.sched with commit := .none }
           ∧ u.descriptors = [none, none, none, none]
           ∧ u.replyQueue = []
           ∧ u.table.requests = []
           ∧ (∀ i, (s.entry i).state ≠ .executing → (u.entry i).state = .free)
           ∧ (∀ i, s.executing = some i → u.entry i = { s.entry i with mark := .quiet })
           ∧ (∀ w, u.window w = { s.window w with inUse := (s.window w).inUse - s.waitingIn w })
           ∧ u.bus = s.bus
           ∧ u.mgmt = { s.mgmt with queue := [] }
           ∧ u.reports = s.reports
           ∧ u.bridge = { s.bridge with state := .stopped, flush := false }
           ∧ u.pins = s.pins)

/-- R87, R128, R193: a line loss between two cycles of an execution, with the bus lent or idle, ends the execution at once,
whichever of its two reports is taken first (a free value, log 4): the entry is FREE, its end is counted and recorded as
ABORTED, and both banks count one report. A locked operation in IDLE, with no hold requested, is before its sequence, which
starts first, so that the line loss finds it in progress (R77, R81; the model's reading, log 2). -/
def Obligations.LineLossEndsAnExecutionBetweenCycles : Prop :=
  (∀ (s t : State) (i : Nat), s.pins.reset = false → s.ring.state ≠ .down → s.executing = some i → s.bus.engine = .idle →
    s.pins.holdRequest = false → (s.entry i).op.locked = true → exec .busCycleStart s = .next t → exec .lineLoss s = exec .lineLoss t)
  ∧ ∀ (s : State) (i : Nat), s.pins.reset = false → s.ring.state ≠ .down → s.bridge.softReset = none →
    s.bus.engine = .yielded ∨ s.bus.engine = .idle ∧ s.pins.holdRequest = false ∧ (s.entry i).op.locked = false →
    s.executing = some i →
    ∃ t, exec .lineLoss s = .next t
      ∧ t.ring.state = .down ∧ t.bridge.state = .stopped ∧ (t.entry i).state = .free
      ∧ t.replyQueue = [] ∧ t.table.requests = []
      ∧ t.bus.engine = s.bus.engine ∧ t.bus.plan = []
      ∧ t.reports.counters.executed = s.reports.counters.executed + 1
      ∧ t.reports.ring.events = min (s.reports.ring.events + 1) 65535
      ∧ t.reports.bus.events = min (s.reports.bus.events + 1) 65535
      ∧ (∃ l, t.reports.lastTx = some l ∧ l.source = (s.entry i).source ∧ l.tag = (s.entry i).tag ∧ l.final = .aborted)

/-- R11: the arrival of a cycle mark or a slot in HUNT; each is forwarded with the strays before it (R9). -/
def Obligations.HuntLooksForAValidRecord : Prop :=
  ∀ s : State, s.pins.reset = false → s.ring.state = .hunt →
    (∀ (record : RawRecord) (c : CycleInfo), judgeCycle record.bytes = some c →
      exec (.cycleMark record) s
        = .next { s with
            prevIndex := none
            ring := { s.ring with state := .armed, lastCycle := c.number, slotCount := c.slotCount,
                                  captured := some s.ring.timebase, lineOut := .record record } })
    ∧ (∀ (record : RawRecord), judgeCycle record.bytes = none →
        exec (.cycleMark record) s
          = .next { s with prevIndex := none, ring := { s.ring with lineOut := .record record } })
    ∧ (∀ slot : RawSlot, exec (.slotArrival slot) s = .next { s with ring := { s.ring with lineOut := .slot slot } })

/-- R12, R17: the arrival of a cycle mark in ARMED. The successor of the reference takes the Ring Port to SYNC, and is
itself a cycle mark in SYNC; stated where nothing expires at it (what expires at a mark: SyncFollowsTheNumbering). -/
def Obligations.ArmedWaitsForTheSuccessor : Prop :=
  ∀ s : State, s.pins.reset = false → s.ring.state = .armed →
    (∀ (record : RawRecord) (c : CycleInfo), judgeCycle record.bytes = some c →
      c.number ≠ s.ring.lastCycle + 1 →
      exec (.cycleMark record) s
        = .next { s with
            prevIndex := none
            ring := { s.ring with lastCycle := c.number, slotCount := c.slotCount, captured := some s.ring.timebase,
                                  lineOut := .record record } })
    ∧ (∀ (record : RawRecord), judgeCycle record.bytes = none →
        exec (.cycleMark record) s
          = .next { s with prevIndex := none, ring := { s.ring with lineOut := .record record } })
    ∧ (∀ (record : RawRecord) (c : CycleInfo), judgeCycle record.bytes = some c →
        c.number = s.ring.lastCycle + 1 → s.nothingExpires c.number →
        exec (.cycleMark record) s
          = .next (settle (s.markedAs
              { s.ring with
                state := .sync, blind := false, lastCycle := c.number, slotCount := c.slotCount,
                captured := some s.ring.timebase, lineOut := .record record,
                period := match s.ring.captured with
                  | none => s.ring.period
                  | some t => if s.ring.timebase - t = 0 then none else some (s.ring.timebase - t) })))

/-- R13 to R15, R17: the arrival of a cycle mark in SYNC that leaves the Ring Port in SYNC, where nothing expires at it: in
order, skipping, and the first invalid record. R14, R43: the second invalid record in a row takes the Ring Port to HUNT, and
changes nothing else. R40, R66, R146: a mark in order at which one thing expires: a late commit, one write at the gap limit,
one reply at its deadline. -/
def Obligations.SyncFollowsTheNumbering : Prop :=
  (∀ s : State, s.pins.reset = false → s.ring.state = .sync →
       let period := match s.ring.captured with
         | none => s.ring.period
         | some t => if s.ring.timebase - t = 0 then none else some (s.ring.timebase - t)
       (∀ (record : RawRecord) (c : CycleInfo), judgeCycle record.bytes = some c →
         let u := s.markedAs { s.ring with blind := false, lastCycle := c.number, slotCount := c.slotCount, period := period,
                                           captured := some s.ring.timebase, lineOut := .record record }
         (s.nothingExpires c.number →
           exec (.cycleMark record) s
             = .next (settle (if c.number = s.ring.lastCycle + 1 then u else report { kind := .cycleSkip } u)))
         ∧ (c.number = s.ring.lastCycle + 1 →
           (s.commitLateAt c.number → (∀ j, ¬s.reachesGapLimit j) → (∀ j, ¬s.reachesDeadline j) →
             exec (.cycleMark record) s
               = .next (settle (report { kind := .commitLate } { u with
                   sched := { active := s.sched.shadow, shadow := s.sched.shadow, commit := .none,
                              swapCycle := some c.number } })))
           ∧ (∀ i, s.queueLaw → ¬s.commitLateAt c.number → (∀ j, s.reachesGapLimit j ↔ j = i) →
               (∀ j, ¬s.reachesDeadline j) →
               let e := s.entry i
               exec (.cycleMark record) s
                 = .next (settle (report
                     { kind := .incomplete, node := some e.source, tag := some e.tag, addr := some e.addr }
                     { u with
                       table := { u.table with
                         entries := u.table.entries.set i { e with
                           gap := e.gap + 1, state := .replying, final := some .incomplete, done := 0, deadline := 0 } }
                       windows := s.windows.modify e.window (fun w => { w with inUse := w.inUse - 1 })
                       replyQueue := s.replyQueue ++ [.entry i] })))
           ∧ (∀ i, s.queueLaw → ¬s.commitLateAt c.number → (∀ j, ¬s.reachesGapLimit j) →
               (∀ j, s.reachesDeadline j ↔ j = i) →
               let e := s.entry i
               exec (.cycleMark record) s
                 = .next (settle (report
                     { kind := .replyExpired, node := some e.source, tag := some e.tag, addr := some e.addr }
                     { u with
                       table := { u.table with
                         entries := u.table.entries.set i Entry.initial
                         order := s.table.order.filter (fun j => decide (j ≠ i))
                         requests := s.table.requests.filter (fun j => decide (j ≠ i)) }
                       replyQueue := s.replyQueue.filter (fun m => decide (m ≠ .entry i)) })))))
       ∧ (∀ (record : RawRecord), judgeCycle record.bytes = none → s.ring.blind = false →
           s.nothingExpires (s.ring.lastCycle + 1) →
           exec (.cycleMark record) s
             = .next (settle (report { kind := .cycleRecordFault }
                 (s.markedAs { s.ring with blind := true, lastCycle := s.ring.lastCycle + 1, period := period,
                                           captured := some s.ring.timebase, lineOut := .record record })))))
  ∧ (∀ (s : State) (record : RawRecord), s.pins.reset = false → s.ring.state = .sync →
       s.ring.blind = true → judgeCycle record.bytes = none →
       exec (.cycleMark record) s
         = .next (report { kind := .cycleRecordFault }
             { s with
               prevIndex := none
               ring := { s.ring with
                 state := .hunt, blind := false, captured := none, lineOut := .record record } }))

/-- R19: with the cycle limit run out, CYCLE_LOST is reported and the Ring Port enters HUNT; R125: with the hold limit
exceeded, HOLD_LONG is reported once for the grant. Neither does anything before its limit. What the rows CYCLE_LOST and
HOLD_LONG stand for is the model's reading (log 1). R16, R127: a tick advances the timebase and one of the tick counters by
the engine state, with the divider at zero; then the limits that the new value reaches expire, stated where at most one of
them does. -/
def Obligations.LimitsExpireAndTicksCount : Prop :=
  (∀ s : State, s.pins.reset = false →
       (∀ c limit, s.ring.state = .sync → s.ring.captured = some c →
         (s.mgmt.params.cycleLimit ≠ 0 ∧ limit = s.mgmt.params.cycleLimit
           ∨ s.mgmt.params.cycleLimit = 0 ∧ ∃ p, s.ring.period = some p ∧ limit = 2 * p.toNat) →
         exec .cycleLost s
           = .next (if limit ≤ (s.ring.timebase - c).toNat then
               report { kind := .cycleLost } { s with ring := { s.ring with state := .hunt, blind := false, captured := none } }
             else s))
       ∧ ((s.ring.state ≠ .sync ∨ s.ring.captured = none ∨ s.mgmt.params.cycleLimit = 0 ∧ s.ring.period = none) →
           exec .cycleLost s = .next s)
       ∧ (∀ g, s.bus.engine = .yielded → s.bus.grantTime = some g →
           exec .holdLong s
             = .next (if s.mgmt.params.holdLimit ≠ 0 ∧ s.bus.holdLong = false
                   ∧ s.mgmt.params.holdLimit < (s.ring.timebase - g).toNat then
                 report { kind := .holdLong } { s with bus := { s.bus with holdLong := true } }
               else s))
       ∧ (s.bus.engine ≠ .yielded → exec .holdLong s = .next s))
  ∧ (∀ s : State, s.pins.reset = false →
       let c := s.reports.counters
       let u : State := { s with
         ring := { s.ring with timebase := s.ring.timebase + 1, divider := 0 }
         reports := { s.reports with
           counters := match s.bus.engine with
             | .idle => c
             | .cycle | .locked => { c with busyTicks := c.busyTicks + 1 }
             | .yielded => { c with holdTicks := c.holdTicks + 1 } } }
       (u.cycleLimitExpired = false → u.holdLimitExceeded = false → exec .timebaseTick s = .next u)
       ∧ (u.cycleLimitExpired = false → exec .timebaseTick s = exec .holdLong u)
       ∧ (u.holdLimitExceeded = false → exec .timebaseTick s = exec .cycleLost u))

/-- R41, with R39 and R40: the swap of the banks at a cycle mark in SYNC: with PENDING-NEXT, with a target that is the mark's
number, and with one that has passed. SCHEDULE_SWAP is the arrival of the mark next in order, where the banks are swapped at
it, and else nothing: the model's reading (log 1). What a late swap reports: SyncFollowsTheNumbering. -/
def Obligations.ScheduleSwapActivatesTheShadow : Prop :=
  ∀ s : State, s.pins.reset = false →
    let due := fun k : Half => s.sched.commit = .pendingNext ∨ ∃ n, s.sched.commit = .pendingAt n ∧ (k - n).toNat ≤ 32767
    let swapped := fun (k : Half) (t : State) => t.ring.state = .sync ∧ t.ring.lastCycle = k
      ∧ t.sched = { active := s.sched.shadow, shadow := s.sched.shadow, commit := .none, swapCycle := some k }
    let next : RawRecord := { bytes := cycleRecord (s.ring.lastCycle + 1) s.ring.slotCount }
    let marked := s.marksSync next.bytes (s.ring.lastCycle + 1)
    (∀ (record : RawRecord) (k : Half), s.marksSync record.bytes k → s.bridge.softReset = none →
      ∃ t, exec (.cycleMark record) s = .next t ∧ (due k → swapped k t) ∧ (¬due k → t.sched = s.sched))
    ∧ (marked → due (s.ring.lastCycle + 1) →
        exec .scheduleSwap s = exec (.cycleMark next) s
        ∧ (s.bridge.softReset = none → ∃ t, exec .scheduleSwap s = .next t ∧ swapped (s.ring.lastCycle + 1) t))
    ∧ (¬(marked ∧ due (s.ring.lastCycle + 1)) → exec .scheduleSwap s = .next s)

/-- R65, R66: at a cycle mark in SYNC an entry in ASSEMBLING whose gap count, advanced, reaches the limit ends INCOMPLETE. R75,
R146: an entry in REPLYING whose deadline count, advanced, reaches the deadline is abandoned and becomes FREE. Stated for every
such entry of the mark. ASSEMBLY_GAP_EXPIRY and REPLY_EXPIRED are the arrival of the mark next in order, where that comes about
at it, and else nothing: the model's reading (log 1). The whole state after one expiry: SyncFollowsTheNumbering. -/
def Obligations.CountsExpireAtMarks : Prop :=
  ∀ s : State, s.pins.reset = false → s.queueLaw →
    let incomplete := fun (k : Half) (i : Nat) (t : State) => t.ring.state = .sync ∧ t.ring.lastCycle = k
      ∧ t.entry i = { s.entry i with
          gap := (s.entry i).gap + 1, state := .replying, final := some .incomplete, done := 0, deadline := 0 }
      ∧ .entry i ∈ t.replyQueue
    let abandoned := fun (k : Half) (i : Nat) (t : State) => t.ring.state = .sync ∧ t.ring.lastCycle = k
      ∧ (t.entry i).state = .free ∧ .entry i ∉ t.replyQueue ∧ i ∉ t.table.order
    let next : RawRecord := { bytes := cycleRecord (s.ring.lastCycle + 1) s.ring.slotCount }
    let marked := s.marksSync next.bytes (s.ring.lastCycle + 1)
    (∀ (record : RawRecord) (k : Half), s.marksSync record.bytes k → s.bridge.softReset = none → s.mgmtLaw →
      ∃ t, exec (.cycleMark record) s = .next t ∧ (∀ i, s.reachesGapLimit i → incomplete k i t)
        ∧ ∀ i, s.reachesDeadline i → abandoned k i t)
    ∧ (∀ i, marked → s.reachesGapLimit i →
        exec .assemblyGapExpiry s = exec (.cycleMark next) s
        ∧ (s.bridge.softReset = none → s.mgmtLaw →
            ∃ t, exec .assemblyGapExpiry s = .next t ∧ incomplete (s.ring.lastCycle + 1) i t))
    ∧ (∀ i, marked → s.reachesDeadline i →
        exec .replyExpired s = exec (.cycleMark next) s
        ∧ (s.bridge.softReset = none →
            ∃ t, exec .replyExpired s = .next t ∧ abandoned (s.ring.lastCycle + 1) i t))
    ∧ (¬marked ∨ (∀ i, ¬s.reachesGapLimit i) → exec .assemblyGapExpiry s = .next s)
    ∧ (¬marked ∨ (∀ i, ¬s.reachesDeadline i) → exec .replyExpired s = .next s)

/-! ### Slots -/

/-- R8, R9: a slot that arrives in HUNT, in ARMED or in a blind cycle is forwarded unchanged and not presented; in DOWN no
arrival occurs. R9, R34: the law that a slot leaves with the header it arrived with, and that it leaves changed only in
SYNC, in a cycle that is not blind, and then with the check regenerated. The strays before it leave unchanged. -/
def Obligations.SlotsKeepTheirHeader : Prop :=
  (∀ (s : State) (slot : RawSlot), s.pins.reset = false →
       (s.ring.state = .down → exec (.slotArrival slot) s = .next s)
       ∧ (s.ring.state = .hunt ∨ s.ring.state = .armed ∨ s.ring.state = .sync ∧ s.ring.blind = true →
           exec (.slotArrival slot) s = .next { s with ring := { s.ring with lineOut := .slot slot } }))
  ∧ (∀ (s t : State) (slot : RawSlot), s.pins.reset = false → s.ring.state ≠ .down → exec (.slotArrival slot) s = .next t →
       ∃ out, t.ring.lineOut = .slot out ∧ out.header = slot.header ∧ out.strays = slot.strays
         ∧ (out ≠ slot → s.ring.state = .sync ∧ s.ring.blind = false
             ∧ ∃ kind payload, out = { slot with
                 mark := some kind, body := payload ++ halfBytes (check (kind.code :: payload)) }))

/-- R25: a slot presented with a bad header is forwarded unchanged, and RING HEADER-FAULT is reported without an index. R26,
R27, R29: the other slots that the Slot Engine reports: out of sequence, with a bad payload check, and mismatched with the
active schedule. Which headers and which payloads are good: CommandsAreTheSlotsTheySpell. -/
def Obligations.SlotFaultsAreReported : Prop :=
  (∀ (s : State) (slot : RawSlot), s.pins.reset = false → s.ring.state = .sync → s.ring.blind = false →
       (judgeSlot slot).headerGood = false →
       exec (.slotArrival slot) s = .next ((report { kind := .headerFault } s).leaving slot))
  ∧ (∀ (s : State) (slot : RawSlot), s.pins.reset = false → s.ring.state = .sync → s.ring.blind = false →
       (judgeSlot slot).headerGood = true →
       let a := judgeSlot slot
       let t : State := { s with prevIndex := some a.index }
       ((s.ring.slotCount.toNat ≤ a.index.toNat ∨ ∃ p, s.prevIndex = some p ∧ a.index.toNat ≤ p.toNat) →
           exec (.slotArrival slot) s
             = .next ((report { kind := .slotSequence, index := some a.index } s).leaving slot))
       ∧ (s.admits a.index → a.payloadGood = false →
           exec (.slotArrival slot) s
             = .next ((report { kind := .payloadFault, index := some a.index } t).leaving
                 { slot with
                   mark := some .faulted
                   body := a.payload ++ halfBytes (check (MarkKind.faulted.code :: a.payload)) }))
       ∧ (∀ c, s.admits a.index → a.payloadGood = true → a.channel ≠ 0 → (s.activeEntry a.index).channel = some c →
           c ≠ a.channel →
           exec (.slotArrival slot) s
             = .next ((report { kind := .scheduleMismatch, index := some a.index } t).leaving slot)))

/-- R28, R30: the slots that the part has nothing to do with leave unchanged: under PASS, and where the kind gives the
action nothing to do; and on channel 0 the kinds DATA and FAULTED. R47, R49: at a TAKE or BOTH slot that cannot be filled, a
segment for another node, of an unknown operation, or from a source that the filter does not admit, is left: the slot leaves
unchanged and nothing is counted. R32: so does, at a GIVE slot, every segment that is not the part's own return. -/
def Obligations.SlotsWithNothingToDoPass : Prop :=
  (∀ (s : State) (slot : RawSlot), (judgeSlot slot).headerGood = true → (judgeSlot slot).payloadGood = true →
       s.admits (judgeSlot slot).index →
       let a := judgeSlot slot
       let e := s.activeEntry a.index
       (a.channel = 0 ∧ (a.kind = .data ∨ a.kind = .faulted)
         ∨ a.channel ≠ 0 ∧ (e.channel = none ∨ e.channel = some a.channel)
           ∧ (e.action = .pass ∨ a.kind = .mgmt ∨ a.kind = .faulted ∨ a.kind = .void ∧ e.action = .take)) →
       exec (.slotArrival slot) s = .next (State.leaving { s with prevIndex := some a.index } slot))
  ∧ (∀ (s : State) (index channel size : Byte) (payload : List Byte),
       headerInRange index channel size = true → channel ≠ 0 → payload.length = payloadLength size → s.admits index →
       ((s.activeEntry index).channel = none ∨ (s.activeEntry index).channel = some channel) →
       let e := s.activeEntry index
       let g := Segment.ofBytes payload
       (e.action = .take ∨ e.action = .both ∧ ¬(g.source = s.mgmt.node ∧ g.op = replyCode)) ∧
       (s.mgmt.node = 0 ∨ g.dest ≠ s.mgmt.node ∨ isNode g.source = false ∨ ReqOp.ofCode g.op = none
         ∨ ∃ n, e.source = some n ∧ n ≠ g.source)
         ∨ e.action = .give ∧ ¬(g.source = s.mgmt.node ∧ g.op = replyCode) →
       exec (.slotArrival (encodeSlot index channel size .data payload)) s
         = .next (State.leaving { s with prevIndex := some index } (encodeSlot index channel size .data payload)))

/-! ### Replies -/

/-- R135: the filling step of a GIVE slot and of a BOTH slot, on the slot as the earlier steps leave it: where it is VOID, one
segment is given for the first member of the Reply Queue that can make progress in the slot's capacity, the payload length less
16, and every other member keeps its place; where no member can, the slot is forwarded VOID. And the table of the members that
can make progress. -/
def Obligations.ProgressIsAsTheTableGives : Prop :=
  (∀ (s : State) (capacity i d : Nat),
    let e := s.entry i
    s.memberCanProgress capacity (.desc d) = true
    ∧ (e.op = .read → e.state = .executing →
        (s.memberCanProgress capacity (.entry i) = true ↔ e.mark ≠ .quiet ∧ e.sent < e.done ∧ 1 ≤ capacity))
    ∧ (e.op = .read → e.state = .replying →
        (s.memberCanProgress capacity (.entry i) = true ↔ e.sent < e.done ∧ 1 ≤ capacity ∨ e.sent = e.done))
    ∧ (e.op = .write ∨ e.op = .writeQuiet → e.state = .replying → s.memberCanProgress capacity (.entry i) = true)
    ∧ (e.op = .swap ∨ e.op = .add ∨ e.op = .cswap → e.state = .replying →
        (s.memberCanProgress capacity (.entry i) = true ↔ e.done ≤ capacity)))
  ∧ (∀ size : Byte, size.toNat ≤ 15 →
      capacityOf size = payloadLength size - 16 ∧ capacityOf size ≤ 240 ∧ (size = 0 → capacityOf size = 0))
  ∧ (∀ (s : State) (length capacity : Nat) (im : Image),
      (im.kind ≠ .void ∨ (∀ m ∈ s.replyQueue, s.memberCanProgress capacity m = false) →
        fillStep length capacity im s = (s, im))
      ∧ ∀ (older younger : List Member) (m : Member), im.kind = .void → s.replyQueue = older ++ m :: younger →
          (∀ x ∈ older, s.memberCanProgress capacity x = false) → s.memberCanProgress capacity m = true →
          (∀ d, m = .desc d → (s.descriptor d).isSome = true) →
          let r := fillStep length capacity im s
          r = giveMember length capacity m im s ∧ r.2.kind = .data
          ∧ (r.1.replyQueue = s.replyQueue ∨ r.1.replyQueue = s.replyQueue.filter (fun x => decide (x ≠ m))))
  ∧ (∀ (a : Arrival) (filter : Option Byte) (s : State),
      let stripped := stripStep a.index a.image s
      let taken := intakeStep filter a stripped.2 stripped.1
      applyAction .give filter a s = fillStep (payloadLength a.size) (payloadLength a.size - 16) stripped.2 stripped.1
      ∧ applyAction .both filter a s = fillStep (payloadLength a.size) (payloadLength a.size - 16) taken.2 taken.1)
  ∧ ∀ (s : State) (index channel size : Byte), headerInRange index channel size = true → channel ≠ 0 → s.admits index →
      ((s.activeEntry index).channel = none ∨ (s.activeEntry index).channel = some channel) →
      (s.activeEntry index).action = .give ∨ (s.activeEntry index).action = .both →
      let void : Image := { kind := .void, payload := List.replicate (payloadLength size) 0 }
      let r := fillStep (payloadLength size) (capacityOf size) void { s with prevIndex := some index }
      exec (.slotArrival (encodeSlot index channel size .void void.payload)) s
        = .next (r.1.leaving (encodeSlot index channel size r.2.kind r.2.payload))

/-- R134 to R136, R142: at a VOID slot under GIVE or BOTH, the oldest member that can make progress, a READ that stays open,
gives the next bytes of its completed prefix without LAST; nothing else changes. Where no member can make progress the slot
leaves VOID. -/
def Obligations.GiveSendsReadData : Prop :=
  ∀ (s : State) (index channel size : Byte), headerInRange index channel size = true → channel ≠ 0 → s.admits index →
    ((s.activeEntry index).channel = none ∨ (s.activeEntry index).channel = some channel) →
    (s.activeEntry index).action = .give ∨ (s.activeEntry index).action = .both →
    let void := encodeSlot index channel size .void (List.replicate (payloadLength size) 0)
    ((∀ m ∈ s.replyQueue, s.memberCanProgress (capacityOf size) m = false) →
      exec (.slotArrival void) s = .next (State.leaving { s with prevIndex := some index } void))
    ∧ ∀ (older younger : List Member) (i : Nat), s.replyQueue = older ++ .entry i :: younger →
        (∀ m ∈ older, s.memberCanProgress (capacityOf size) m = false) →
        let e := s.entry i
        let n := min (e.done - e.sent) (capacityOf size)
        e.op = .read → e.sent < e.done → 1 ≤ capacityOf size →
        (e.state = .executing ∧ e.mark ≠ .quiet ∨ e.state = .replying ∧ (e.final ≠ some .done ∨ e.sent + n < e.done)) →
        exec (.slotArrival void) s
          = .next (State.leaving
              { s with
                prevIndex := some index
                table := { s.table with
                  entries := s.table.entries.modify i (fun e => { e with sent := e.sent + n, deadline := 0 }) }
                reports := { s.reports with
                  counters := { s.reports.counters with segmentsGiven := s.reports.counters.segmentsGiven + 1 } } }
              (encodeSlot index channel size .data (padTo (payloadLength size)
                ([e.source, s.mgmt.node, e.tag, replyCode, 0, 0] ++ halfBytes (BitVec.ofNat 16 e.total)
                  ++ halfBytes (BitVec.ofNat 16 e.sent) ++ halfBytes (BitVec.ofNat 16 n) ++ wordBytes e.addr
                  ++ s.txBytes e e.sent n))))

/-- R136 to R140, R142: the segment with LAST that closes a reply, by the oldest member that can make progress at a VOID slot
under GIVE or BOTH: its offset and data, by the operation; the entry becomes FREE, and the drain is judged (R191). R134, R141,
R142: a short reply given; its descriptor becomes free and leaves the Reply Queue, and the drain is judged (R191). The codes
of the statuses are those of section 1.10. -/
def Obligations.GiveClosesReplies : Prop :=
  (∀ (s : State) (index channel size : Byte) (older younger : List Member) (i : Nat) (status : Status),
       headerInRange index channel size = true → channel ≠ 0 → s.admits index →
       ((s.activeEntry index).channel = none ∨ (s.activeEntry index).channel = some channel) →
       (s.activeEntry index).action = .give ∨ (s.activeEntry index).action = .both →
       s.replyQueue = older ++ .entry i :: younger →
       (∀ m ∈ older, s.memberCanProgress (capacityOf size) m = false) →
       (s.entry i).state = .replying → (s.entry i).final = some status →
       let e := s.entry i
       ∀ (offset : Nat) (data : List Byte),
       (e.op = .read ∧ e.sent = e.done ∧ offset = e.done ∧ data = []
         ∨ e.op = .read ∧ e.sent < e.done ∧ status = .done ∧ e.done - e.sent ≤ capacityOf size ∧ offset = e.sent
           ∧ data = s.txBytes e e.sent (e.done - e.sent)
         ∨ e.op.isWrite = true ∧ offset = e.done ∧ data = []
         ∨ e.op.locked = true ∧ e.done ≤ capacityOf size ∧ offset = 0 ∧ data = (e.old.getD []).take e.done) →
       exec (.slotArrival (encodeSlot index channel size .void (List.replicate (payloadLength size) 0))) s
         = .next (State.leaving
             (judgeDrain { s with
               prevIndex := some index
               table := { s.table with
                 entries := s.table.entries.set i Entry.initial
                 order := s.table.order.filter (fun j => decide (j ≠ i))
                 requests := s.table.requests.filter (fun j => decide (j ≠ i)) }
               replyQueue := s.replyQueue.filter (fun m => decide (m ≠ .entry i))
               reports := { s.reports with
                 counters := { s.reports.counters with segmentsGiven := s.reports.counters.segmentsGiven + 1 } } })
             (encodeSlot index channel size .data (padTo (payloadLength size)
               ([e.source, s.mgmt.node, e.tag, replyCode, status.code, 1] ++ halfBytes (BitVec.ofNat 16 e.total)
                 ++ halfBytes (BitVec.ofNat 16 offset) ++ halfBytes (BitVec.ofNat 16 data.length) ++ wordBytes e.addr ++ data)))))
  ∧ (∀ (s : State) (index channel size : Byte) (older younger : List Member) (d : Nat) (r : ShortReply),
       headerInRange index channel size = true → channel ≠ 0 → s.admits index →
       ((s.activeEntry index).channel = none ∨ (s.activeEntry index).channel = some channel) →
       (s.activeEntry index).action = .give ∨ (s.activeEntry index).action = .both →
       s.replyQueue = older ++ .desc d :: younger →
       (∀ m ∈ older, s.memberCanProgress (capacityOf size) m = false) →
       s.descriptor d = some r →
       exec (.slotArrival (encodeSlot index channel size .void (List.replicate (payloadLength size) 0))) s
         = .next (State.leaving
             (judgeDrain { s with
               prevIndex := some index
               descriptors := s.descriptors.set d none
               replyQueue := s.replyQueue.filter (fun m => decide (m ≠ .desc d))
               reports := { s.reports with
                 counters := { s.reports.counters with segmentsGiven := s.reports.counters.segmentsGiven + 1 } } })
             (encodeSlot index channel size .data (padTo (payloadLength size)
               ([r.requester, s.mgmt.node, r.tag, replyCode, r.status.code, 1] ++ halfBytes r.total ++ [0, 0, 0, 0]
                 ++ wordBytes r.addr)))))
  ∧ [Status.done, .unchanged, .busError, .busTimeout, .noWindow, .denied, .align, .length, .badRequest, .tagInUse, .orphan,
      .sequence, .incomplete, .aborted].map Status.code
    = [0x00, 0x01, 0x02, 0x03, 0x04, 0x05, 0x06, 0x07, 0x08, 0x09, 0x0A, 0x0B, 0x0C, 0x0D]
  ∧ replyCode = 0x80

/-- R33, R143 to R145: the part's own returning segment at a GIVE or BOTH slot: SLOT REPLY-UNDELIVERED is reported, and the
arrival goes on as that of the VOID slot, which may be filled. The return abandons the reply of the entry that has sent its
range: a REPLYING entry becomes FREE; an EXECUTING READ is marked quiet with a bus cycle in progress, and between two cycles
its execution ends at once, whichever of the two reports is taken first (a free value, log 4). The node recorded is the
destination byte as it arrived, above 63 too: the model's choice (log 20). -/
def Obligations.ReturnsAreStripped : Prop :=
  ∀ (s : State) (index channel size : Byte) (payload : List Byte), headerInRange index channel size = true → channel ≠ 0 →
    payload.length = payloadLength size → s.admits index →
    ((s.activeEntry index).channel = none ∨ (s.activeEntry index).channel = some channel) →
    (s.activeEntry index).action = .give ∨ (s.activeEntry index).action = .both →
    let g := Segment.ofBytes payload
    let owns := fun j => .entry j ∈ s.replyQueue ∧ g.last = false ∧ (s.entry j).source = g.dest ∧ (s.entry j).tag = g.tag
      ∧ (s.entry j).total = g.total.toNat ∧ (s.entry j).addr = g.addr ∧ g.offset.toNat + g.count.toNat ≤ (s.entry j).sent
    let undelivered : Report :=
      { kind := .replyUndelivered, index := some index, node := some g.dest, tag := some g.tag, addr := some g.addr }
    let arrives := Instr.slotArrival (encodeSlot index channel size .data payload)
    let goesOn := Instr.slotArrival (encodeSlot index channel size .void (List.replicate (payloadLength size) 0))
    g.source = s.mgmt.node → g.op = replyCode →
    ((∀ j, ¬owns j) → exec arrives s = exec goesOn (report undelivered s))
    ∧ ∀ i, owns i → (∀ j, owns j → j = i) →
        ((s.entry i).state = .replying →
          exec arrives s
            = exec goesOn (judgeDrain (report undelivered { s with
                table := { s.table with
                  entries := s.table.entries.set i Entry.initial
                  order := s.table.order.filter (fun j => decide (j ≠ i))
                  requests := s.table.requests.filter (fun j => decide (j ≠ i)) }
                replyQueue := s.replyQueue.filter (fun m => decide (m ≠ .entry i)) })))
        ∧ ((s.entry i).state = .executing → (s.entry i).op = .read → s.bus.engine = .cycle →
          exec arrives s
            = exec goesOn (report undelivered { s with
                table := { s.table with
                  entries := s.table.entries.modify i (fun e => { e with mark := .quiet }) } }))
        ∧ ((s.entry i).state = .executing → (s.entry i).op = .read → s.bus.engine = .idle ∨ s.bus.engine = .yielded →
            s.bridge.softReset = none →
          ∃ v, exec arrives s = exec goesOn (settle v)
            ∧ (v.entry i).state = .free ∧ (∀ j, j ≠ i → v.entry j = s.entry j)
            ∧ v.table.order = s.table.order.filter (fun j => decide (j ≠ i))
            ∧ v.table.requests = s.table.requests.filter (fun j => decide (j ≠ i))
            ∧ v.replyQueue = s.replyQueue.filter (fun m => decide (m ≠ .entry i))
            ∧ v.windows = s.windows.modify (s.entry i).window (fun w => { w with inUse := w.inUse - 1 })
            ∧ v.bus.engine = s.bus.engine ∧ v.bus.plan = [] ∧ v.bus.current = none
            ∧ v.reports.counters.executed = s.reports.counters.executed + 1
            ∧ v.reports.slot.events = min (s.reports.slot.events + 1) 65535
            ∧ v.reports.bus.events = min (s.reports.bus.events + 1) 65535
            ∧ (∃ l, v.reports.lastTx = some l ∧ l.source = (s.entry i).source ∧ l.tag = (s.entry i).tag
                ∧ l.final = .aborted)
            ∧ v.ring = s.ring ∧ v.prevIndex = s.prevIndex ∧ v.sched = s.sched ∧ v.descriptors = s.descriptors
            ∧ v.bridge = s.bridge ∧ v.pins = s.pins ∧ v.mgmt.node = s.mgmt.node)

/-- R28, R159: a channel-0 slot of kind VOID is given the oldest record of the Management Reply Queue where its arguments
fit, with the node number as source, and leaves VOID otherwise. That a notice is given with the flags 0, as a reply is, is
the model's choice (log 23). -/
def Obligations.ManagementRecordsAreGivenInOrder : Prop :=
  ∀ (s : State) (index size : Byte), headerInRange index 0 size = true → s.admits index →
    let void := encodeSlot index 0 size .void (List.replicate (payloadLength size) 0)
    (s.mgmt.queue = [] →
      exec (.slotArrival void) s = .next (State.leaving { s with prevIndex := some index } void))
    ∧ ∀ x rest, s.mgmt.queue = x :: rest →
        (capacityOf size < x.args.length →
          exec (.slotArrival void) s = .next (State.leaving { s with prevIndex := some index } void))
        ∧ (x.args.length ≤ capacityOf size →
          exec (.slotArrival void) s
            = .next (State.leaving { s with prevIndex := some index, mgmt := { s.mgmt with queue := rest } }
                (encodeSlot index 0 size .mgmt (padTo (payloadLength size)
                  ([x.dest, s.mgmt.node, x.tag, x.op, x.status, 0] ++ halfBytes (BitVec.ofNat 16 x.args.length)
                    ++ padTo 8 x.param ++ x.args)))))

/-! ### Management: judging a record -/

/-- R152 to R154: what becomes of an MGMT record that is not executed: the part's own return is stripped and reported; a
record for another node, or meant for a manager, is left; a malformed one is reported, and consumed where it was addressed;
and where there is no room for the reply, or a soft reset is pending, the request is left. The nodes recorded are the source
and destination bytes as they arrived, above 63 too: the model's choice (log 20). -/
def Obligations.ManagementRecordsAreJudged : Prop :=
  ∀ (s : State) (index size : Byte) (payload : List Byte), headerInRange index 0 size = true →
    payload.length = payloadLength size → s.admits index →
    let r := MgmtRecord.ofBytes payload
    let t : State := { s with prevIndex := some index }
    let slot := encodeSlot index 0 size .mgmt payload
    let void := encodeSlot index 0 size .void (List.replicate (payloadLength size) 0)
    let mine := s.mgmt.node ≠ 0 ∧ r.source = s.mgmt.node ∧ r.dest ≠ s.mgmt.node
    let addressed := r.dest = s.mgmt.node
    let broadcast := s.mgmt.node ≠ 0 ∧ r.dest = 63 ∧ r.dest ≠ s.mgmt.node
    let forManager := 128 ≤ r.op.toNat ∨ r.op = 0x20
    let malformed := MgmtOp.ofCode r.op = none ∨ r.status ≠ 0 ∨ r.flags ≠ 0 ∨ capacityOf size < r.argLen.toNat
      ∨ addressed ∧ s.mgmt.node ≠ 0 ∧ r.source = s.mgmt.node
    let bad := report { kind := .badRequest, index := some index, node := some r.source, tag := some r.tag } t
    (mine →
      exec (.slotArrival slot) s
        = .next ((report { kind := .replyReturned, index := some index, node := some r.dest, tag := some r.tag } t).leaving void))
    ∧ (¬mine → ¬addressed → ¬broadcast → exec (.slotArrival slot) s = .next (t.leaving slot))
    ∧ (¬mine → addressed ∨ broadcast → forManager → exec (.slotArrival slot) s = .next (t.leaving slot))
    ∧ (addressed → ¬forManager → malformed → exec (.slotArrival slot) s = .next (bad.leaving void))
    ∧ (¬mine → broadcast → ¬forManager → malformed → exec (.slotArrival slot) s = .next (bad.leaving slot))
    ∧ (¬mine → addressed ∨ broadcast → ¬forManager → ¬malformed →
        (s.mgmt.queue.length = 4 ∧ ¬(MgmtOp.ofCode r.op = some .reset ∧ addressed ∧ s.mgmt.manager = some r.source)
          ∨ s.bridge.softReset.isSome = true) →
        exec (.slotArrival slot) s = .next (t.leaving slot))

/-- R155, R156, R158: a broadcast of an operation that may not be broadcast is answered BAD-ARG, with the configuration as
arguments for a CONFIGURE of argument length 11 and with none for any other; an unassigned node answers STATE, and an assigned
one DENIED with MGMT DENIED to any sender but its manager, to every operation but the reads and ASSIGN. The parameter bytes of
these replies are those that the operation's rule names for a reply (R161 to R165), and zeros where it names none (the model's
reading, log 12). A command is the arrival of its slot (log 6). The node that MGMT DENIED records is the source byte as it arrived, above 63 too: the model's
choice (log 20). -/
def Obligations.AuthorityIsJudgedFirst : Prop :=
  ∀ (c : Instr) (m : MgmtSlot) (op : MgmtOp) (s : State), c.managementRequest = some (m, op) → m.reaches s →
    let mayBroadcast := op = .identify ∨ op = .schedCommit ∨ op = .start ∨ op = .stop
    let anySource := op = .identify ∨ op = .status ∨ op = .reportRead ∨ op = .schedRead ∨ op = .windowRead ∨ op = .assign
    let param : List Byte := match op with
      | .assign => [s.mgmt.node]
      | .identify | .configure | .windowRead => [byteAt m.param 0]
      | .schedLoad => [byteAt m.param 0, byteAt m.param 1]
      | .schedRead => [byteAt m.param 0, byteAt m.param 1, byteAt m.param 2]
      | .schedCommit => [s.sched.commit.code] ++ halfBytes s.sched.commit.target
      | .schedCancel => [s.sched.commit.code]
      | .windowLoad => [byteAt ((padTo (capacityOf m.size) m.args).take m.argLen.toNat) 0]
      | .start | .stop => [s.bridge.state.code]
      | .abort | .status | .reportRead | .reportClear | .reset => []
    (m.dest ≠ s.mgmt.node → ¬mayBroadcast →
      let args := if op = .configure ∧ m.argLen = 11 then s.mgmt.params.toBytes else []
      exec c s = .next ((s.replied m op .badArg param args).leaving (m.leavesAs op s)))
    ∧ (s.mgmt.node = 0 → ¬anySource →
        exec c s = .next ((s.replied m op .state param []).leaving (m.leavesAs op s)))
    ∧ (s.mgmt.node ≠ 0 → s.mgmt.manager ≠ some m.source → ¬anySource → m.dest = s.mgmt.node ∨ mayBroadcast →
        exec c s
          = .next ((report { kind := .denied, index := some m.index, node := some m.source, tag := some m.tag }
              (s.replied m op .denied param [])).leaving (m.leavesAs op s)))

/-! ### Management: the operations

In each, `s.replied` is the reply queued (R157, R158), and `m.leavesAs` the slot as it leaves. A command is the arrival of its
slot (log 6). The parameter bytes of a reply that is not OK are the model's reading where the operation's own rule does not
give them (log 12). -/

/-- R160, R167: IDENTIFY's leaves and STATUS's 24 bytes, with BAD-ARG where the reply would not fit the request's slot. That
the BAD-ARG of a leaf that does not fit carries the leaf is the model's choice (log 22). The codes of the management statuses
are those of section 1.10, and the codes of the states those of section 8.4. -/
def Obligations.IdentifyAndStatusReadTheNode : Prop :=
  ([MgmtStatus.ok, .busy, .denied, .badArg, .state].map MgmtStatus.code = [0x00, 0x01, 0x02, 0x03, 0x04]
    ∧ [RingState.down, .hunt, .armed, .sync].map RingState.code = [0, 1, 2, 3]
    ∧ [BridgeState.stopped, .running, .draining].map BridgeState.code = [0, 1, 2]
    ∧ [EngineState.idle, .cycle, .locked, .yielded].map EngineState.code = [0, 1, 2, 3]
    ∧ ∀ n, [CommitState.none, .pendingNext, .pendingAt n].map CommitState.code = [0, 1, 2]
      ∧ [CommitState.none, .pendingNext, .pendingAt n].map CommitState.target = [0, 0, n])
  ∧ ∀ (m : MgmtSlot) (s : State), m.reaches s →
    (∀ args : List Byte,
      (byteAt m.param 0 = 0 ∧ args = [0x0E, 0x27, 0x03, 0x16, 2]
        ∨ byteAt m.param 0 = 1 ∧ args = [240, 16, 8, 24, 4, 12, 4]
        ∨ byteAt m.param 0 = 2 ∧ args = [0x0F]
        ∨ byteAt m.param 0 = 3
          ∧ args = [s.mgmt.node, nodeByte s.mgmt.manager, s.bridge.state.code, 3, s.bridge.resetCount]
              ++ halfBytes s.ring.lastCycle) →
      exec (.identify m) s
        = .next ((if args.length ≤ capacityOf m.size then s.replied m .identify .ok [byteAt m.param 0] args
            else s.replied m .identify .badArg [byteAt m.param 0] []).leaving (m.leavesAs .identify s)))
    ∧ (3 < (byteAt m.param 0).toNat →
        exec (.identify m) s
          = .next ((s.replied m .identify .badArg [byteAt m.param 0] []).leaving (m.leavesAs .identify s)))
    ∧ (m.dest = s.mgmt.node →
        let count := fun st => BitVec.ofNat 8 (s.table.entries.filter (fun e => decide (e.state = st))).length
        exec (.status m) s
          = .next ((if 24 ≤ capacityOf m.size then
              s.replied m .status .ok []
                ([3, s.bridge.state.code] ++ halfBytes s.ring.lastCycle ++ wordBytes (s.ring.period.getD 0)
                  ++ [s.sched.commit.code] ++ halfBytes s.sched.commit.target
                  ++ [boolByte s.sched.swapCycle.isSome] ++ halfBytes (s.sched.swapCycle.getD 0)
                  ++ [count .assembling, count .queued, count .executing, count .replying,
                      BitVec.ofNat 8 s.freeBlocks.length,
                      BitVec.ofNat 8 (s.descriptors.filter Option.isSome).length, BitVec.ofNat 8 s.replyQueue.length,
                      BitVec.ofNat 8 s.mgmt.queue.length, s.bus.engine.code, boolByte s.bus.grant])
            else s.replied m .status .badArg [] []).leaving (m.leavesAs .status s)))

/-- R161: ASSIGN, by its cases 2 to 7. That an unassigned node answers a source above 63 with BAD-ARG is the model's choice
(log 21), and so is the node that MGMT DENIED records: the source byte as it arrived, above 63 too (log 20). -/
def Obligations.AssignNamesTheNode : Prop :=
  ∀ (m : MgmtSlot) (s : State), m.reaches s → m.dest = s.mgmt.node →
    let number := byteAt m.param 0
    let out := m.leavesAs .assign s
    let ok := s.replied m .assign .ok [number] []
    let badArg := (s.replied m .assign .badArg [s.mgmt.node] []).leaving out
    (m.source = 0 ∨ m.source = 63 ∨ number = 0 ∨ 62 < number.toNat → exec (.assign m) s = .next badArg)
    ∧ (m.source ≠ 0 → m.source ≠ 63 → 1 ≤ number.toNat → number.toNat ≤ 62 →
      (s.mgmt.node = 0 → m.source.toNat ≤ 62 →
        exec (.assign m) s
          = .next (State.leaving { ok with mgmt := { ok.mgmt with node := number, manager := some m.source } } out))
      ∧ (s.mgmt.node = 0 → 63 < m.source.toNat → exec (.assign m) s = .next badArg)
      ∧ (s.mgmt.node ≠ 0 → s.mgmt.manager ≠ some m.source →
        exec (.assign m) s
          = .next ((report { kind := .denied, index := some m.index, node := some m.source, tag := some m.tag }
              (s.replied m .assign .denied [s.mgmt.node] [])).leaving out))
      ∧ (s.mgmt.node ≠ 0 → s.mgmt.manager = some m.source →
        (number = s.mgmt.node → exec (.assign m) s = .next (ok.leaving out))
        ∧ (number ≠ s.mgmt.node → s.bridge.state = .stopped →
            exec (.assign m) s = .next (State.leaving { ok with mgmt := { ok.mgmt with node := number } } out))
        ∧ (number ≠ s.mgmt.node → s.bridge.state ≠ .stopped →
            exec (.assign m) s = .next ((s.replied m .assign .state [s.mgmt.node] []).leaving out))))

/-- R162, with R18, R19, R126: CONFIGURE sets the selected parameters together, restarts the divider and drops the spans in
old ticks where the prescaler changes, and judges the limits afresh; stated where at most one of them has run out. The
configuration is sent in the layout of R162; the codes of the prescaler, and the tributary clocks that it stands for (R16),
are those of R162. -/
def Obligations.ConfigureSetsTheSelectedParameters : Prop :=
  ([Prescaler.p1, .p8, .p64, .p512].map (fun p => (p.code, p.clocks)) = [(0, 1), (1, 8), (2, 64), (3, 512)]
    ∧ (∀ b : Enables, b.code.toNat
        = (if b.ring then 1 else 0) + (if b.slot then 2 else 0) + (if b.bus then 4 else 0) + (if b.mgmt then 8 else 0))
    ∧ ∀ p : Params, p.toBytes
        = [p.prescaler.code] ++ tripleBytes p.cycleLimit ++ tripleBytes p.holdLimit
          ++ [BitVec.ofNat 8 p.gapLimit, BitVec.ofNat 8 p.deadline, p.bankEnables.code, p.noticeEnables.code])
  ∧ ∀ (m : MgmtSlot) (s : State), m.reaches s → m.authorised s → m.dest = s.mgmt.node →
    let mask := byteAt m.param 0
    let args := (padTo (capacityOf m.size) m.args).take m.argLen.toNat
    let old := s.mgmt.params
    let out := m.leavesAs .configure s
    let inRange :=
      (mask.getLsbD 0 = true → (byteAt args 0).toNat ≤ 3)
      ∧ (mask.getLsbD 3 = true → 1 ≤ (byteAt args 7).toNat ∧ (byteAt args 7).toNat ≤ 15)
      ∧ (mask.getLsbD 4 = true → 1 ≤ (byteAt args 8).toNat ∧ (byteAt args 8).toNat ≤ 15)
      ∧ (mask.getLsbD 5 = true → (byteAt args 9).toNat < 16) ∧ (mask.getLsbD 6 = true → (byteAt args 10).toNat < 16)
    (m.argLen ≠ 11 →
      exec (.configure m) s = .next ((s.replied m .configure .badArg [mask] []).leaving out))
    ∧ (m.argLen = 11 → mask.getLsbD 7 = true ∨ ¬inRange →
        exec (.configure m) s = .next ((s.replied m .configure .badArg [mask] old.toBytes).leaving out))
    ∧ ∀ p : Params, m.argLen = 11 → mask.getLsbD 7 = false → inRange →
        (if mask.getLsbD 0 then p.prescaler.code = byteAt args 0 else p.prescaler = old.prescaler) →
        p.cycleLimit = (if mask.getLsbD 1 then tripleAt args 1 else old.cycleLimit) →
        p.holdLimit = (if mask.getLsbD 2 then tripleAt args 4 else old.holdLimit) →
        p.gapLimit = (if mask.getLsbD 3 then (byteAt args 7).toNat else old.gapLimit) →
        p.deadline = (if mask.getLsbD 4 then (byteAt args 8).toNat else old.deadline) →
        (if mask.getLsbD 5 then p.bankEnables.code = byteAt args 9 else p.bankEnables = old.bankEnables) →
        (if mask.getLsbD 6 then p.noticeEnables.code = byteAt args 10 else p.noticeEnables = old.noticeEnables) →
        let ok := s.replied m .configure .ok [mask] p.toBytes
        let t : State := { ok with mgmt := { ok.mgmt with params := p } }
        let u : State :=
          if p.prescaler = old.prescaler then t
          else { t with
            ring := { t.ring with divider := 0, captured := none, period := none }
            bus := { t.bus with grantTime := t.bus.grantTime.map (fun _ => t.ring.timebase) } }
        (u.cycleLimitExpired = false → u.holdLimitExceeded = false → exec (.configure m) s = .next (u.leaving out))
        ∧ (p ≠ old → u.cycleLimitExpired = true → u.holdLimitExceeded = false →
            exec (.configure m) s
              = .next ((report { kind := .cycleLost }
                  { u with ring := { u.ring with state := .hunt, blind := false, captured := none } }).leaving out))
        ∧ (p ≠ old → u.cycleLimitExpired = false → u.holdLimitExceeded = true →
            exec (.configure m) s
              = .next ((report { kind := .holdLong } { u with bus := { u.bus with holdLong := true } }).leaving out))

/-- R35: SCHED-LOAD writes its entries into the shadow bank, whole or not at all. -/
def Obligations.SchedLoadEditsTheShadow : Prop :=
  ∀ (m : MgmtSlot) (s : State), m.reaches s → m.authorised s → m.dest = s.mgmt.node →
    let first := (byteAt m.param 0).toNat
    let count := (byteAt m.param 1).toNat
    let args := (padTo (capacityOf m.size) m.args).take m.argLen.toNat
    let param := [byteAt m.param 0, byteAt m.param 1]
    let out := m.leavesAs .schedLoad s
    let inRange := first ≤ 239 ∧ 1 ≤ count ∧ count ≤ 120 ∧ first + count ≤ 240 ∧ m.argLen.toNat = 2 * count
    (s.sched.commit ≠ .none → exec (.schedLoad m) s = .next ((s.replied m .schedLoad .busy param []).leaving out))
    ∧ (s.sched.commit = .none → ¬inRange →
        exec (.schedLoad m) s = .next ((s.replied m .schedLoad .badArg param []).leaving out))
    ∧ (∀ k, s.sched.commit = .none → inRange → k < count →
        SchedEntry.ofBytes (byteAt args (2 * k)) (byteAt args (2 * k + 1)) = none →
        exec (.schedLoad m) s = .next ((s.replied m .schedLoad .badArg param []).leaving out))
    ∧ ∀ es : List SchedEntry, s.sched.commit = .none → inRange → es.length = count →
        (∀ k, k < count → SchedEntry.ofBytes (byteAt args (2 * k)) (byteAt args (2 * k + 1)) = es[k]?) →
        exec (.schedLoad m) s
          = .next (State.leaving
              { s.replied m .schedLoad .ok param [] with
                sched := { s.sched with
                  shadow := s.sched.shadow.take first ++ es ++ s.sched.shadow.drop (first + count) } } out)

/-- R36, R95: SCHED-READ and WINDOW-READ return what they name, where it exists and the reply fits the request's slot, and
change nothing. -/
def Obligations.ScheduleAndWindowsAreRead : Prop :=
  ∀ (m : MgmtSlot) (s : State), m.reaches s → m.dest = s.mgmt.node →
    (let first := (byteAt m.param 1).toNat
     let count := (byteAt m.param 2).toNat
     let param := [byteAt m.param 0, byteAt m.param 1, byteAt m.param 2]
     let out := m.leavesAs .schedRead s
     let inRange := (byteAt m.param 0).toNat ≤ 1 ∧ first ≤ 239 ∧ 1 ≤ count ∧ count ≤ 120 ∧ first + count ≤ 240
     let bank := if byteAt m.param 0 = 0 then s.sched.active else s.sched.shadow
     let args := ((bank.drop first).take count).flatMap SchedEntry.toBytes
     (inRange → args.length ≤ capacityOf m.size →
        exec (.schedRead m) s = .next ((s.replied m .schedRead .ok param args).leaving out))
     ∧ (¬inRange ∨ capacityOf m.size < args.length →
        exec (.schedRead m) s = .next ((s.replied m .schedRead .badArg param []).leaving out)))
    ∧ (let i := (byteAt m.param 0).toNat
       let param := [byteAt m.param 0]
       let out := m.leavesAs .windowRead s
       (i ≤ 15 → 12 ≤ capacityOf m.size →
          exec (.windowRead m) s = .next ((s.replied m .windowRead .ok param ((s.window i).toBytes i)).leaving out))
       ∧ (15 < i ∨ capacityOf m.size < 12 →
          exec (.windowRead m) s = .next ((s.replied m .windowRead .badArg param []).leaving out)))

/-- R38, R155, R163: SCHED-COMMIT arms a swap, replacing a commit that is pending, and answers with the new commit state. The
command sets the selector (log 6). A SCHED-COMMIT whose selector is neither NEXT nor AT, which arrives as a slot, is answered
BAD-ARG with the commit state as it stands, and changes nothing else. -/
def Obligations.SchedCommitArmsASwap : Prop :=
  ∀ (m : MgmtSlot) (s : State), m.reaches s → m.authorised s →
    (let next := m.mapParam 0 (fun _ => 1)
     exec (.schedCommitNext m) s
      = .next (State.leaving
          { s.replied m .schedCommit .ok [1, 0, 0] [] with sched := { s.sched with commit := .pendingNext } }
          (next.leavesAs .schedCommit s)))
    ∧ (let at_ := m.mapParam 0 (fun _ => 2)
       let target := halfAt m.param 1
       exec (.schedCommitAt m) s
        = .next (State.leaving
            { s.replied m .schedCommit .ok ([2] ++ halfBytes target) [] with
              sched := { s.sched with commit := .pendingAt target } }
            (at_.leavesAs .schedCommit s)))
    ∧ (byteAt m.param 0 ≠ 1 → byteAt m.param 0 ≠ 2 →
        exec (.slotArrival (m.arrival .schedCommit).raw) s
          = .next ((s.replied m .schedCommit .badArg ([s.sched.commit.code] ++ halfBytes s.sched.commit.target) []).leaving
              (m.leavesAs .schedCommit s)))

/-- R42: SCHED-CANCEL, which forgets a pending commit. R156: it is the manager's alone; the node that MGMT DENIED records for
any other sender is the source byte as it arrived, above 63 too: the model's choice (log 20). -/
def Obligations.SchedCancelForgetsTheCommit : Prop :=
  ∀ (m : MgmtSlot) (s : State), m.reaches s → m.dest = s.mgmt.node →
    let out := m.leavesAs .schedCancel s
    (m.authorised s →
      (s.sched.commit ≠ .none →
        exec (.schedCancel m) s
          = .next (State.leaving
              { s.replied m .schedCancel .ok [0] [] with sched := { s.sched with commit := .none } } out))
      ∧ (s.sched.commit = .none → exec (.schedCancel m) s = .next ((s.replied m .schedCancel .state [0] []).leaving out)))
    ∧ (s.mgmt.node ≠ 0 → s.mgmt.manager ≠ some m.source →
        exec (.schedCancel m) s
          = .next ((report { kind := .denied, index := some m.index, node := some m.source, tag := some m.tag }
              (s.replied m .schedCancel .denied [s.sched.commit.code] [])).leaving out))

/-- R93, R94: WINDOW-LOAD of either form: the judgement in its order, the window loaded, or made invalid with its other
fields kept. -/
def Obligations.WindowLoadIsJudgedInOrder : Prop :=
  ∀ (c : Instr) (m : MgmtSlot) (s : State), c.managementRequest = some (m, .windowLoad) → m.reaches s → m.authorised s →
    m.dest = s.mgmt.node → s.windowLaw →
    let r := (padTo (capacityOf m.size) m.args).take m.argLen.toNat
    let i := (byteAt r 0).toNat
    let param := [byteAt r 0]
    let out := m.leavesAs .windowLoad s
    let base := wordAt r 4
    let size := halfAt r 8
    let ok := s.replied m .windowLoad .ok param []
    (m.argLen ≠ 12 ∨ 15 < i → exec c s = .next ((s.replied m .windowLoad .badArg param []).leaving out))
    ∧ (m.argLen = 12 → i ≤ 15 → 0 < (s.window i).inUse →
        exec c s = .next ((s.replied m .windowLoad .busy param []).leaving out))
    ∧ (m.argLen = 12 → i ≤ 15 → (s.window i).inUse = 0 → (byteAt r 1).getLsbD 7 = false →
        exec c s = .next (State.leaving { ok with windows := s.windows.set i { s.window i with valid := false } } out))
    ∧ ∀ width : Option Width,
        (byteAt r 3 = 1 ∧ width = some .w1 ∨ byteAt r 3 = 2 ∧ width = some .w2 ∨ byteAt r 3 = 4 ∧ width = some .w4
          ∨ byteAt r 3 ≠ 1 ∧ byteAt r 3 ≠ 2 ∧ byteAt r 3 ≠ 4 ∧ width = none) →
        let good := width ≠ none ∧ byteAt r 1 &&& 0x70 = 0 ∧ byteAt r 2 &&& 0xE0 = 0 ∧ base.toNat % 256 = 0 ∧ size ≠ 0
          ∧ base.toNat + 256 * size.toNat ≤ 2 ^ 32 ∧ byteAt r 10 ≠ 0 ∧ (byteAt r 11).toNat ≤ 62
          ∧ ∀ j a, j ≠ i → (s.window j).holds a = true → a < base.toNat ∨ base.toNat + 256 * size.toNat ≤ a
        (m.argLen = 12 → i ≤ 15 → (s.window i).inUse = 0 → (byteAt r 1).getLsbD 7 = true → ¬good →
          exec c s = .next ((s.replied m .windowLoad .badArg param []).leaving out))
        ∧ ∀ w, m.argLen = 12 → i ≤ 15 → (s.window i).inUse = 0 → (byteAt r 1).getLsbD 7 = true → good → width = some w →
          exec c s
            = .next (State.leaving
                { ok with
                  windows := s.windows.set i
                    { valid := true, base := base, size := size, width := w,
                      attrs := { read := (byteAt r 2).getLsbD 0, write := (byteAt r 2).getLsbD 1,
                                 lock := (byteAt r 2).getLsbD 2, burst := (byteAt r 2).getLsbD 3,
                                 line := (byteAt r 2).getLsbD 4 },
                      budget := byteAt r 10, owner := if byteAt r 11 = 0 then none else some (byteAt r 11), inUse := 0 } }
                out)

/-- R165, R188, R189, R191: START, and STOP without the flush option, whose bit the command clears (log 6). A STOP in RUNNING
begins the drain, and in either state the drain completion condition is judged at it: all entries FREE, and no descriptor
pending unless the flush indication is set. -/
def Obligations.StartAndStopMoveTheBridge : Prop :=
  ∀ (m : MgmtSlot) (s : State), m.reaches s → m.authorised s →
    (s.bridge.state = .running →
      exec (.start m) s = .next ((s.replied m .start .state [1] []).leaving (m.leavesAs .start s)))
    ∧ (s.bridge.state ≠ .running →
        exec (.start m) s
          = .next (State.leaving
              { s.replied m .start .ok [1] [] with bridge := { s.bridge with state := .running, flush := false } }
              (m.leavesAs .start s)))
    ∧ (let stop := m.mapParam 0 (fun b => b &&& 0xFE)
       let out := stop.leavesAs .stop s
       let closed := (∀ e ∈ s.table.entries, e.state = .free) ∧ ∀ d ∈ s.descriptors, d = none
       (1 < (byteAt m.param 0).toNat →
          exec (.stop m) s = .next ((s.replied m .stop .badArg [s.bridge.state.code] []).leaving out))
       ∧ ((byteAt m.param 0).toNat ≤ 1 →
          (s.bridge.state = .stopped → exec (.stop m) s = .next ((s.replied m .stop .state [0] []).leaving out))
          ∧ (s.bridge.state = .running → closed →
              exec (.stop m) s
                = .next (State.leaving
                    { s.replied m .stop .ok [0] [] with bridge := { s.bridge with state := .stopped, flush := false } } out))
          ∧ (s.bridge.state = .running → ¬closed →
              exec (.stop m) s
                = .next (State.leaving
                    { s.replied m .stop .ok [2] [] with bridge := { s.bridge with state := .draining, flush := false } } out))
          ∧ (s.bridge.state = .draining → (∃ e ∈ s.table.entries, e.state ≠ .free) →
              exec (.stop m) s = .next ((s.replied m .stop .ok [2] []).leaving out))
          ∧ (s.bridge.state = .draining → s.bridge.flush = false → (∃ d ∈ s.descriptors, d ≠ none) →
              exec (.stop m) s = .next ((s.replied m .stop .ok [2] []).leaving out))
          ∧ (s.bridge.state = .draining → (∀ e ∈ s.table.entries, e.state = .free) →
              s.bridge.flush = true ∨ (∀ d ∈ s.descriptors, d = none) →
              exec (.stop m) s
                = .next (State.leaving
                    { s.replied m .stop .ok [0] [] with bridge := { s.bridge with state := .stopped, flush := false } } out))))

/-- R86, R190: STOP with the flush option. With nothing EXECUTING everything open ends and the bridge is STOPPED; with a bus
cycle in progress the EXECUTING entry stays, marked quiet, and the bridge is DRAINING with the flush indication set; between
two cycles, with the bus lent or idle, its execution ends at the arrival and the bridge is STOPPED. A locked operation in
IDLE, with no hold requested, is before its sequence, which starts first, so that the STOP finds it in progress (R77, R81; the
model's reading, log 2). The command sets the flush bit (log 6); the order of the effects of one arrival is the model's
reading (log 16). -/
def Obligations.StopWithFlushEndsEverything : Prop :=
  ∀ (m : MgmtSlot) (s : State), m.reaches s → m.authorised s →
    let stop := m.mapParam 0 (fun b => b ||| 0x01)
    let out := stop.leavesAs .stop s
    (1 < (byteAt m.param 0).toNat →
      exec (.stopWithFlush m) s = .next ((s.replied m .stop .badArg [s.bridge.state.code] []).leaving out))
    ∧ ((byteAt m.param 0).toNat ≤ 1 → s.bridge.state = .stopped →
        exec (.stopWithFlush m) s = .next ((s.replied m .stop .state [0] []).leaving out))
    ∧ ((byteAt m.param 0).toNat ≤ 1 → s.bridge.state ≠ .stopped →
        (s.executing = none →
          ∃ u : State, exec (.stopWithFlush m) s = .next ((arbitrate u).leaving out)
            ∧ (∀ j, (u.entry j).state = .free) ∧ u.table.order = [] ∧ u.table.requests = [] ∧ u.replyQueue = []
            ∧ u.descriptors = [none, none, none, none]
            ∧ (∀ w, u.window w = { s.window w with inUse := (s.window w).inUse - s.waitingIn w })
            ∧ u.bridge = { s.bridge with state := .stopped, flush := false }
            ∧ u.mgmt = (s.replied m .stop .ok [0] []).mgmt ∧ u.ring = s.ring ∧ u.sched = s.sched ∧ u.bus = s.bus
            ∧ u.reports = s.reports ∧ u.pins = s.pins)
        ∧ (∀ i, s.executing = some i → s.oneExecuting → s.bus.engine = .cycle ∨ s.bus.engine = .locked →
          ∃ u : State, exec (.stopWithFlush m) s = .next (u.leaving out)
            ∧ u.entry i = { s.entry i with mark := .quiet } ∧ (∀ j, j ≠ i → (u.entry j).state = .free)
            ∧ u.table.order = s.table.order.filter (fun j => decide (j = i)) ∧ u.table.requests = []
            ∧ u.replyQueue = s.replyQueue.filter (fun x => decide (x = .entry i))
            ∧ u.descriptors = [none, none, none, none]
            ∧ (∀ w, u.window w = { s.window w with inUse := (s.window w).inUse - s.waitingIn w })
            ∧ u.bridge = { s.bridge with state := .draining, flush := true }
            ∧ u.mgmt = (s.replied m .stop .ok [2] []).mgmt ∧ u.ring = s.ring ∧ u.sched = s.sched ∧ u.bus = s.bus
            ∧ u.reports = s.reports ∧ u.pins = s.pins)
        ∧ (∀ i t, s.executing = some i → s.oneExecuting → s.bus.engine = .idle → s.pins.holdRequest = false →
            (s.entry i).op.locked = true → exec .busCycleStart s = .next t →
            exec (.stopWithFlush m) s = exec (.stopWithFlush m) t)
        ∧ (∀ i, s.executing = some i → s.oneExecuting →
            s.bus.engine = .yielded ∨ s.bus.engine = .idle ∧ s.pins.holdRequest = false ∧ (s.entry i).op.locked = false →
          ∃ t : State, exec (.stopWithFlush m) s = .next t
            ∧ (∀ j, (t.entry j).state = .free) ∧ t.replyQueue = [] ∧ t.table.requests = []
            ∧ t.descriptors = [none, none, none, none]
            ∧ t.bridge = { s.bridge with state := .stopped, flush := false }
            ∧ t.bus.engine = s.bus.engine ∧ t.bus.plan = []
            ∧ t.reports.bus.events = min (s.reports.bus.events + 1) 65535
            ∧ t.reports.counters.executed = s.reports.counters.executed + 1
            ∧ (∃ l, t.reports.lastTx = some l ∧ l.source = (s.entry i).source ∧ l.tag = (s.entry i).tag
                ∧ l.final = .aborted)))

/-- R82 to R84, R166: ABORT of either form: what becomes of each entry by its state, whether matched or not, where no
execution ends at the arrival; and where the execution of a matched entry ends at it, between cycles, alone or together with
other entries (R73, R77, R81, R128, R184). A locked operation in IDLE, with no hold requested, is before its sequence, which
starts first, so that the ABORT finds it in progress (R77, R81; the model's reading, log 2). The command fixes the quiet bit
(log 6); the order of the effects of one arrival is the model's reading (log 16). -/
def Obligations.AbortEndsTheMatchedEntries : Prop :=
  ∀ (c : Instr) (m : MgmtSlot) (s : State), c.managementRequest = some (m, .abort) → m.reaches s → m.authorised s →
    m.dest = s.mgmt.node → s.queueLaw → s.oneExecuting →
    let scope := byteAt m.param 0
    let node := byteAt m.param 1
    let quiet := (byteAt m.param 3).getLsbD 0
    let out := m.leavesAs .abort s
    let valid := (scope = 1 ∨ (scope = 2 ∨ scope = 3) ∧ isNode node = true) ∧ (byteAt m.param 3).toNat ≤ 1
    let hit := fun j => decide ((s.entry j).state ≠ .free) && (decide (scope = 1)
      || (decide ((s.entry j).source = node) && (decide (scope = 2) || decide ((s.entry j).tag = byteAt m.param 2))))
    let waits := fun j => decide ((s.entry j).state = .assembling) || decide ((s.entry j).state = .queued)
    let reply := s.replied m .abort .ok [BitVec.ofNat 8 (s.table.order.filter hit).length, scope] []
    (¬valid → exec c s = .next ((s.replied m .abort .badArg [] []).leaving out))
    ∧ (valid → (∀ j, hit j = true → (s.entry j).state = .executing → s.bus.engine = .cycle ∨ s.bus.engine = .locked) →
        ∃ u : State, exec c s = .next ((settle u).leaving out)
          ∧ (∀ j, hit j = false → u.entry j = s.entry j)
          ∧ (∀ j, hit j = true →
              (waits j = true → quiet = true → (u.entry j).state = .free)
              ∧ (waits j = true → quiet = false →
                  u.entry j = { s.entry j with state := .replying, final := some .aborted, done := 0, deadline := 0 })
              ∧ ((s.entry j).state = .replying → (u.entry j).state = .free)
              ∧ ((s.entry j).state = .executing →
                  u.entry j = { s.entry j with
                    mark := if quiet = true ∨ (s.entry j).mark = .quiet then .quiet else .reply }))
          ∧ u.table.requests = s.table.requests.filter (fun j => !hit j)
          ∧ u.replyQueue
              = s.replyQueue.filter (fun x => match x with
                  | .desc _ => true
                  | .entry j => !(hit j && decide ((s.entry j).state = .replying)))
                ++ (if quiet then [] else (s.table.order.filter (fun j => hit j && waits j)).map Member.entry)
          ∧ (∀ w, u.window w = { s.window w with
              inUse := (s.window w).inUse
                - (s.table.order.filter (fun j => hit j && waits j && decide ((s.entry j).window = w))).length })
          ∧ (∀ j, j ∈ u.table.order ↔ j ∈ s.table.order ∧ (u.entry j).state ≠ .free)
          ∧ u.table.pool = s.table.pool
          ∧ u.mgmt = reply.mgmt ∧ u.descriptors = s.descriptors ∧ u.ring = s.ring ∧ u.sched = s.sched ∧ u.bus = s.bus
          ∧ u.reports = s.reports ∧ u.bridge = s.bridge ∧ u.pins = s.pins)
    ∧ (∀ i, valid → hit i = true → (s.entry i).state = .executing →
        s.bus.engine = .yielded ∨ s.bus.engine = .idle ∧ (s.entry i).op.locked = false →
        let e := s.entry i
        let mark := if quiet = true ∨ e.mark = .quiet then AbortMark.quiet else AbortMark.reply
        let gone := decide (mark = .quiet ∨ e.op = .writeQuiet)
        let done := if e.op.locked then (if e.old.isSome then e.total else 0) else e.done
        let reported := report
          { kind := .abortedInFlight, node := some e.source, tag := some e.tag, addr := some e.addr }
          { reply with reports := { s.reports with
              counters := { s.reports.counters with executed := s.reports.counters.executed + 1 }
              lastTx := some { source := e.source, tag := e.tag, op := e.op, final := .aborted, addr := e.addr,
                               done := done, cycle := s.ring.lastCycle } } }
        ∃ u : State, exec c s = .next ((settle u).leaving out)
          ∧ (∀ j, hit j = false → u.entry j = s.entry j)
          ∧ (∀ j, hit j = true →
              (waits j = true → quiet = true → (u.entry j).state = .free)
              ∧ (waits j = true → quiet = false →
                  u.entry j = { s.entry j with state := .replying, final := some .aborted, done := 0, deadline := 0 })
              ∧ ((s.entry j).state = .replying → (u.entry j).state = .free))
          ∧ (gone = true → (u.entry i).state = .free)
          ∧ (gone = false →
              u.entry i = { e with mark := mark, state := .replying, final := some .aborted, done := done, deadline := 0 })
          ∧ u.table.requests = s.table.requests.filter (fun j => !hit j)
          ∧ u.replyQueue
              = s.replyQueue.filter (fun x => match x with
                  | .desc _ => true
                  | .entry j => !(hit j && (decide ((s.entry j).state = .replying) || (decide (j = i) && gone))))
                ++ (s.table.order.filter (fun j =>
                    hit j && (waits j && !quiet || decide (j = i) && !gone && decide (e.op ≠ .read)))).map Member.entry
          ∧ (∀ w, u.window w = { s.window w with
              inUse := (s.window w).inUse
                - (s.table.order.filter (fun j =>
                    hit j && (waits j || decide (j = i)) && decide ((s.entry j).window = w))).length })
          ∧ (∀ j, j ∈ u.table.order ↔ j ∈ s.table.order ∧ (u.entry j).state ≠ .free)
          ∧ u.table.pool = s.table.pool
          ∧ u.bus = { State.reset.bus with
              engine := s.bus.engine, grant := s.bus.grant, grantTime := s.bus.grantTime, holdLong := s.bus.holdLong
              separating := s.bus.separating }
          ∧ u.mgmt = reported.mgmt ∧ u.reports = reported.reports
          ∧ u.descriptors = s.descriptors ∧ u.ring = s.ring ∧ u.sched = s.sched ∧ u.bridge = s.bridge ∧ u.pins = s.pins)
    ∧ (∀ i t, valid → hit i = true → (s.entry i).state = .executing → s.bus.engine = .idle → s.pins.holdRequest = false →
        (s.entry i).op.locked = true → exec .busCycleStart s = .next t → exec c s = exec c t)
    ∧ ∀ i, valid → (∀ j, hit j = true ↔ j = i) → (s.entry i).state = .executing →
        s.bus.engine = .idle ∧ (s.entry i).op.locked = false ∨ s.bus.engine = .yielded →
        exec c s
          = .next ((settle (endExecution i .aborted { reply with
              table := { s.table with
                entries := s.table.entries.modify i (fun e => { e with
                  mark := if quiet = true ∨ e.mark = .quiet then .quiet else .reply }) } })).leaving out)

/-- R168, R169, R180: REPORT-READ's replies, byte by byte, and REPORT-CLEAR. The codes of the banks and of the kinds are those
of section 8.4, and the codes of the operations those of section 1.10. -/
def Obligations.ReportsAreReadAndCleared : Prop :=
  ReportKind.codesAreOfTheTables
  ∧ [ReqOp.read, .write, .writeQuiet, .swap, .add, .cswap].map ReqOp.code = [0x01, 0x02, 0x03, 0x04, 0x05, 0x06]
  ∧ ∀ (m : MgmtSlot) (s : State), m.reaches s → m.dest = s.mgmt.node →
    let selector := byteAt m.param 0
    (∀ args : List Byte,
      ((∃ name : BankName, selector = name.code ∧
          let b := s.reports.bank name
          let enable := s.mgmt.params.bankEnables.of name
          let notice := s.mgmt.params.noticeEnables.of name
          (b.record = none
              ∧ args = [flagByte [enable, notice], 0] ++ halfBytes (BitVec.ofNat 16 b.events) ++ List.replicate 12 0
            ∨ ∃ r, b.record = some r
              ∧ args = [flagByte [enable, notice, true, r.overflow, r.noticeLost], r.kind.code]
                  ++ halfBytes (BitVec.ofNat 16 b.events) ++ halfBytes r.cycle
                  ++ [flagByte [r.index.isSome, r.node.isSome, r.tag.isSome, r.addr.isSome],
                      r.index.getD 0, r.node.getD 0, r.tag.getD 0]
                  ++ wordBytes (r.addr.getD 0) ++ halfBytes (BitVec.ofNat 16 r.later)))
        ∨ selector = 4
          ∧ args = (let c := s.reports.counters
              wordBytes c.cyclesInSync ++ wordBytes c.segmentsTaken ++ wordBytes c.segmentsGiven ++ wordBytes c.executed
                ++ wordBytes c.beats ++ wordBytes c.busyTicks ++ wordBytes c.holdTicks)
        ∨ selector = 5 ∧ s.reports.lastTx = none ∧ args = List.replicate 13 0
        ∨ selector = 5 ∧ ∃ l, s.reports.lastTx = some l
            ∧ args = [1, l.source, l.tag, l.op.code, l.final.code] ++ wordBytes l.addr
                ++ halfBytes (BitVec.ofNat 16 l.done) ++ halfBytes l.cycle) →
      exec (.reportRead m) s
        = .next ((if args.length ≤ capacityOf m.size then s.replied m .reportRead .ok [selector] args
            else s.replied m .reportRead .badArg [] []).leaving (m.leavesAs .reportRead s)))
    ∧ (5 < selector.toNat →
        exec (.reportRead m) s = .next ((s.replied m .reportRead .badArg [] []).leaving (m.leavesAs .reportRead s)))
    ∧ (m.authorised s → 3 < selector.toNat →
        exec (.reportClear m) s = .next ((s.replied m .reportClear .badArg [] []).leaving (m.leavesAs .reportClear s)))
    ∧ (∀ name : BankName, m.authorised s → selector = name.code →
        exec (.reportClear m) s
          = .next (State.leaving
              { s.replied m .reportClear .ok [selector] [] with
                reports := s.reports.setBank name { events := (s.reports.bank name).events, record := none } }
              (m.leavesAs .reportClear s)))

/-- R170, R195: a RESET that passes is not answered. With nothing EXECUTING the soft reset takes effect at the arrival; with
an execution between cycles it ends that execution and then takes effect; with a bus cycle in progress it is pending, and
the EXECUTING entry is marked quiet. A locked operation in IDLE, with no hold requested, is before its sequence, which starts
first, so that the RESET finds it in progress (R77, R81; the model's reading, log 2). The order of the effects of one arrival is the model's reading (log 1). -/
def Obligations.ResetBeginsTheSoftReset : Prop :=
  ∀ (m : MgmtSlot) (s : State), m.resets s →
    let out := encodeSlot m.index 0 m.size .void (List.replicate (payloadLength m.size) 0)
    let t : State := { s with
      prevIndex := some m.index, bridge := { s.bridge with softReset := some (m.source, m.tag) } }
    let marked := fun i : Nat => { t with
      table := { s.table with entries := s.table.entries.modify i (fun e => { e with mark := .quiet }) } }
    (s.executing = none →
      exec (.reset m) s = .next ((arbitrate (softResetEffect m.source m.tag t)).leaving out))
    ∧ (∀ i, s.executing = some i → s.bus.engine = .cycle ∨ s.bus.engine = .locked →
        exec (.reset m) s = .next ((marked i).leaving out))
    ∧ (∀ i u, s.executing = some i → s.bus.engine = .idle → s.pins.holdRequest = false → (s.entry i).op.locked = true →
        exec .busCycleStart s = .next u → exec (.reset m) s = exec (.reset m) u)
    ∧ (∀ i, s.executing = some i → s.oneExecuting →
        s.bus.engine = .idle ∧ (s.entry i).op.locked = false ∨ s.bus.engine = .yielded →
        exec (.reset m) s
          = .next ((arbitrate (softResetEffect m.source m.tag (endExecution i .aborted (marked i)))).leaving out))

/-! ### Request segments

In each, `g.consumed s t` is the slot consumed, and where its entry is BOTH filled again (R31, R33), the state after the intake
being `t`; and `g.left` the slot left (R58). A command is the arrival of its slot (log 6). -/

/-- R45, R46, R56, R57, R71: a first segment that passes the checks, with an entry and blocks free, opens its transaction:
for each of the six operations. A transaction that is complete is QUEUED, at which the Bus Engine decides (R111). -/
def Obligations.FirstSegmentsOpenTransactions : Prop :=
  ∀ (op : ReqOp) (g : SegSlot) (s : State) (w i : Nat) (blocks : List Nat), g.reaches 0 s → g.passes op w s →
    s.windowLaw → s.offers i blocks (if op.locked then 1 else (g.total.toNat + 255) / 256) →
    let received := if op.isWrite then g.count.toNat else 0
    let queued := ¬(op.isWrite = true ∧ received < g.total.toNat)
    let e : Entry :=
      { state := if op.isWrite = true ∧ received < g.total.toNat then .assembling else .queued
        source := g.source, tag := g.tag, op := op, addr := g.addr, total := g.total.toNat, window := w, blocks := blocks,
        received := received, done := 0, sent := 0, final := none, gap := 0, deadline := 0, mark := .none, old := none }
    let u : State := { s with
      prevIndex := some g.index
      table := { entries := s.table.entries.set i e
                 order := s.table.order ++ [i]
                 requests := if op.isWrite = true ∧ received < g.total.toNat then s.table.requests
                   else s.table.requests ++ [i]
                 pool := poolWriteRun e.poolAddr 0 ((padTo (capacityOf g.size) g.data).take g.count.toNat) s.table.pool }
      windows := s.windows.modify w (fun x => { x with inUse := x.inUse + 1 })
      reports := { s.reports with
        counters := { s.reports.counters with segmentsTaken := s.reports.counters.segmentsTaken + 1 } } }
    (queued → exec (op.first g) s = .next (g.consumed s (arbitrate u)))
    ∧ (¬queued → exec (op.first g) s = .next (g.consumed s u))

/-- R51 to R55, R60: a first segment that fails a check is rejected with the status of the first check that fails: the
lowest-numbered free descriptor is filled and joins the Reply Queue. With no descriptor free it is refused (R58). R50, R56,
R58: a segment is refused by the bridge state, and a first segment for want of an entry or of blocks: the slot is left and
SLOT REFUSED reported; nothing else changes. -/
def Obligations.FirstSegmentsAreTurnedDown : Prop :=
  (∀ (op : ReqOp) (g : SegSlot) (s : State), g.reaches 0 s → s.windowLaw → s.descriptors.length = 4 →
       let count := g.count.toNat
       let total := g.total.toNat
       let addr := g.addr.toNat
       let last := g.flags.getLsbD 0
       let badRequest := g.status ≠ 0 ∨ g.flags &&& 0xFE ≠ 0 ∨ capacityOf g.size < count
         ∨ op = .read ∧ (count ≠ 0 ∨ last = false)
         ∨ op.isWrite = true ∧ (count = 0 ∨ last = true ∧ count < total ∨ last = false ∧ count = total)
         ∨ (op = .swap ∨ op = .add) ∧ (count ≠ total ∨ last = false)
         ∨ op = .cswap ∧ (count ≠ 2 * total ∨ last = false)
       let length := total = 0 ∨ 1024 < total ∨ op.isWrite = true ∧ total < count ∨ 2 ^ 32 < addr + total
       let align := op.locked = true ∧ (total ≠ 1 ∧ total ≠ 2 ∧ total ≠ 4 ∨ addr % total ≠ 0)
       let inUse := ∃ i, (s.entry i).state ≠ .free ∧ (s.entry i).source = g.source ∧ (s.entry i).tag = g.tag
       let inWindow := fun w => (s.window w).holds addr = true ∧ (s.window w).holds (addr + total - 1) = true
       let permits := fun w => (op = .read → (s.window w).attrs.read = true)
         ∧ (op.isWrite = true → (s.window w).attrs.write = true)
         ∧ (op.locked = true → (s.window w).attrs.read = true ∧ (s.window w).attrs.write = true ∧ (s.window w).attrs.lock = true)
         ∧ ∀ n, (s.window w).owner = some n → n = g.source
       let fails := fun status =>
         badRequest ∧ status = Status.badRequest
         ∨ ¬badRequest ∧ length ∧ status = Status.length
         ∨ ¬badRequest ∧ ¬length ∧ align ∧ status = Status.align
         ∨ ¬badRequest ∧ ¬length ∧ ¬align ∧ inUse ∧ status = Status.tagInUse
         ∨ ¬badRequest ∧ ¬length ∧ ¬align ∧ ¬inUse ∧ (∀ w, ¬inWindow w) ∧ status = Status.noWindow
         ∨ ¬badRequest ∧ ¬length ∧ ¬align ∧ ¬inUse ∧ (∃ w, inWindow w ∧ ¬permits w) ∧ status = Status.denied
       ∀ status, fails status →
         (∀ d, s.descriptor d = none → d < 4 → (∀ k, k < d → s.descriptor k ≠ none) →
           exec (op.first g) s
             = .next (g.consumed s { s with
                 prevIndex := some g.index
                 descriptors := s.descriptors.set d (some
                   { requester := g.source, tag := g.tag, status := status, total := g.total, addr := g.addr })
                 replyQueue := s.replyQueue ++ [.desc d]
                 reports := { s.reports with
                   counters := { s.reports.counters with segmentsTaken := s.reports.counters.segmentsTaken + 1 } } }))
         ∧ ((∀ d, d < 4 → s.descriptor d ≠ none) →
           exec (op.first g) s
             = .next (g.left op 0 (report
           { kind := .refused, index := some g.index, node := some g.source, tag := some g.tag, addr := some g.addr }
           { s with prevIndex := some g.index }))))
  ∧ ((∀ (c : Instr) (g : SegSlot) (op : ReqOp) (offset : Half) (s : State), c.segmentRequest = some (g, op, offset) →
       g.presented s → s.bridge.state = .stopped ∨ s.bridge.state = .draining ∧ offset = 0 →
       exec c s = .next (g.left op offset (report
           { kind := .refused, index := some g.index, node := some g.source, tag := some g.tag, addr := some g.addr }
           { s with prevIndex := some g.index })))
     ∧ ∀ (op : ReqOp) (g : SegSlot) (s : State) (w : Nat), g.reaches 0 s → g.passes op w s → s.windowLaw →
         ((∀ e ∈ s.table.entries, e.state ≠ .free)
           ∨ s.freeBlocks.length < if op.locked then 1 else (g.total.toNat + 255) / 256) →
         exec (op.first g) s = .next (g.left op 0 (report
           { kind := .refused, index := some g.index, node := some g.source, tag := some g.tag, addr := some g.addr }
           { s with prevIndex := some g.index })))

/-- R62 to R65: a later segment, by the write in ASSEMBLING that it belongs to: inconsistent or past a gap it ends the write
with SEQUENCE, wholly received it is discarded, else it is appended. Without such a write it is an orphan. That SLOT SEQUENCE
carries the segment's local address is the model's reading (log 11). -/
def Obligations.LaterSegmentsAreJudged : Prop :=
  ∀ (op : ReqOp) (offset : Half) (g : SegSlot) (s : State), offset ≠ 0 → g.reaches offset s →
    let c := Instr.laterSegment op offset g
    let start := offset.toNat
    let stop := offset.toNat + g.count.toNat
    let last := g.flags.getLsbD 0
    let t : State := { s with
      prevIndex := some g.index
      reports := { s.reports with
        counters := { s.reports.counters with segmentsTaken := s.reports.counters.segmentsTaken + 1 } } }
    let mine := fun i => (s.entry i).state = .assembling ∧ (s.entry i).source = g.source ∧ (s.entry i).tag = g.tag
    (∀ i, mine i → s.pairLaw →
      let e := s.entry i
      let inconsistent := op ≠ e.op ∨ g.total.toNat ≠ e.total ∨ g.addr ≠ e.addr ∨ g.status ≠ 0 ∨ g.flags &&& 0xFE ≠ 0
        ∨ capacityOf g.size < g.count.toNat ∨ e.total < stop ∨ last = true ∧ stop < e.total ∨ last = false ∧ stop = e.total
      (inconsistent ∨ e.received < start →
        exec c s = .next (g.consumed s (report
          { kind := .sequence, index := some g.index, node := some g.source, tag := some g.tag, addr := some g.addr }
          { t with
            table := { s.table with
              entries := s.table.entries.set i
                { e with state := .replying, final := some .sequence, done := 0, deadline := 0 }
              requests := s.table.requests.filter (fun j => decide (j ≠ i)) }
            windows := s.windows.modify e.window (fun w => { w with inUse := w.inUse - 1 })
            replyQueue := s.replyQueue ++ [.entry i] })))
      ∧ (¬inconsistent → start ≤ e.received → stop ≤ e.received → exec c s = .next (g.consumed s t))
      ∧ (¬inconsistent → start ≤ e.received → e.received < stop →
          let u : State := { t with
            table := { s.table with
              entries := s.table.entries.set i
                { e with received := stop, gap := 0, state := if stop = e.total then .queued else .assembling }
              requests := if stop = e.total then s.table.requests ++ [i] else s.table.requests
              pool := poolWriteRun e.poolAddr e.received
                (((padTo (capacityOf g.size) g.data).take g.count.toNat).drop (e.received - start)) s.table.pool } }
          exec c s = .next (g.consumed s (if stop = e.total then arbitrate u else u))))
    ∧ ((∀ i, ¬mine i) → s.descriptors.length = 4 →
        (∀ d, s.descriptor d = none → d < 4 → (∀ k, k < d → s.descriptor k ≠ none) →
          exec c s = .next (g.consumed s (report
            { kind := .orphan, index := some g.index, node := some g.source, tag := some g.tag, addr := some g.addr }
            { t with
              descriptors := s.descriptors.set d (some
                { requester := g.source, tag := g.tag, status := .orphan, total := g.total, addr := g.addr })
              replyQueue := s.replyQueue ++ [.desc d] })))
        ∧ ((∀ d, d < 4 → s.descriptor d ≠ none) →
          exec c s = .next (g.left op offset (report
        { kind := .refused, index := some g.index, node := some g.source, tag := some g.tag, addr := some g.addr }
        { s with prevIndex := some g.index }))))

/-- R78: transaction byte k of an entry lies at position k mod 256 of block k div 256 of its list, and stays there when
other transactions' bytes are written. R107, R109: what a taken beat writes: the data of its needed bytes of a READ at their
places in the entry's blocks, and done as the completed prefix; a write beat leaves the pool. R77, R104: a read beat of a
locked operation puts its data at the places of the old value, in byte order, and keeps every other byte of the block, the
operand values among them; the old value that is held is what lies at those places. That the pool is a list in canonical form,
and where in its block the old value lies (`oldPlace`), is the model's (log 7). -/
def Obligations.ThePoolHoldsTransactionBytes : Prop :=
  (∀ (s : State) (e : Entry) (k : Nat) (bytes : List Byte), s.poolLaw → e.blocks.Nodup → k + bytes.length ≤ 256 * e.blocks.length →
       (∀ j, j < bytes.length → (s.writeTx e k bytes).txByte e (k + j) = byteAt bytes j)
       ∧ (∀ j, j < k ∨ k + bytes.length ≤ j → j < 256 * e.blocks.length → (s.writeTx e k bytes).txByte e j = s.txByte e j)
       ∧ ∀ (f : Entry) (j : Nat), j < 256 * f.blocks.length → (∀ b ∈ f.blocks, b ∉ e.blocks) →
           (s.writeTx e k bytes).txByte f j = s.txByte f j)
  ∧ ((∀ (s : State) (e : Entry) (b : Beat) (lanes : List Nat) (data : LaneData), s.poolLaw → b.write = false →
       e.op.locked = false → e.blocks.Nodup → e.total ≤ 256 * e.blocks.length → lanes.Nodup → (∀ l ∈ lanes, l < 4) →
       (∀ l ∈ lanes, e.needs (b.word + l) = true →
         (placeRead e b lanes data s).txByte e (b.word + l - e.addr.toNat) = LaneData.lane data l)
       ∧ ∀ k, k < e.total → (∀ l ∈ lanes, e.needs (b.word + l) = true → k ≠ b.word + l - e.addr.toNat) →
           (placeRead e b lanes data s).txByte e k = s.txByte e k)
     ∧ (∀ (s : State) (e : Entry) (b : Beat) (lanes : List Nat) (data : LaneData), b.write = true →
         placeRead e b lanes data s = s)
     ∧ (∀ (s : State) (e : Entry) (b : Beat) (lanes : List Nat) (data : LaneData), s.poolLaw → b.write = false →
       e.op.locked = true → e.blocks.length = 1 → (e.total = 1 ∨ e.total = 2 ∨ e.total = 4) → lanes.Nodup →
       (∀ l ∈ lanes, l < 4) →
       (∀ l ∈ lanes, e.needs (b.word + l) = true →
         (placeRead e b lanes data s).txByte e (oldPlace (b.word + l - e.addr.toNat)) = LaneData.lane data l)
       ∧ (∀ k, k < 256 → (∀ l ∈ lanes, e.needs (b.word + l) = true → k ≠ oldPlace (b.word + l - e.addr.toNat)) →
           (placeRead e b lanes data s).txByte e k = s.txByte e k)
       ∧ (∀ k, k < 2 * e.total → (placeRead e b lanes data s).txByte e k = s.txByte e k)
       ∧ s.txBytes e (oldPlace 0) e.total = (List.range e.total).map (fun k => s.txByte e (oldPlace k)))
     ∧ ∀ (s : State) (i done n : Nat), (s.entry i).op.locked = false → (s.entry i).done = done →
         (advanceDone i ((List.range n).map (fun k => done + k)) s).entry i = { s.entry i with done := done + n }
         ∨ (s.entry i).state = .free)

/-! ### The tributary bus -/

/-- R99 to R102, R107: the plan of a READ or a WRITE carries every byte of its range once, in ascending order, in aligned
units of the current width; and the plan itself. The range is divided into lines of 16 bytes. A line's words are those that
hold a needed byte, ascending; for a READ in a window with LINE the first and the last line have all four words, in wrap order
from the word that holds the first needed byte. Each word is carried in units of the current width, lower unit first, with the
needed bytes enabled, or all of them in a line-read line. With BURST a line of two words or more is one burst cycle; else each
beat is a cycle of its own. No cycle holds beats of two lines. -/
def Obligations.PlansCarryEveryByteOnce : Prop :=
  ∀ (e : Entry) (w : Window) (width : Width), e.op.locked = false → 0 < e.total →
    ((planFor e w width).flatMap (fun c => c.beats)).flatMap (fun b => b.positions e b.lanes) = List.range e.total
    ∧ (∀ c ∈ planFor e w width, c.beats ≠ [] ∧ (w.attrs.burst = false → c.beats.length = 1)
        ∧ (∃ line, ∀ b ∈ c.beats, b.addr / 16 = line)
        ∧ ∀ b ∈ c.beats, b.width = width ∧ b.addr % width.bytes = 0 ∧ b.write = e.op.isWrite ∧ b.lanes ≠ []
          ∧ ∀ l ∈ b.lanes, b.addr ≤ b.word + l ∧ b.word + l < b.addr + width.bytes)
    ∧ (let first := e.addr.toNat
       let lines := (first % 16 + e.total + 15) / 16
       let line := fun k => 16 * (first / 16 + k)
       let lineRead := fun k => decide (e.op = .read ∧ w.attrs.line = true ∧ (k = 0 ∨ k + 1 = lines))
       let words := fun k =>
         if lineRead k then [0, 1, 2, 3].map (fun j => line k + 4 * ((max first (line k) / 4 + j) % 4))
         else ([0, 1, 2, 3].map (fun j => line k + 4 * j)).filter (fun a => decide (first < a + 4 ∧ a < first + e.total))
       let beats := fun k => (words k).flatMap (fun a =>
         ((List.range (4 / width.bytes)).map (fun u =>
           ({ addr := a + u * width.bytes, width := width, write := e.op.isWrite
              lanes := [0, 1, 2, 3].filter (fun l =>
                decide (l / width.bytes = u ∧ (lineRead k = true ∨ first ≤ a + l ∧ a + l < first + e.total))) } : Beat))).filter
           (fun b => !b.lanes.isEmpty))
       planFor e w width = (List.range lines).flatMap (fun k =>
         if w.attrs.burst = true ∧ 2 ≤ (words k).length then [{ lineBurst := true, beats := beats k }]
         else (beats k).map (fun b => { lineBurst := false, beats := [b] })))

/-- R80, R98, R111, R113, R120, R122: the decision of the Bus Engine in IDLE, the first that applies: the grant of the hold,
the next cycle of the plan, the handover of the head of the Request Queue with the start of its first cycle, or rest. What
starts with a cycle is given for the next cycle; at a handover the plan is that of the head. Where the separating clock of an
ended cycle is still to come (held in `separating`, log 2), the head is handed over and planned, whatever its operation, and
its first cycle or its locked sequence waits for that clock; a hold request is granted in it, and the sequence then waits for
the release (R111, R123). -/
def Obligations.TheIdleBusDecides : Prop :=
  ∀ s : State,
    let starts := fun (locked : Bool) (c : BusCycle) (cycles : List BusCycle) (b : Beat) (bs : List Beat) (bus : Bus) =>
      { bus with
        engine := if locked then .locked else .cycle
        plan := cycles, current := some b, rest := bs, lineBurst := c.lineBurst
        burst := c.lineBurst && !bs.isEmpty, waitCount := 0, lock := locked }
    (s.bus.engine ≠ .idle → arbitrate s = s)
    ∧ (s.bus.engine = .idle → s.pins.holdRequest = true →
        arbitrate s = { s with
          bus := { s.bus with
            engine := .yielded, grant := true, grantTime := some s.ring.timebase, holdLong := false, separating := false } })
    ∧ (s.bus.engine = .idle → s.pins.holdRequest = false → s.bus.separating = true →
        (s.executing ≠ none ∨ s.bridge.softReset ≠ none ∨ s.table.requests = [] → arbitrate s = s)
        ∧ ∀ i rest, s.executing = none → s.bridge.softReset = none → s.table.requests = i :: rest → i ∉ rest →
            (s.entry i).state = .queued →
            let e := s.entry i
            let w := s.window e.window
            arbitrate s = { s with
              table := { s.table with
                entries := s.table.entries.modify i (fun e => { e with state := .executing, done := 0 }), requests := rest }
              bus := { s.bus with plan := planFor e w w.width, width := w.width }
              replyQueue := if e.op = .read then s.replyQueue ++ [.entry i] else s.replyQueue })
    ∧ (s.bus.engine = .idle → s.pins.holdRequest = false → s.bus.separating = false →
        (s.executing ≠ none → s.bus.plan = [] → arbitrate s = s)
        ∧ (∀ i c cycles b bs, s.executing = some i → s.bus.plan = c :: cycles → c.beats = b :: bs →
            arbitrate s = { s with bus := starts (s.entry i).op.locked c cycles b bs s.bus })
        ∧ (s.executing = none → s.bridge.softReset ≠ none ∨ s.table.requests = [] → arbitrate s = s)
        ∧ ∀ i rest c cycles b bs, s.executing = none → s.bridge.softReset = none → s.table.requests = i :: rest → i ∉ rest →
            (s.entry i).state = .queued →
            let e := s.entry i
            let w := s.window e.window
            planFor e w w.width = c :: cycles → c.beats = b :: bs →
            arbitrate s = { s with
              table := { s.table with
                entries := s.table.entries.modify i (fun e => { e with state := .executing, done := 0 }), requests := rest }
              bus := starts e.op.locked c cycles b bs { s.bus with width := w.width }
              replyQueue := if e.op = .read then s.replyQueue ++ [.entry i] else s.replyQueue })

/-- R111, R113, R120: BUS_CYCLE_START is the decision of the Bus Engine in IDLE once the separating clock has passed, at which
a hold that is requested is granted, and else the next cycle of the plan starts, in CYCLE or LOCKED; in the other engine
states it does nothing. That the row stands for the separating clock is the model's reading (log 2). Between two cycles of an
execution, and before a locked sequence, the end of a cycle and the judgements that may follow an event leave the Bus Engine
IDLE for that clock, but for a hold, which is granted. -/
def Obligations.CyclesStartFromIdle : Prop :=
  ∀ s : State, s.pins.reset = false →
    (s.bus.engine = .idle → exec .busCycleStart s = .next (arbitrate { s with bus := { s.bus with separating := false } }))
    ∧ (s.bus.engine ≠ .idle → exec .busCycleStart s = .next s)
    ∧ (∀ i c cycles b bs, s.bus.engine = .idle → s.pins.holdRequest = false → s.executing = some i →
        s.bus.plan = c :: cycles → c.beats = b :: bs →
        exec .busCycleStart s
          = .next { s with
              bus := { s.bus with
                engine := if (s.entry i).op.locked then .locked else .cycle
                plan := cycles, current := some b, rest := bs, lineBurst := c.lineBurst
                burst := c.lineBurst && !bs.isEmpty, waitCount := 0, lock := (s.entry i).op.locked, separating := false } })
    ∧ (∀ i, s.bus.engine = .idle → s.executing = some i → s.bridge.state ≠ .draining →
        (s.pins.holdRequest = false → s.bus.separating = true → settle s = s)
        ∧ (s.pins.holdRequest = true → settle s = { s with
            bus := { s.bus with
              engine := .yielded, grant := true, grantTime := some s.ring.timebase, holdLong := false
              separating := false } }))
    ∧ (s.bus.engine = .idle → s.pins.holdRequest = true →
        exec .busCycleStart s
          = .next { s with
              bus := { s.bus with
                engine := .yielded, grant := true, grantTime := some s.ring.timebase, holdLong := false
                separating := false } })

/-- R105, R107, R114, R115, R119, R128: a beat of a cycle that is not locked, answered READY or BURST-READY within its wait
budget and taken whole: its data and done, and the cycle's going on or end. `waits` counts the samples of WAIT before the
answer (log 18). After the end of a cycle with more planned the separating clock is still to come (`separating`, log 2). -/
def Obligations.WholeBeatsAreTaken : Prop :=
  ∀ (s : State) (i waits : Nat) (b : Beat) (answer : Answer) (width : Width) (data : LaneData), s.pins.reset = false →
    s.bus.engine = .cycle → s.bus.current = some b → s.executing = some i →
    s.bus.waitCount + waits < (s.window (s.entry i).window).budget.toNat → b.width.bytes ≤ width.bytes →
    let e := s.entry i
    let t := (advanceDone i (b.positions e b.lanes) (placeRead e b b.lanes data { s with
      reports := { s.reports with counters := { s.reports.counters with beats := s.reports.counters.beats + 1 } } }))
    let left := (if s.bus.rest = [] then []
      else if s.bus.lineBurst then [{ lineBurst := true, beats := s.bus.rest }]
      else s.bus.rest.map (fun x => { lineBurst := false, beats := [x] })) ++ s.bus.plan
    let ended : State := { t with
      bus := { t.bus with current := none, rest := [], plan := left, waitCount := 0, lineBurst := false, burst := false } }
    (∀ next others, answer = .burstReady → s.bus.rest = next :: others →
      exec (.beatTaken waits answer width data) s
        = .next { t with bus := { t.bus with current := some next, rest := others, waitCount := 0 } })
    ∧ (answer = .ready ∨ s.bus.rest = [] →
        (e.mark ≠ .none → exec (.beatTaken waits answer width data) s = .next (settle (endExecution i .aborted ended)))
        ∧ (e.mark = .none → left = [] →
            exec (.beatTaken waits answer width data) s = .next (settle (endExecution i .done ended)))
        ∧ (e.mark = .none → left ≠ [] →
            exec (.beatTaken waits answer width data) s
              = .next (settle { ended with bus := { ended.bus with engine := .idle, separating := true } })))

/-- R105, R106: a narrowed beat: its enabled bytes in the unit of the accepted width that holds the lowest of them are taken,
all of them and no others, and its re-issue carries the rest at the accepted width, one beat for each unit that holds any of
it, lower unit first. R105: a beat answered with an accepted width not below its own is taken whole. R105, R106, R115: a beat of a cycle that is not locked, answered
with an accepted width below its own: the current width falls, and the rest of the cycle and of the plan is rebuilt at it.
After BURST-READY on a beat not marked last the cycle goes on with what is left of it; else what is left forms new cycles.
The rest of a cycle is split unit by unit: every piece at the smaller of its beat's width and the accepted width, in the same
direction and word, at an aligned unit address, its bytes those of the beat in order, lower unit first; and the lines that
follow are rebuilt as they are planned at the new width. That a narrowed beat marked last ends its cycle is the model's
reading (log 10), and so is `separating`, which holds that the
separating clock after the cycle is still to come (log 2). -/
def Obligations.NarrowingRebuildsThePlan : Prop :=
  (∀ (b : Beat) (accepted : Width), accepted.bytes < b.width.bytes →
       (∃ units, b.lanes = [0, 1, 2, 3].filter units) → b.lanes ≠ [] →
       b.takenLanes accepted ≠ []
       ∧ b.takenLanes accepted ++ (b.reissue accepted).flatMap (fun x => x.lanes) = b.lanes
       ∧ (∀ l ∈ b.lanes, l / accepted.bytes = b.lanes.headD 0 / accepted.bytes → l ∈ b.takenLanes accepted)
       ∧ (∃ u, ∀ l ∈ b.takenLanes accepted, u ≤ l ∧ l < u + accepted.bytes ∧ u % accepted.bytes = 0)
       ∧ (b.reissue accepted).Pairwise (fun x y => x.addr < y.addr)
       ∧ ∀ x ∈ b.reissue accepted, x.width = accepted ∧ x.write = b.write ∧ x.addr % accepted.bytes = 0 ∧ x.lanes ≠ []
           ∧ ∀ l ∈ x.lanes, x.addr ≤ b.word + l ∧ b.word + l < x.addr + accepted.bytes)
  ∧ (∀ (b : Beat) (accepted : Width), b.width.bytes ≤ accepted.bytes → b.takenLanes accepted = b.lanes)
  ∧ (∀ (x : Beat) (accepted : Width), (∃ units, x.lanes = [0, 1, 2, 3].filter units) → x.addr % x.width.bytes = 0 →
       (∀ l ∈ x.lanes, x.addr ≤ x.word + l ∧ x.word + l < x.addr + x.width.bytes) → x.lanes ≠ [] →
       let width := if accepted.bytes < x.width.bytes then accepted else x.width
       (x.split accepted).flatMap (fun y => y.lanes) = x.lanes
       ∧ (x.split accepted).Pairwise (fun y z => y.addr < z.addr)
       ∧ ∀ y ∈ x.split accepted, y.width = width ∧ y.write = x.write ∧ y.word = x.word ∧ y.addr % width.bytes = 0
           ∧ y.lanes ≠ [] ∧ ∀ l ∈ y.lanes, y.addr ≤ y.word + l ∧ y.word + l < y.addr + width.bytes)
  ∧ (∀ (e : Entry) (w : Window) (old new : Width), new.bytes < old.bytes →
       let later := fun cycles : List BusCycle => cycles.flatMap (fun c =>
         if c.lineBurst then [{ lineBurst := true, beats := c.beats.flatMap (fun x => x.split new) }]
         else (c.beats.flatMap (fun x => x.split new)).map (fun x => ({ lineBurst := false, beats := [x] } : BusCycle)))
       (∀ line, later (planLine e w old line) = planLine e w new line)
       ∧ (∀ write, later (lockedPart e old write) = lockedPart e new write)
       ∧ (e.op.locked = false → ∀ width, planFor e w width = e.lines.flatMap (planLine e w width)))
  ∧ (∀ (s : State) (i waits : Nat) (b : Beat) (answer : Answer) (width : Width) (data : LaneData), s.pins.reset = false →
       s.bus.engine = .cycle → s.bus.current = some b → s.executing = some i →
       s.bus.waitCount + waits < (s.window (s.entry i).window).budget.toNat → width.bytes < b.width.bytes →
       let e := s.entry i
       let lanes := b.takenLanes width
       let t := (advanceDone i (b.positions e lanes) (placeRead e b lanes data { s with
         reports := { s.reports with counters := { s.reports.counters with beats := s.reports.counters.beats + 1 } } }))
       let line := b.reissue width ++ s.bus.rest.flatMap (fun x => x.split width)
       let later := s.bus.plan.flatMap (fun c =>
         if c.lineBurst then [{ lineBurst := true, beats := c.beats.flatMap (fun x => x.split width) }]
         else (c.beats.flatMap (fun x => x.split width)).map (fun x => ({ lineBurst := false, beats := [x] } : BusCycle)))
       (∀ next others, answer = .burstReady → s.bus.rest ≠ [] → line = next :: others →
         exec (.beatTaken waits answer width data) s
           = .next { t with
               bus := { t.bus with current := some next, rest := others, plan := later, width := width, waitCount := 0 } })
       ∧ ∀ left, (answer = .ready ∨ s.bus.rest = []) →
           left = (if line = [] then [] else if s.bus.lineBurst then [({ lineBurst := true, beats := line } : BusCycle)]
             else line.map (fun x => { lineBurst := false, beats := [x] })) ++ later →
           let ended : State := { t with
             bus := { t.bus with current := none, rest := [], plan := left, width := width, waitCount := 0,
                                 lineBurst := false, burst := false } }
           (e.mark ≠ .none → exec (.beatTaken waits answer width data) s = .next (settle (endExecution i .aborted ended)))
           ∧ (e.mark = .none → left = [] →
               exec (.beatTaken waits answer width data) s = .next (settle (endExecution i .done ended)))
           ∧ (e.mark = .none → left ≠ [] →
               exec (.beatTaken waits answer width data) s
                 = .next (settle { ended with bus := { ended.bus with engine := .idle, separating := true } })))

/-- R108, R112, R114, R116, R117: a beat answered ERROR, and a beat whose wait budget runs out before its answer, fail: the
failure is reported with the beat's unit address, and the execution ends. Where no answer is sampled nothing happens. That
BUS_TIMEOUT is the event itself, and what `waits` counts, are the model's (log 14, log 18). -/
def Obligations.FailedBeatsEndTheExecution : Prop :=
  ∀ s : State, s.pins.reset = false →
    (∀ b i waits, s.bus.engine = .cycle ∨ s.bus.engine = .locked → s.bus.current = some b → s.executing = some i →
      let e := s.entry i
      let budget := (s.window e.window).budget.toNat
      let failed := fun kind : ReportKind =>
        report { kind := kind, node := some e.source, tag := some e.tag, addr := some (BitVec.ofNat 32 b.addr) } s
      exec .busTimeout s = .next (settle (endExecution i .busTimeout (failed .busTimeout)))
      ∧ (s.bus.waitCount + waits < budget →
          exec (.busError waits) s = .next (settle (endExecution i .busError (failed .busError))))
      ∧ (budget ≤ s.bus.waitCount + waits →
          exec (.busError waits) s = exec .busTimeout s
          ∧ ∀ answer width data, exec (.beatTaken waits answer width data) s = exec .busTimeout s))
    ∧ (s.bus.engine = .idle ∨ s.bus.engine = .yielded ∨ s.bus.current = none →
        exec .busTimeout s = .next s
        ∧ ∀ waits, exec (.busError waits) s = .next s
          ∧ ∀ answer width data, exec (.beatTaken waits answer width data) s = .next s)

/-- R121 to R123: the hold request and its release, by the engine state: in IDLE the request is granted, whatever is EXECUTING.
That a grant between two cycles, or before a locked sequence, passes the separating clock (`separating`), so that the next
cycle or the sequence starts at the release, is the model's reading (log 2). -/
def Obligations.TheHoldIsServedFromIdle : Prop :=
  ∀ s : State, s.pins.reset = false →
    let asked : State := { s with pins := { s.pins with holdRequest := true } }
    let gone : State := { s with pins := { s.pins with holdRequest := false } }
    (s.bus.engine = .idle →
      exec .holdRequest s
        = .next { asked with
            bus := { s.bus with
              engine := .yielded, grant := true, grantTime := some s.ring.timebase, holdLong := false
              separating := false } })
    ∧ (s.bus.engine ≠ .idle → exec .holdRequest s = .next asked)
    ∧ (s.bus.engine = .yielded →
        exec .holdRelease s
          = .next (arbitrate { gone with bus := { s.bus with engine := .idle, grant := false, grantTime := none } }))
    ∧ (∀ i c cycles b bs, s.bus.engine = .yielded → s.bus.separating = false → s.executing = some i →
        s.bus.plan = c :: cycles → c.beats = b :: bs →
        exec .holdRelease s
          = .next { gone with
              bus := { s.bus with
                engine := if (s.entry i).op.locked then .locked else .cycle
                plan := cycles, current := some b, rest := bs, lineBurst := c.lineBurst
                burst := c.lineBurst && !bs.isEmpty, waitCount := 0, lock := (s.entry i).op.locked
                grant := false, grantTime := none } })
    ∧ (s.bus.engine ≠ .yielded → exec .holdRelease s = .next gone)

/-- R104 to R106, R119, R120: a locked sequence: its next cycle after the separating clock; a beat taken, whole or narrowed,
after which it stays LOCKED, with what is left of a narrowed beat and of the plan at the accepted width; at the end of the
read part the old value is held and the write part is built, or the sequence ends UNCHANGED where a
comparison fails; at the end of the write part it ends. R45, R103, R104: the two parts of a locked sequence carry the
value's bytes once each, in single beats of the width asked for, each at an aligned unit address with its bytes inside the
unit, the read part first; and the value that is written: SWAP's new value, the wrapped sum of ADD, and CSWAP's new value.
Where in its block the old value lies (`oldPlace`) is the model's (log 7), and so is that LOCKED_SEQUENCE_NEXT_CYCLE has no
effect outside LOCKED or with a beat on the bus (log 14). -/
def Obligations.LockedSequencesRunWhole : Prop :=
  ((∀ s : State, s.pins.reset = false →
       (∀ i c cycles b bs, s.bus.engine = .locked → s.bus.current = none → s.executing = some i → s.bus.plan = c :: cycles →
         c.beats = b :: bs → (s.entry i).op.locked = true →
         exec .lockedSequenceNextCycle s
           = .next { s with
               bus := { s.bus with
                 plan := cycles, current := some b, rest := bs, lineBurst := c.lineBurst
                 burst := c.lineBurst && !bs.isEmpty, waitCount := 0, lock := true } })
       ∧ (s.bus.engine ≠ .locked ∨ s.bus.current ≠ none → exec .lockedSequenceNextCycle s = .next s))
     ∧ ∀ (s : State) (i waits : Nat) (b : Beat) (answer : Answer) (width : Width) (data : LaneData), s.pins.reset = false →
         s.bus.engine = .locked → s.bus.current = some b → s.bus.rest = [] → s.executing = some i →
         (s.entry i).op.locked = true →
         s.bus.waitCount + waits < (s.window (s.entry i).window).budget.toNat →
         let e := s.entry i
         let narrowed := width.bytes < b.width.bytes
         let now := if narrowed then width else s.bus.width
         let singles := fun beats : List Beat => beats.map (fun x => ({ lineBurst := false, beats := [x] } : BusCycle))
         let left := if narrowed then
             (if b.reissue width = [] then []
               else if s.bus.lineBurst then [({ lineBurst := true, beats := b.reissue width } : BusCycle)]
               else singles (b.reissue width))
             ++ s.bus.plan.flatMap (fun c =>
               if c.lineBurst then [{ lineBurst := true, beats := c.beats.flatMap (fun x => x.split width) }]
               else singles (c.beats.flatMap (fun x => x.split width)))
           else s.bus.plan
         let u := placeRead e b (b.takenLanes width) data { s with
           bus := { s.bus with current := none, plan := left, width := now, waitCount := 0, lineBurst := false, burst := false }
           reports := { s.reports with counters := { s.reports.counters with beats := s.reports.counters.beats + 1 } } }
         let old := u.txBytes e (oldPlace 0) e.total
         let held : State := { u with
           table := { u.table with entries := u.table.entries.modify i (fun e => { e with old := some old }) } }
         (left ≠ [] → exec (.beatTaken waits answer width data) s = .next u)
         ∧ (left = [] → e.old.isSome = true →
             exec (.beatTaken waits answer width data) s = .next (settle (endExecution i .done u)))
         ∧ (left = [] → e.old = none → (e.op = .cswap ∧ old ≠ u.txBytes e 0 e.total) →
             exec (.beatTaken waits answer width data) s = .next (settle (endExecution i .unchanged held)))
         ∧ (left = [] → e.old = none → ¬(e.op = .cswap ∧ old ≠ u.txBytes e 0 e.total) →
             exec (.beatTaken waits answer width data) s
               = .next { held with bus := { held.bus with plan := lockedPart { e with old := some old } now true } }))
  ∧ (∀ (s : State) (e : Entry) (old : List Byte), old.length = e.total →
       (∀ width write, (e.total = 1 ∨ e.total = 2 ∨ e.total = 4) → e.addr.toNat % e.total = 0 →
         ((lockedPart e width write).flatMap (fun c => c.beats)).flatMap (fun b => b.positions e b.lanes) = List.range e.total
         ∧ ∀ c ∈ lockedPart e width write, c.beats.length = 1 ∧ c.lineBurst = false
             ∧ ∀ b ∈ c.beats, b.width = width ∧ b.write = write ∧ b.addr % width.bytes = 0 ∧ b.lanes ≠ []
               ∧ ∀ l ∈ b.lanes, e.needs (b.word + l) = true ∧ b.addr ≤ b.word + l ∧ b.word + l < b.addr + width.bytes)
       ∧ (∀ w width, e.op.locked = true → planFor e w width = lockedPart e width false)
       ∧ (e.op = .swap → s.valueToWrite e old = s.txBytes e 0 e.total)
       ∧ (e.op = .cswap → s.valueToWrite e old = s.txBytes e e.total e.total)
       ∧ (e.op = .add → (s.valueToWrite e old).length = e.total
           ∧ valueOf (s.valueToWrite e old) = (valueOf old + valueOf (s.txBytes e 0 e.total)) % 2 ^ (8 * e.total)))

/-- R73, R77, R79, R113, R128, R148, R184: the end of an execution: the window released, the Bus Engine idle or still lent
with no plan, a cycle in progress ended with its separating clock to come (`separating`, log 2), the count and the Last
Transaction Record, the report of an aborted execution or of a WRITE-QUIET that fails, and where the entry goes. -/
def Obligations.ExecutionsEndAsTheirOperationRequires : Prop :=
  ∀ (s : State) (i : Nat) (status : Status), (s.entry i).state = .executing →
    let e := s.entry i
    let t := endExecution i status s
    let final := if e.mark = .none then status else .aborted
    let done := if e.op.locked then (if e.old.isSome then e.total else 0) else e.done
    let about := fun kind : ReportKind => ({ kind := kind, node := some e.source, tag := some e.tag, addr := some e.addr } : Report)
    let counted : Reports := { s.reports with
      counters := { s.reports.counters with executed := s.reports.counters.executed + 1 }
      lastTx := some { source := e.source, tag := e.tag, op := e.op, final := final, addr := e.addr, done := done,
                       cycle := s.ring.lastCycle } }
    t.bus.plan = [] ∧ t.bus.current = none ∧ t.bus.lock = false ∧ t.bus.grant = s.bus.grant
    ∧ t.bus.engine = (if s.bus.engine = .yielded then .yielded else .idle)
    ∧ t.bus.separating = (s.bus.separating || decide (s.bus.engine = .cycle ∨ s.bus.engine = .locked))
    ∧ t.windows = s.windows.modify e.window (fun w => { w with inUse := w.inUse - 1 })
    ∧ (∀ j, j ≠ i → t.entry j = s.entry j)
    ∧ (t.mgmt, t.reports)
        = (if e.mark ≠ .none then
            ((report (about .abortedInFlight) { s with reports := counted }).mgmt,
             (report (about .abortedInFlight) { s with reports := counted }).reports)
          else if e.op = .writeQuiet ∧ (status = .busError ∨ status = .busTimeout) then
            ((report (about .quietFailure) { s with reports := counted }).mgmt,
             (report (about .quietFailure) { s with reports := counted }).reports)
          else (s.mgmt, counted))
    ∧ (e.mark = .quiet ∨ e.op = .writeQuiet →
        (t.entry i).state = .free ∧ t.table.order = s.table.order.filter (fun j => decide (j ≠ i))
        ∧ t.replyQueue = s.replyQueue.filter (fun m => decide (m ≠ .entry i)))
    ∧ (e.mark ≠ .quiet → e.op ≠ .writeQuiet →
        t.entry i = { e with state := .replying, final := some final, done := done, deadline := 0 }
        ∧ t.table.order = s.table.order
        ∧ t.replyQueue = if e.op = .read then s.replyQueue else s.replyQueue ++ [.entry i])

/-- R104, R112, R113, R120: the tributary outputs, by the engine state: what is driven with a beat, for a write beat the data
of its lanes (the transaction's bytes, or the value that a locked operation writes); nothing while the bus is lent; and the
lock indication and the grant, on every state that the bus law holds of. -/
def Obligations.TheTributaryOutputsFollowTheEngine : Prop :=
  ∀ s : State, s.busLaw →
    (s.bus.engine = .yielded → (busOut s).released = true ∧ (busOut s).cycleStart = false ∧ (busOut s).grant = true
      ∧ (busOut s).lock = false ∧ (busOut s).beat = none)
    ∧ (s.bus.engine = .idle → (busOut s).released = false ∧ (busOut s).cycleStart = false ∧ (busOut s).grant = false
      ∧ (busOut s).lock = false)
    ∧ (∀ b i, s.bus.engine = .cycle ∨ s.bus.engine = .locked → s.bus.current = some b → s.executing = some i →
        (busOut s).cycleStart = true ∧ (busOut s).beat = some b ∧ (busOut s).burst = s.bus.burst
        ∧ ((busOut s).last = true ↔ s.bus.rest = []) ∧ (busOut s).grant = false
        ∧ ((busOut s).lock = true ↔ s.bus.engine = .locked)
        ∧ (b.write = true → (s.entry i).op.locked = false →
            (busOut s).data = b.lanes.map (fun l => (l, s.txByte (s.entry i) (b.word + l - (s.entry i).addr.toNat))))
        ∧ (∀ old, b.write = true → (s.entry i).op.locked = true → (s.entry i).old = some old →
            (busOut s).data = b.lanes.map (fun l =>
              (l, byteAt (s.valueToWrite (s.entry i) old) (b.word + l - (s.entry i).addr.toNat))))
        ∧ (b.write = false → (busOut s).data = []))
    ∧ (s.bus.engine = .locked → s.bus.current = none → (busOut s).cycleStart = false ∧ (busOut s).lock = true)

/-! ### Bridge control -/

/-- R191, R195, R196, R111: DRAIN_COMPLETE judges the drain; SOFT_RESET_TAKES_EFFECT carries out a pending soft reset once
nothing is EXECUTING; what an event that may end a drain or an execution leads to is the two and then the Bus Engine's
decision. That the two rows on their own are these judgements is the model's reading (log 1), and so is that they start no
cycle before the separating clock (`separating`, log 2). -/
def Obligations.DrainsAndSoftResetsComplete : Prop :=
  ∀ s : State,
    let closed := (∀ e ∈ s.table.entries, e.state = .free) ∧ (s.bridge.flush = true ∨ ∀ d ∈ s.descriptors, d = none)
    let stopped : State := { s with bridge := { s.bridge with state := .stopped, flush := false } }
    (s.pins.reset = false →
      (s.bridge.state = .draining → closed → exec .drainComplete s = .next stopped)
      ∧ (s.bridge.state ≠ .draining ∨ ¬closed → exec .drainComplete s = .next s)
      ∧ (s.executing ≠ none → exec .softResetTakesEffect s = .next (arbitrate s))
      ∧ (s.executing ≠ none → s.pins.holdRequest = false → s.bus.separating = true → exec .softResetTakesEffect s = .next s)
      ∧ (s.bridge.softReset = none → s.executing = none → exec .softResetTakesEffect s = .next (arbitrate s))
      ∧ (∀ source tag, s.bridge.softReset = some (source, tag) → s.executing = none →
          exec .softResetTakesEffect s = .next (arbitrate (softResetEffect source tag s))))
    ∧ (∀ t, s.pins.reset = false → exec .drainComplete s = .next t → exec .softResetTakesEffect t = .next (settle s))

/-- R21, R23, R24, R59, R68, R88, R89, R131, R150, R170, R181, R183, R185, R187, R196: the values after a soft reset, and
MGMT SOFT-RESET; stated where the cycle limit has not run out under the limit that the reset leaves. That a separating clock
still to come is kept is the model's reading (log 2). -/
def Obligations.SoftResetKeepsTheNodeAndTheBanks : Prop :=
  ∀ (s : State) (source tag : Byte),
    let changed := s.mgmt.params.prescaler ≠ .p8
    let ring : RingPort :=
      if changed then { s.ring with divider := 0, captured := none, period := none } else { s.ring with divider := 0 }
    (∀ c p, ring.state = .sync → ring.captured = some c → ring.period = some p → (s.ring.timebase - c).toNat < 2 * p.toNat) →
    ∃ u, softResetEffect source tag s = report { kind := .softReset, node := some source, tag := some tag } u
      ∧ u.ring = ring ∧ u.prevIndex = none
      ∧ u.sched = State.reset.sched ∧ u.descriptors = State.reset.descriptors
      ∧ u.table.entries = State.reset.table.entries ∧ u.table.order = [] ∧ u.table.requests = []
      ∧ u.windows = State.reset.windows ∧ u.replyQueue = []
      ∧ (s.bus.engine ≠ .yielded → u.bus = { State.reset.bus with separating := s.bus.separating })
      ∧ (s.bus.engine = .yielded → u.bus.engine = .yielded ∧ u.bus.grant = s.bus.grant ∧ u.bus.holdLong = s.bus.holdLong
          ∧ u.bus.plan = [] ∧ u.bus.current = none ∧ u.bus.separating = s.bus.separating
          ∧ u.bus.grantTime = if changed then s.bus.grantTime.map (fun _ => s.ring.timebase) else s.bus.grantTime)
      ∧ u.mgmt = { node := s.mgmt.node, manager := s.mgmt.manager, params := State.reset.mgmt.params, queue := [],
                   noticeSeq := 0 }
      ∧ u.reports = { s.reports with counters := State.reset.reports.counters, lastTx := none }
      ∧ u.bridge = { state := .stopped, flush := false, softReset := none, resetCount := s.bridge.resetCount + 1 }
      ∧ u.pins = s.pins ∧ u.pending = s.pending

/-! ### The Report Unit -/

/-- R175, R179: a report that finds its bank enabled and its record empty fills the record, and a notice is queued, lost, or
not called for. R176: a report that finds its bank enabled and its record valid is added to the record; and R174: one that
finds its bank disabled is counted alone. The codes in a notice are those of section 8.4; that its parameter bytes 4 to 7 are 0
is the model's choice (log 23). -/
def Obligations.ReportsFillAndAddToRecords : Prop :=
  (∀ (r : Report) (s : State),
       let name := r.kind.bank
       let bank := s.reports.bank name
       let filled := fun lost : Bool => s.reports.setBank name
         { events := min (bank.events + 1) 65535
           record := some { kind := r.kind, cycle := s.ring.lastCycle, index := r.index, node := r.node, tag := r.tag,
                            addr := r.addr, overflow := false, later := 0, noticeLost := lost } }
       s.mgmt.params.bankEnables.of name = true → bank.record = none →
       (s.mgmt.params.noticeEnables.of name = false ∨ s.mgmt.manager = none →
         report r s = { s with reports := filled false })
       ∧ ∀ manager, s.mgmt.params.noticeEnables.of name = true → s.mgmt.manager = some manager →
           (s.mgmt.queue.length < 4 →
             report r s = { s with
               reports := filled false
               mgmt := { s.mgmt with
                 noticeSeq := s.mgmt.noticeSeq + 1
                 queue := s.mgmt.queue ++
                   [{ dest := manager, tag := s.mgmt.noticeSeq, op := 0x20, status := 0,
                      param := [name.code, r.kind.code] ++ halfBytes s.ring.lastCycle ++ [0, 0, 0, 0], args := [] }] } })
           ∧ (4 ≤ s.mgmt.queue.length → report r s = { s with reports := filled true }))
  ∧ (∀ (r : Report) (s : State),
       let name := r.kind.bank
       let bank := s.reports.bank name
       (∀ held, s.mgmt.params.bankEnables.of name = true → bank.record = some held →
         report r s = { s with
           reports := s.reports.setBank name
             { events := min (bank.events + 1) 65535
               record := some { held with overflow := true, later := min (held.later + 1) 65535 } } })
       ∧ (s.mgmt.params.bankEnables.of name = false →
           report r s = { s with
             reports := s.reports.setBank name { events := min (bank.events + 1) 65535, record := bank.record } }))
  ∧ ReportKind.codesAreOfTheTables

/-! ### Invariants -/

/-- Every law of the blocks' registers is kept by every step: the ring, the bus, the bridge, the management state, the
schedule, the windows, the report banks, and the canonical form of the pool. That `separating` is set only in IDLE is of the
model's field (log 2), and the canonical form is that of the model's list of bytes (log 7). -/
def Obligations.StepKeepsTheRegisterLaws : Prop :=
  ∀ s s' : State, step s = .next s' →
    (s.ringLaw → s'.ringLaw) ∧ (s.busLaw → s'.busLaw) ∧ (s.bridgeLaw → s'.bridgeLaw) ∧ (s.mgmtLaw → s'.mgmtLaw)
    ∧ (s.schedLaw → s'.schedLaw) ∧ (s.windowLaw → s'.windowLaw) ∧ (s.reportLaw → s'.reportLaw) ∧ (s.poolLaw → s'.poolLaw)

/-- R72, R110, R120: every step keeps the laws that at most one entry is EXECUTING, and that the bus is busy only for an
EXECUTING entry of its kind; R111, R120, R122: and that a locked operation that is EXECUTING is in its sequence or waits for
it to start, unmarked, in IDLE for the separating clock before it or in YIELDED for the hold release, where the queues and the
counts are lawful (the wait in IDLE is the model's reading, log 2). R81, R120, R128: so a claim on it in its sequence sets its
mark alone; one in IDLE finds the sequence started first (log 2); and one in YIELDED ends its execution at the arrival (R124).
R68, R80, R133: every step keeps the law of the three queues, which the model reads with log 9. -/
def Obligations.StepKeepsOneExecutionAndTheQueues : Prop :=
  (∀ s s' : State, s.oneExecuting → s.lockLaw → step s = .next s' → s'.oneExecuting ∧ s'.lockLaw)
  ∧ (∀ s s' : State, s.oneExecuting → s.queueLaw → s.countLaw → s.sequenceLaw → step s = .next s' → s'.sequenceLaw)
  ∧ (∀ (s : State) (quiet : Bool) (i : Nat), s.sequenceLaw → (s.entry i).state = .executing →
       (s.entry i).op.locked = true →
       let marked := { s.table with
         entries := s.table.entries.modify i (fun e => { e with
           mark := if quiet = true ∨ e.mark = .quiet then .quiet else .reply }) }
       (s.bus.engine = .locked → claimExecuting quiet i s = { s with table := marked })
       ∧ (s.bus.engine = .yielded → claimExecuting quiet i s = endExecution i .aborted { s with table := marked })
       ∧ (s.bus.engine = .idle → s.oneExecuting → s.countLaw →
           ∃ b cycles, s.bus.plan = { lineBurst := false, beats := [b] } :: cycles
             ∧ b.write = false
             ∧ claimExecuting quiet i s = { s with
                 table := marked
                 bus := { s.bus with
                   engine := .locked, plan := cycles, current := some b, rest := [], lineBurst := false, burst := false
                   waitCount := 0, lock := true, separating := false } }))
  ∧ (∀ s s' : State, s.oneExecuting → s.queueLaw → step s = .next s' → s'.queueLaw)

/-- R68 to R71, R76: every step keeps the laws of the byte counters (received, done and sent, in every state of an entry) and
of the pairs of source node and tag. R78: every step keeps the law of the reserved blocks. R79, R92: every step keeps the law
of the in-use counts. -/
def Obligations.StepKeepsTheCountsAndThePairs : Prop :=
  (∀ s s' : State, s.oneExecuting → s.queueLaw → step s = .next s' →
       (s.countLaw → s'.countLaw) ∧ (s.pairLaw → s'.pairLaw) ∧ (s.blockLaw → s'.blockLaw))
  ∧ (∀ s s' : State, s.oneExecuting → s.queueLaw → s.inUseLaw → step s = .next s' → s'.inUseLaw)

/-- Every law holds of the state after a pin reset. That the list of the pool's bytes is then empty, and so in its canonical
form, is the model's (log 7). -/
def Obligations.ResetObeysTheLaws : Prop :=
  let s := State.reset
  s.ringLaw ∧ s.busLaw ∧ s.bridgeLaw ∧ s.mgmtLaw ∧ s.schedLaw ∧ s.windowLaw ∧ s.reportLaw ∧ s.poolLaw ∧ s.oneExecuting
    ∧ s.lockLaw ∧ s.sequenceLaw ∧ s.queueLaw ∧ s.countLaw ∧ s.pairLaw ∧ s.blockLaw ∧ s.inUseLaw

/-- R23: the active bank changes only at a cycle mark that leaves the Ring Port in SYNC, to the shadow bank, with a commit
pending, or at a pin reset or a soft reset that takes effect, to the reset values. That SCHEDULE_SWAP, ASSEMBLY_GAP_EXPIRY and
REPLY_EXPIRED are the arrival of the cycle mark next in order is the model's reading (log 1). -/
def Obligations.TheActiveBankChangesOnlyAtASwapOrAReset : Prop :=
  ∀ (c : Instr) (s t : State), exec c s = .next t →
    t.sched.active = s.sched.active
    ∨ t.sched.active = List.replicate 240 { action := .pass, channel := none, source := none }
      ∧ (c = .pinReset ∨ t.bridge.resetCount = s.bridge.resetCount + 1)
    ∨ t.sched.active = s.sched.shadow ∧ s.sched.commit ≠ .none ∧ t.ring.state = .sync ∧ s.pins.reset = false
      ∧ ∃ record : RawRecord, (∃ k, s.marksSync record.bytes k)
          ∧ (c = .cycleMark record
            ∨ (c = .scheduleSwap ∨ c = .assemblyGapExpiry ∨ c = .replyExpired)
              ∧ record = { bytes := cycleRecord (s.ring.lastCycle + 1) s.ring.slotCount })

/-! ### Encoding -/

/-- The formats on the line lose nothing: every management command and every request command is the arrival of the slot that
its encoding spells (that a command is that arrival is the model's reading, log 6), whose check and framing are judged good,
and whose header and payload read back as its operands. The codes of the marks and of the operations are those of section
1.10. R3, R4: the judgement of any slot: its header is good exactly when it has five bytes, the check over the first three, a
slot index, channel and size code in range, and is followed by a Payload Mark with payload length + 2 bytes after it; the
payload of a slot with a good header is good exactly when the check received is that over the kind byte and the payload. -/
def Obligations.CommandsAreTheSlotsTheySpell : Prop :=
  ([MarkKind.void, .data, .mgmt, .faulted].map MarkKind.code = [0x00, 0x01, 0x02, 0x03]
    ∧ (∀ op : ReqOp, ReqOp.ofCode op.code = some op) ∧ (∀ c op, ReqOp.ofCode c = some op → c = op.code)
    ∧ [ReqOp.read, .write, .writeQuiet, .swap, .add, .cswap].map ReqOp.code = [0x01, 0x02, 0x03, 0x04, 0x05, 0x06]
    ∧ (∀ op : MgmtOp, MgmtOp.ofCode op.code = some op) ∧ (∀ c op, MgmtOp.ofCode c = some op → c = op.code)
    ∧ [MgmtOp.identify, .assign, .configure, .schedLoad, .schedRead, .schedCommit, .schedCancel, .windowLoad, .windowRead,
        .start, .stop, .abort, .status, .reportRead, .reportClear, .reset].map MgmtOp.code
      = [0x01, 0x02, 0x03, 0x04, 0x05, 0x06, 0x07, 0x08, 0x09, 0x0A, 0x0B, 0x0C, 0x0D, 0x0E, 0x0F, 0x10])
  ∧ (∀ (c : Instr) (m : MgmtSlot) (op : MgmtOp) (s : State), c.managementRequest = some (m, op) → c.wellFormed = true →
    let raw := (m.arrival op).raw
    let a := judgeSlot raw
    let r := MgmtRecord.ofBytes a.payload
    exec c s = exec (.slotArrival raw) s
    ∧ a.headerGood = true ∧ a.payloadGood = true ∧ a.index = m.index ∧ a.channel = 0 ∧ a.size = m.size ∧ a.kind = .mgmt
    ∧ a.payload.length = payloadLength m.size ∧ r.dest = m.dest ∧ r.source = m.source ∧ r.tag = m.tag
    ∧ MgmtOp.ofCode r.op = some op ∧ r.status = m.status ∧ r.flags = m.flags ∧ r.argLen = m.argLen ∧ r.param = m.param
    ∧ r.rest.take m.args.length = m.args)
  ∧ (∀ (c : Instr) (g : SegSlot) (op : ReqOp) (offset : Half) (s : State), c.segmentRequest = some (g, op, offset) →
    c.wellFormed = true →
    let raw := (g.arrival op offset).raw
    let a := judgeSlot raw
    let r := Segment.ofBytes a.payload
    exec c s = exec (.slotArrival raw) s
    ∧ a.headerGood = true ∧ a.payloadGood = true ∧ a.index = g.index ∧ a.channel = g.channel ∧ a.size = g.size
    ∧ a.kind = .data ∧ a.payload.length = payloadLength g.size ∧ r.dest = g.dest ∧ r.source = g.source ∧ r.tag = g.tag
    ∧ ReqOp.ofCode r.op = some op ∧ r.status = g.status ∧ r.flags = g.flags ∧ r.total = g.total ∧ r.offset = offset
    ∧ r.count = g.count ∧ r.addr = g.addr ∧ r.data.take g.data.length = g.data)
  ∧ (∀ slot : RawSlot,
    let a := judgeSlot slot
    (a.headerGood = true ↔ ∃ index channel size high low : Byte,
      slot.header = [index, channel, size, high, low] ∧ (high ++ low : Half) = check [index, channel, size]
      ∧ index.toNat ≤ 239 ∧ channel.toNat ≤ 63 ∧ size.toNat ≤ 15
      ∧ slot.mark ≠ none ∧ slot.body.length = 16 * (size.toNat + 1) + 2)
    ∧ ∀ (index channel size high low : Byte) (kind : MarkKind) (payload : List Byte) (top bottom : Byte),
        a.headerGood = true → slot.header = [index, channel, size, high, low] → slot.mark = some kind →
        slot.body = payload ++ [top, bottom] →
        a.index = index ∧ a.channel = channel ∧ a.size = size ∧ a.kind = kind ∧ a.payload = payload
        ∧ (a.payloadGood = true ↔ (top ++ bottom : Half) = check (kind.code :: payload)))

/-- R2, R22, R35, R91, R93, R95: cycle records, schedule entries and window records read back as they were written, and a
record that is read spells nothing else (of a window record with the valid bit set, the in-use count alone is not read); their
layouts are those of section 1.10. That a cycle record of another length than six bytes is invalid is the model's reading (log
19). R4: the check: its preset, and what one byte more does to it, most significant bit first: for each bit a shift to the
left, with 8005H combined where the bit differs from the top bit of the remainder. Multi-byte fields have their most
significant byte first. -/
def Obligations.RecordsReadBack : Prop :=
  (check [] = 0xFFFF#16
    ∧ ∀ (bytes : List Byte) (x : Byte), check (bytes ++ [x])
        = [7, 6, 5, 4, 3, 2, 1, 0].foldl (fun (remainder : Half) (i : Nat) =>
            if x.getLsbD i = remainder.getLsbD 15 then remainder <<< 1 else (remainder <<< 1) ^^^ 0x8005#16) (check bytes))
  ∧ (∀ h : Half, (halfBytes h).map BitVec.toNat = [h.toNat / 256, h.toNat % 256])
  ∧ (∀ w : Word, (wordBytes w).map BitVec.toNat
      = [w.toNat / 2 ^ 24, w.toNat / 2 ^ 16 % 256, w.toNat / 2 ^ 8 % 256, w.toNat % 256])
  ∧ (∀ (number : Half) (slotCount : Byte), cycleRecord number slotCount
      = halfBytes number ++ [slotCount, 1] ++ halfBytes (check (halfBytes number ++ [slotCount, 1])))
  ∧ (∀ (number : Half) (slotCount : Byte), judgeCycle (cycleRecord number slotCount)
      = if 1 ≤ slotCount.toNat ∧ slotCount.toNat ≤ 240 then some { number := number, slotCount := slotCount } else none)
  ∧ (∀ (record : List Byte) (c : CycleInfo), judgeCycle record = some c → record = cycleRecord c.number c.slotCount)
  ∧ [Action.pass, .take, .give, .both].map Action.code = [0, 1, 2, 3]
  ∧ (∀ e : SchedEntry, e.toBytes = [(e.action.code <<< 6) ||| e.source.getD 0, e.channel.getD 0x80])
  ∧ (∀ e : SchedEntry, e.law → SchedEntry.ofBytes (byteAt e.toBytes 0) (byteAt e.toBytes 1) = some e)
  ∧ (∀ (b0 b1 : Byte) (e : SchedEntry), SchedEntry.ofBytes b0 b1 = some e → e.law ∧ e.toBytes = [b0, b1])
  ∧ (∀ (w : Window) (i : Nat), w.toBytes i
      = [BitVec.ofNat 8 i, (if w.valid then 0x80 else 0) ||| BitVec.ofNat 8 w.inUse,
          BitVec.ofNat 8 ((if w.attrs.read then 1 else 0) + (if w.attrs.write then 2 else 0) + (if w.attrs.lock then 4 else 0)
            + (if w.attrs.burst then 8 else 0) + (if w.attrs.line then 16 else 0)),
          BitVec.ofNat 8 w.width.bytes] ++ wordBytes w.base ++ halfBytes w.size ++ [w.budget, w.owner.getD 0])
  ∧ [Width.w1, .w2, .w4].map Width.bytes = [1, 2, 4]
  ∧ (∀ (w : Window) (i : Nat), w.law → w.valid = true → w.inUse ≤ 8 → i < 16 →
      (w.toBytes i).length = 12 ∧ (byteAt (w.toBytes i) 0).toNat = i
      ∧ Window.ofBytes (w.toBytes i) = some { w with inUse := 0 })
  ∧ (∀ (record : List Byte) (w : Window), record.length = 12 → (byteAt record 1).getLsbD 7 = true →
      Window.ofBytes record = some w →
      w.law ∧ w.valid = true ∧ w.inUse = 0
      ∧ ({ w with inUse := (byteAt record 1).toNat % 16 } : Window).toBytes (byteAt record 0).toNat = record)

end
end

