-- ==== Sys2Proof/Laws/State.lean ====
section
/-! SUPPORT. The fields of State after each named update, one lemma for each, so that no proof unfolds an update. -/

namespace Sys2Proof.Machine

variable (xRing : RingPort)
variable (xPrevIndex : Option Byte)
variable (xSched : Schedule)
variable (xDescriptors : List (Option ShortReply))
variable (xTable : Table)
variable (xWindows : List Window)
variable (xBus : Bus)
variable (xReplyQueue : List Member)
variable (xMgmt : Mgmt)
variable (xReports : Reports)
variable (xBridge : Bridge)
variable (xPins : Pins)
variable (xChoices : Nat)
variable (xPending : List Instr)
variable (s : State)

@[simp] theorem withRing_ring : (s.withRing xRing).ring = xRing := rfl
@[simp] theorem withRing_prevIndex : (s.withRing xRing).prevIndex = s.prevIndex := rfl
@[simp] theorem withRing_sched : (s.withRing xRing).sched = s.sched := rfl
@[simp] theorem withRing_descriptors : (s.withRing xRing).descriptors = s.descriptors := rfl
@[simp] theorem withRing_table : (s.withRing xRing).table = s.table := rfl
@[simp] theorem withRing_windows : (s.withRing xRing).windows = s.windows := rfl
@[simp] theorem withRing_bus : (s.withRing xRing).bus = s.bus := rfl
@[simp] theorem withRing_replyQueue : (s.withRing xRing).replyQueue = s.replyQueue := rfl
@[simp] theorem withRing_mgmt : (s.withRing xRing).mgmt = s.mgmt := rfl
@[simp] theorem withRing_reports : (s.withRing xRing).reports = s.reports := rfl
@[simp] theorem withRing_bridge : (s.withRing xRing).bridge = s.bridge := rfl
@[simp] theorem withRing_pins : (s.withRing xRing).pins = s.pins := rfl
@[simp] theorem withRing_choices : (s.withRing xRing).choices = s.choices := rfl
@[simp] theorem withRing_pending : (s.withRing xRing).pending = s.pending := rfl

@[simp] theorem withPrevIndex_ring : (s.withPrevIndex xPrevIndex).ring = s.ring := rfl
@[simp] theorem withPrevIndex_prevIndex : (s.withPrevIndex xPrevIndex).prevIndex = xPrevIndex := rfl
@[simp] theorem withPrevIndex_sched : (s.withPrevIndex xPrevIndex).sched = s.sched := rfl
@[simp] theorem withPrevIndex_descriptors : (s.withPrevIndex xPrevIndex).descriptors = s.descriptors := rfl
@[simp] theorem withPrevIndex_table : (s.withPrevIndex xPrevIndex).table = s.table := rfl
@[simp] theorem withPrevIndex_windows : (s.withPrevIndex xPrevIndex).windows = s.windows := rfl
@[simp] theorem withPrevIndex_bus : (s.withPrevIndex xPrevIndex).bus = s.bus := rfl
@[simp] theorem withPrevIndex_replyQueue : (s.withPrevIndex xPrevIndex).replyQueue = s.replyQueue := rfl
@[simp] theorem withPrevIndex_mgmt : (s.withPrevIndex xPrevIndex).mgmt = s.mgmt := rfl
@[simp] theorem withPrevIndex_reports : (s.withPrevIndex xPrevIndex).reports = s.reports := rfl
@[simp] theorem withPrevIndex_bridge : (s.withPrevIndex xPrevIndex).bridge = s.bridge := rfl
@[simp] theorem withPrevIndex_pins : (s.withPrevIndex xPrevIndex).pins = s.pins := rfl
@[simp] theorem withPrevIndex_choices : (s.withPrevIndex xPrevIndex).choices = s.choices := rfl
@[simp] theorem withPrevIndex_pending : (s.withPrevIndex xPrevIndex).pending = s.pending := rfl

@[simp] theorem withSched_ring : (s.withSched xSched).ring = s.ring := rfl
@[simp] theorem withSched_prevIndex : (s.withSched xSched).prevIndex = s.prevIndex := rfl
@[simp] theorem withSched_sched : (s.withSched xSched).sched = xSched := rfl
@[simp] theorem withSched_descriptors : (s.withSched xSched).descriptors = s.descriptors := rfl
@[simp] theorem withSched_table : (s.withSched xSched).table = s.table := rfl
@[simp] theorem withSched_windows : (s.withSched xSched).windows = s.windows := rfl
@[simp] theorem withSched_bus : (s.withSched xSched).bus = s.bus := rfl
@[simp] theorem withSched_replyQueue : (s.withSched xSched).replyQueue = s.replyQueue := rfl
@[simp] theorem withSched_mgmt : (s.withSched xSched).mgmt = s.mgmt := rfl
@[simp] theorem withSched_reports : (s.withSched xSched).reports = s.reports := rfl
@[simp] theorem withSched_bridge : (s.withSched xSched).bridge = s.bridge := rfl
@[simp] theorem withSched_pins : (s.withSched xSched).pins = s.pins := rfl
@[simp] theorem withSched_choices : (s.withSched xSched).choices = s.choices := rfl
@[simp] theorem withSched_pending : (s.withSched xSched).pending = s.pending := rfl

@[simp] theorem withDescriptors_ring : (s.withDescriptors xDescriptors).ring = s.ring := rfl
@[simp] theorem withDescriptors_prevIndex : (s.withDescriptors xDescriptors).prevIndex = s.prevIndex := rfl
@[simp] theorem withDescriptors_sched : (s.withDescriptors xDescriptors).sched = s.sched := rfl
@[simp] theorem withDescriptors_descriptors : (s.withDescriptors xDescriptors).descriptors = xDescriptors := rfl
@[simp] theorem withDescriptors_table : (s.withDescriptors xDescriptors).table = s.table := rfl
@[simp] theorem withDescriptors_windows : (s.withDescriptors xDescriptors).windows = s.windows := rfl
@[simp] theorem withDescriptors_bus : (s.withDescriptors xDescriptors).bus = s.bus := rfl
@[simp] theorem withDescriptors_replyQueue : (s.withDescriptors xDescriptors).replyQueue = s.replyQueue := rfl
@[simp] theorem withDescriptors_mgmt : (s.withDescriptors xDescriptors).mgmt = s.mgmt := rfl
@[simp] theorem withDescriptors_reports : (s.withDescriptors xDescriptors).reports = s.reports := rfl
@[simp] theorem withDescriptors_bridge : (s.withDescriptors xDescriptors).bridge = s.bridge := rfl
@[simp] theorem withDescriptors_pins : (s.withDescriptors xDescriptors).pins = s.pins := rfl
@[simp] theorem withDescriptors_choices : (s.withDescriptors xDescriptors).choices = s.choices := rfl
@[simp] theorem withDescriptors_pending : (s.withDescriptors xDescriptors).pending = s.pending := rfl

@[simp] theorem withTable_ring : (s.withTable xTable).ring = s.ring := rfl
@[simp] theorem withTable_prevIndex : (s.withTable xTable).prevIndex = s.prevIndex := rfl
@[simp] theorem withTable_sched : (s.withTable xTable).sched = s.sched := rfl
@[simp] theorem withTable_descriptors : (s.withTable xTable).descriptors = s.descriptors := rfl
@[simp] theorem withTable_table : (s.withTable xTable).table = xTable := rfl
@[simp] theorem withTable_windows : (s.withTable xTable).windows = s.windows := rfl
@[simp] theorem withTable_bus : (s.withTable xTable).bus = s.bus := rfl
@[simp] theorem withTable_replyQueue : (s.withTable xTable).replyQueue = s.replyQueue := rfl
@[simp] theorem withTable_mgmt : (s.withTable xTable).mgmt = s.mgmt := rfl
@[simp] theorem withTable_reports : (s.withTable xTable).reports = s.reports := rfl
@[simp] theorem withTable_bridge : (s.withTable xTable).bridge = s.bridge := rfl
@[simp] theorem withTable_pins : (s.withTable xTable).pins = s.pins := rfl
@[simp] theorem withTable_choices : (s.withTable xTable).choices = s.choices := rfl
@[simp] theorem withTable_pending : (s.withTable xTable).pending = s.pending := rfl

@[simp] theorem withWindows_ring : (s.withWindows xWindows).ring = s.ring := rfl
@[simp] theorem withWindows_prevIndex : (s.withWindows xWindows).prevIndex = s.prevIndex := rfl
@[simp] theorem withWindows_sched : (s.withWindows xWindows).sched = s.sched := rfl
@[simp] theorem withWindows_descriptors : (s.withWindows xWindows).descriptors = s.descriptors := rfl
@[simp] theorem withWindows_table : (s.withWindows xWindows).table = s.table := rfl
@[simp] theorem withWindows_windows : (s.withWindows xWindows).windows = xWindows := rfl
@[simp] theorem withWindows_bus : (s.withWindows xWindows).bus = s.bus := rfl
@[simp] theorem withWindows_replyQueue : (s.withWindows xWindows).replyQueue = s.replyQueue := rfl
@[simp] theorem withWindows_mgmt : (s.withWindows xWindows).mgmt = s.mgmt := rfl
@[simp] theorem withWindows_reports : (s.withWindows xWindows).reports = s.reports := rfl
@[simp] theorem withWindows_bridge : (s.withWindows xWindows).bridge = s.bridge := rfl
@[simp] theorem withWindows_pins : (s.withWindows xWindows).pins = s.pins := rfl
@[simp] theorem withWindows_choices : (s.withWindows xWindows).choices = s.choices := rfl
@[simp] theorem withWindows_pending : (s.withWindows xWindows).pending = s.pending := rfl

@[simp] theorem withBus_ring : (s.withBus xBus).ring = s.ring := rfl
@[simp] theorem withBus_prevIndex : (s.withBus xBus).prevIndex = s.prevIndex := rfl
@[simp] theorem withBus_sched : (s.withBus xBus).sched = s.sched := rfl
@[simp] theorem withBus_descriptors : (s.withBus xBus).descriptors = s.descriptors := rfl
@[simp] theorem withBus_table : (s.withBus xBus).table = s.table := rfl
@[simp] theorem withBus_windows : (s.withBus xBus).windows = s.windows := rfl
@[simp] theorem withBus_bus : (s.withBus xBus).bus = xBus := rfl
@[simp] theorem withBus_replyQueue : (s.withBus xBus).replyQueue = s.replyQueue := rfl
@[simp] theorem withBus_mgmt : (s.withBus xBus).mgmt = s.mgmt := rfl
@[simp] theorem withBus_reports : (s.withBus xBus).reports = s.reports := rfl
@[simp] theorem withBus_bridge : (s.withBus xBus).bridge = s.bridge := rfl
@[simp] theorem withBus_pins : (s.withBus xBus).pins = s.pins := rfl
@[simp] theorem withBus_choices : (s.withBus xBus).choices = s.choices := rfl
@[simp] theorem withBus_pending : (s.withBus xBus).pending = s.pending := rfl

@[simp] theorem withReplyQueue_ring : (s.withReplyQueue xReplyQueue).ring = s.ring := rfl
@[simp] theorem withReplyQueue_prevIndex : (s.withReplyQueue xReplyQueue).prevIndex = s.prevIndex := rfl
@[simp] theorem withReplyQueue_sched : (s.withReplyQueue xReplyQueue).sched = s.sched := rfl
@[simp] theorem withReplyQueue_descriptors : (s.withReplyQueue xReplyQueue).descriptors = s.descriptors := rfl
@[simp] theorem withReplyQueue_table : (s.withReplyQueue xReplyQueue).table = s.table := rfl
@[simp] theorem withReplyQueue_windows : (s.withReplyQueue xReplyQueue).windows = s.windows := rfl
@[simp] theorem withReplyQueue_bus : (s.withReplyQueue xReplyQueue).bus = s.bus := rfl
@[simp] theorem withReplyQueue_replyQueue : (s.withReplyQueue xReplyQueue).replyQueue = xReplyQueue := rfl
@[simp] theorem withReplyQueue_mgmt : (s.withReplyQueue xReplyQueue).mgmt = s.mgmt := rfl
@[simp] theorem withReplyQueue_reports : (s.withReplyQueue xReplyQueue).reports = s.reports := rfl
@[simp] theorem withReplyQueue_bridge : (s.withReplyQueue xReplyQueue).bridge = s.bridge := rfl
@[simp] theorem withReplyQueue_pins : (s.withReplyQueue xReplyQueue).pins = s.pins := rfl
@[simp] theorem withReplyQueue_choices : (s.withReplyQueue xReplyQueue).choices = s.choices := rfl
@[simp] theorem withReplyQueue_pending : (s.withReplyQueue xReplyQueue).pending = s.pending := rfl

@[simp] theorem withMgmt_ring : (s.withMgmt xMgmt).ring = s.ring := rfl
@[simp] theorem withMgmt_prevIndex : (s.withMgmt xMgmt).prevIndex = s.prevIndex := rfl
@[simp] theorem withMgmt_sched : (s.withMgmt xMgmt).sched = s.sched := rfl
@[simp] theorem withMgmt_descriptors : (s.withMgmt xMgmt).descriptors = s.descriptors := rfl
@[simp] theorem withMgmt_table : (s.withMgmt xMgmt).table = s.table := rfl
@[simp] theorem withMgmt_windows : (s.withMgmt xMgmt).windows = s.windows := rfl
@[simp] theorem withMgmt_bus : (s.withMgmt xMgmt).bus = s.bus := rfl
@[simp] theorem withMgmt_replyQueue : (s.withMgmt xMgmt).replyQueue = s.replyQueue := rfl
@[simp] theorem withMgmt_mgmt : (s.withMgmt xMgmt).mgmt = xMgmt := rfl
@[simp] theorem withMgmt_reports : (s.withMgmt xMgmt).reports = s.reports := rfl
@[simp] theorem withMgmt_bridge : (s.withMgmt xMgmt).bridge = s.bridge := rfl
@[simp] theorem withMgmt_pins : (s.withMgmt xMgmt).pins = s.pins := rfl
@[simp] theorem withMgmt_choices : (s.withMgmt xMgmt).choices = s.choices := rfl
@[simp] theorem withMgmt_pending : (s.withMgmt xMgmt).pending = s.pending := rfl

@[simp] theorem withReports_ring : (s.withReports xReports).ring = s.ring := rfl
@[simp] theorem withReports_prevIndex : (s.withReports xReports).prevIndex = s.prevIndex := rfl
@[simp] theorem withReports_sched : (s.withReports xReports).sched = s.sched := rfl
@[simp] theorem withReports_descriptors : (s.withReports xReports).descriptors = s.descriptors := rfl
@[simp] theorem withReports_table : (s.withReports xReports).table = s.table := rfl
@[simp] theorem withReports_windows : (s.withReports xReports).windows = s.windows := rfl
@[simp] theorem withReports_bus : (s.withReports xReports).bus = s.bus := rfl
@[simp] theorem withReports_replyQueue : (s.withReports xReports).replyQueue = s.replyQueue := rfl
@[simp] theorem withReports_mgmt : (s.withReports xReports).mgmt = s.mgmt := rfl
@[simp] theorem withReports_reports : (s.withReports xReports).reports = xReports := rfl
@[simp] theorem withReports_bridge : (s.withReports xReports).bridge = s.bridge := rfl
@[simp] theorem withReports_pins : (s.withReports xReports).pins = s.pins := rfl
@[simp] theorem withReports_choices : (s.withReports xReports).choices = s.choices := rfl
@[simp] theorem withReports_pending : (s.withReports xReports).pending = s.pending := rfl

@[simp] theorem withBridge_ring : (s.withBridge xBridge).ring = s.ring := rfl
@[simp] theorem withBridge_prevIndex : (s.withBridge xBridge).prevIndex = s.prevIndex := rfl
@[simp] theorem withBridge_sched : (s.withBridge xBridge).sched = s.sched := rfl
@[simp] theorem withBridge_descriptors : (s.withBridge xBridge).descriptors = s.descriptors := rfl
@[simp] theorem withBridge_table : (s.withBridge xBridge).table = s.table := rfl
@[simp] theorem withBridge_windows : (s.withBridge xBridge).windows = s.windows := rfl
@[simp] theorem withBridge_bus : (s.withBridge xBridge).bus = s.bus := rfl
@[simp] theorem withBridge_replyQueue : (s.withBridge xBridge).replyQueue = s.replyQueue := rfl
@[simp] theorem withBridge_mgmt : (s.withBridge xBridge).mgmt = s.mgmt := rfl
@[simp] theorem withBridge_reports : (s.withBridge xBridge).reports = s.reports := rfl
@[simp] theorem withBridge_bridge : (s.withBridge xBridge).bridge = xBridge := rfl
@[simp] theorem withBridge_pins : (s.withBridge xBridge).pins = s.pins := rfl
@[simp] theorem withBridge_choices : (s.withBridge xBridge).choices = s.choices := rfl
@[simp] theorem withBridge_pending : (s.withBridge xBridge).pending = s.pending := rfl

@[simp] theorem withPins_ring : (s.withPins xPins).ring = s.ring := rfl
@[simp] theorem withPins_prevIndex : (s.withPins xPins).prevIndex = s.prevIndex := rfl
@[simp] theorem withPins_sched : (s.withPins xPins).sched = s.sched := rfl
@[simp] theorem withPins_descriptors : (s.withPins xPins).descriptors = s.descriptors := rfl
@[simp] theorem withPins_table : (s.withPins xPins).table = s.table := rfl
@[simp] theorem withPins_windows : (s.withPins xPins).windows = s.windows := rfl
@[simp] theorem withPins_bus : (s.withPins xPins).bus = s.bus := rfl
@[simp] theorem withPins_replyQueue : (s.withPins xPins).replyQueue = s.replyQueue := rfl
@[simp] theorem withPins_mgmt : (s.withPins xPins).mgmt = s.mgmt := rfl
@[simp] theorem withPins_reports : (s.withPins xPins).reports = s.reports := rfl
@[simp] theorem withPins_bridge : (s.withPins xPins).bridge = s.bridge := rfl
@[simp] theorem withPins_pins : (s.withPins xPins).pins = xPins := rfl
@[simp] theorem withPins_choices : (s.withPins xPins).choices = s.choices := rfl
@[simp] theorem withPins_pending : (s.withPins xPins).pending = s.pending := rfl

@[simp] theorem withChoices_ring : (s.withChoices xChoices).ring = s.ring := rfl
@[simp] theorem withChoices_prevIndex : (s.withChoices xChoices).prevIndex = s.prevIndex := rfl
@[simp] theorem withChoices_sched : (s.withChoices xChoices).sched = s.sched := rfl
@[simp] theorem withChoices_descriptors : (s.withChoices xChoices).descriptors = s.descriptors := rfl
@[simp] theorem withChoices_table : (s.withChoices xChoices).table = s.table := rfl
@[simp] theorem withChoices_windows : (s.withChoices xChoices).windows = s.windows := rfl
@[simp] theorem withChoices_bus : (s.withChoices xChoices).bus = s.bus := rfl
@[simp] theorem withChoices_replyQueue : (s.withChoices xChoices).replyQueue = s.replyQueue := rfl
@[simp] theorem withChoices_mgmt : (s.withChoices xChoices).mgmt = s.mgmt := rfl
@[simp] theorem withChoices_reports : (s.withChoices xChoices).reports = s.reports := rfl
@[simp] theorem withChoices_bridge : (s.withChoices xChoices).bridge = s.bridge := rfl
@[simp] theorem withChoices_pins : (s.withChoices xChoices).pins = s.pins := rfl
@[simp] theorem withChoices_choices : (s.withChoices xChoices).choices = xChoices := rfl
@[simp] theorem withChoices_pending : (s.withChoices xChoices).pending = s.pending := rfl

@[simp] theorem withPending_ring : (s.withPending xPending).ring = s.ring := rfl
@[simp] theorem withPending_prevIndex : (s.withPending xPending).prevIndex = s.prevIndex := rfl
@[simp] theorem withPending_sched : (s.withPending xPending).sched = s.sched := rfl
@[simp] theorem withPending_descriptors : (s.withPending xPending).descriptors = s.descriptors := rfl
@[simp] theorem withPending_table : (s.withPending xPending).table = s.table := rfl
@[simp] theorem withPending_windows : (s.withPending xPending).windows = s.windows := rfl
@[simp] theorem withPending_bus : (s.withPending xPending).bus = s.bus := rfl
@[simp] theorem withPending_replyQueue : (s.withPending xPending).replyQueue = s.replyQueue := rfl
@[simp] theorem withPending_mgmt : (s.withPending xPending).mgmt = s.mgmt := rfl
@[simp] theorem withPending_reports : (s.withPending xPending).reports = s.reports := rfl
@[simp] theorem withPending_bridge : (s.withPending xPending).bridge = s.bridge := rfl
@[simp] theorem withPending_pins : (s.withPending xPending).pins = s.pins := rfl
@[simp] theorem withPending_choices : (s.withPending xPending).choices = s.choices := rfl
@[simp] theorem withPending_pending : (s.withPending xPending).pending = xPending := rfl

/-! ### Updates of one entry, one window, the pool -/

@[simp] theorem modEntry_ring (i : Nat) (f : Entry → Entry) : (s.modEntry i f).ring = s.ring := rfl
@[simp] theorem modEntry_prevIndex (i : Nat) (f : Entry → Entry) : (s.modEntry i f).prevIndex = s.prevIndex := rfl
@[simp] theorem modEntry_sched (i : Nat) (f : Entry → Entry) : (s.modEntry i f).sched = s.sched := rfl
@[simp] theorem modEntry_descriptors (i : Nat) (f : Entry → Entry) : (s.modEntry i f).descriptors = s.descriptors := rfl
@[simp] theorem modEntry_windows (i : Nat) (f : Entry → Entry) : (s.modEntry i f).windows = s.windows := rfl
@[simp] theorem modEntry_bus (i : Nat) (f : Entry → Entry) : (s.modEntry i f).bus = s.bus := rfl
@[simp] theorem modEntry_replyQueue (i : Nat) (f : Entry → Entry) : (s.modEntry i f).replyQueue = s.replyQueue := rfl
@[simp] theorem modEntry_mgmt (i : Nat) (f : Entry → Entry) : (s.modEntry i f).mgmt = s.mgmt := rfl
@[simp] theorem modEntry_reports (i : Nat) (f : Entry → Entry) : (s.modEntry i f).reports = s.reports := rfl
@[simp] theorem modEntry_bridge (i : Nat) (f : Entry → Entry) : (s.modEntry i f).bridge = s.bridge := rfl
@[simp] theorem modEntry_pins (i : Nat) (f : Entry → Entry) : (s.modEntry i f).pins = s.pins := rfl
@[simp] theorem modEntry_choices (i : Nat) (f : Entry → Entry) : (s.modEntry i f).choices = s.choices := rfl
@[simp] theorem modEntry_pending (i : Nat) (f : Entry → Entry) : (s.modEntry i f).pending = s.pending := rfl
@[simp] theorem modEntry_table_entries (i : Nat) (f : Entry → Entry) :
    (s.modEntry i f).table.entries = s.table.entries.modify i f := rfl
@[simp] theorem modEntry_table_order (i : Nat) (f : Entry → Entry) :
    (s.modEntry i f).table.order = s.table.order := rfl
@[simp] theorem modEntry_table_requests (i : Nat) (f : Entry → Entry) :
    (s.modEntry i f).table.requests = s.table.requests := rfl
@[simp] theorem modEntry_table_pool (i : Nat) (f : Entry → Entry) :
    (s.modEntry i f).table.pool = s.table.pool := rfl

@[simp] theorem modWindow_ring (i : Nat) (f : Window → Window) : (s.modWindow i f).ring = s.ring := rfl
@[simp] theorem modWindow_prevIndex (i : Nat) (f : Window → Window) : (s.modWindow i f).prevIndex = s.prevIndex := rfl
@[simp] theorem modWindow_sched (i : Nat) (f : Window → Window) : (s.modWindow i f).sched = s.sched := rfl
@[simp] theorem modWindow_descriptors (i : Nat) (f : Window → Window) : (s.modWindow i f).descriptors = s.descriptors := rfl
@[simp] theorem modWindow_table (i : Nat) (f : Window → Window) : (s.modWindow i f).table = s.table := rfl
@[simp] theorem modWindow_windows (i : Nat) (f : Window → Window) : (s.modWindow i f).windows = s.windows.modify i f := rfl
@[simp] theorem modWindow_bus (i : Nat) (f : Window → Window) : (s.modWindow i f).bus = s.bus := rfl
@[simp] theorem modWindow_replyQueue (i : Nat) (f : Window → Window) : (s.modWindow i f).replyQueue = s.replyQueue := rfl
@[simp] theorem modWindow_mgmt (i : Nat) (f : Window → Window) : (s.modWindow i f).mgmt = s.mgmt := rfl
@[simp] theorem modWindow_reports (i : Nat) (f : Window → Window) : (s.modWindow i f).reports = s.reports := rfl
@[simp] theorem modWindow_bridge (i : Nat) (f : Window → Window) : (s.modWindow i f).bridge = s.bridge := rfl
@[simp] theorem modWindow_pins (i : Nat) (f : Window → Window) : (s.modWindow i f).pins = s.pins := rfl
@[simp] theorem modWindow_choices (i : Nat) (f : Window → Window) : (s.modWindow i f).choices = s.choices := rfl
@[simp] theorem modWindow_pending (i : Nat) (f : Window → Window) : (s.modWindow i f).pending = s.pending := rfl

@[simp] theorem withPool_ring (p : List Host.Cell) : (s.withPool p).ring = s.ring := rfl
@[simp] theorem withPool_prevIndex (p : List Host.Cell) : (s.withPool p).prevIndex = s.prevIndex := rfl
@[simp] theorem withPool_sched (p : List Host.Cell) : (s.withPool p).sched = s.sched := rfl
@[simp] theorem withPool_descriptors (p : List Host.Cell) : (s.withPool p).descriptors = s.descriptors := rfl
@[simp] theorem withPool_windows (p : List Host.Cell) : (s.withPool p).windows = s.windows := rfl
@[simp] theorem withPool_bus (p : List Host.Cell) : (s.withPool p).bus = s.bus := rfl
@[simp] theorem withPool_replyQueue (p : List Host.Cell) : (s.withPool p).replyQueue = s.replyQueue := rfl
@[simp] theorem withPool_mgmt (p : List Host.Cell) : (s.withPool p).mgmt = s.mgmt := rfl
@[simp] theorem withPool_reports (p : List Host.Cell) : (s.withPool p).reports = s.reports := rfl
@[simp] theorem withPool_bridge (p : List Host.Cell) : (s.withPool p).bridge = s.bridge := rfl
@[simp] theorem withPool_pins (p : List Host.Cell) : (s.withPool p).pins = s.pins := rfl
@[simp] theorem withPool_choices (p : List Host.Cell) : (s.withPool p).choices = s.choices := rfl
@[simp] theorem withPool_pending (p : List Host.Cell) : (s.withPool p).pending = s.pending := rfl
@[simp] theorem withPool_table_entries (p : List Host.Cell) : (s.withPool p).table.entries = s.table.entries := rfl
@[simp] theorem withPool_table_order (p : List Host.Cell) : (s.withPool p).table.order = s.table.order := rfl
@[simp] theorem withPool_table_requests (p : List Host.Cell) : (s.withPool p).table.requests = s.table.requests := rfl
@[simp] theorem withPool_table_pool (p : List Host.Cell) : (s.withPool p).table.pool = p := rfl

end Sys2Proof.Machine
end

