-- ==== Sys2Proof/Laws/Frames.lean ====
section
/-! SUPPORT. One lemma for each shared operation: what it leaves as it is. -/

namespace Sys2Proof.Machine

/-! ### Recording -/

/-- A notice touches only the queue and the sequence. -/
theorem Mgmt.notice_frame (m : Mgmt) (k : ReportKind) (c : Half) :
    (m.notice k c).1.node = m.node ∧ (m.notice k c).1.manager = m.manager ∧ (m.notice k c).1.params = m.params := by
  unfold Mgmt.notice
  split
  · split <;> simp [Mgmt.pushNotice]
  · simp

/-- A report touches the banks and the Management Reply Queue alone. -/
@[simp] theorem report_frame (k : Report) (s : State) :
    (report k s).ring = s.ring ∧ (report k s).prevIndex = s.prevIndex ∧ (report k s).sched = s.sched
      ∧ (report k s).descriptors = s.descriptors ∧ (report k s).table = s.table ∧ (report k s).windows = s.windows
      ∧ (report k s).bus = s.bus ∧ (report k s).replyQueue = s.replyQueue ∧ (report k s).bridge = s.bridge
      ∧ (report k s).pins = s.pins ∧ (report k s).choices = s.choices ∧ (report k s).pending = s.pending := by
  unfold report
  dsimp only
  split
  · split <;> simp
  · simp

/-- A report keeps the node, the manager and the configuration. -/
@[simp] theorem report_mgmt (k : Report) (s : State) :
    (report k s).mgmt.node = s.mgmt.node ∧ (report k s).mgmt.manager = s.mgmt.manager
      ∧ (report k s).mgmt.params = s.mgmt.params := by
  unfold report
  dsimp only
  split
  · split <;> simp [Mgmt.notice_frame]
  · simp

/-- A report keeps the activity counters and the Last Transaction Record. -/
@[simp] theorem report_counters (k : Report) (s : State) :
    (report k s).reports.counters = s.reports.counters ∧ (report k s).reports.lastTx = s.reports.lastTx := by
  have h : ∀ (r : Reports) b x, (r.setBank b x).counters = r.counters ∧ (r.setBank b x).lastTx = r.lastTx := by
    intro r b x; cases b <;> exact ⟨rfl, rfl⟩
  unfold report
  dsimp only
  split
  · split <;> simp [h]
  · simp [h]

@[simp] theorem report_entry (k : Report) (s : State) (i : Nat) : (report k s).entry i = s.entry i := by
  simp [State.entry]

@[simp] theorem report_executing (k : Report) (s : State) : (report k s).executing = s.executing := by
  simp [State.executing, State.entriesIn]

@[simp] theorem withChoices_entry (n i : Nat) (s : State) : (s.withChoices n).entry i = s.entry i := rfl

/-! ### Entries -/

theorem entry_of_table {s t : State} (h : t.table.entries = s.table.entries) (i : Nat) : t.entry i = s.entry i := by
  simp [State.entry, h]

theorem executing_of_table {s t : State} (h : t.table.entries = s.table.entries) : t.executing = s.executing := by
  simp [State.executing, State.entriesIn, h]

/-- An entry that is not FREE is one of the table's. -/
theorem entry_lt {s : State} {i : Nat} (h : (s.entry i).state ≠ .free) : i < s.table.entries.length := by
  by_contra hn
  apply h
  rw [State.entry, List.getD_eq_default _ _ (by omega)]
  rfl

/-- One entry mapped: itself. -/
theorem entry_modEntry_self (s : State) (i : Nat) (f : Entry → Entry) (h : (s.entry i).state ≠ .free) :
    (s.modEntry i f).entry i = f (s.entry i) := by
  have hl := entry_lt h
  simp [State.entry, hl]

/-- One entry mapped: the others. -/
theorem entry_modEntry_ne (s : State) {i j : Nat} (f : Entry → Entry) (h : j ≠ i) :
    (s.modEntry i f).entry j = s.entry j := by
  simp [State.entry, List.getD_eq_getElem?_getD, Ne.symm h]

/-- A mapping that keeps a field of every entry keeps it of every entry of the table. -/
theorem entry_modEntry_field {β : Type} (g : Entry → β) (s : State) (i j : Nat) (f : Entry → Entry) (h : ∀ e, g (f e) = g e) :
    g ((s.modEntry i f).entry j) = g (s.entry j) := by
  by_cases hj : j = i
  · subst hj
    by_cases hl : j < s.table.entries.length
    · simp [State.entry, hl, h]
    · simp [State.entry, hl]
  · rw [entry_modEntry_ne s f hj]

/-- Membership in a list of positions. -/
theorem mem_indexesOf {α : Type} (p : α → Bool) (l : List α) (i : Nat) : i ∈ indexesOf p l ↔ ∃ a, l[i]? = some a ∧ p a = true := by
  unfold indexesOf
  rw [List.mem_filter, List.mem_range, Option.any_eq_true]
  constructor
  · rintro ⟨_, h⟩; exact h
  · rintro ⟨a, ha, hp⟩
    exact ⟨(List.getElem?_eq_some_iff.1 ha).1, a, ha, hp⟩

/-- The entries in a state other than FREE. -/
theorem mem_entriesIn {s : State} {st : EntryState} {i : Nat} (h : i ∈ s.entriesIn st) : (s.entry i).state = st := by
  rw [State.entriesIn, mem_indexesOf] at h
  obtain ⟨a, ha, hp⟩ := h
  simpa [State.entry, List.getD_eq_getElem?_getD, ha] using hp

theorem entriesIn_mem {s : State} {st : EntryState} {i : Nat} (h : (s.entry i).state = st) (hl : i < s.table.entries.length) :
    i ∈ s.entriesIn st := by
  rw [State.entriesIn, mem_indexesOf]
  refine ⟨s.table.entries[i], by simp [hl], ?_⟩
  simpa [State.entry, hl] using h

theorem executing_state {s : State} {i : Nat} (h : s.executing = some i) : (s.entry i).state = .executing :=
  mem_entriesIn (List.mem_of_head? h)

/-- A map of an entry that keeps its state keeps what is EXECUTING. -/
theorem executing_modEntry (s : State) (i : Nat) (f : Entry → Entry) (hf : ∀ e, (f e).state = e.state) :
    (s.modEntry i f).executing = s.executing := by
  have : (s.modEntry i f).entriesIn .executing = s.entriesIn .executing := by
    unfold State.entriesIn indexesOf
    simp only [State.modEntry, withTable_table, List.length_modify]
    congr 1
    funext j
    rw [List.getElem?_modify]
    by_cases h : i = j <;> cases s.table.entries[j]? <;> simp [h, hf]
  rw [State.executing, this, State.executing]

theorem executing_none {s : State} (h : s.executing = none) (i : Nat) : (s.entry i).state ≠ .executing := by
  intro hi
  have hm := entriesIn_mem hi (entry_lt (by rw [hi]; simp))
  rw [State.executing, List.head?_eq_none_iff] at h
  rw [h] at hm
  simp at hm

/-! ### Lifecycle operations -/

@[simp] theorem freeEntry_frame (i : Nat) (s : State) :
    (freeEntry i s).ring = s.ring ∧ (freeEntry i s).prevIndex = s.prevIndex ∧ (freeEntry i s).sched = s.sched
      ∧ (freeEntry i s).descriptors = s.descriptors ∧ (freeEntry i s).windows = s.windows ∧ (freeEntry i s).bus = s.bus
      ∧ (freeEntry i s).mgmt = s.mgmt ∧ (freeEntry i s).reports = s.reports ∧ (freeEntry i s).bridge = s.bridge
      ∧ (freeEntry i s).pins = s.pins ∧ (freeEntry i s).choices = s.choices ∧ (freeEntry i s).pending = s.pending
      ∧ (freeEntry i s).table.pool = s.table.pool := by
  simp [freeEntry]

@[simp] theorem releaseWindow_frame (i : Nat) (s : State) :
    (releaseWindow i s).ring = s.ring ∧ (releaseWindow i s).prevIndex = s.prevIndex ∧ (releaseWindow i s).sched = s.sched
      ∧ (releaseWindow i s).descriptors = s.descriptors ∧ (releaseWindow i s).table = s.table ∧ (releaseWindow i s).bus = s.bus
      ∧ (releaseWindow i s).replyQueue = s.replyQueue ∧ (releaseWindow i s).mgmt = s.mgmt
      ∧ (releaseWindow i s).reports = s.reports ∧ (releaseWindow i s).bridge = s.bridge ∧ (releaseWindow i s).pins = s.pins
      ∧ (releaseWindow i s).choices = s.choices ∧ (releaseWindow i s).pending = s.pending := by
  simp [releaseWindow]

@[simp] theorem joinReplyQueue_frame (m : Member) (s : State) :
    (joinReplyQueue m s).ring = s.ring ∧ (joinReplyQueue m s).prevIndex = s.prevIndex ∧ (joinReplyQueue m s).sched = s.sched
      ∧ (joinReplyQueue m s).descriptors = s.descriptors ∧ (joinReplyQueue m s).table = s.table
      ∧ (joinReplyQueue m s).windows = s.windows ∧ (joinReplyQueue m s).bus = s.bus
      ∧ (joinReplyQueue m s).replyQueue = s.replyQueue ++ [m] ∧ (joinReplyQueue m s).mgmt = s.mgmt
      ∧ (joinReplyQueue m s).reports = s.reports ∧ (joinReplyQueue m s).bridge = s.bridge
      ∧ (joinReplyQueue m s).pins = s.pins ∧ (joinReplyQueue m s).choices = s.choices
      ∧ (joinReplyQueue m s).pending = s.pending := by
  simp [joinReplyQueue]

@[simp] theorem dropEntry_frame (i : Nat) (s : State) :
    (dropEntry i s).ring = s.ring ∧ (dropEntry i s).prevIndex = s.prevIndex ∧ (dropEntry i s).sched = s.sched
      ∧ (dropEntry i s).descriptors = s.descriptors ∧ (dropEntry i s).bus = s.bus ∧ (dropEntry i s).mgmt = s.mgmt
      ∧ (dropEntry i s).reports = s.reports ∧ (dropEntry i s).bridge = s.bridge ∧ (dropEntry i s).pins = s.pins
      ∧ (dropEntry i s).choices = s.choices ∧ (dropEntry i s).pending = s.pending
      ∧ (dropEntry i s).table.pool = s.table.pool := by
  simp [dropEntry]

@[simp] theorem answerUnexecuted_frame (i : Nat) (st : Status) (s : State) :
    (answerUnexecuted i st s).ring = s.ring ∧ (answerUnexecuted i st s).prevIndex = s.prevIndex
      ∧ (answerUnexecuted i st s).sched = s.sched ∧ (answerUnexecuted i st s).descriptors = s.descriptors
      ∧ (answerUnexecuted i st s).bus = s.bus ∧ (answerUnexecuted i st s).mgmt = s.mgmt
      ∧ (answerUnexecuted i st s).reports = s.reports ∧ (answerUnexecuted i st s).bridge = s.bridge
      ∧ (answerUnexecuted i st s).pins = s.pins ∧ (answerUnexecuted i st s).choices = s.choices
      ∧ (answerUnexecuted i st s).pending = s.pending ∧ (answerUnexecuted i st s).table.pool = s.table.pool := by
  simp [answerUnexecuted]

@[simp] theorem reportEnd_frame (e : Entry) (st : Status) (s : State) :
    (reportEnd e st s).ring = s.ring ∧ (reportEnd e st s).prevIndex = s.prevIndex ∧ (reportEnd e st s).sched = s.sched
      ∧ (reportEnd e st s).descriptors = s.descriptors ∧ (reportEnd e st s).table = s.table
      ∧ (reportEnd e st s).windows = s.windows ∧ (reportEnd e st s).bus = s.bus
      ∧ (reportEnd e st s).replyQueue = s.replyQueue ∧ (reportEnd e st s).bridge = s.bridge
      ∧ (reportEnd e st s).pins = s.pins ∧ (reportEnd e st s).choices = s.choices ∧ (reportEnd e st s).pending = s.pending := by
  unfold reportEnd
  split
  · simp
  · split <;> simp

@[simp] theorem leaveExecuting_frame (i : Nat) (e : Entry) (st : Status) (s : State) :
    (leaveExecuting i e st s).ring = s.ring ∧ (leaveExecuting i e st s).prevIndex = s.prevIndex
      ∧ (leaveExecuting i e st s).sched = s.sched ∧ (leaveExecuting i e st s).descriptors = s.descriptors
      ∧ (leaveExecuting i e st s).windows = s.windows ∧ (leaveExecuting i e st s).bus = s.bus
      ∧ (leaveExecuting i e st s).mgmt = s.mgmt ∧ (leaveExecuting i e st s).reports = s.reports
      ∧ (leaveExecuting i e st s).bridge = s.bridge ∧ (leaveExecuting i e st s).pins = s.pins
      ∧ (leaveExecuting i e st s).choices = s.choices ∧ (leaveExecuting i e st s).pending = s.pending
      ∧ (leaveExecuting i e st s).table.pool = s.table.pool := by
  unfold leaveExecuting
  split
  · simp
  · dsimp only
    split <;> simp

/-- The end of an execution touches the table, a window, the bus, the Reply Queue, the reports and the notices alone. -/
@[simp] theorem endExecution_frame (i : Nat) (st : Status) (s : State) :
    (endExecution i st s).ring = s.ring ∧ (endExecution i st s).prevIndex = s.prevIndex
      ∧ (endExecution i st s).sched = s.sched ∧ (endExecution i st s).descriptors = s.descriptors
      ∧ (endExecution i st s).bus = s.bus.cleared ∧ (endExecution i st s).bridge = s.bridge
      ∧ (endExecution i st s).pins = s.pins ∧ (endExecution i st s).choices = s.choices
      ∧ (endExecution i st s).pending = s.pending ∧ (endExecution i st s).table.pool = s.table.pool := by
  simp [endExecution, countExecuted, State.modCounters]

/-- The reports of an end of execution keep the node, the manager and the configuration. -/
@[simp] theorem reportEnd_mgmt (e : Entry) (st : Status) (s : State) :
    (reportEnd e st s).mgmt.node = s.mgmt.node ∧ (reportEnd e st s).mgmt.manager = s.mgmt.manager
      ∧ (reportEnd e st s).mgmt.params = s.mgmt.params := by
  unfold reportEnd
  split
  · simp
  · split <;> simp

/-- The end of an execution keeps the node, the manager and the configuration. -/
@[simp] theorem endExecution_mgmt (i : Nat) (st : Status) (s : State) :
    (endExecution i st s).mgmt.node = s.mgmt.node ∧ (endExecution i st s).mgmt.manager = s.mgmt.manager
      ∧ (endExecution i st s).mgmt.params = s.mgmt.params := by
  simp [endExecution, countExecuted, State.modCounters]

@[simp] theorem judgeDrain_frame (s : State) :
    (judgeDrain s).ring = s.ring ∧ (judgeDrain s).prevIndex = s.prevIndex ∧ (judgeDrain s).sched = s.sched
      ∧ (judgeDrain s).descriptors = s.descriptors ∧ (judgeDrain s).table = s.table ∧ (judgeDrain s).windows = s.windows
      ∧ (judgeDrain s).bus = s.bus ∧ (judgeDrain s).replyQueue = s.replyQueue ∧ (judgeDrain s).mgmt = s.mgmt
      ∧ (judgeDrain s).reports = s.reports ∧ (judgeDrain s).bridge.softReset = s.bridge.softReset
      ∧ (judgeDrain s).bridge.resetCount = s.bridge.resetCount ∧ (judgeDrain s).pins = s.pins
      ∧ (judgeDrain s).choices = s.choices ∧ (judgeDrain s).pending = s.pending := by
  unfold judgeDrain
  split <;> simp

/-! ### Folds over the table -/

theorem foldl_field {α β : Type} (g : State → β) {f : State → α → State} (hf : ∀ t a, g (f t a) = g t) :
    ∀ (l : List α) (s : State), g (l.foldl f s) = g s
  | [], _ => rfl
  | a :: l, s => (foldl_field g hf l (f s a)).trans (hf s a)

@[simp] theorem expireGaps_ring (s : State) : (expireGaps s).ring = s.ring := by
  refine foldl_field State.ring (fun t i => ?_) _ s
  unfold endIncomplete
  split <;> simp

@[simp] theorem expireReplies_ring (s : State) : (expireReplies s).ring = s.ring := by
  refine foldl_field State.ring (fun t m => ?_) _ s
  unfold abandonExpired
  split
  · rfl
  · split <;> simp

/-! ### Taking a beat -/

/-- The taking of a beat keeps every entry's state, operation and place. -/
theorem takenBeat_entry {β : Type} (g : Entry → β) (h : ∀ e d, g { e with done := d } = g e) (i : Nat) (b : Beat)
    (answer : Answer) (w : Width) (data : LaneData) (s : State) (j : Nat) :
    g ((takenBeat i b answer w data s).entry j) = g (s.entry j) := by
  have h1 : ∀ x, (placeRead (s.entry i) b (b.takenLanes w) data x).entry j = x.entry j := by
    intro x
    unfold placeRead
    split
    · rfl
    · exact entry_of_table rfl j
  show g ((advanceDone i _ (placeRead (s.entry i) b (b.takenLanes w) data (countBeat s))).entry j) = _
  rw [advanceDone, entry_modEntry_field g, h1]
  · rfl
  · intro e
    split
    · rfl
    · exact h e _

theorem takenBeat_state (i : Nat) (b : Beat) (answer : Answer) (w : Width) (data : LaneData) (s : State) (j : Nat) :
    ((takenBeat i b answer w data s).entry j).state = (s.entry j).state :=
  takenBeat_entry Entry.state (fun _ _ => rfl) i b answer w data s j

/-! ### Orders -/

/-- What every act keeps, the acts in any order keep. -/
theorem foldl_acts {P : State → Prop} (acts : List (State → State)) (h : ∀ f ∈ acts, ∀ t, P t → P (f t)) :
    ∀ s, P s → P (acts.foldl (fun t f => f t) s) := by
  induction acts with
  | nil => intro s hs; exact hs
  | cons f fs ih =>
    intro s hs
    exact ih (fun g hg => h g (List.mem_cons_of_mem _ hg)) _ (h f List.mem_cons_self s hs)

theorem mem_insertAt {α : Type} (k : Nat) (a x : α) (l : List α) : x ∈ insertAt k a l ↔ x = a ∨ x ∈ l := by
  unfold insertAt
  rw [List.mem_append, List.mem_cons]
  constructor
  · rintro (h | h | h)
    · exact Or.inr (List.mem_of_mem_take h)
    · exact Or.inl h
    · exact Or.inr (List.mem_of_mem_drop h)
  · rintro (h | h)
    · exact Or.inr (Or.inl h)
    · rw [← List.take_append_drop (k % (l.length + 1)) l, List.mem_append] at h
      rcases h with h | h
      · exact Or.inl h
      · exact Or.inr (Or.inr h)

theorem mem_reorder {α : Type} (x : α) : ∀ (l : List α) (k : Nat), x ∈ reorder k l ↔ x ∈ l
  | [], _ => by simp [reorder]
  | a :: l, k => by
    rw [reorder, mem_insertAt, mem_reorder x l, List.mem_cons]

/-- Acts in some order keep what each of them keeps. -/
theorem inSomeOrder_keeps {P : State → Prop} (acts : List (State → State)) (s : State)
    (choices : ∀ t n, P t → P (t.withChoices n)) (h : ∀ f ∈ acts, ∀ t, P t → P (f t)) (hs : P s) :
    P (inSomeOrder acts s) := by
  unfold inSomeOrder
  split
  · exact hs
  · exact h _ List.mem_cons_self _ hs
  · exact foldl_acts _ (fun f hf => h f ((mem_reorder f _ _).1 hf)) _ (choices _ _ hs)

/-- Two acts in some order: one, then the other. -/
theorem inSomeOrder_two (f g : State → State) (s : State) :
    inSomeOrder [f, g] s = g (f (s.withChoices (s.choices + 1)))
      ∨ inSomeOrder [f, g] s = f (g (s.withChoices (s.choices + 1))) := by
  show List.foldl _ _ (reorder _ [f, g]) = _ ∨ List.foldl _ _ (reorder _ [f, g]) = _
  have h : ∀ k, reorder k [f, g] = [f, g] ∨ reorder k [f, g] = [g, f] := by
    intro k
    have h1 : ∀ k, reorder k [g] = [g] := by intro k; simp [reorder, insertAt]
    rw [reorder, h1]
    have : k % 2 < 2 := Nat.mod_lt _ (by decide)
    rcases (by omega : k % 2 = 0 ∨ k % 2 = 1) with h | h <;> simp [insertAt, h]
  rcases h (Config.order s.choices) with h | h <;> rw [h]
  · exact Or.inl rfl
  · exact Or.inr rfl

/-! ### The other acts -/

/-- A new configuration touches the Management Unit, the timebase and a grant. -/
@[simp] theorem setParams_frame (p : Params) (s : State) :
    (setParams p s).prevIndex = s.prevIndex ∧ (setParams p s).sched = s.sched
      ∧ (setParams p s).descriptors = s.descriptors ∧ (setParams p s).table = s.table
      ∧ (setParams p s).windows = s.windows ∧ (setParams p s).replyQueue = s.replyQueue
      ∧ (setParams p s).reports = s.reports ∧ (setParams p s).bridge = s.bridge ∧ (setParams p s).pins = s.pins
      ∧ (setParams p s).choices = s.choices ∧ (setParams p s).pending = s.pending
      ∧ (setParams p s).ring.state = s.ring.state ∧ (setParams p s).ring.lost = s.ring.lost
      ∧ (setParams p s).ring.blind = s.ring.blind ∧ (setParams p s).ring.slotCount = s.ring.slotCount
      ∧ (setParams p s).ring.lastCycle = s.ring.lastCycle ∧ (setParams p s).ring.timebase = s.ring.timebase
      ∧ (setParams p s).mgmt.params = p ∧ (setParams p s).mgmt.node = s.mgmt.node
      ∧ (setParams p s).mgmt.manager = s.mgmt.manager ∧ (setParams p s).mgmt.queue = s.mgmt.queue
      ∧ (setParams p s).bus.engine = s.bus.engine ∧ (setParams p s).bus.current = s.bus.current
      ∧ (setParams p s).bus.lock = s.bus.lock ∧ (setParams p s).bus.grant = s.bus.grant
      ∧ (setParams p s).bus.plan = s.bus.plan ∧ (setParams p s).bus.width = s.bus.width
      ∧ (setParams p s).bus.grantTime.isSome = s.bus.grantTime.isSome ∧ (setParams p s).bus.separating = s.bus.separating := by
  unfold setParams
  dsimp only
  split <;> simp [RingPort.prescalerChanged, Bus.prescalerChanged]

/-- Handover touches the table, the plan and the Reply Queue. -/
@[simp] theorem handOver_frame (i : Nat) (s : State) :
    (handOver i s).ring = s.ring ∧ (handOver i s).prevIndex = s.prevIndex ∧ (handOver i s).sched = s.sched
      ∧ (handOver i s).descriptors = s.descriptors ∧ (handOver i s).windows = s.windows
      ∧ (handOver i s).mgmt = s.mgmt ∧ (handOver i s).reports = s.reports ∧ (handOver i s).bridge = s.bridge
      ∧ (handOver i s).pins = s.pins ∧ (handOver i s).choices = s.choices ∧ (handOver i s).pending = s.pending
      ∧ (handOver i s).table.pool = s.table.pool ∧ (handOver i s).table.order = s.table.order
      ∧ (handOver i s).bus.engine = s.bus.engine ∧ (handOver i s).bus.current = s.bus.current
      ∧ (handOver i s).bus.lock = s.bus.lock ∧ (handOver i s).bus.grant = s.bus.grant
      ∧ (handOver i s).bus.grantTime = s.bus.grantTime ∧ (handOver i s).bus.separating = s.bus.separating := by
  unfold handOver
  dsimp only
  split <;> simp

/-- The start of a cycle keeps the grant and the separation. -/
@[simp] theorem Bus.started_frame (bus : Bus) (locked : Bool) :
    (bus.started locked).grant = bus.grant ∧ (bus.started locked).grantTime = bus.grantTime
      ∧ (bus.started locked).holdLong = bus.holdLong ∧ (bus.started locked).width = bus.width
      ∧ (bus.started locked).separating = bus.separating := by
  unfold Bus.started
  split
  · simp
  · split <;> simp

/-- The start of a cycle touches the Bus Engine alone. -/
@[simp] theorem startCycle_frame (s : State) :
    (startCycle s).ring = s.ring ∧ (startCycle s).prevIndex = s.prevIndex ∧ (startCycle s).sched = s.sched
      ∧ (startCycle s).descriptors = s.descriptors ∧ (startCycle s).table = s.table
      ∧ (startCycle s).windows = s.windows ∧ (startCycle s).replyQueue = s.replyQueue
      ∧ (startCycle s).mgmt = s.mgmt ∧ (startCycle s).reports = s.reports ∧ (startCycle s).bridge = s.bridge
      ∧ (startCycle s).pins = s.pins ∧ (startCycle s).choices = s.choices ∧ (startCycle s).pending = s.pending
      ∧ (startCycle s).bus.grant = s.bus.grant ∧ (startCycle s).bus.grantTime = s.bus.grantTime
      ∧ (startCycle s).bus.separating = s.bus.separating := by
  unfold startCycle
  split <;> simp

/-- A cycle whose first beat is `b` starts (R111, R113). -/
theorem startCycle_of_plan {s : State} {i : Nat} {c : BusCycle} {cycles : List BusCycle} {b : Beat} {bs : List Beat}
    (hx : s.executing = some i) (hp : s.bus.plan = c :: cycles) (hb : c.beats = b :: bs) :
    startCycle s = s.withBus { s.bus with
      engine := if (s.entry i).op.locked then .locked else .cycle
      plan := cycles, current := some b, rest := bs, lineBurst := c.lineBurst
      burst := c.lineBurst && !bs.isEmpty, waitCount := 0, lock := (s.entry i).op.locked } := by
  have hn : decide (2 ≤ (b :: bs).length) = !bs.isEmpty := by cases bs <;> simp
  simp [startCycle, Bus.started, hx, hp, hb, ← hn]

/-- So does the start after the separating clock. -/
@[simp] theorem startSeparated_frame (s : State) :
    (startSeparated s).ring = s.ring ∧ (startSeparated s).prevIndex = s.prevIndex ∧ (startSeparated s).sched = s.sched
      ∧ (startSeparated s).descriptors = s.descriptors ∧ (startSeparated s).table = s.table
      ∧ (startSeparated s).windows = s.windows ∧ (startSeparated s).replyQueue = s.replyQueue
      ∧ (startSeparated s).mgmt = s.mgmt ∧ (startSeparated s).reports = s.reports
      ∧ (startSeparated s).bridge = s.bridge ∧ (startSeparated s).pins = s.pins
      ∧ (startSeparated s).choices = s.choices ∧ (startSeparated s).pending = s.pending
      ∧ (startSeparated s).bus.separating = s.bus.separating := by
  unfold startSeparated
  split <;> simp

/-- Before the separating clock nothing starts; after it the first planned cycle does (R113). -/
theorem startSeparated_eq (s : State) :
    startSeparated s = if s.bus.separating = true then s else startCycle s := rfl

/-- So does the start of a locked sequence that is due. -/
@[simp] theorem startDueSequence_frame (s : State) :
    (startDueSequence s).ring = s.ring ∧ (startDueSequence s).prevIndex = s.prevIndex ∧ (startDueSequence s).sched = s.sched
      ∧ (startDueSequence s).descriptors = s.descriptors ∧ (startDueSequence s).table = s.table
      ∧ (startDueSequence s).windows = s.windows ∧ (startDueSequence s).replyQueue = s.replyQueue
      ∧ (startDueSequence s).mgmt = s.mgmt ∧ (startDueSequence s).reports = s.reports
      ∧ (startDueSequence s).bridge = s.bridge ∧ (startDueSequence s).pins = s.pins
      ∧ (startDueSequence s).choices = s.choices ∧ (startDueSequence s).pending = s.pending
      ∧ (startDueSequence s).bus.separating = false := by
  simp [startDueSequence]

/-- A locked operation that is EXECUTING in IDLE, and it alone, has its sequence due. -/
theorem sequenceDue_iff (s : State) (i : Nat) :
    s.sequenceDue i = true ↔ s.bus.engine = .idle ∧ (s.entry i).op.locked = true := by simp [State.sequenceDue]

/-- An operation that is not locked has no sequence due. -/
theorem sequenceDue_of_not_locked {s : State} {i : Nat} (h : (s.entry i).op.locked = false) : s.sequenceDue i = false := by
  simp [State.sequenceDue, h]

/-- What starts with a sequence that is due is given by the Bus Engine's own items and the EXECUTING operation. -/
theorem startDueSequence_of_executing {s : State} {i : Nat} (hx : s.executing = some i) :
    startDueSequence s = s.withBus (({ s.bus with separating := false } : Bus).started (s.entry i).op.locked) := by
  have hx' : (s.withBus { s.bus with separating := false }).executing = some i := hx
  simp only [startDueSequence, startCycle, hx']
  rfl

/-- The first beat of a sequence that is due goes on the bus, in LOCKED with the lock indication on (R111, R120). -/
theorem startDueSequence_of_plan {s : State} {i : Nat} {c : BusCycle} {cycles : List BusCycle} {b : Beat} {bs : List Beat}
    (hx : s.executing = some i) (hl : (s.entry i).op.locked = true) (hp : s.bus.plan = c :: cycles) (hb : c.beats = b :: bs) :
    startDueSequence s = s.withBus { s.bus with
      separating := false, engine := .locked, plan := cycles, current := some b, rest := bs, lineBurst := c.lineBurst
      burst := c.lineBurst && !bs.isEmpty, waitCount := 0, lock := true } := by
  have hn : decide (2 ≤ (b :: bs).length) = !bs.isEmpty := by cases bs <;> simp
  simp [startDueSequence_of_executing hx, Bus.started, hp, hb, hl, ← hn]

/-- A Bus Engine that has started a cycle is not IDLE, and one that could start none stands as it stood. -/
theorem Bus.started_cases (bus : Bus) (locked : Bool) :
    bus.started locked = bus ∨ (bus.started locked).engine = if locked then .locked else .cycle := by
  unfold Bus.started
  split
  · exact Or.inl rfl
  · split
    · exact Or.inl rfl
    · exact Or.inr rfl

/-- A claim's mark on an operation whose sequence is due is its mark once the sequence has started. -/
theorem setMark_startDueSequence {s : State} {i : Nat} (quiet : Bool) (hx : s.executing = some i)
    (hd : s.sequenceDue i = true) : setMark quiet i (startDueSequence s) = setMark quiet i s := by
  unfold setMark
  rw [if_pos hd]
  split
  · rename_i h
    rw [sequenceDue_iff, startDueSequence_of_executing hx] at h
    rcases Bus.started_cases { s.bus with separating := false } (s.entry i).op.locked with hb | hb
    · have hu : startDueSequence s = s.withBus { s.bus with separating := false } := by
        rw [startDueSequence_of_executing hx, hb]
      have : startDueSequence (startDueSequence s) = startDueSequence s := by rw [hu]; exact hu
      rw [this]
    · rw [withBus_bus, hb] at h
      split at h <;> simp at h
  · rfl

/-- With an entry EXECUTING the hold is granted where it is requested, and else the next cycle starts (R111). -/
theorem arbitrate_of_executing {s : State} {i : Nat} (he : s.bus.engine = .idle) (hx : s.executing = some i) :
    arbitrate s = if s.pins.holdRequest = true then grantHold s else startSeparated s := by
  simp [arbitrate, he, hx]

/-- A separating clock at which a sequence is due grants the hold where it is requested, and else starts the sequence. -/
theorem separatingClock_of_due {s : State} {i : Nat} (hx : s.executing = some i) (hd : s.sequenceDue i = true) :
    separatingClock s = if s.pins.holdRequest then grantHold s else startDueSequence s := by
  have he := ((sequenceDue_iff s i).1 hd).1
  have hx' : (s.withBus { s.bus with separating := false }).executing = some i := hx
  rw [separatingClock, if_pos he, arbitrate_of_executing (by exact he) hx']
  rfl

/-- While the bus is lent no sequence is due (R124). -/
theorem sequenceDue_of_yielded {s : State} (he : s.bus.engine = .yielded) (i : Nat) : s.sequenceDue i = false := by
  simp [State.sequenceDue, he]

/-- The end of a grant with an entry EXECUTING and the request gone: its next cycle or its sequence starts (R123). -/
theorem arbitrate_endGrant_of_executing {s : State} {i : Nat} (hx : s.executing = some i) (hh : s.pins.holdRequest = false) :
    arbitrate (endGrant s) = startSeparated (endGrant s) := by
  have hx' : (endGrant s).executing = some i := hx
  rw [arbitrate_of_executing rfl hx', if_neg (by simp [endGrant, hh])]

/-- A claim on an entry whose sequence is not due sets its mark alone (R81). -/
theorem setMark_of_not_due {s : State} {i : Nat} (quiet : Bool) (h : s.sequenceDue i = false) :
    setMark quiet i s = s.modEntry i (fun e => { e with mark := e.mark.claim quiet }) := by simp [setMark, h]

/-- A mark touches its entry and, where a sequence is due, the Bus Engine. -/
@[simp] theorem setMark_frame (quiet : Bool) (i : Nat) (s : State) :
    (setMark quiet i s).ring = s.ring ∧ (setMark quiet i s).prevIndex = s.prevIndex ∧ (setMark quiet i s).sched = s.sched
      ∧ (setMark quiet i s).descriptors = s.descriptors
      ∧ (setMark quiet i s).table = (s.modEntry i (fun e => { e with mark := e.mark.claim quiet })).table
      ∧ (setMark quiet i s).windows = s.windows ∧ (setMark quiet i s).replyQueue = s.replyQueue
      ∧ (setMark quiet i s).mgmt = s.mgmt ∧ (setMark quiet i s).reports = s.reports
      ∧ (setMark quiet i s).bridge = s.bridge ∧ (setMark quiet i s).pins = s.pins
      ∧ (setMark quiet i s).choices = s.choices ∧ (setMark quiet i s).pending = s.pending := by
  unfold setMark
  split <;> simp [State.modEntry]

/-- The decision of the Bus Engine touches the table, the Bus Engine and the Reply Queue. -/
@[simp] theorem arbitrate_frame (s : State) :
    (arbitrate s).ring = s.ring ∧ (arbitrate s).prevIndex = s.prevIndex ∧ (arbitrate s).sched = s.sched
      ∧ (arbitrate s).descriptors = s.descriptors ∧ (arbitrate s).windows = s.windows
      ∧ (arbitrate s).mgmt = s.mgmt ∧ (arbitrate s).reports = s.reports ∧ (arbitrate s).bridge = s.bridge
      ∧ (arbitrate s).pins = s.pins ∧ (arbitrate s).choices = s.choices ∧ (arbitrate s).pending = s.pending
      ∧ (arbitrate s).table.pool = s.table.pool ∧ (arbitrate s).table.order = s.table.order := by
  unfold arbitrate
  split
  · simp
  · split
    · simp [grantHold]
    · split
      · simp
      · split
        · simp
        · split <;> simp

/-- Before the separating clock a hold is granted, or the head of the Request Queue handed over, and no cycle starts (R80,
R111, R113). -/
theorem arbitrate_of_separating {s : State} (he : s.bus.engine = .idle) (h : s.bus.separating = true) :
    arbitrate s = if s.pins.holdRequest then grantHold s
      else if s.executing.isSome ∨ s.bridge.softReset.isSome then s
      else match s.table.requests with
        | [] => s
        | i :: _ => handOver i s := by
  unfold arbitrate
  simp only [he, h, startSeparated, handOver_frame]
  cases s.pins.holdRequest <;> cases s.executing <;> cases s.bridge.softReset <;> cases s.table.requests <;> simp

/-- A claim on an execution whose cycle or sequence is in progress sets the mark alone (R81, R128). -/
theorem claimExecuting_of_busy {s : State} (quiet : Bool) (i : Nat) (h : s.bus.busy = true) :
    claimExecuting quiet i s = s.modEntry i (fun e => { e with mark := e.mark.claim quiet }) := by
  have hn : s.sequenceDue i = false := by
    simp only [Bus.busy, Bool.or_eq_true, decide_eq_true_eq] at h
    rcases h with h | h <;> simp [State.sequenceDue, h]
  simp [claimExecuting, setMark_of_not_due quiet hn, h]

/-- A claim that finds no cycle in progress and no sequence due ends the execution at once (R81, R128). -/
theorem claimExecuting_of_not_busy {s : State} (quiet : Bool) (i : Nat) (h : s.bus.busy = false)
    (hn : s.sequenceDue i = false) :
    claimExecuting quiet i s = endExecution i .aborted (s.modEntry i (fun e => { e with mark := e.mark.claim quiet })) := by
  simp [claimExecuting, setMark_of_not_due quiet hn, h]

/-- A report does not look at the table. -/
theorem report_modEntry (k : Report) (s : State) (i : Nat) (f : Entry → Entry) :
    report k (s.modEntry i f) = (report k s).modEntry i f := by
  have hm : (s.modEntry i f).mgmt = s.mgmt := rfl
  have hr : (s.modEntry i f).reports = s.reports := rfl
  have hc : (s.modEntry i f).ring = s.ring := rfl
  unfold report
  simp only [hm, hr, hc]
  split
  · split <;> rfl
  · rfl

/-- The taking of a beat touches the table, the Bus Engine and a counter. -/
@[simp] theorem takenBeat_frame (i : Nat) (b : Beat) (x : Answer) (w : Width) (d : LaneData) (s : State) :
    (takenBeat i b x w d s).ring = s.ring ∧ (takenBeat i b x w d s).prevIndex = s.prevIndex
      ∧ (takenBeat i b x w d s).sched = s.sched ∧ (takenBeat i b x w d s).descriptors = s.descriptors
      ∧ (takenBeat i b x w d s).windows = s.windows ∧ (takenBeat i b x w d s).replyQueue = s.replyQueue
      ∧ (takenBeat i b x w d s).mgmt = s.mgmt ∧ (takenBeat i b x w d s).bridge = s.bridge
      ∧ (takenBeat i b x w d s).pins = s.pins ∧ (takenBeat i b x w d s).choices = s.choices
      ∧ (takenBeat i b x w d s).pending = s.pending ∧ (takenBeat i b x w d s).table.order = s.table.order
      ∧ (takenBeat i b x w d s).table.requests = s.table.requests
      ∧ (takenBeat i b x w d s).reports.ring = s.reports.ring
      ∧ (takenBeat i b x w d s).reports.slot = s.reports.slot
      ∧ (takenBeat i b x w d s).reports.bus = s.reports.bus
      ∧ (takenBeat i b x w d s).reports.mgmt = s.reports.mgmt ∧ (takenBeat i b x w d s).bus.engine = s.bus.engine
      ∧ (takenBeat i b x w d s).bus.lock = s.bus.lock ∧ (takenBeat i b x w d s).bus.grant = s.bus.grant
      ∧ (takenBeat i b x w d s).bus.grantTime = s.bus.grantTime ∧ (takenBeat i b x w d s).bus.separating = s.bus.separating := by
  unfold takenBeat advanceDone placeRead Bus.afterBeat
  dsimp only
  split <;> split <;> simp [countBeat, State.modCounters]

/-- An allocation touches the table, a window and a counter. -/
@[simp] theorem allocate_frame (i : Nat) (op : ReqOp) (g : Segment) (w : Nat) (bs : List Nat) (s : State) :
    (allocate i op g w bs s).ring = s.ring ∧ (allocate i op g w bs s).prevIndex = s.prevIndex
      ∧ (allocate i op g w bs s).sched = s.sched ∧ (allocate i op g w bs s).descriptors = s.descriptors
      ∧ (allocate i op g w bs s).bus = s.bus ∧ (allocate i op g w bs s).replyQueue = s.replyQueue
      ∧ (allocate i op g w bs s).mgmt = s.mgmt ∧ (allocate i op g w bs s).bridge = s.bridge
      ∧ (allocate i op g w bs s).pins = s.pins ∧ (allocate i op g w bs s).choices = s.choices
      ∧ (allocate i op g w bs s).pending = s.pending ∧ (allocate i op g w bs s).table.order = s.table.order ++ [i]
      ∧ (allocate i op g w bs s).reports.ring = s.reports.ring
      ∧ (allocate i op g w bs s).reports.slot = s.reports.slot
      ∧ (allocate i op g w bs s).reports.bus = s.reports.bus
      ∧ (allocate i op g w bs s).reports.mgmt = s.reports.mgmt := by
  simp [allocate, countTaken, State.modCounters, State.writeTx]

/-- An append touches the table alone. -/
@[simp] theorem appendSegment_frame (i : Nat) (g : Segment) (s : State) :
    (appendSegment i g s).ring = s.ring ∧ (appendSegment i g s).prevIndex = s.prevIndex
      ∧ (appendSegment i g s).sched = s.sched ∧ (appendSegment i g s).descriptors = s.descriptors
      ∧ (appendSegment i g s).windows = s.windows ∧ (appendSegment i g s).bus = s.bus
      ∧ (appendSegment i g s).replyQueue = s.replyQueue ∧ (appendSegment i g s).mgmt = s.mgmt
      ∧ (appendSegment i g s).reports = s.reports ∧ (appendSegment i g s).bridge = s.bridge
      ∧ (appendSegment i g s).pins = s.pins ∧ (appendSegment i g s).choices = s.choices
      ∧ (appendSegment i g s).pending = s.pending ∧ (appendSegment i g s).table.order = s.table.order := by
  simp [appendSegment, State.writeTx]

/-- A giving touches the table and the Reply Queue. -/
@[simp] theorem sendPiece_frame (i : Nat) (p : Piece) (s : State) :
    (sendPiece i p s).ring = s.ring ∧ (sendPiece i p s).prevIndex = s.prevIndex
      ∧ (sendPiece i p s).sched = s.sched ∧ (sendPiece i p s).descriptors = s.descriptors
      ∧ (sendPiece i p s).windows = s.windows ∧ (sendPiece i p s).bus = s.bus ∧ (sendPiece i p s).mgmt = s.mgmt
      ∧ (sendPiece i p s).reports = s.reports ∧ (sendPiece i p s).bridge = s.bridge
      ∧ (sendPiece i p s).pins = s.pins ∧ (sendPiece i p s).choices = s.choices
      ∧ (sendPiece i p s).pending = s.pending ∧ (sendPiece i p s).table.pool = s.table.pool := by
  unfold sendPiece
  dsimp only
  split <;> simp

end Sys2Proof.Machine
end

