-- ==== Sys2Proof/Laws/Closed.lean ====
section
/-! SUPPORT. What a step can do, said once: a property that every single act keeps is kept by every step. An invariant is
proved by giving its `Closed`, act by act, and citing `Closed.step`. -/

namespace Sys2Proof.Machine

/-- A configuration that CONFIGURE or a reset can set (R162). -/
def Params.law (p : Params) : Prop :=
  p.cycleLimit < 2 ^ 24 ∧ p.holdLimit < 2 ^ 24 ∧ 1 ≤ p.gapLimit ∧ p.gapLimit ≤ 15 ∧ 1 ≤ p.deadline ∧ p.deadline ≤ 15

/-- The cycle marks in SYNC are those at which the Ring Port numbers a cycle. -/
theorem markNumber_eq_some (s : State) (record : List Byte) (number : Half) :
    s.ring.markNumber (judgeCycle record) = some number ↔ s.marksSync record number := by
  unfold State.marksSync RingPort.markNumber
  cases s.ring.state <;> cases judgeCycle record <;> simp
  · constructor
    · rintro ⟨h, rfl⟩
      exact ⟨rfl, h⟩
    · rintro ⟨rfl, h⟩
      exact ⟨h, rfl⟩
  · exact fun _ => eq_comm

/-- At a cycle mark in SYNC the Ring Port takes the mark's number, and the blocks act at it with the Ring Port's own
reports. -/
theorem cycleMark_of_marksSync {s : State} {record : RawRecord} {number : Half} (h : s.marksSync record.bytes number) :
    ∃ (r : RingPort) (reports : List Report), r.state = .sync ∧ r.lastCycle = number
      ∧ cycleMark record s = markInSync (reports.map report) ((s.withRing r).withPrevIndex none) := by
  have up : s.ring.state ≠ .down := by rcases h with ⟨c, _, _, h | h⟩ | ⟨_, h, _⟩ <;> simp [h]
  rw [cycleMark, if_neg up]
  rcases h with ⟨c, hj, rfl, h⟩ | ⟨hj, hs, hb, rfl⟩
  · refine ⟨RingPort.syncAt { s.ring with lineOut := .record record } c,
      if s.ring.state = .sync ∧ c.number ≠ s.ring.lastCycle + 1 then [{ kind := .cycleSkip }] else [], rfl, rfl, ?_⟩
    unfold judgeMark
    rcases h with h | ⟨h, hn⟩
    · by_cases hn : c.number = s.ring.lastCycle + 1
      · simp only [hj, withPrevIndex_ring, withRing_ring, h, hn, if_true, ne_eq, not_true, and_false, if_false]; rfl
      · simp only [hj, withPrevIndex_ring, withRing_ring, h, hn, if_true, ne_eq, not_false_iff, and_true, if_false]; rfl
    · simp only [hj, withPrevIndex_ring, withRing_ring, h, hn, if_true, reduceCtorEq, false_and, if_false]; rfl
  · refine ⟨RingPort.blindMark { s.ring with lineOut := .record record }, [{ kind := .cycleRecordFault }], hs, rfl, ?_⟩
    unfold judgeMark
    simp only [hj, withPrevIndex_ring, withRing_ring, hs, hb]; rfl

/-- Every act of the block but the swap of the schedule banks, each with what is known where it is carried out, keeps `P`. -/
structure ClosedButSwap (P : State → Prop) : Prop where
  choices : ∀ s n, P s → P (s.withChoices n)
  pending : ∀ s q, P s → P (s.withPending q)
  pins : ∀ s x, P s → P (s.withPins x)
  report : ∀ s k, P s → P (report k s)
  counters : ∀ s f, P s → P (s.modCounters f)
  clearBank : ∀ s b, P s → P (clearBank b s)
  lineOut : ∀ s x, P s → P (s.withRing { s.ring with lineOut := x })
  noPrev : ∀ s, P s → P (s.withPrevIndex none)
  prev : ∀ s i, i.toNat < 240 → s.inSequence i = true → P s → P (s.withPrevIndex (some i))
  armedAt : ∀ s c, s.ring.state = .hunt ∨ s.ring.state = .armed → c.slotCount.toNat ≤ 240 → P s →
    P (s.withRing (s.ring.armedAt c))
  syncAt : ∀ s c, s.ring.state = .armed ∨ s.ring.state = .sync → c.slotCount.toNat ≤ 240 → P s →
    P (s.withRing (s.ring.syncAt c))
  blindMark : ∀ s, s.ring.state = .sync → P s → P (s.withRing s.ring.blindMark)
  toHunt : ∀ s, s.ring.state = .sync → P s → P (s.withRing s.ring.toHunt)
  toDown : ∀ s, s.ring.state ≠ .down → P s → P (s.withRing s.ring.toDown)
  restore : ∀ s, s.ring.state = .down → P s → P (s.withRing s.ring.restored)
  timebase : ∀ s, P s → P (s.withRing { s.ring with timebase := s.ring.timebase + 1, divider := 0 })
  divider : ∀ s, s.ring.divider + 1 < s.mgmt.params.prescaler.clocks → P s →
    P (s.withRing { s.ring with divider := s.ring.divider + 1 })
  setParams : ∀ s p, (s.mgmt.params.law → p.law) → P s → P (setParams p s)
  shadow : ∀ s first es, scheduleRange first es.length = true → (∀ e ∈ es, e.law) → P s →
    P (s.withSched (s.sched.load first es))
  commit : ∀ s c, P s → P (s.withSched { s.sched with commit := c })
  queueReply : ∀ s x, s.mgmt.queue.length < Config.mgmtReplies ∨ (s.mgmt.node = 0 ∧ s.mgmt.manager ≠ none) → P s →
    P (queueReply x s)
  dequeue : ∀ s x rest, s.mgmt.queue = x :: rest → P s → P (s.withMgmt { s.mgmt with queue := rest })
  dropReplies : ∀ s, P s → P (s.withMgmt { s.mgmt with queue := [] })
  assign : ∀ s n m, s.mgmt.node = 0 → isNode n = true → isNode m = true → P s →
    P (s.withMgmt { s.mgmt with node := n, manager := some m })
  renumber : ∀ s n, s.mgmt.node ≠ 0 → isNode n = true → P s → P (s.withMgmt { s.mgmt with node := n })
  start : ∀ s, P s → P (startBridge s)
  drain : ∀ s, P s → P (s.withBridge { s.bridge with state := .draining, flush := false })
  judgeDrain : ∀ s, P s → P (judgeDrain s)
  flushed : ∀ s b, P s → P (s.withBridge (s.bridge.flushed b))
  resetBegins : ∀ s x, P s → P (s.withBridge { s.bridge with softReset := some x })
  tearDown : ∀ s, s.ring.state = .down → (∀ i, s.executing = some i → (s.entry i).op = .read → (s.entry i).mark = .quiet) →
    P s → P (tearDownBlocks s)
  softReset : ∀ s, s.executing = none → P s → P (softResetValues s)
  pinReset : ∀ s, P s → P (pinReset s)
  grantHold : ∀ s, s.bus.engine = .idle → P s → P (grantHold s)
  endGrant : ∀ s, s.bus.engine = .yielded → (∀ i, s.executing = some i → (s.entry i).op.locked = false) → P s →
    P (endGrant s)
  endGrantDue : ∀ s i, s.bus.engine = .yielded → s.executing = some i → (s.entry i).op.locked = true → P s →
    P (startSeparated (Machine.endGrant s))
  holdFlag : ∀ s x, P s → P (s.withBus { s.bus with holdLong := x })
  handOver : ∀ s i rest, s.bus.engine = .idle → s.executing = none → s.table.requests = i :: rest →
    P s → P (startSeparated (handOver i s))
  startDue : ∀ s i, s.executing = some i → s.sequenceDue i = true → P s → P (startDueSequence s)
  separated : ∀ s, s.bus.engine = .idle → (∀ i, s.executing = some i → s.sequenceDue i = false) → P s →
    P (s.withBus { s.bus with separating := false })
  startCycle : ∀ s, s.bus.engine = .idle ∧ s.bus.separating = false ∨ s.bus.engine = .locked → P s → P (startCycle s)
  toIdle : ∀ s, s.bus.engine = .cycle → s.bus.current = none → P s → P (toIdle s)
  waitCount : ∀ s n, P s → P (s.withBus { s.bus with waitCount := n })
  takenBeat : ∀ s i b answer w data, s.executing = some i → s.bus.current = some b → s.bus.busy = true → P s →
    P (takenBeat i b answer w data s)
  holdOld : ∀ s i x, (s.entry i).state = .executing → s.bus.engine = .locked → P s → P (holdOld i x s)
  writePart : ∀ s i, s.bus.engine = .locked → P s → P (buildWritePart i s)
  endExecution : ∀ s i st, (s.entry i).state = .executing → st ≠ .sequence ∧ st ≠ .incomplete → P s →
    P (endExecution i st s)
  setMark : ∀ s i quiet, (s.entry i).state = .executing → (s.bus.engine = .yielded → (s.entry i).op.locked = false) →
    P s → P (setMark quiet i s)
  claimLent : ∀ s i quiet, (s.entry i).state = .executing → s.bus.engine = .yielded → (s.entry i).op.locked = true → P s →
    P (Machine.endExecution i .aborted (s.modEntry i (fun e => { e with mark := e.mark.claim quiet })))
  advanceCounts : ∀ s, P s → P (advanceCounts s)
  answerUnexecuted : ∀ s i st, (s.entry i).state = .assembling ∧ (st = .sequence ∨ st = .incomplete ∨ st = .aborted)
    ∨ (s.entry i).state = .queued ∧ st = .aborted → P s → P (answerUnexecuted i st s)
  dropEntry : ∀ s i, (s.entry i).state = .assembling ∨ (s.entry i).state = .queued → P s → P (dropEntry i s)
  freeReplying : ∀ s i, (s.entry i).state = .replying → P s → P (freeEntry i s)
  freeAllButExecuting : ∀ s, P s → P (freeAllButExecuting s)
  freeAllDescriptors : ∀ s, P s → P (freeAllDescriptors s)
  shortReply : ∀ s d rest r, s.freeDescriptors = d :: rest → P s → P (queueShortReply d r s)
  allocate : ∀ s i rest op g window capacity, s.entriesIn .free = i :: rest → firstChecks op g capacity s = .ok window →
    blocksNeeded op g.total.toNat ≤ s.freeBlocks.length → P s →
    P (allocate i op g window (s.freeBlocks.take (blocksNeeded op g.total.toNat)) s)
  append : ∀ s i op g capacity, (s.entry i).state = .assembling → inconsistent (s.entry i) op g capacity = false →
    g.offset.toNat ≤ (s.entry i).received → (s.entry i).received < g.offset.toNat + g.count.toNat → P s →
    P (appendSegment i g s)
  sendPiece : ∀ s i capacity, .entry i ∈ s.replyQueue → (s.entry i).canProgress capacity = true → P s →
    P (sendPiece i (s.pieceOf (s.entry i) capacity) s)
  freeDescriptor : ∀ s d r, .desc d ∈ s.replyQueue → s.descriptor d = some r → P s → P (freeDescriptor d s)
  loadWindow : ∀ s i record w, i ≤ 15 → (s.window i).inUse = 0 → Window.ofBytes record = some w → s.windowClash i w = false →
    P s → P (s.modWindow i (fun old => { w with inUse := old.inUse }))
  invalidate : ∀ s i, i ≤ 15 → (s.window i).inUse = 0 → P s → P (s.modWindow i (fun w => { w with valid := false }))

/-- Every act of the block keeps `P`. -/
structure Closed (P : State → Prop) : Prop extends ClosedButSwap P where
  swap : ∀ s, s.ring.state = .sync → P s → P (swapBanks s)

/-- A property that a handover and the start of a cycle each keep is kept by the two together. -/
theorem startSeparated_handOver_of {P : State → Prop} {s : State} {i : Nat} (he : s.bus.engine = .idle)
    (handOver : P (handOver i s))
    (startCycle : ∀ t, t.bus.engine = .idle ∧ t.bus.separating = false → P t → P (startCycle t)) :
    P (startSeparated (Machine.handOver i s)) := by
  rw [startSeparated_eq]
  split
  · exact handOver
  · rename_i hs
    exact startCycle _ ⟨by simpa using he, by simpa using hs⟩ handOver

/-- A property that the end of a separation and the start of a cycle each keep is kept by the start of a sequence that is
due. -/
theorem startDueSequence_of {P : State → Prop} {s : State} (he : s.bus.engine = .idle)
    (separated : P (s.withBus { s.bus with separating := false }))
    (startCycle : ∀ t, t.bus.engine = .idle ∧ t.bus.separating = false → P t → P (startCycle t)) :
    P (startDueSequence s) := startCycle _ ⟨he, rfl⟩ separated

/-- A property that the end of a grant and the start of a cycle each keep is kept by the two together. -/
theorem startSeparated_endGrant_of {P : State → Prop} {s : State} (endGrant : P (endGrant s))
    (startCycle : ∀ t, t.bus.engine = .idle ∧ t.bus.separating = false → P t → P (startCycle t)) :
    P (startSeparated (Machine.endGrant s)) := by
  rw [startSeparated_eq]
  split
  · exact endGrant
  · rename_i hs
    exact startCycle _ ⟨rfl, by simpa using hs⟩ endGrant

/-- A property that the start of a sequence that is due and the mark itself each keep is kept by a claim's mark. -/
theorem setMark_of {P : State → Prop} {s : State} {i : Nat} {quiet : Bool}
    (startDue : s.sequenceDue i = true → P (startDueSequence s))
    (claim : ∀ t, t.table = s.table → P t → P (t.modEntry i (fun e => { e with mark := e.mark.claim quiet })))
    (h : P s) : P (setMark quiet i s) := by
  unfold setMark
  split
  · rename_i hd
    exact claim _ (by simp) (startDue hd)
  · exact claim s rfl h

namespace ClosedButSwap

variable {P : State → Prop} (c : ClosedButSwap P)
include c

/-! ### The Bus Engine's decision, and what follows a freeing -/

theorem startsSeparated {s : State} (he : s.bus.engine = .idle) (h : P s) : P (startSeparated s) := by
  unfold startSeparated
  split
  · exact h
  · rename_i hs
    exact c.startCycle s (Or.inl ⟨he, by simpa using hs⟩) h

theorem arbitrates {s : State} (h : P s) : P (arbitrate s) := by
  unfold arbitrate
  split
  · exact h
  · rename_i he
    have he : s.bus.engine = .idle := by simpa using he
    split
    · exact c.grantHold s he h
    · split
      · exact c.startsSeparated he h
      · rename_i hx
        split
        · exact h
        · split
          · exact h
          · rename_i heq
            exact c.handOver s _ _ he (by simpa using hx) heq h

theorem separates {s : State} (h : P s) : P (separatingClock s) := by
  by_cases hd : ∃ i, s.executing = some i ∧ s.sequenceDue i = true
  · obtain ⟨i, hx, hd⟩ := hd
    rw [separatingClock_of_due hx hd]
    split
    · exact c.grantHold s ((sequenceDue_iff s i).1 hd).1 h
    · exact c.startDue s i hx hd h
  · unfold separatingClock
    split
    · rename_i he
      exact c.arbitrates (c.separated s he (fun i hx => by simpa using fun hi => hd ⟨i, hx, hi⟩) h)
    · exact h

theorem losesCycle {s : State} (hs : s.ring.state = .sync) (h : P s) : P (cycleLost s) :=
  c.report _ _ (c.toHunt s hs h)

theorem resetsIfDue {s : State} (h : P s) : P (softResetIfDue s) := by
  unfold softResetIfDue
  split
  · exact h
  · split
    · rename_i source tag _ hx
      unfold softResetEffect
      have h1 := c.report _ { kind := .softReset, node := some source, tag := some tag }
        (c.softReset s (by simpa using hx) h)
      dsimp only
      split
      · rename_i hl
        refine c.losesCycle ?_ h1
        revert hl
        unfold State.cycleLimitExpired
        split
        · intro _; assumption
        · simp
      · exact h1
    · exact h

theorem settles {s : State} (h : P s) : P (settle s) := c.arbitrates (c.resetsIfDue (c.judgeDrain s h))

/-! ### The timebase -/

theorem expires {s : State} (h : P s) : P (expireLimits s) := by
  unfold expireLimits
  have hc : s.cycleLimitExpired = true → s.ring.state = .sync := by
    unfold State.cycleLimitExpired
    split
    · intro _; assumption
    · simp
  have hh : ∀ t, P t → P (holdLong t) := fun t ht => c.report _ _ (c.holdFlag t true ht)
  cases h1 : s.cycleLimitExpired <;> cases h2 : s.holdLimitExceeded
  · exact h
  · exact hh s h
  · exact c.losesCycle (hc h1) h
  · rcases inSomeOrder_two cycleLost holdLong s with e | e <;>
      simp only [if_true, List.singleton_append, e]
    · exact hh _ (c.losesCycle (hc h1) (c.choices _ _ h))
    · exact c.losesCycle (by simpa [holdLong] using hc h1) (hh _ (c.choices _ _ h))

theorem ticks {s : State} (h : P s) : P (tick s) := by
  refine c.expires ?_
  unfold advanceTimebase countTick
  have h1 := c.timebase s h
  split
  · exact h1
  · exact c.counters _ _ h1
  · exact c.counters _ _ h1
  · exact c.counters _ _ h1

/-! ### The tributary bus -/

theorem nextLockedCycle {s : State} (h : P s) : P (lockedNextCycle s) := by
  unfold lockedNextCycle
  split
  · rename_i he
    exact c.startCycle _ (Or.inr he.1) h
  · exact h

theorem endsLockedPart {s : State} {i : Nat} (hi : (s.entry i).state = .executing) (he : s.bus.engine = .locked) (h : P s) :
    P (endLockedPart i s) := by
  unfold endLockedPart
  dsimp only
  split
  · exact c.settles (c.endExecution _ _ _ hi (by simp) h)
  · have h1 := c.holdOld s i (s.txBytes (s.entry i) (oldPlace 0) (s.entry i).total) hi he h
    have hi1 : ((Machine.holdOld i (s.txBytes (s.entry i) (oldPlace 0) (s.entry i).total) s).entry i).state = .executing := by
      rw [Machine.holdOld, entry_modEntry_self _ _ _ (by rw [hi]; simp)]
      exact hi
    split
    · exact c.settles (c.endExecution _ _ _ hi1 (by simp) h1)
    · exact c.writePart _ _ he h1

theorem endsCycle {s : State} {i : Nat} (hi : (s.entry i).state = .executing) (hc : s.bus.current = none) (h : P s) :
    P (endCycle i s) := by
  unfold endCycle
  split
  · rename_i he
    split
    · exact c.endsLockedPart hi he h
    · exact h
  · rename_i he
    split
    · exact c.settles (c.endExecution _ _ _ hi (by simp) h)
    · split
      · exact c.settles (c.endExecution _ _ _ hi (by simp) h)
      · exact c.settles (c.toIdle s he hc h)
  · exact h
  · exact h

theorem takes {s : State} {i : Nat} {b : Beat} (answer : Answer) (w : Width) (data : LaneData) (hx : s.executing = some i)
    (hb : s.bus.current = some b) (hbusy : s.bus.busy = true) (h : P s) : P (takeBeat i b answer w data s) := by
  unfold takeBeat
  have h1 := c.takenBeat s i b answer w data hx hb hbusy h
  dsimp only
  split
  · rename_i hn
    refine c.endsCycle ?_ (by simpa using hn) h1
    rw [takenBeat_state]
    exact executing_state hx
  · exact h1

theorem fails {s : State} {i : Nat} {b : Beat} (k : ReportKind) (st : Status) (hst : st ≠ .sequence ∧ st ≠ .incomplete)
    (hx : s.executing = some i) (h : P s) : P (failBeat k st i b s) :=
  c.settles (c.endExecution _ _ _ (by rw [report_entry]; exact executing_state hx) hst (c.report _ _ h))

theorem answers {s : State} {waits : Nat} {act : Nat → Beat → State → State}
    (hact : ∀ i b, s.executing = some i → s.bus.current = some b → s.bus.busy = true → P s → P (act i b s)) (h : P s) :
    P (answerBeat waits act s) := by
  unfold answerBeat
  split
  · split
    · split
      · exact c.fails _ _ (by simp) (by assumption) h
      · exact hact _ _ (by assumption) (by assumption) (by assumption) h
    · exact h
  · exact h

theorem holdRequested {s : State} (h : P s) : P (Machine.holdRequest s) := c.arbitrates (c.pins _ _ h)

theorem holdReleased {s : State} (h : P s) : P (Machine.holdRelease s) := by
  unfold Machine.holdRelease
  have h1 := c.pins s { s.pins with holdRequest := false } h
  have hh : (s.withPins { s.pins with holdRequest := false }).pins.holdRequest = false := rfl
  revert h1 hh
  generalize s.withPins { s.pins with holdRequest := false } = t
  intro h1 hh
  dsimp only
  split
  · rename_i he
    by_cases hd : ∃ i, t.executing = some i ∧ (t.entry i).op.locked = true
    · obtain ⟨i, hx, hl⟩ := hd
      rw [arbitrate_endGrant_of_executing hx hh]
      exact c.endGrantDue t i he hx hl h1
    · exact c.arbitrates (c.endGrant t he (fun i hx => by simpa using fun hl => hd ⟨i, hx, hl⟩) h1)
  all_goals exact h1

theorem clocksBus {s : State} (h : P s) : P (clockBus s) := by
  have hs : ∀ i b, s.executing = some i → P (sampleWait i b s) := by
    intro i b hx
    unfold sampleWait
    split
    · exact c.fails _ _ (by simp) hx h
    · exact c.waitCount _ _ h
  unfold clockBus
  split
  · exact hs _ _ (by assumption)
  · exact hs _ _ (by assumption)
  · exact c.nextLockedCycle h
  · exact c.separates h
  · exact h

theorem clocks {s : State} (h : P s) : P (clock s) := by
  unfold clock unlessPinReset
  split
  · exact h
  · refine c.clocksBus ?_
    unfold clockTimebase
    split
    · exact c.ticks h
    · rename_i hd
      exact c.divider s (by omega) h

/-! ### Cycle marks -/

omit c in
theorem foldKeeps {α : Type} {f : State → α → State} (hf : ∀ t a, P t → P (f t a)) : ∀ (l : List α) (s : State), P s →
    P (l.foldl f s)
  | [], _, h => h
  | a :: l, s, h => foldKeeps hf l (f s a) (hf s a h)

theorem gapsExpire {s : State} (h : P s) : P (expireGaps s) := by
  refine foldKeeps ?_ _ s h
  intro t i ht
  unfold endIncomplete
  split
  · rename_i hg
    have : (t.entry i).state = .assembling := by
      unfold State.gapReached at hg
      simp only [Bool.and_eq_true, decide_eq_true_eq] at hg
      exact hg.1
    exact c.report _ _ (c.answerUnexecuted _ _ _ (Or.inl ⟨this, by simp⟩) ht)
  · exact ht

theorem repliesExpire {s : State} (h : P s) : P (expireReplies s) := by
  refine foldKeeps ?_ _ s h
  intro t m ht
  unfold abandonExpired
  split
  · exact ht
  · split
    · rename_i hg
      unfold State.deadlineReached at hg
      simp only [Bool.and_eq_true, decide_eq_true_eq] at hg
      exact c.report _ _ (c.freeReplying _ _ hg.1 ht)
    · exact ht

end ClosedButSwap

namespace Closed

variable {P : State → Prop} (c : Closed P)
include c

theorem marks {s : State} (hs : s.ring.state = .sync) (rs : List Report) (h : P s) :
    P (markInSync (rs.map Machine.report) s) := by
  have hq : ∀ u, P u ∧ u.ring.state = .sync → P (swapBanks u) ∧ (swapBanks u).ring.state = .sync :=
    fun u hu => ⟨c.swap u hu.2 hu.1, hu.2⟩
  have h1 : P (swapInTime (countCycle (Machine.advanceCounts s)))
      ∧ (swapInTime (countCycle (Machine.advanceCounts s))).ring.state = .sync := by
    have h0 : P (countCycle (Machine.advanceCounts s)) := c.counters _ _ (c.advanceCounts _ h)
    unfold swapInTime
    split
    · exact hq _ ⟨h0, hs⟩
    · exact ⟨h0, hs⟩
  unfold markInSync
  dsimp only
  generalize swapInTime (countCycle (Machine.advanceCounts s)) = t at h1 ⊢
  refine c.settles (And.left (b := (inSomeOrder (markActs (rs.map Machine.report) t) t).ring.state = .sync) ?_)
  refine inSomeOrder_keeps (P := fun u => P u ∧ u.ring.state = .sync) _ _ (fun u n hu => ⟨c.choices _ _ hu.1, hu.2⟩) ?_ h1
  intro f hf u hu
  simp only [markActs, List.mem_append, List.mem_map, List.mem_ite_nil_right, List.mem_singleton] at hf
  rcases hf with ((⟨r, _, rfl⟩ | ⟨_, rfl⟩) | ⟨_, rfl⟩) | ⟨_, rfl⟩
  · exact ⟨c.report _ _ hu.1, by simpa using hu.2⟩
  · exact ⟨c.report _ _ (hq u hu).1, by simpa [swapLate] using (hq u hu).2⟩
  · exact ⟨c.gapsExpire hu.1, by rw [expireGaps_ring]; exact hu.2⟩
  · exact ⟨c.repliesExpire hu.1, by rw [expireReplies_ring]; exact hu.2⟩

theorem marked {s : State} (record : RawRecord) (h : P s) : P (cycleMark record s) := by
  unfold cycleMark
  split
  · exact h
  · have h1 := c.noPrev _ (c.lineOut s (.record record) h)
    revert h1
    generalize (s.withRing { s.ring with lineOut := .record record }).withPrevIndex none = t
    intro h1
    have hc : ∀ i, judgeCycle record.bytes = some i → i.slotCount.toNat ≤ 240 := by
      intro i hi
      unfold judgeCycle at hi
      split at hi
      · rename_i hr
        cases hi
        exact hr.2.2.2.2
      · simp at hi
    unfold judgeMark
    split
    · exact h1
    · exact h1
    · rename_i hr hi
      exact c.armedAt _ _ (Or.inl hr) (hc _ hi) h1
    · exact h1
    · rename_i hr hi
      split
      · exact c.marks rfl [] (c.syncAt _ _ (Or.inl hr) (hc _ hi) h1)
      · exact c.armedAt _ _ (Or.inr hr) (hc _ hi) h1
    · rename_i hr hi
      have h2 := c.syncAt _ _ (Or.inr hr) (hc _ hi) h1
      split
      · exact c.marks rfl [] h2
      · exact c.marks rfl [{ kind := .cycleSkip }] h2
    · rename_i hr hi
      split
      · exact c.report _ _ (c.toHunt _ hr h1)
      · exact c.marks (s := t.withRing t.ring.blindMark) hr [{ kind := .cycleRecordFault }] (c.blindMark _ hr h1)

end Closed

end Sys2Proof.Machine
end

