-- ==== Sys2Proof/Laws/ClosedStep.lean ====
section
/-! SUPPORT. What a property that every act keeps is kept by, continued: the arrival of a slot, Bridge Control, a command, a
step. -/

namespace Sys2Proof.Machine

/-- The frame of a queued reply. -/
@[simp] theorem queueReply_frame (x : MgmtReply) (s : State) :
    (queueReply x s).ring = s.ring ∧ (queueReply x s).prevIndex = s.prevIndex ∧ (queueReply x s).sched = s.sched
      ∧ (queueReply x s).descriptors = s.descriptors ∧ (queueReply x s).table = s.table
      ∧ (queueReply x s).windows = s.windows ∧ (queueReply x s).bus = s.bus ∧ (queueReply x s).replyQueue = s.replyQueue
      ∧ (queueReply x s).reports = s.reports ∧ (queueReply x s).bridge = s.bridge ∧ (queueReply x s).pins = s.pins
      ∧ (queueReply x s).choices = s.choices ∧ (queueReply x s).pending = s.pending
      ∧ (queueReply x s).mgmt.node = s.mgmt.node ∧ (queueReply x s).mgmt.manager = s.mgmt.manager
      ∧ (queueReply x s).mgmt.params = s.mgmt.params := by
  simp [queueReply]

/-- The entries that an address and its decoding can give. -/
theorem SchedEntry.law_ofBytes {b0 b1 : Byte} {e : SchedEntry} (h : SchedEntry.ofBytes b0 b1 = some e) : e.law := by
  unfold SchedEntry.ofBytes at h
  dsimp only at h
  split at h
  · cases h
  · rename_i hn
    cases h
    have h63 : ∀ x : Byte, (x &&& 0x3F).toNat < 64 := by
      intro x
      rw [BitVec.toNat_and]
      exact Nat.lt_of_le_of_lt Nat.and_le_right (by decide)
    constructor
    · intro c hc
      dsimp only at hc
      split at hc
      · cases hc
      · cases hc; exact h63 b1
    · intro n hn'
      dsimp only at hn'
      split at hn'
      · cases hn'
      · rename_i h0
        cases hn'
        rw [not_or] at hn
        have h1 : (b0 &&& 0x3F).toNat ≠ 0 := fun hz => h0 (BitVec.eq_of_toNat_eq hz)
        have h2 : (b0 &&& 0x3F).toNat ≠ 63 := fun hz => hn.1 (BitVec.eq_of_toNat_eq hz)
        have := h63 b0
        simp only [isNode, Bool.and_eq_true, decide_eq_true_eq]
        omega

theorem schedEntries_law : ∀ {n : Nat} {bytes : List Byte} {es : List SchedEntry}, schedEntries n bytes = some es →
    es.length = n ∧ ∀ e ∈ es, e.law
  | 0, _, _, h => by
    cases h
    simp
  | n + 1, bytes, es, h => by
    unfold schedEntries at h
    split at h
    · rename_i e es' he hes
      cases h
      have ih := schedEntries_law hes
      refine ⟨by simp [ih.1], ?_⟩
      intro x hx
      rcases List.mem_cons.1 hx with rfl | hx
      · exact SchedEntry.law_ofBytes he
      · exact ih.2 x hx
    · cases h

theorem tripleAt_lt (l : List Byte) (i : Nat) : tripleAt l i < 2 ^ 24 := by
  have h1 := (byteAt l i).isLt
  have h2 := (byteAt l (i + 1)).isLt
  have h3 := (byteAt l (i + 2)).isLt
  unfold tripleAt
  omega

theorem selected_law {mask : Byte} {bit old x : Nat} {b : Byte} (hold : 1 ≤ old ∧ old ≤ 15)
    (h : selected mask bit old (cycleCount b) = some x) : 1 ≤ x ∧ x ≤ 15 := by
  unfold selected cycleCount at h
  split at h
  · split at h
    · cases h; assumption
    · cases h
  · cases h; exact hold

/-- A configuration in range stays in range (R162). -/
theorem Params.configured_law {p q : Params} {mask : Byte} {args : List Byte} (h : p.configured mask args = some q)
    (hp : p.law) : q.law := by
  unfold Params.configured at h
  split at h
  · rename_i hg hd _ _
    cases h
    obtain ⟨h1, h2, h3, h4, h5, h6⟩ := hp
    have hg' := selected_law ⟨h3, h4⟩ hg
    have hd' := selected_law ⟨h5, h6⟩ hd
    refine ⟨?_, ?_, hg'.1, hg'.2, hd'.1, hd'.2⟩ <;> dsimp only <;> split
    · exact tripleAt_lt _ _
    · exact h1
    · exact tripleAt_lt _ _
    · exact h2
  · cases h

/-- A claim's mark on the EXECUTING entry (R81). -/
theorem setMark_entry_self {s : State} {i : Nat} (quiet : Bool) (hi : (s.entry i).state = .executing) :
    (setMark quiet i s).entry i = { s.entry i with mark := (s.entry i).mark.claim quiet } := by
  have h : (setMark quiet i s).entry i = (s.modEntry i (fun e => { e with mark := e.mark.claim quiet })).entry i := by
    unfold State.entry
    rw [(setMark_frame quiet i s).2.2.2.2.1]
  rw [h, entry_modEntry_self _ _ _ (by rw [hi]; simp)]

/-- A claim while the bus is lent starts nothing (R124). -/
theorem setMark_not_busy (quiet : Bool) (i : Nat) {s : State} (he : s.bus.engine = .yielded) :
    (setMark quiet i s).bus.busy = false := by
  simp [setMark_of_not_due quiet (sequenceDue_of_yielded he i), Bus.busy, State.modEntry, he]

/-- A claim's mark changes no entry's state. -/
theorem setMark_executing (quiet : Bool) (i : Nat) (s : State) : (setMark quiet i s).executing = s.executing := by
  have h : (setMark quiet i s).executing = (s.modEntry i (fun e => { e with mark := e.mark.claim quiet })).executing := by
    unfold State.executing State.entriesIn
    rw [(setMark_frame quiet i s).2.2.2.2.1]
  rw [h, executing_modEntry s i (fun e => { e with mark := e.mark.claim quiet }) (fun _ => rfl)]

/-- A teardown of the blocks changes nothing about which entry is EXECUTING (R87). -/
theorem executing_of_tearDownBlocks (s : State) : (tearDownBlocks s).executing = s.executing := by
  have h : (tearDownBlocks s).entriesIn .executing = s.entriesIn .executing := by
    unfold State.entriesIn indexesOf
    have hl : (tearDownBlocks s).table.entries
        = s.table.entries.map (fun e => if e.state = .executing then e else Entry.initial) := rfl
    rw [hl, List.length_map]
    refine List.filter_congr fun j _ => ?_
    rw [List.getElem?_map]
    cases s.table.entries[j]? with
    | none => rfl
    | some e => by_cases he : e.state = .executing <;> simp [he, Entry.initial]
  rw [State.executing, h, State.executing]

/-- A teardown of the blocks does not touch the Bus Engine (R129). -/
theorem tearDownBlocks_bus (s : State) : (tearDownBlocks s).bus = s.bus := by simp [tearDownBlocks, freeAllButExecuting]

/-- A map that agrees before and after another map of one element is not changed by that. -/
theorem map_modify_of {α β : Type} (p : α → β) (f : α → α) (l : List α) (i : Nat) (h : ∀ a, l[i]? = some a → p (f a) = p a) :
    (l.modify i f).map p = l.map p := by
  refine List.ext_getElem? fun j => ?_
  rw [List.getElem?_map, List.getElem?_map, List.getElem?_modify]
  by_cases hj : i = j
  · subst hj
    cases hl : l[i]? with
    | none => simp
    | some a => simp [h a hl]
  · simp [hj]

/-- A mark on an EXECUTING entry and the teardown of the others come to the same in either order. -/
theorem tearDownBlocks_modEntry {s : State} {i : Nat} (f : Entry → Entry) (hi : (s.entry i).state = .executing)
    (hf : ∀ e, (f e).state = e.state ∧ (f e).window = e.window) :
    tearDownBlocks (s.modEntry i f) = (tearDownBlocks s).modEntry i f := by
  have hx : (s.modEntry i f).isExecuting = s.isExecuting := funext fun j => by
    simp [State.isExecuting, entry_modEntry_field Entry.state s i j f (fun e => (hf e).1)]
  have hw : (s.modEntry i f).waitingIn = s.waitingIn := funext fun w => by
    simp only [State.waitingIn, ← List.countP_eq_length_filter]
    show List.countP _ (s.table.entries.modify i f) = _
    have := congrArg (List.countP id) (map_modify_of
      (fun e => (decide (e.state = .assembling) || decide (e.state = .queued)) && decide (e.window = w)) f s.table.entries i
      (fun a _ => by simp only [hf]))
    rwa [List.countP_map, List.countP_map] at this
  have he : (s.table.entries.modify i f).map (fun e => if e.state = .executing then e else Entry.initial)
      = (s.table.entries.map (fun e => if e.state = .executing then e else Entry.initial)).modify i f := by
    have ha : ∀ a, s.table.entries[i]? = some a → a.state = .executing := fun a ha => by
      simpa [State.entry, List.getD_eq_getElem?_getD, ha] using hi
    refine List.ext_getElem? fun j => ?_
    rw [List.getElem?_map, List.getElem?_modify, List.getElem?_modify, List.getElem?_map]
    by_cases hj : i = j
    · subst hj
      cases hl : s.table.entries[i]? with
      | none => simp
      | some a => simp [hf, ha a hl]
    · simp [hj]
  unfold tearDownBlocks freeAllButExecuting
  rw [hx, hw]
  simp only [State.modEntry, withTable_table, he]
  rfl

namespace ClosedButSwap

variable {P : State → Prop} (c : ClosedButSwap P)
include c

/-! ### Claims -/

/-- A claim that finds no cycle and no sequence in progress or due: the execution ends. -/
theorem claimEnds {s : State} {i : Nat} (quiet : Bool) (hi : (s.entry i).state = .executing) (h : P s) :
    P (Machine.endExecution i .aborted (Machine.setMark quiet i s)) := by
  by_cases hl : s.bus.engine = .yielded ∧ (s.entry i).op.locked = true
  · rw [setMark_of_not_due quiet (sequenceDue_of_yielded hl.1 i)]
    exact c.claimLent s i quiet hi hl.1 hl.2 h
  · refine c.endExecution _ _ _ ?_ (by simp) (c.setMark s i quiet hi (fun hy => by simpa using fun h => hl ⟨hy, h⟩) h)
    rw [setMark_entry_self quiet hi]
    exact hi

/-- The same together with a report of another block at that moment, in either order (log 4). -/
theorem claimEndsAmong {s : State} {i : Nat} {f : State → State} (quiet : Bool) (hi : (s.entry i).state = .executing)
    (keeps : ∀ t, P t → P (f t)) (entry : ∀ t, (f t).entry i = t.entry i) (bus : ∀ t, (f t).bus = t.bus)
    (mod : ∀ t g, f (t.modEntry i g) = (f t).modEntry i g) (h : P s) :
    P (inSomeOrder [f, Machine.endExecution i .aborted] (Machine.setMark quiet i s)) := by
  by_cases hl : s.bus.engine = .yielded ∧ (s.entry i).op.locked = true
  · rw [setMark_of_not_due quiet (sequenceDue_of_yielded hl.1 i)]
    generalize hm : (fun e : Entry => { e with mark := e.mark.claim quiet }) = m
    have lent : ∀ n, P (Machine.endExecution i .aborted ((s.withChoices n).modEntry i m)) := fun n =>
      hm ▸ c.claimLent (s.withChoices n) i quiet hi hl.1 hl.2 (c.choices s n h)
    have hc : ∀ n, (s.modEntry i m).withChoices n = (s.withChoices n).modEntry i m := fun _ => rfl
    rcases inSomeOrder_two f (Machine.endExecution i .aborted) (s.modEntry i m) with e | e <;> rw [e, hc]
    · rw [mod, ← hm]
      refine c.claimLent _ i quiet ?_ ?_ ?_ (keeps _ (c.choices s _ h))
      · rw [entry]; exact hi
      · rw [bus]; exact hl.1
      · rw [entry]; exact hl.2
    · exact keeps _ (lent _)
  · have h1 := c.setMark s i quiet hi (fun hy => by simpa using fun h => hl ⟨hy, h⟩) h
    have hi1 : ((Machine.setMark quiet i s).entry i).state = .executing := by
      rw [setMark_entry_self quiet hi]
      exact hi
    generalize Machine.setMark quiet i s = t at h1 hi1
    rcases inSomeOrder_two f (Machine.endExecution i .aborted) t with e | e <;> rw [e]
    · exact c.endExecution _ _ _ (by rw [entry]; exact hi1) (by simp) (keeps _ (c.choices _ _ h1))
    · exact keeps _ (c.endExecution _ _ _ hi1 (by simp) (c.choices _ _ h1))

theorem claims {s : State} {i : Nat} (quiet : Bool) (hi : (s.entry i).state = .executing) (h : P s) :
    P (claimExecuting quiet i s) := by
  unfold claimExecuting
  dsimp only
  split
  · rename_i hb
    exact c.setMark s i quiet hi (fun hy => absurd hb (by simp [setMark_not_busy quiet i hy])) h
  · exact c.claimEnds quiet hi h

theorem claimsQuiet {s : State} (h : P s) : P (claimQuiet s) := by
  unfold claimQuiet
  split
  · exact h
  · exact c.claims true (executing_state (by assumption)) h

theorem aborts {s : State} (quiet : Bool) (i : Nat) (h : P s) : P (abortEntry quiet s i) := by
  unfold abortEntry
  split
  · exact h
  · rename_i he
    split
    · exact c.dropEntry _ _ (Or.inl he) h
    · exact c.answerUnexecuted _ _ _ (Or.inl ⟨he, by simp⟩) h
  · rename_i he
    split
    · exact c.dropEntry _ _ (Or.inr he) h
    · exact c.answerUnexecuted _ _ _ (Or.inr ⟨he, rfl⟩) h
  · exact c.claims quiet (by assumption) h
  · exact c.freeReplying _ _ (by assumption) h

theorem abortsAll {s : State} (quiet : Bool) (is : List Nat) (h : P s) : P (abortEntries quiet is s) :=
  foldKeeps (fun _ i ht => c.aborts quiet i ht) is s h

/-! ### Management -/

/-- What is known when a verdict's act is carried out: only a reply has been queued since it was judged. -/
def ReplyAfter (s t : State) : Prop :=
  t.mgmt.node = s.mgmt.node ∧ t.mgmt.params = s.mgmt.params ∧ t.windows = s.windows

omit c in
theorem judged_id {s : State} {v : Verdict} (h : v.act = id) : ∀ t, ReplyAfter s t → P t → P (v.act t) := by
  intro t _ ht
  rw [h]
  exact ht

theorem configures {s : State} {p : Params} (hp : s.mgmt.params.law → p.law) (h : P s) : P (configure p s) := by
  unfold configure
  split
  · exact h
  · exact c.expires (c.setParams s p hp h)

/-- An ASSIGN. -/
theorem assignsAsked (index : Byte) (r : MgmtRecord) (s : State) : ∀ t, ReplyAfter s t → P t → P ((judgeAssign index r s).act t) := by
  intro t hr ht
  unfold judgeAssign
  dsimp only
  split
  · exact ht
  · rename_i hn
    simp only [not_or, Bool.not_eq_false] at hn
    split
    · rename_i h0
      split
      · rename_i hs
        exact c.assign t _ _ (by rw [hr.1]; exact h0) hn.2.2 hs ht
      · exact ht
    · rename_i h0
      split
      · exact c.report _ _ ht
      · split
        · exact ht
        · split
          · exact c.renumber t _ (by rw [hr.1]; exact h0) hn.2.2 ht
          · exact ht

/-- A CONFIGURE. -/
theorem configuresAsked (r : MgmtRecord) (s : State) : ∀ t, ReplyAfter s t → P t → P ((judgeConfigure r s).act t) := by
  intro t hr ht
  unfold judgeConfigure
  dsimp only
  split
  · exact ht
  · split
    · exact ht
    · split
      · exact ht
      · rename_i p hp
        refine c.configures (fun hl => Params.configured_law hp ?_) ht
        rw [← hr.2.1]
        exact hl

/-- A SCHED-LOAD. -/
theorem loadsSchedule (r : MgmtRecord) (s : State) : ∀ t, ReplyAfter s t → P t → P ((judgeSchedLoad r s).act t) := by
  intro t _ ht
  unfold judgeSchedLoad
  dsimp only
  split
  · exact ht
  · split
    · exact ht
    · rename_i hb
      split
      · exact ht
      · rename_i es hes
        have hl := schedEntries_law hes
        refine c.shadow t _ es ?_ hl.2 ht
        rw [hl.1]
        simp only [Bool.or_eq_true, Bool.not_eq_true', not_or, Bool.not_eq_false] at hb
        exact hb.1

/-- A WINDOW-LOAD. -/
theorem loadsWindow (r : MgmtRecord) (s : State) : ∀ t, ReplyAfter s t → P t → P ((judgeWindowLoad r s).act t) := by
  intro t hr ht
  unfold judgeWindowLoad
  dsimp only
  split
  · exact ht
  · rename_i hi
    have hi15 : (byteAt r.args 0).toNat ≤ 15 := by omega
    split
    · exact ht
    · rename_i hu
      have hw : ∀ i, t.window i = s.window i := fun i => by simp [State.window, hr.2.2]
      have hu' : (t.window (byteAt r.args 0).toNat).inUse = 0 := by rw [hw]; omega
      split
      · exact c.invalidate _ _ hi15 hu' ht
      · split
        · exact ht
        · rename_i w hrec
          split
          · exact ht
          · rename_i hcl
            refine c.loadWindow t _ _ w hi15 hu' hrec ?_ ht
            rw [Bool.not_eq_true] at hcl
            rw [← hcl]
            simp [State.windowClash, hw, hr.2.2]

theorem flushesBridge {s : State} (h : P s) : P (flushBridge s) := by
  have h1 := c.claimsQuiet (c.freeAllDescriptors _ (c.freeAllButExecuting _ h))
  unfold flushBridge
  exact c.settles (c.flushed _ _ h1)

theorem stopsBridge {s : State} (h : P s) : P (stopBridge s) := by
  unfold stopBridge
  refine c.judgeDrain _ ?_
  split
  · exact c.drain _ h
  · exact h

/-- A STOP. -/
theorem stopsAsked (r : MgmtRecord) (s : State) : ∀ t, ReplyAfter s t → P t → P ((judgeStop r s).act t) := by
  intro t _ ht
  unfold judgeStop
  dsimp only
  split
  · exact ht
  · split
    · exact ht
    · dsimp only
      split
      · exact c.flushesBridge ht
      · exact c.stopsBridge ht

/-- An ABORT. -/
theorem abortsAsked (r : MgmtRecord) (s : State) : ∀ t, ReplyAfter s t → P t → P ((judgeAbort r s).act t) := by
  intro t _ ht
  unfold judgeAbort
  dsimp only
  split
  · exact ht
  · exact c.settles (c.abortsAll _ _ ht)

theorem operates (op : MgmtOp) (index : Byte) (capacity : Nat) (r : MgmtRecord) (s : State) :
    ∀ t, ReplyAfter s t → P t → P ((judgeOperation op index capacity r s).act t) := by
  intro t hr ht
  have hread : ∀ cap a b d, (readVerdict cap a b d).act t = t := by
    intro cap a b d
    unfold readVerdict
    split <;> rfl
  unfold judgeOperation
  split
  · unfold judgeIdentify
    dsimp only
    split
    · exact ht
    · rw [hread]; exact ht
  · exact c.assignsAsked index r s t hr ht
  · exact c.configuresAsked r s t hr ht
  · exact c.loadsSchedule r s t hr ht
  · unfold judgeSchedRead
    dsimp only
    split
    · exact ht
    · split
      · rw [hread]; exact ht
      · exact ht
  · unfold judgeSchedCommit
    split
    · exact ht
    · exact c.commit _ _ ht
  · unfold judgeSchedCancel
    split
    · exact c.commit _ _ ht
    · exact ht
  · exact c.loadsWindow r s t hr ht
  · unfold judgeWindowRead
    dsimp only
    split
    · exact ht
    · rw [hread]; exact ht
  · unfold judgeStart
    split
    · exact ht
    · exact c.start _ ht
  · exact c.stopsAsked r s t hr ht
  · exact c.abortsAsked r s t hr ht
  · rw [hread]; exact ht
  · unfold judgeReportRead
    split
    · exact ht
    · rw [hread]; exact ht
  · unfold judgeReportClear
    split
    · exact ht
    · exact c.clearBank _ _ ht
  · exact ht

theorem requests {reach : Reach} (op : MgmtOp) (index : Byte) (capacity : Nat) (r : MgmtRecord) (s : State) :
    ∀ t, ReplyAfter s t → P t → P ((judgeRequest reach op index capacity r s).act t) := by
  intro t hr ht
  unfold judgeRequest
  split
  · exact ht
  · split
    · exact c.operates op index capacity r s t hr ht
    · split
      · exact ht
      · split
        · exact c.report _ _ ht
        · exact c.operates op index capacity r s t hr ht

/-- A request that has room is executed or answered. `room` says that the queue is not full unless the request is a RESET
that passes, or the state breaks the law that an unassigned node has no manager. -/
theorem executes {s : State} {reach : Reach} (op : MgmtOp) (index : Byte) (capacity : Nat) (r : MgmtRecord)
    (room : s.mgmt.queue.length < Config.mgmtReplies ∨ (s.mgmt.node = 0 ∧ s.mgmt.manager ≠ none)
      ∨ (op = .reset ∧ s.resetPasses reach r = true)) (h : P s) :
    P (executeRequest reach op index capacity r s) := by
  unfold executeRequest
  split
  · exact c.settles (c.claimsQuiet (c.resetBegins s _ h))
  · rename_i hn
    have hq : s.mgmt.queue.length < Config.mgmtReplies ∨ (s.mgmt.node = 0 ∧ s.mgmt.manager ≠ none) := by tauto
    exact c.requests _ _ _ _ _ _ ⟨by simp, by simp, by simp⟩ (c.queueReply _ _ hq h)

theorem records {s : State} (index : Byte) (capacity : Nat) (im : Image) (h : P s) : P (judgeRecord index capacity im s).1 := by
  unfold judgeRecord
  dsimp only
  split
  · exact c.report _ _ h
  · split
    · exact h
    · rename_i reach _
      unfold judgeReached
      split
      · exact h
      · split
        · exact c.report _ _ h
        · rename_i op _
          split
          · exact c.report _ _ h
          · split
            · exact h
            · rename_i hroom
              refine c.executes _ _ _ _ ?_ h
              unfold State.refusesRequest at hroom
              simp only [Bool.or_eq_true, Bool.and_eq_true, decide_eq_true_eq, Bool.not_eq_true', not_or, not_and,
                Bool.not_eq_false] at hroom
              by_cases hq : s.mgmt.queue.length < Config.mgmtReplies
              · exact Or.inl hq
              · have hx := hroom.1 (by omega)
                have hman : s.mgmt.manager ≠ none := by
                  have := hx.2
                  simp only [State.fromManager, decide_eq_true_eq] at this
                  rw [this]
                  simp
                by_cases h0 : s.mgmt.node = 0
                · exact Or.inr (Or.inl ⟨h0, hman⟩)
                · exact Or.inr (Or.inr ⟨hx.1.1, by simpa [State.resetPasses, hx.1.2, hx.2] using h0⟩)

theorem managed {s : State} (length : Nat) (index : Byte) (capacity : Nat) (im : Image) (h : P s) :
    P (managementSlot length index capacity im s).1 := by
  unfold managementSlot
  split
  · exact c.records _ _ _ h
  · unfold giveRecord
    split
    · exact h
    · rename_i hq
      split
      · exact c.dequeue _ _ _ hq h
      · exact h
  · exact h
  · exact h

/-! ### Intake -/

theorem rejects {s : State} (index : Byte) (g : Segment) (st : Status) (h : P s) : P (reject index g st s).1 := by
  unfold reject
  split
  · exact c.report _ _ h
  · rename_i hd
    have h1 : P (countTaken _) := c.counters _ _ (c.shortReply s _ _ (g.shortReply st) hd h)
    dsimp only
    split
    · exact c.report _ _ h1
    · exact h1

theorem decides {s : State} (i : Nat) (h : P s) : P (decideIfQueued i s) := by
  unfold decideIfQueued
  split
  · exact c.arbitrates h
  · exact h

theorem takesFirst {s : State} (op : ReqOp) (index : Byte) (capacity : Nat) (g : Segment) (h : P s) :
    P (intakeFirst op index capacity g s).1 := by
  unfold intakeFirst
  split
  · exact c.rejects _ _ _ h
  · rename_i window hw
    dsimp only
    split
    · exact c.report _ _ h
    · rename_i hf
      split
      · exact c.report _ _ h
      · exact c.decides _ (c.allocate s _ _ op g window capacity hf hw (by omega) h)

theorem judgesLater {s : State} {i : Nat} (op : ReqOp) (index : Byte) (capacity : Nat) (g : Segment)
    (hi : (s.entry i).state = .assembling) (h : P s) : P (judgeLater i op index capacity g s) := by
  unfold judgeLater
  have he : P (endSequence i index g s) := c.report _ _ (c.answerUnexecuted s i _ (Or.inl ⟨hi, by simp⟩) h)
  dsimp only
  split
  · exact he
  · rename_i hc
    split
    · exact h
    · split
      · exact c.decides _ (c.append s i op g capacity hi (by simpa using hc) (by assumption) (by omega) h)
      · exact he

omit c in
theorem assembling_state {s : State} {source tag : Byte} {i : Nat} (h : s.assembling source tag = some i) :
    (s.entry i).state = .assembling := by
  have hm := List.mem_of_head? h
  rw [mem_indexesOf] at hm
  obtain ⟨a, ha, hp⟩ := hm
  simp only [Bool.and_eq_true, decide_eq_true_eq] at hp
  simpa [State.entry, List.getD_eq_getElem?_getD, ha] using hp.1

theorem intakes {s : State} (filter : Option Byte) (a : Arrival) (im : Image) (h : P s) :
    P (intakeStep filter a im s).1 := by
  unfold intakeStep
  split
  · dsimp only
    unfold intakeSegment
    split
    · exact h
    · split
      · exact h
      · split
        · exact c.report _ _ h
        · split
          · exact c.takesFirst _ _ _ _ h
          · unfold intakeLater
            split
            · exact c.rejects _ _ _ h
            · rename_i i hi
              exact c.judgesLater (s := countTaken s) _ _ _ _ (assembling_state hi) (c.counters _ _ h)
  · exact h

/-! ### Replies -/

theorem strips {s : State} (index : Byte) (im : Image) (h : P s) : P (stripStep index im s).1 := by
  unfold stripStep
  split
  · dsimp only
    unfold actOnReturn
    generalize Segment.ofBytes im.payload = g
    split
    · exact c.report _ _ h
    · rename_i i _
      split
      · rename_i hi
        dsimp only
        split
        · rename_i hb
          exact c.report _ _ (c.setMark s i true hi (fun hy => absurd hb (by simp [setMark_not_busy true i hy])) h)
        · exact c.settles (c.claimEndsAmong true hi (fun _ ht => c.report _ _ ht) (fun t => report_entry _ t i)
            (fun t => by simp [reportUndelivered]) (fun t m => report_modEntry _ t i m) h)
      · exact c.judgeDrain _ (c.report _ _ (c.freeReplying _ _ (by assumption) h))
      all_goals exact c.report _ _ h
  · exact h

theorem fills {s : State} (length capacity : Nat) (im : Image) (h : P s) : P (fillStep length capacity im s).1 := by
  unfold fillStep
  split
  · split
    · exact h
    · rename_i m hm
      have hmem := List.mem_of_find?_eq_some hm
      have hp := List.find?_some hm
      unfold giveMember
      split
      · split
        · exact h
        · rename_i d r hd
          exact c.judgeDrain _ (c.counters _ _ (c.freeDescriptor s _ r hmem hd h))
      · dsimp only
        unfold giveEntry
        have h1 := c.counters _ (fun c => { c with segmentsGiven := c.segmentsGiven + 1 })
          (c.sendPiece s _ capacity hmem hp h)
        split
        · exact c.judgeDrain _ h1
        · exact h1
  · exact h

/-! ### The arrival of a slot -/

theorem acts {s : State} (action : Action) (filter : Option Byte) (a : Arrival) (h : P s) :
    P (applyAction action filter a s).1 := by
  unfold applyAction
  split
  · exact h
  · exact c.intakes _ _ _ h
  · exact c.fills _ _ _ (c.strips _ _ h)
  · exact c.fills _ _ _ (c.intakes _ _ _ (c.strips _ _ h))

theorem presents {s : State} (a : Arrival) (ha : a.headerGood = true → a.index.toNat < 240) (h : P s) :
    P (presentSlot a s).1 := by
  unfold presentSlot
  split
  · exact c.report _ _ h
  · rename_i hg
    split
    · exact c.report _ _ h
    · rename_i hs
      have h1 := c.prev s a.index (ha (by simpa using hg)) (by simpa using hs) h
      revert h1
      generalize s.withPrevIndex (some a.index) = t
      intro h1
      unfold inSequenceSlot
      split
      · dsimp only
        split
        · exact c.managed _ _ _ _ h1
        · unfold scheduledSlot
          dsimp only
          split
          · exact c.acts _ _ _ h1
          · exact c.report _ _ h1
      · exact c.report _ _ h1

/-- A slot whose good header says that its index is in range (R3). -/
theorem arrives {s : State} (a : Arrival) (ha : a.headerGood = true → a.index.toNat < 240) (h : P s) :
    P (slotArrival a s) := by
  unfold slotArrival
  split
  · exact h
  · split
    · exact c.lineOut _ _ (c.presents a ha h)
    · exact c.lineOut _ _ h

/-! ### Bridge Control -/

theorem tearsDown {s : State} (hs : s.ring.state = .down) (h : P s) : P (Machine.tearDown s) := by
  have hl : ∀ t, P t → P (reportLineLoss t) := fun t ht => c.report _ _ (c.dropReplies _ ht)
  unfold Machine.tearDown
  refine c.settles ?_
  cases hx : s.executing with
  | none =>
    have hq : Machine.markQuiet s = s := by simp [Machine.markQuiet, hx]
    have hn : (tearDownBlocks s).executing = none := by rw [executing_of_tearDownBlocks, hx]
    simp only [hq, hn]
    exact hl _ (c.tearDown s hs (by rw [hx]; simp) h)
  | some i =>
    have hi := executing_state hx
    have hq : Machine.markQuiet s = Machine.setMark true i s := by simp [Machine.markQuiet, hx]
    have hxi : (tearDownBlocks (Machine.setMark true i s)).executing = some i := by
      rw [executing_of_tearDownBlocks, setMark_executing, hx]
    simp only [hq, hxi]
    have hti : ((tearDownBlocks s).entry i).state = .executing :=
      executing_state (by rw [executing_of_tearDownBlocks, hx])
    by_cases hy : s.bus.engine = .yielded ∧ (s.entry i).op.locked = true
    · have hty : (tearDownBlocks s).bus.engine = .yielded := by rw [tearDownBlocks_bus]; exact hy.1
      have hm : tearDownBlocks (Machine.setMark true i s) = Machine.setMark true i (tearDownBlocks s) := by
        rw [setMark_of_not_due true (sequenceDue_of_yielded hy.1 i),
          setMark_of_not_due true (sequenceDue_of_yielded hty i)]
        exact tearDownBlocks_modEntry _ hi (fun _ => ⟨rfl, rfl⟩)
      have h1 : P (tearDownBlocks s) := c.tearDown s hs (fun j hj ho => by
        rw [hx] at hj
        cases hj
        simp [ho, ReqOp.locked] at hy) h
      have hb : (Machine.setMark true i (tearDownBlocks s)).bus.busy = false := setMark_not_busy true i hty
      rw [hm]
      simp only [hb, Bool.false_eq_true, if_false]
      exact c.claimEndsAmong true hti hl (fun t => by rw [reportLineLoss, report_entry]; rfl)
        (fun t => by simp [reportLineLoss]) (fun t m => report_modEntry _ (t.withMgmt { t.mgmt with queue := [] }) i m) h1
    · have h0 := c.setMark s i true hi (fun he => by simpa using fun h => hy ⟨he, h⟩) h
      have h1 := c.tearDown _ (by simpa using hs) (fun j hj _ => by
        rw [setMark_executing, hx] at hj
        cases hj
        rw [setMark_entry_self true hi]
        rfl) h0
      have hi1 := executing_state hxi
      generalize tearDownBlocks (Machine.setMark true i s) = t at h1 hi1
      split
      · exact hl t h1
      · rcases inSomeOrder_two reportLineLoss (Machine.endExecution i .aborted) t with e | e <;> rw [e]
        · refine c.endExecution _ _ _ ?_ (by simp) (hl _ (c.choices _ _ h1))
          rw [reportLineLoss, report_entry]
          exact hi1
        · exact hl _ (c.endExecution _ _ _ hi1 (by simp) (c.choices _ _ h1))

theorem losesLine {s : State} (h : P s) : P (Machine.lineLoss s) := by
  unfold Machine.lineLoss
  split
  · exact h
  · rename_i hd
    exact c.tearsDown rfl (c.toDown s hd h)

theorem restoresLine {s : State} (h : P s) : P (Machine.lineRestore s) := by
  unfold Machine.lineRestore
  split
  · rename_i hd
    exact c.restore s hd h
  · exact h

/-! ### Commands and steps -/

omit c in
/-- A command whose effect is `f` unless the reset pin is asserted. -/
theorem guarded {f : State → State} (hf : ∀ t, P t → P (f t)) {s : State} (h : P s) : P (unlessPinReset f s) := by
  unfold unlessPinReset
  split
  · exact h
  · exact hf s h

omit c in
theorem arrivalOf_range (index channel size : Byte) (kind : MarkKind) (payload : List Byte) :
    (arrivalOf index channel size kind payload).headerGood = true → index.toNat < 240 := by
  simp only [arrivalOf, headerInRange, Bool.and_eq_true, decide_eq_true_eq]
  exact fun h => h.1.1

omit c in
theorem judgeSlot_range (raw : RawSlot) : (judgeSlot raw).headerGood = true → (judgeSlot raw).index.toNat < 240 := by
  simp only [judgeSlot, headerInRange, Bool.and_eq_true, decide_eq_true_eq]
  exact fun h => h.1.1.2.1.1

/-- What every act but the swap keeps, every command keeps that is no arrival of a cycle mark. -/
theorem execs {s : State} (i : Instr) (hm : i.isMark = false) (h : P s) : ∃ t, exec i s = .next t ∧ P t := by
  have ha : ∀ a : Arrival, (a.headerGood = true → a.index.toNat < 240) → ∃ t, arrive a s = .next t ∧ P t :=
    fun a hr => ⟨_, rfl, guarded (fun _ ht => c.arrives a hr ht) h⟩
  have hr : ∀ (m : MgmtSlot) (op : MgmtOp), ∃ t, arrive (m.arrival op) s = .next t ∧ P t :=
    fun m op => ha _ (arrivalOf_range _ _ _ _ _)
  have hg : ∀ (g : SegSlot) (op : ReqOp) (offset : Half), ∃ t, arrive (g.arrival op offset) s = .next t ∧ P t :=
    fun g op offset => ha _ (arrivalOf_range _ _ _ _ _)
  cases i with
  | lineLoss => exact ⟨_, rfl, guarded (fun _ ht => c.losesLine ht) h⟩
  | lineRestore => exact ⟨_, rfl, guarded (fun _ ht => c.restoresLine ht) h⟩
  | cycleMark record => exact absurd hm (by simp [Instr.isMark])
  | cycleLost =>
    refine ⟨_, rfl, guarded (fun t ht => ?_) h⟩
    split
    · rename_i hl
      refine c.losesCycle ?_ ht
      revert hl
      unfold State.cycleLimitExpired
      split
      · intro _; assumption
      · simp
    · exact ht
  | timebaseTick => exact ⟨_, rfl, guarded (fun _ ht => c.ticks ht) h⟩
  | scheduleSwap => exact absurd hm (by simp [Instr.isMark])
  | assemblyGapExpiry => exact absurd hm (by simp [Instr.isMark])
  | replyExpired => exact absurd hm (by simp [Instr.isMark])
  | slotArrival slot => exact ha _ (judgeSlot_range slot)
  | identify m => exact hr _ _
  | assign m => exact hr _ _
  | configure m => exact hr _ _
  | schedLoad m => exact hr _ _
  | schedRead m => exact hr _ _
  | schedCommitNext m => exact hr _ _
  | schedCommitAt m => exact hr _ _
  | schedCancel m => exact hr _ _
  | windowLoad m => exact hr _ _
  | windowInvalidate m => exact hr _ _
  | windowRead m => exact hr _ _
  | start m => exact hr _ _
  | stop m => exact hr _ _
  | stopWithFlush m => exact hr _ _
  | abort m => exact hr _ _
  | abortQuiet m => exact hr _ _
  | status m => exact hr _ _
  | reportRead m => exact hr _ _
  | reportClear m => exact hr _ _
  | reset m => exact hr _ _
  | softResetTakesEffect => exact ⟨_, rfl, guarded (fun _ ht => c.arbitrates (c.resetsIfDue ht)) h⟩
  | read g => exact hg _ _ _
  | write g => exact hg _ _ _
  | writeQuiet g => exact hg _ _ _
  | swap g => exact hg _ _ _
  | add g => exact hg _ _ _
  | cswap g => exact hg _ _ _
  | laterSegment op offset g => exact hg _ _ _
  | busCycleStart => exact ⟨_, rfl, guarded (fun _ ht => c.separates ht) h⟩
  | beatTaken waits answer width data =>
    exact ⟨_, rfl, guarded (fun _ ht => c.answers (fun _ _ hx hb hy h => c.takes answer width data hx hb hy h) ht) h⟩
  | busError waits => exact ⟨_, rfl, guarded (fun _ ht => c.answers (fun _ _ hx _ _ h => c.fails _ _ (by simp) hx h) ht) h⟩
  | busTimeout => exact ⟨_, rfl, guarded (fun _ ht => c.answers (fun _ _ hx _ _ h => c.fails _ _ (by simp) hx h) ht) h⟩
  | holdRequest =>
    refine ⟨_, rfl, ?_⟩
    split
    · exact c.pins _ _ h
    · exact c.holdRequested h
  | holdRelease =>
    refine ⟨_, rfl, ?_⟩
    split
    · exact c.pins _ _ h
    · exact c.holdReleased h
  | holdLong =>
    refine ⟨_, rfl, guarded (fun t ht => ?_) h⟩
    split
    · exact c.report _ _ (c.holdFlag _ _ ht)
    · exact ht
  | drainComplete => exact ⟨_, rfl, guarded (fun _ ht => c.judgeDrain _ ht) h⟩
  | pinReset => exact ⟨_, rfl, c.pinReset s h⟩
  | pinResetRelease =>
    refine ⟨_, rfl, ?_⟩
    unfold pinResetRelease
    split
    · exact c.arbitrates (c.pins _ _ h)
    · exact h
  | lockedSequenceNextCycle => exact ⟨_, rfl, guarded (fun _ ht => c.nextLockedCycle ht) h⟩

end ClosedButSwap

namespace Closed

variable {P : State → Prop} (c : Closed P)
include c

/-- What every act keeps, every command keeps; and every command answers a next state. -/
theorem execs {s : State} (i : Instr) (h : P s) : ∃ t, exec i s = .next t ∧ P t := by
  have next : ∀ comesAbout : State → List Byte → Bool, P (unlessPinReset (fun s => nextMarkIf (comesAbout s) s) s) := by
    intro comesAbout
    refine ClosedButSwap.guarded (fun t ht => ?_) h
    unfold nextMarkIf
    split
    · exact c.marked _ ht
    · exact ht
  cases hm : i.isMark
  · exact c.toClosedButSwap.execs i hm h
  · cases i with
    | cycleMark record => exact ⟨_, rfl, ClosedButSwap.guarded (fun _ ht => c.marked record ht) h⟩
    | scheduleSwap => exact ⟨_, rfl, next State.swapsAt⟩
    | assemblyGapExpiry => exact ⟨_, rfl, next State.gapExpiresAt⟩
    | replyExpired => exact ⟨_, rfl, next State.replyExpiresAt⟩
    | _ => exact absurd hm (by simp [Instr.isMark])

/-- What every act keeps, every step keeps; and every step answers a next state. -/
theorem step {s : State} (h : P s) : ∃ t, Machine.step s = .next t ∧ P t := by
  unfold Machine.step
  split
  · exact ⟨_, rfl, c.clocks h⟩
  · exact c.execs _ (c.pending _ _ h)

end Closed

end Sys2Proof.Machine
end

