-- ==== Sys2Proof/Laws/Entries.lean ====
section
/-! SUPPORT. What each act does to the entries of the Transaction Table, one lemma for each. -/

namespace Sys2Proof.Machine

/-! ### Acts that leave every entry as it stands -/

@[simp] theorem withRing_entry (x : RingPort) (s : State) (j : Nat) : (s.withRing x).entry j = s.entry j := rfl
@[simp] theorem withPrevIndex_entry (x : Option Byte) (s : State) (j : Nat) : (s.withPrevIndex x).entry j = s.entry j := rfl
@[simp] theorem withSched_entry (x : Schedule) (s : State) (j : Nat) : (s.withSched x).entry j = s.entry j := rfl
@[simp] theorem withDescriptors_entry (x : List (Option ShortReply)) (s : State) (j : Nat) : (s.withDescriptors x).entry j = s.entry j := rfl
@[simp] theorem withWindows_entry (x : List Window) (s : State) (j : Nat) : (s.withWindows x).entry j = s.entry j := rfl
@[simp] theorem withBus_entry (x : Bus) (s : State) (j : Nat) : (s.withBus x).entry j = s.entry j := rfl
@[simp] theorem withReplyQueue_entry (x : List Member) (s : State) (j : Nat) : (s.withReplyQueue x).entry j = s.entry j := rfl
@[simp] theorem withMgmt_entry (x : Mgmt) (s : State) (j : Nat) : (s.withMgmt x).entry j = s.entry j := rfl
@[simp] theorem withReports_entry (x : Reports) (s : State) (j : Nat) : (s.withReports x).entry j = s.entry j := rfl
@[simp] theorem withBridge_entry (x : Bridge) (s : State) (j : Nat) : (s.withBridge x).entry j = s.entry j := rfl
@[simp] theorem withPins_entry (x : Pins) (s : State) (j : Nat) : (s.withPins x).entry j = s.entry j := rfl
@[simp] theorem withPending_entry (x : List Instr) (s : State) (j : Nat) : (s.withPending x).entry j = s.entry j := rfl

theorem entry_of_entries {s t : State} (h : t.table.entries = s.table.entries) (j : Nat) : t.entry j = s.entry j := by
  rw [State.entry, State.entry, h]

@[simp] theorem withPool_entry (x : List Host.Cell) (s : State) (j : Nat) : (s.withPool x).entry j = s.entry j := rfl

@[simp] theorem writeTx_entry (e : Entry) (k : Nat) (bytes : List Byte) (s : State) (j : Nat) :
    (s.writeTx e k bytes).entry j = s.entry j := rfl

@[simp] theorem modWindow_entry (s : State) (i : Nat) (f : Window → Window) (j : Nat) : (s.modWindow i f).entry j = s.entry j := rfl

@[simp] theorem modCounters_entry (s : State) (f : Counters → Counters) (j : Nat) : (s.modCounters f).entry j = s.entry j := rfl

@[simp] theorem clearBank_entry (b : BankName) (s : State) (j : Nat) : (clearBank b s).entry j = s.entry j := rfl

@[simp] theorem setParams_entry (p : Params) (s : State) (j : Nat) : (setParams p s).entry j = s.entry j := by
  unfold setParams
  dsimp only
  split <;> rfl

@[simp] theorem swapBanks_entry (s : State) (j : Nat) : (swapBanks s).entry j = s.entry j := rfl

@[simp] theorem queueReply_entry (x : MgmtReply) (s : State) (j : Nat) : (queueReply x s).entry j = s.entry j := rfl

@[simp] theorem startBridge_entry (s : State) (j : Nat) : (startBridge s).entry j = s.entry j := rfl

@[simp] theorem judgeDrain_entry (s : State) (j : Nat) : (judgeDrain s).entry j = s.entry j := by
  unfold judgeDrain
  split <;> rfl

@[simp] theorem grantHold_entry (s : State) (j : Nat) : (grantHold s).entry j = s.entry j := rfl

@[simp] theorem endGrant_entry (s : State) (j : Nat) : (endGrant s).entry j = s.entry j := rfl

@[simp] theorem startCycle_entry (s : State) (j : Nat) : (startCycle s).entry j = s.entry j := by
  unfold startCycle
  split <;> rfl

@[simp] theorem startDueSequence_entry (s : State) (j : Nat) : (startDueSequence s).entry j = s.entry j :=
  startCycle_entry _ j

@[simp] theorem toIdle_entry (s : State) (j : Nat) : (toIdle s).entry j = s.entry j := rfl

@[simp] theorem buildWritePart_entry (i : Nat) (s : State) (j : Nat) : (buildWritePart i s).entry j = s.entry j := rfl

@[simp] theorem freeAllDescriptors_entry (s : State) (j : Nat) : (freeAllDescriptors s).entry j = s.entry j := rfl

@[simp] theorem queueShortReply_entry (d : Nat) (r : ShortReply) (s : State) (j : Nat) :
    (queueShortReply d r s).entry j = s.entry j := rfl

@[simp] theorem freeDescriptor_entry (d : Nat) (s : State) (j : Nat) : (freeDescriptor d s).entry j = s.entry j := rfl

/-! ### What the others do -/

theorem entry_set (s t : State) (i : Nat) (e : Entry) (h : t.table.entries = s.table.entries.set i e) (j : Nat) :
    t.entry j = if j = i ∧ i < s.table.entries.length then e else s.entry j := by
  simp only [State.entry, h, List.getD_eq_getElem?_getD, List.getElem?_set]
  by_cases hj : i = j
  · subst hj
    by_cases hl : i < s.table.entries.length <;> simp [hl]
  · simp [hj, Ne.symm hj]

theorem entry_modify (s t : State) (i : Nat) (f : Entry → Entry) (h : t.table.entries = s.table.entries.modify i f) (j : Nat) :
    t.entry j = if j = i ∧ i < s.table.entries.length then f (s.entry j) else s.entry j := by
  simp only [State.entry, h, List.getD_eq_getElem?_getD, List.getElem?_modify]
  by_cases hj : i = j
  · subst hj
    by_cases hl : i < s.table.entries.length <;> simp [hl]
  · simp [hj, Ne.symm hj]

theorem modEntry_entry (s : State) (i : Nat) (f : Entry → Entry) (hi : (s.entry i).state ≠ .free) (j : Nat) :
    (s.modEntry i f).entry j = if j = i then f (s.entry i) else s.entry j := by
  rw [entry_modify s (s.modEntry i f) i f rfl]
  by_cases hj : j = i
  · subst hj; simp [entry_lt hi]
  · simp [hj]

theorem entry_map (s t : State) (f : Entry → Entry) (hf : f Entry.initial = Entry.initial)
    (h : t.table.entries = s.table.entries.map f) (j : Nat) : t.entry j = f (s.entry j) := by
  simp only [State.entry, h, List.getD_eq_getElem?_getD, List.getElem?_map]
  cases s.table.entries[j]? with
  | none => exact hf.symm
  | some e => rfl

/-- An entry past the end of the table is FREE. -/
theorem entry_ge {s : State} {i : Nat} (h : s.table.entries.length ≤ i) : s.entry i = Entry.initial := by
  rw [State.entry, List.getD_eq_default _ _ h]

/-- An entry in some list of entries is one of the table's. -/
theorem entriesIn_lt {s : State} {st : EntryState} {i : Nat} (h : i ∈ s.entriesIn st) : i < s.table.entries.length := by
  rw [State.entriesIn, mem_indexesOf] at h
  obtain ⟨a, ha, _⟩ := h
  exact (List.getElem?_eq_some_iff.1 ha).1

theorem freeEntry_entry (i : Nat) (s : State) (j : Nat) :
    (freeEntry i s).entry j = if j = i then Entry.initial else s.entry j := by
  rw [entry_set s (freeEntry i s) i Entry.initial rfl]
  by_cases hj : j = i
  · subst hj
    by_cases hl : j < s.table.entries.length
    · simp [hl]
    · simp [hl, entry_ge (Nat.le_of_not_lt hl)]
  · simp [hj]

theorem dropEntry_entry (i : Nat) (s : State) (j : Nat) :
    (dropEntry i s).entry j = if j = i then Entry.initial else s.entry j := by
  rw [dropEntry, freeEntry_entry, releaseWindow, modWindow_entry]

theorem answerUnexecuted_entry (i : Nat) (st : Status) (s : State) (hi : (s.entry i).state ≠ .free) (j : Nat) :
    (answerUnexecuted i st s).entry j
      = if j = i then { s.entry i with state := .replying, final := some st, done := 0, deadline := 0 } else s.entry j := by
  rw [entry_modify s (answerUnexecuted i st s) i _ rfl]
  by_cases hj : j = i
  · subst hj; simp [entry_lt hi]
  · simp [hj]

theorem handOver_entries (i : Nat) (s : State) :
    (handOver i s).table.entries = s.table.entries.modify i (fun e => { e with state := .executing, done := 0 }) := by
  unfold handOver
  dsimp only
  split <;> rfl

theorem handOver_requests (i : Nat) (s : State) :
    (handOver i s).table.requests = s.table.requests.filter (fun j => decide (j ≠ i)) := by
  unfold handOver
  dsimp only
  split <;> rfl

theorem handOver_replyQueue (i : Nat) (s : State) :
    (handOver i s).replyQueue = if (s.entry i).op = .read then s.replyQueue ++ [.entry i] else s.replyQueue := by
  unfold handOver
  dsimp only
  split <;> simp [*]

theorem handOver_entry (i : Nat) (s : State) (hi : (s.entry i).state ≠ .free) (j : Nat) :
    (handOver i s).entry j = if j = i then { s.entry i with state := .executing, done := 0 } else s.entry j := by
  rw [entry_modify s (handOver i s) i _ (handOver_entries i s)]
  by_cases hj : j = i
  · subst hj; simp [entry_lt hi]
  · simp [hj]

/-- The entry that an end of execution leaves behind (R73). -/
def Entry.afterEnd (e : Entry) (st : Status) : Entry :=
  if e.mark = .quiet ∨ e.op = .writeQuiet then Entry.initial
  else { e with state := .replying, final := some (e.finalStatus st), done := e.finalDone, deadline := 0 }

theorem endExecution_entry (i : Nat) (st : Status) (s : State) (hi : (s.entry i).state ≠ .free) (j : Nat) :
    (endExecution i st s).entry j = if j = i then (s.entry i).afterEnd st else s.entry j := by
  have h0 : ∀ t : State, t.table = s.table → (leaveExecuting i (s.entry i) st t).entry j
      = if j = i then (s.entry i).afterEnd st else s.entry j := by
    intro t ht
    have he : ∀ k, t.entry k = s.entry k := fun k => entry_of_table (by rw [ht]) k
    unfold leaveExecuting Entry.afterEnd
    split
    · rw [freeEntry_entry, he]
    · have hm : (t.modEntry i (fun e' =>
          { e' with state := .replying, final := some ((s.entry i).finalStatus st), done := (s.entry i).finalDone,
                    deadline := 0 })).entry j
          = if j = i then { s.entry i with state := .replying, final := some ((s.entry i).finalStatus st),
                                           done := (s.entry i).finalDone, deadline := 0 } else s.entry j := by
        rw [entry_modify t _ i _ rfl, he]
        by_cases hj : j = i
        · subst hj
          simp [ht, entry_lt hi]
        · simp [hj]
      dsimp only
      split
      · exact hm
      · exact hm
  exact h0 _ (by simp [countExecuted, State.modCounters])

theorem endExecution_order (i : Nat) (st : Status) (s : State) :
    (endExecution i st s).table.order
      = if (s.entry i).mark = .quiet ∨ (s.entry i).op = .writeQuiet then s.table.order.filter (fun j => decide (j ≠ i))
        else s.table.order := by
  unfold endExecution leaveExecuting
  dsimp only
  split
  · simp [freeEntry, countExecuted, State.modCounters]
  · split <;> simp [countExecuted, State.modCounters]

theorem endExecution_requests (i : Nat) (st : Status) (s : State) :
    (endExecution i st s).table.requests
      = if (s.entry i).mark = .quiet ∨ (s.entry i).op = .writeQuiet then s.table.requests.filter (fun j => decide (j ≠ i))
        else s.table.requests := by
  unfold endExecution leaveExecuting
  dsimp only
  split
  · simp [freeEntry, countExecuted, State.modCounters]
  · split <;> simp [countExecuted, State.modCounters]

theorem endExecution_replyQueue (i : Nat) (st : Status) (s : State) :
    (endExecution i st s).replyQueue
      = if (s.entry i).mark = .quiet ∨ (s.entry i).op = .writeQuiet then s.replyQueue.filter (fun m => decide (m ≠ .entry i))
        else if (s.entry i).op = .read then s.replyQueue else s.replyQueue ++ [.entry i] := by
  unfold endExecution leaveExecuting
  dsimp only
  split
  · simp [freeEntry, countExecuted, State.modCounters]
  · split <;> simp [countExecuted, State.modCounters]

theorem endExecution_length (i : Nat) (st : Status) (s : State) :
    (endExecution i st s).table.entries.length = s.table.entries.length := by
  unfold endExecution leaveExecuting
  dsimp only
  split
  · simp [freeEntry, countExecuted, State.modCounters]
  · split <;> simp [countExecuted, State.modCounters]

theorem allocate_entry (i : Nat) (op : ReqOp) (g : Segment) (w : Nat) (bs : List Nat) (s : State)
    (hi : i < s.table.entries.length) (j : Nat) :
    (allocate i op g w bs s).entry j = if j = i then newEntry op g w bs else s.entry j := by
  rw [entry_set s (allocate i op g w bs s) i _ rfl]
  simp [hi]

theorem newEntry_state (op : ReqOp) (g : Segment) (w : Nat) (bs : List Nat) :
    (newEntry op g w bs).state = .assembling ∨ (newEntry op g w bs).state = .queued :=
  ite_eq_or_eq _ _ _

/-- What can make progress is an EXECUTING READ, not marked quiet, or is REPLYING. -/
theorem canProgress_state {e : Entry} {capacity : Nat} (h : e.canProgress capacity = true) :
    e.state = .executing ∧ e.op = .read ∧ e.mark ≠ .quiet ∨ e.state = .replying := by
  unfold Entry.canProgress at h
  cases ho : e.op <;> cases hs : e.state <;> simp [ho, hs] at h ⊢
  exact h.1.1

/-- A LAST piece is given by a REPLYING entry alone. -/
theorem pieceOf_last {s : State} {e : Entry} {capacity : Nat} (h : e.canProgress capacity = true)
    (hl : (s.pieceOf e capacity).last = true) : e.state = .replying := by
  rcases canProgress_state h with ⟨hs, ho, _⟩ | hs
  · simp [State.pieceOf, ho, hs] at hl
  · exact hs

theorem appendSegment_entry (i : Nat) (g : Segment) (s : State) (hi : (s.entry i).state ≠ .free) (j : Nat) :
    (appendSegment i g s).entry j
      = if j = i then { s.entry i with
          received := g.offset.toNat + g.count.toNat, gap := 0
          state := if g.offset.toNat + g.count.toNat = (s.entry i).total then .queued else (s.entry i).state }
        else s.entry j := by
  rw [entry_modify s (appendSegment i g s) i _ rfl]
  by_cases hj : j = i
  · subst hj; simp [entry_lt hi]
  · simp [hj]

theorem sendPiece_entry (i : Nat) (p : Piece) (s : State) (hi : (s.entry i).state ≠ .free) (j : Nat) :
    (sendPiece i p s).entry j
      = if j = i then (if p.last then Entry.initial
          else { s.entry i with sent := (s.entry i).sent + p.data.length, deadline := 0 })
        else s.entry j := by
  have hm : (s.modEntry i (fun e => { e with sent := e.sent + p.data.length, deadline := 0 })).entry j
      = if j = i then { s.entry i with sent := (s.entry i).sent + p.data.length, deadline := 0 } else s.entry j := by
    rw [entry_modify s _ i _ rfl]
    by_cases hj : j = i
    · subst hj; simp [entry_lt hi]
    · simp [hj]
  unfold sendPiece
  dsimp only
  split
  · rw [freeEntry_entry, hm]
    by_cases hj : j = i <;> simp [hj]
  · rw [hm]

theorem advanceCounts_entry (s : State) (j : Nat) : (advanceCounts s).entry j = (s.entry j).markCounted :=
  entry_map s (advanceCounts s) Entry.markCounted rfl rfl j

theorem freeAllButExecuting_entry (s : State) (j : Nat) :
    (freeAllButExecuting s).entry j = if (s.entry j).state = .executing then s.entry j else Entry.initial :=
  entry_map s (freeAllButExecuting s) (fun e => if e.state = .executing then e else Entry.initial) (by simp [Entry.initial])
    rfl j

theorem tearDownBlocks_entry (s : State) (j : Nat) :
    (tearDownBlocks s).entry j = if (s.entry j).state = .executing then s.entry j else Entry.initial :=
  freeAllButExecuting_entry s j

theorem softResetValues_entry (s : State) (j : Nat) : (softResetValues s).entry j = Entry.initial := by
  simp only [State.entry, softResetValues, Table.initial, entriesInitial, List.getD_eq_getElem?_getD, List.getElem?_replicate]
  split <;> rfl

theorem pinReset_entry (s : State) (j : Nat) : (pinReset s).entry j = Entry.initial := by
  simp only [State.entry, pinReset, State.reset, Table.initial, entriesInitial, List.getD_eq_getElem?_getD,
    List.getElem?_replicate]
  split <;> rfl

@[simp] theorem takenBeat_length (i : Nat) (b : Beat) (x : Answer) (w : Width) (d : LaneData) (s : State) :
    (takenBeat i b x w d s).table.entries.length = s.table.entries.length := by
  have hl : (placeRead (s.entry i) b (b.takenLanes w) d (countBeat s)).table.entries.length = s.table.entries.length := by
    unfold placeRead
    split <;> rfl
  show ((placeRead (s.entry i) b (b.takenLanes w) d (countBeat s)).table.entries.modify i _).length = _
  rw [List.length_modify, hl]

theorem takenBeat_done (i : Nat) (b : Beat) (x : Answer) (w : Width) (d : LaneData) (s : State) (hi : (s.entry i).state ≠ .free)
    (j : Nat) :
    (takenBeat i b x w d s).entry j
      = if j = i then (if (s.entry i).op.locked then s.entry i
          else { s.entry i with done := extendDone (s.entry i).done (b.positions (s.entry i) (b.takenLanes w)) })
        else s.entry j := by
  have hp : ∀ k, (placeRead (s.entry i) b (b.takenLanes w) d (countBeat s)).entry k = s.entry k := by
    intro k
    refine entry_of_table ?_ k
    unfold placeRead
    split <;> rfl
  have hl : (placeRead (s.entry i) b (b.takenLanes w) d (countBeat s)).table.entries.length = s.table.entries.length := by
    unfold placeRead
    split <;> rfl
  show (advanceDone i _ _).entry j = _
  rw [advanceDone, entry_modify _ _ i _ rfl, hp, hl]
  by_cases hj : j = i
  · subst hj; simp [entry_lt hi]
  · simp [hj]

end Sys2Proof.Machine
end

