-- ==== Sys2Proof/Laws/Arrival.lean ====
section
/-! SUPPORT. The formats on the line read back what they wrote, and the arrivals that commands are: what a management request
that reaches its operation does, and what a request segment that reaches the intake's checks does, each said once. -/

namespace Sys2Proof.Machine

/-! ### Bytes -/

@[simp] theorem padTo_length (n : Nat) (l : List Byte) : (padTo n l).length = n := by
  simp only [padTo, List.length_take, List.length_append, List.length_replicate]
  omega

theorem padTo_self {n : Nat} {l : List Byte} (h : l.length = n) : padTo n l = l := by
  subst h
  simp [padTo]

/-- A run of bytes at the front stays, the rest is padded. -/
theorem padTo_append (n : Nat) (h l : List Byte) (hn : h.length ≤ n) : padTo n (h ++ l) = h ++ padTo (n - h.length) l := by
  simp only [padTo, List.append_assoc, List.length_append]
  rw [List.take_append, List.take_of_length_le hn, ← Nat.sub_sub]

@[simp] theorem halfBytes_join (h : Half) : (h.extractLsb' 8 8 ++ h.extractLsb' 0 8 : BitVec 16) = h := by
  apply BitVec.eq_of_getLsbD_eq
  intro i hi
  simp only [BitVec.getLsbD_append, BitVec.getLsbD_extractLsb']
  by_cases h8 : i < 8
  · simp [h8]
  · have : i - 8 < 8 := by omega
    simp [h8, this, show 8 + (i - 8) = i by omega]

@[simp] theorem wordBytes_join (w : Word) :
    ((w.extractLsb' 24 8 ++ w.extractLsb' 16 8 : BitVec 16) ++ (w.extractLsb' 8 8 ++ w.extractLsb' 0 8 : BitVec 16) : BitVec 32) = w := by
  apply BitVec.eq_of_getLsbD_eq
  intro i hi
  simp only [BitVec.getLsbD_append, BitVec.getLsbD_extractLsb']
  by_cases h8 : i < 8
  · simp [h8, show i < 16 by omega]
  · by_cases h16 : i < 16
    · simp [h8, h16, show i - 8 < 8 by omega, show 8 + (i - 8) = i by omega]
    · by_cases h24 : i < 24
      · simp [h16, show i - 16 < 8 by omega, show 16 + (i - 16) = i by omega]
      · simp [h16, show ¬ i - 16 < 8 by omega, show i - 16 - 8 < 8 by omega, show 24 + (i - 16 - 8) = i by omega]

/-- A management record read back from the payload that carries it. -/
theorem MgmtRecord.ofBytes_toBytes (r : MgmtRecord) (n : Nat) (hp : r.param.length = 8) (hn : 16 ≤ n) :
    MgmtRecord.ofBytes (padTo n r.toBytes) = { r with rest := padTo (n - 16) r.rest } := by
  obtain ⟨dest, source, tag, op, status, flags, argLen, param, rest⟩ := r
  match param, hp with
  | [p0, p1, p2, p3, p4, p5, p6, p7], _ =>
    have h : MgmtRecord.toBytes ⟨dest, source, tag, op, status, flags, argLen, [p0, p1, p2, p3, p4, p5, p6, p7], rest⟩
        = [dest, source, tag, op, status, flags, argLen.extractLsb' 8 8, argLen.extractLsb' 0 8,
            p0, p1, p2, p3, p4, p5, p6, p7] ++ rest := rfl
    rw [h, padTo_append _ _ _ hn]
    simp [MgmtRecord.ofBytes, byteAt, halfAt]

/-- A segment read back from the payload that carries it. -/
theorem Segment.ofBytes_toBytes (g : Segment) (n : Nat) (hn : 16 ≤ n) :
    Segment.ofBytes (padTo n g.toBytes) = { g with data := padTo (n - 16) g.data } := by
  obtain ⟨dest, source, tag, op, status, flags, total, offset, count, addr, data⟩ := g
  have h : Segment.toBytes ⟨dest, source, tag, op, status, flags, total, offset, count, addr, data⟩
      = [dest, source, tag, op, status, flags, total.extractLsb' 8 8, total.extractLsb' 0 8, offset.extractLsb' 8 8,
          offset.extractLsb' 0 8, count.extractLsb' 8 8, count.extractLsb' 0 8, addr.extractLsb' 24 8, addr.extractLsb' 16 8,
          addr.extractLsb' 8 8, addr.extractLsb' 0 8] ++ data := rfl
  rw [h, padTo_append _ _ _ hn]
  simp only [Segment.ofBytes, byteAt, halfAt, wordAt, List.cons_append, List.getD_cons_zero, List.getD_cons_succ,
    halfBytes_join]
  rw [show ∀ w : Word, (w.extractLsb' 24 8 ++ w.extractLsb' 16 8 : Half) ++ (w.extractLsb' 8 8 ++ w.extractLsb' 0 8 : Half) = w
    from wordBytes_join]
  simp

/-! ### Slots -/

/-- The Ring Port's judgement of a slot with good checks (R3). -/
theorem judgeSlot_encodeSlot (index channel size : Byte) (kind : MarkKind) (payload : List Byte)
    (hp : payload.length = payloadLength size) :
    judgeSlot (encodeSlot index channel size kind payload) = arrivalOf index channel size kind payload := by
  have hb : ∀ (x : Half) (l : List Byte), halfAt (l ++ halfBytes x) l.length = x := by
    intro x l
    simp [halfAt, byteAt, halfBytes]
  have h2 := hb (payloadCheck kind payload) payload
  have h1 := hb (check [index, channel, size]) [index, channel, size]
  have ht : (payload ++ halfBytes (payloadCheck kind payload)).take (payloadLength size) = payload := by
    rw [← hp, List.take_left]
  have hc : ([index, channel, size] ++ halfBytes (check [index, channel, size])).take 3 = [index, channel, size] := rfl
  have hl : (payload ++ halfBytes (payloadCheck kind payload)).length = payloadLength size + 2 := by
    rw [List.length_append, hp]
    rfl
  have h0 : byteAt ([index, channel, size] ++ halfBytes (check [index, channel, size])) 0 = index := rfl
  have h01 : byteAt ([index, channel, size] ++ halfBytes (check [index, channel, size])) 1 = channel := rfl
  have h02 : byteAt ([index, channel, size] ++ halfBytes (check [index, channel, size])) 2 = size := rfl
  have h5 : ([index, channel, size] ++ halfBytes (check [index, channel, size])).length = 5 := rfl
  rw [hp] at h2
  rw [show [index, channel, size].length = 3 from rfl] at h1
  unfold judgeSlot arrivalOf encodeSlot RawSlot.withPayload headerBytes
  simp only [h0, h01, h02, ht, h1, hc, hl, h5, h2, Option.getD_some, Option.isSome_some, decide_true, Bool.true_and,
    Bool.and_true]

@[simp] theorem arrivalOf_capacity (index channel size : Byte) (kind : MarkKind) (payload : List Byte) :
    (arrivalOf index channel size kind payload).capacity = capacityOf size := by
  simp only [Arrival.capacity, arrivalOf, payloadLength, capacityOf]
  omega

/-- A slot with good checks leaves with good checks over what it then carries (R34). -/
theorem arrivalOf_forwarded (index channel size : Byte) (kind : MarkKind) (payload : List Byte) (im : Image) :
    (arrivalOf index channel size kind payload).forwarded im = encodeSlot index channel size im.kind im.payload := by
  unfold Arrival.forwarded
  split
  · rename_i h
    rw [h]
    rfl
  · rfl

/-- A slot that is admitted is handled by the Management Unit or under the schedule (R28, R29). -/
theorem slotArrival_admitted {s : State} (index channel size : Byte) (kind : MarkKind) (payload : List Byte)
    (hs : s.admits index) (hh : headerInRange index channel size = true) :
    slotArrival (arrivalOf index channel size kind payload) s
      = (let r := if channel = 0 then
            managementSlot (payloadLength size) index (capacityOf size) { kind := kind, payload := payload }
              (s.withPrevIndex (some index))
          else scheduledSlot (arrivalOf index channel size kind payload) (s.withPrevIndex (some index))
        r.1.leaving (encodeSlot index channel size r.2.kind r.2.payload)) := by
  obtain ⟨_, h2, h3, h4, h5⟩ := hs
  have hq : s.inSequence index = true := by
    unfold State.inSequence
    cases hp : s.prevIndex with
    | none => simp [h4]
    | some p => simp [h4, h5 p hp]
  have hpr : s.presents = true := by simp [State.presents, h2, h3]
  unfold slotArrival
  rw [if_neg (by rw [h2]; simp), if_pos hpr]
  have hg : (arrivalOf index channel size kind payload).headerGood = true := hh
  have hi : (arrivalOf index channel size kind payload).index = index := rfl
  have hb : (arrivalOf index channel size kind payload).payloadGood = true := rfl
  unfold presentSlot inSequenceSlot
  simp only [hg, hi, hq, hb, Bool.not_true, Bool.false_eq_true, if_false, if_true]
  rw [arrivalOf_forwarded]
  simp only [arrivalOf_capacity]
  rfl

theorem exec_arrive {s : State} (a : Arrival) (h : s.pins.reset = false) : arrive a s = .next (slotArrival a s) := by
  simp [arrive, unlessPinReset, h]

theorem MgmtOp.ofCode_code (op : MgmtOp) : MgmtOp.ofCode op.code = some op := by
  cases op <;> rfl

theorem MgmtOp.code_lt (op : MgmtOp) : op.code.toNat < 128 ∧ op.code ≠ noticeCode := by
  cases op <;> decide

end Sys2Proof.Machine

namespace Sys2Proof

open Machine

/-! ### Management requests -/

/-- How a request that reaches its operation is classed (R152). -/
def MgmtSlot.reachOf (m : MgmtSlot) (s : State) : Reach := if m.dest = s.mgmt.node then .addressed else .broadcast

/-- The record of a management command, read back from its slot. -/
def MgmtSlot.arrived (m : MgmtSlot) (op : MgmtOp) : MgmtRecord :=
  { m.record op with rest := padTo (capacityOf m.size) m.args }

theorem MgmtSlot.ofBytes_arrival (m : MgmtSlot) (op : MgmtOp) :
    MgmtRecord.ofBytes (padTo (payloadLength m.size) (m.record op).toBytes) = m.arrived op := by
  rw [MgmtRecord.ofBytes_toBytes _ _ (by simp [MgmtSlot.record]) (by unfold payloadLength; omega)]
  have : payloadLength m.size - 16 = capacityOf m.size := by
    simp only [payloadLength, capacityOf]
    omega
  rw [this]
  rfl

/-- A management request that reaches its operation: it is executed, and its slot leaves (R152 to R157). -/
theorem MgmtSlot.reaches_executes {m : MgmtSlot} {s : State} (op : MgmtOp) (h : m.reaches s) :
    exec (.slotArrival (m.arrival op).raw) s = arrive (m.arrival op) s
      ∧ arrive (m.arrival op) s
        = .next ((executeRequest (m.reachOf s) op m.index (capacityOf m.size) (m.arrived op)
            (s.withPrevIndex (some m.index))).leaving (m.leavesAs op s)) := by
  obtain ⟨hf, ha, hd, hsrc, hst, hfl, hal, hq, hsr⟩ := h
  have hf' := hf
  unfold MgmtSlot.fits at hf'
  simp only [Bool.and_eq_true, decide_eq_true_eq, headerFits] at hf'
  obtain ⟨⟨⟨hidx, hsz⟩, hpar⟩, harg⟩ := hf'
  have hrng : headerInRange m.index 0 m.size = true := by simp [headerInRange, hidx, hsz]
  constructor
  · show arrive (judgeSlot (encodeSlot _ _ _ _ _)) s = _
    rw [judgeSlot_encodeSlot _ _ _ _ _ (padTo_length _ _)]
    rfl
  · rw [exec_arrive _ ha.1]
    congr 1
    unfold MgmtSlot.arrival
    rw [slotArrival_admitted _ _ _ _ _ ha hrng]
    simp only [if_true, managementSlot]
    have hn : (s.withPrevIndex (some m.index)).mgmt = s.mgmt := rfl
    have hb : (s.withPrevIndex (some m.index)).bridge = s.bridge := rfl
    have hcl := MgmtOp.code_lt op
    unfold judgeRecord
    simp only [m.ofBytes_arrival op]
    have hown : (s.withPrevIndex (some m.index)).ownRecord (m.arrived op) = false := by
      unfold State.ownRecord
      rw [hn]
      by_cases h0 : s.mgmt.node = 0
      · simp [h0]
      · have := hsrc h0
        simp [MgmtSlot.arrived, MgmtSlot.record, this]
    have hfm : (m.arrived op).forManager = false := by
      show (decide (128 ≤ op.code.toNat) || decide (op.code = noticeCode)) = false
      simp [hcl.1, hcl.2]
    have hreach : (s.withPrevIndex (some m.index)).reach m.dest = m.reachOf s := by
      unfold State.reach MgmtSlot.reachOf
      rw [hn]
      rcases hd with hd | ⟨h0, hd⟩
      · by_cases h0 : s.mgmt.node = 0 <;> simp [hd, h0]
      · rw [if_neg h0]
        by_cases he : m.dest = s.mgmt.node
        · rw [if_pos he, if_pos he]
        · rw [if_neg he, if_neg he, if_pos hd]
    have hmal : ∀ reach, (s.withPrevIndex (some m.index)).malformed reach (capacityOf m.size) (m.arrived op) = false := by
      intro reach
      unfold State.malformed
      rw [hn]
      by_cases h0 : s.mgmt.node = 0
      · simp [MgmtSlot.arrived, MgmtSlot.record, hst, hfl, h0]
        exact hal
      · have := hsrc h0
        simp [MgmtSlot.arrived, MgmtSlot.record, hst, hfl, this]
        exact hal
    have href : ∀ reach, (s.withPrevIndex (some m.index)).refusesRequest reach op (m.arrived op) = false := by
      intro reach
      unfold State.refusesRequest
      rw [hn, hb, hsr]
      simp [Config.mgmtReplies, show ¬ 4 ≤ s.mgmt.queue.length by omega]
    have hdst : (m.arrived op).dest = m.dest := rfl
    have hop : (m.arrived op).op = op.code := rfl
    have hjr : ∀ (reach : Reach) (im : Image), judgeReached reach m.index (capacityOf m.size) (m.arrived op) im (s.withPrevIndex (some m.index))
        = (executeRequest reach op m.index (capacityOf m.size) (m.arrived op) (s.withPrevIndex (some m.index)), reach.leaves im) := by
      intro reach im
      unfold judgeReached
      rw [hfm, hop, MgmtOp.ofCode_code]
      simp only [hmal, href, Bool.false_eq_true, if_false]
    rw [hown]
    simp only [Bool.false_eq_true, if_false]
    rw [hdst, hreach]
    unfold MgmtSlot.leavesAs MgmtSlot.reachOf
    by_cases he : m.dest = s.mgmt.node
    · simp only [he, if_true, hjr]
      simp [Reach.leaves, Image.voided]
    · simp only [he, if_false, hjr]
      rfl

/-- A management request that reaches its operation, for every operation but RESET: the reply its verdict gives is queued,
the operation is carried out, and the slot leaves. -/
theorem MgmtSlot.reaches_answers {m : MgmtSlot} {s : State} (op : MgmtOp) (h : m.reaches s) (hop : op ≠ .reset) :
    arrive (m.arrival op) s
      = (let v := judgeRequest (m.reachOf s) op m.index (capacityOf m.size) (m.arrived op) (s.withPrevIndex (some m.index))
        .next ((v.act (s.replied m op v.status v.param v.args)).leaving (m.leavesAs op s))) := by
  rw [(m.reaches_executes op h).2]
  unfold executeRequest
  rw [if_neg (fun hc => hop hc.1)]
  rfl

/-- A request that is judged by its own operation: addressed, or broadcast of an operation that may be, and from a source
that has the authority (R155, R156). -/
theorem MgmtSlot.judgeRequest_operation {m : MgmtSlot} {s : State} {op : MgmtOp}
    (hd : m.dest = s.mgmt.node ∨ op.mayBroadcast = true) (ha : op.anySource = true ∨ m.authorised s) :
    judgeRequest (m.reachOf s) op m.index (capacityOf m.size) (m.arrived op) (s.withPrevIndex (some m.index))
      = judgeOperation op m.index (capacityOf m.size) (m.arrived op) (s.withPrevIndex (some m.index)) := by
  unfold judgeRequest
  rw [if_neg]
  · rcases ha with ha | ⟨h0, hm⟩
    · rw [if_pos ha]
    · split
      · rfl
      · rw [if_neg (by exact h0), if_neg]
        simp [State.fromManager, MgmtSlot.arrived, MgmtSlot.record, hm]
  · rintro ⟨h1, h2⟩
    rcases hd with hd | hd
    · simp [MgmtSlot.reachOf, hd] at h1
    · rw [hd] at h2; cases h2

/-- The parameter bytes that an operation reads are the slot's. -/
theorem MgmtSlot.arrived_paramByte {m : MgmtSlot} {s : State} (h : m.reaches s) (op : MgmtOp) (i : Nat) :
    (m.arrived op).paramByte i = byteAt m.param i := by
  have hf := h.1
  unfold MgmtSlot.fits at hf
  simp only [Bool.and_eq_true, decide_eq_true_eq] at hf
  simp [MgmtRecord.paramByte, MgmtSlot.arrived, MgmtSlot.record, padTo_self hf.1.2]

/-- The answer to such a request: its operation's verdict, `v`, for every operation but RESET (R157). -/
theorem MgmtSlot.reaches_verdict {m : MgmtSlot} {s : State} {op : MgmtOp} (h : m.reaches s) (hop : op ≠ .reset)
    (hd : m.dest = s.mgmt.node ∨ op.mayBroadcast = true) (ha : op.anySource = true ∨ m.authorised s) {v : Verdict}
    (hv : judgeOperation op m.index (capacityOf m.size) (m.arrived op) (s.withPrevIndex (some m.index)) = v) :
    arrive (m.arrival op) s = .next ((v.act (s.replied m op v.status v.param v.args)).leaving (m.leavesAs op s)) := by
  rw [m.reaches_answers op h hop]
  simp only [MgmtSlot.judgeRequest_operation hd ha, hv]

/-- A slot with a bit of its parameter forced reaches where the slot reaches. -/
theorem MgmtSlot.reaches_mapParam {m : MgmtSlot} {s : State} (i : Nat) (f : Byte → Byte) (h : m.reaches s) :
    (m.mapParam i f).reaches s := by
  obtain ⟨hf, h⟩ := h
  refine ⟨?_, h⟩
  unfold MgmtSlot.fits at *
  simp only [Bool.and_eq_true, decide_eq_true_eq] at hf ⊢
  exact ⟨⟨hf.1.1, by simp [MgmtSlot.mapParam]⟩, hf.2⟩

/-- A slot with a bit of its arguments forced reaches where the slot reaches. -/
theorem MgmtSlot.reaches_mapArg {m : MgmtSlot} {s : State} (i : Nat) (f : Byte → Byte) (h : m.reaches s) :
    (m.mapArg i f).reaches s := by
  obtain ⟨hf, h⟩ := h
  refine ⟨?_, h⟩
  unfold MgmtSlot.fits at *
  simp only [Bool.and_eq_true, decide_eq_true_eq] at hf ⊢
  exact ⟨hf.1, by simpa [MgmtSlot.mapArg] using hf.2⟩

/-! ### Request segments -/

/-- The segment of a request command, read back from its slot. -/
def SegSlot.arrived (g : SegSlot) (op : ReqOp) (offset : Half) : Segment :=
  { g.segment op offset with data := padTo (capacityOf g.size) g.data }

theorem ReqOp.ofCode_code (op : ReqOp) : ReqOp.ofCode op.code = some op := by
  cases op <;> rfl

theorem ReqOp.code_ne_reply (op : ReqOp) : op.code ≠ replyCode := by
  cases op <;> decide

theorem SegSlot.ofBytes_arrival (g : SegSlot) (op : ReqOp) (offset : Half) :
    Segment.ofBytes (padTo (payloadLength g.size) (g.segment op offset).toBytes) = g.arrived op offset := by
  rw [Segment.ofBytes_toBytes _ _ (by unfold payloadLength; omega)]
  have : payloadLength g.size - 16 = capacityOf g.size := by
    simp only [payloadLength, capacityOf]
    omega
  rw [this]
  rfl

/-- A request segment that comes to the checks: the intake judges it, and its slot leaves voided, and perhaps filled, where
it was taken, and as it arrived where it was left (R31, R33, R48). -/
theorem SegSlot.reaches_intake {g : SegSlot} {offset : Half} {s : State} (op : ReqOp) (h : g.reaches offset s) :
    arrive (g.arrival op offset) s
      = (let r := if offset = 0 then
            intakeFirst op g.index (capacityOf g.size) (g.arrived op offset) (s.withPrevIndex (some g.index))
          else intakeLater op g.index (capacityOf g.size) (g.arrived op offset) (s.withPrevIndex (some g.index))
        .next (if r.2 then g.consumed s r.1 else g.left op offset r.1)) := by
  obtain ⟨⟨hf, ha, hch, hact, hsrc, hn, hd, hs⟩, hb⟩ := h
  unfold SegSlot.fits at hf
  simp only [Bool.and_eq_true, decide_eq_true_eq, headerFits] at hf
  obtain ⟨⟨⟨⟨hidx, hsz⟩, hc0⟩, hc1⟩, hdat⟩ := hf
  have hrng : headerInRange g.index g.channel g.size = true := by simp [headerInRange, hidx, hsz, hc1]
  have hcz : ¬ g.channel = 0 := by
    intro hc
    rw [hc] at hc0
    simp at hc0
  rw [exec_arrive _ ha.1]
  unfold SegSlot.arrival
  rw [slotArrival_admitted _ _ _ _ _ ha hrng, if_neg hcz]
  have hm : (s.activeEntry g.index).matchesChannel g.channel = true := by
    unfold SchedEntry.matchesChannel
    rcases hch with h | h <;> simp [h]
  have hin : intakeSegment (s.activeEntry g.index).source g.index (capacityOf g.size) (g.arrived op offset)
      (s.withPrevIndex (some g.index))
      = if offset = 0 then
          intakeFirst op g.index (capacityOf g.size) (g.arrived op offset) (s.withPrevIndex (some g.index))
        else intakeLater op g.index (capacityOf g.size) (g.arrived op offset) (s.withPrevIndex (some g.index)) := by
    unfold intakeSegment
    have h1 : (s.withPrevIndex (some g.index)).requestFor (g.arrived op offset) = some op := by
      unfold State.requestFor
      rw [if_pos]
      · exact ReqOp.ofCode_code op
      · unfold isNode at hs
        simp only [Bool.and_eq_true, decide_eq_true_eq] at hs
        exact ⟨hn, hd, hs⟩
    have h2 : filterAdmits (s.activeEntry g.index).source (g.arrived op offset).source = true := by
      unfold filterAdmits
      rcases hsrc with h | h <;> simp [h, SegSlot.arrived, SegSlot.segment]
    have h3 : (s.withPrevIndex (some g.index)).bridge.state.refuses (g.arrived op offset).offset = false := by
      show s.bridge.state.refuses offset = false
      rcases hb with h | ⟨h, h0⟩ <;> simp [h, BridgeState.refuses]
      exact h0
    rw [h1]
    simp only [h2, h3, Bool.not_true, Bool.false_eq_true, if_false]
    rfl
  have hact' : scheduledSlot (arrivalOf g.index g.channel g.size .data (padTo (payloadLength g.size) (g.segment op offset).toBytes))
      (s.withPrevIndex (some g.index))
      = applyAction (s.activeEntry g.index).action (s.activeEntry g.index).source
          (arrivalOf g.index g.channel g.size .data (padTo (payloadLength g.size) (g.segment op offset).toBytes))
          (s.withPrevIndex (some g.index)) := by
    unfold scheduledSlot
    simp only [show ((s.withPrevIndex (some g.index)).activeEntry
        (arrivalOf g.index g.channel g.size .data (padTo (payloadLength g.size) (g.segment op offset).toBytes)).index)
      = s.activeEntry g.index from rfl,
      show (arrivalOf g.index g.channel g.size .data (padTo (payloadLength g.size) (g.segment op offset).toBytes)).channel
      = g.channel from rfl, hm, if_true]
  rw [hact', ← hin]
  have hi : ∀ t : State, intakeStep (s.activeEntry g.index).source
      (arrivalOf g.index g.channel g.size .data (padTo (payloadLength g.size) (g.segment op offset).toBytes))
      { kind := .data, payload := padTo (payloadLength g.size) (g.segment op offset).toBytes } t
      = ((intakeSegment (s.activeEntry g.index).source g.index (capacityOf g.size) (g.arrived op offset) t).1,
        if (intakeSegment (s.activeEntry g.index).source g.index (capacityOf g.size) (g.arrived op offset) t).2 then
          { kind := .void, payload := List.replicate (payloadLength g.size) 0 }
        else { kind := .data, payload := padTo (payloadLength g.size) (g.segment op offset).toBytes }) := by
    intro t
    unfold intakeStep
    simp only [if_true, g.ofBytes_arrival, arrivalOf_capacity, Image.voided, padTo_length]
    rfl
  have hst : ∀ t : State, stripStep g.index { kind := .data, payload := padTo (payloadLength g.size) (g.segment op offset).toBytes } t
      = (t, { kind := .data, payload := padTo (payloadLength g.size) (g.segment op offset).toBytes }) := by
    intro t
    unfold stripStep
    rw [if_neg]
    rintro ⟨_, ho⟩
    simp only [g.ofBytes_arrival, State.ownReturn, Bool.and_eq_true, decide_eq_true_eq] at ho
    exact ReqOp.code_ne_reply op ho.2
  generalize hr : intakeSegment (s.activeEntry g.index).source g.index (capacityOf g.size) (g.arrived op offset)
    (s.withPrevIndex (some g.index)) = r at hi ⊢
  congr 1
  have hi' := hi (s.withPrevIndex (some g.index))
  rw [hr] at hi'
  unfold SegSlot.consumed SegSlot.left
  rcases hact with h | h
  · rw [h]
    simp only [applyAction, Arrival.intake, Arrival.image]
    have : (arrivalOf g.index g.channel g.size .data (padTo (payloadLength g.size) (g.segment op offset).toBytes)).kind = .data := rfl
    simp only [show ((arrivalOf g.index g.channel g.size .data (padTo (payloadLength g.size) (g.segment op offset).toBytes)).kind)
      = MarkKind.data from rfl, show (arrivalOf g.index g.channel g.size .data (padTo (payloadLength g.size) (g.segment op offset).toBytes)).payload
      = padTo (payloadLength g.size) (g.segment op offset).toBytes from rfl, hi']
    cases r.2
    · rfl
    · simp
  · rw [h]
    simp only [applyAction, Arrival.intake, Arrival.image, Arrival.strip, Arrival.fill]
    simp only [show ((arrivalOf g.index g.channel g.size .data (padTo (payloadLength g.size) (g.segment op offset).toBytes)).kind)
      = MarkKind.data from rfl, show (arrivalOf g.index g.channel g.size .data (padTo (payloadLength g.size) (g.segment op offset).toBytes)).payload
      = padTo (payloadLength g.size) (g.segment op offset).toBytes from rfl,
      show (arrivalOf g.index g.channel g.size .data (padTo (payloadLength g.size) (g.segment op offset).toBytes)).index
      = g.index from rfl, show (arrivalOf g.index g.channel g.size .data (padTo (payloadLength g.size) (g.segment op offset).toBytes)).size
      = g.size from rfl, hst, hi', arrivalOf_capacity]
    cases r.2
    · simp only [Bool.false_eq_true, if_false]
      unfold fillStep
      rw [if_neg (by simp)]
      rfl
    · simp

end Sys2Proof
end

