-- ==== Sys2Proof/Laws/Planning.lean ====
section
/-! SUPPORT. What a plan holds: the beats of a word, and the first beat of a part of a locked sequence. -/

namespace Sys2Proof.Machine

/-- The beats of a word are those of its units that hold an enabled lane (R101). -/
theorem mem_beatsFor {b : Beat} {width : Width} {wa : Nat} {write : Bool} {lanes : List Nat} :
    b ∈ beatsFor width wa write lanes ↔ ∃ u ∈ unitsOf width, lanes.filter (fun l => u.contains l) ≠ []
      ∧ b = { addr := wa + u.headD 0, width := width, write := write, lanes := lanes.filter (fun l => u.contains l) } := by
  unfold beatsFor
  rw [List.mem_filterMap]
  refine exists_congr fun u => and_congr_right fun _ => ?_
  cases lanes.filter (fun l => u.contains l) <;> simp [eq_comm]

/-- Every lane of a word lies in a unit of every width. -/
theorem exists_unit (width : Width) {l : Nat} (h : l < 4) : ∃ u ∈ unitsOf width, u.contains l = true := by
  have : l = 0 ∨ l = 1 ∨ l = 2 ∨ l = 3 := by omega
  rcases this with rfl | rfl | rfl | rfl <;> cases width <;> decide

/-- A part of a locked sequence has a first cycle, of one beat in the part's direction (R103). -/
theorem lockedPart_cons {e : Entry} {width : Width} {write : Bool} (h : 1 ≤ e.total) :
    ∃ b cycles, lockedPart e width write = { lineBurst := false, beats := [b] } :: cycles ∧ b.write = write
      ∧ b.width = width := by
  have hm : e.addr.toNat % 4 ∈ e.neededLanes (e.addr.toNat / 4 * 4) := by
    have h4 : e.addr.toNat % 4 = 0 ∨ e.addr.toNat % 4 = 1 ∨ e.addr.toNat % 4 = 2 ∨ e.addr.toNat % 4 = 3 := by omega
    simp only [Entry.neededLanes, Entry.needs, List.mem_filter, List.mem_cons, List.not_mem_nil, or_false, Bool.and_eq_true,
      decide_eq_true_eq]
    exact ⟨h4, by omega, by omega⟩
  obtain ⟨u, hu, hl⟩ := exists_unit width (Nat.mod_lt e.addr.toNat (by decide : 0 < 4))
  have hne : (e.neededLanes (e.addr.toNat / 4 * 4)).filter (fun l => u.contains l) ≠ [] :=
    List.ne_nil_of_mem (List.mem_filter.2 ⟨hm, hl⟩)
  have hb : _ ∈ beatsFor width (e.addr.toNat / 4 * 4) write (e.neededLanes (e.addr.toNat / 4 * 4)) :=
    mem_beatsFor.2 ⟨u, hu, hne, rfl⟩
  show ∃ b cycles, (beatsFor width (e.addr.toNat / 4 * 4) write (e.neededLanes (e.addr.toNat / 4 * 4))).map singleCycle
    = { lineBurst := false, beats := [b] } :: cycles ∧ b.write = write ∧ b.width = width
  generalize hc : beatsFor width (e.addr.toNat / 4 * 4) write (e.neededLanes (e.addr.toNat / 4 * 4)) = beats at hb
  cases beats with
  | nil => cases hb
  | cons b bs =>
    obtain ⟨_, _, _, h⟩ := mem_beatsFor.1 (hc ▸ List.mem_cons_self : b ∈ _)
    exact ⟨b, bs.map singleCycle, rfl, by rw [h], by rw [h]⟩

end Sys2Proof.Machine
end

