-- ==== Sys2Proof/Laws/Pool.lean ====
section
/-! SUPPORT. The Data Pool: every write keeps the canonical form, and reads what was written. -/

namespace Sys2Proof.Machine

theorem poolWfFrom_mono {l : List Host.Cell} {low high : Nat} (h : poolWfFrom high l = true) (hle : low ≤ high) :
    poolWfFrom low l = true := by
  cases l with
  | nil => rfl
  | cons c l =>
    simp only [poolWfFrom, Bool.and_eq_true, decide_eq_true_eq] at h ⊢
    exact ⟨⟨by omega, h.1.2⟩, h.2⟩

theorem poolCons_wf {a low : Nat} {x : Byte} {l : List Host.Cell} (ha : low ≤ a) (h : poolWfFrom (a + 1) l = true) :
    poolWfFrom low (poolCons a x l) = true := by
  unfold poolCons
  split
  · exact poolWfFrom_mono h (by omega)
  · rename_i hx
    simp only [poolWfFrom, Bool.and_eq_true, decide_eq_true_eq]
    exact ⟨⟨ha, hx⟩, h⟩

theorem poolWrite_wfFrom (a : Nat) (x : Byte) : ∀ (l : List Host.Cell) (low : Nat), low ≤ a → poolWfFrom low l = true →
    poolWfFrom low (poolWrite l a x) = true
  | [], low, ha, _ => poolCons_wf ha rfl
  | (b, y) :: l, low, ha, h => by
    simp only [poolWfFrom, Bool.and_eq_true, decide_eq_true_eq] at h
    unfold poolWrite
    split
    · rename_i hab
      refine poolCons_wf ha ?_
      simp only [poolWfFrom, Bool.and_eq_true, decide_eq_true_eq]
      exact ⟨⟨by omega, h.1.2⟩, h.2⟩
    · split
      · rename_i _ hab
        subst hab
        exact poolCons_wf ha h.2
      · simp only [poolWfFrom, Bool.and_eq_true, decide_eq_true_eq]
        exact ⟨h.1, poolWrite_wfFrom a x l (b + 1) (by omega) h.2⟩

/-- A write of one byte keeps the canonical form. -/
theorem poolWrite_wf (pool : List Host.Cell) (a : Nat) (x : Byte) (h : Memory.wf pool = true) :
    Memory.wf (poolWrite pool a x) = true := poolWrite_wfFrom a x pool 0 (Nat.zero_le _) h

/-- A write of a run of bytes keeps the canonical form. -/
theorem poolWriteRun_wf (addr : Nat → Nat) : ∀ (bytes : List Byte) (k : Nat) (pool : List Host.Cell), Memory.wf pool = true →
    Memory.wf (poolWriteRun addr k bytes pool) = true
  | [], _, _, h => h
  | x :: xs, k, pool, h => poolWriteRun_wf addr xs (k + 1) _ (poolWrite_wf pool (addr k) x h)

theorem poolRead_poolCons (a c : Nat) (x : Byte) (l : List Host.Cell) (hl : poolRead l a = poolDefault) :
    poolRead (poolCons a x l) c = if c = a then x else poolRead l c := by
  unfold poolCons
  split
  · rename_i hx
    split
    · rename_i hc; rw [hc, hl, hx]
    · rfl
  · rw [poolRead]

/-- An address below the first listed one reads as unlisted. -/
theorem poolRead_below {l : List Host.Cell} {low c : Nat} (h : poolWfFrom low l = true) (hc : c < low) :
    poolRead l c = poolDefault := by
  induction l generalizing low with
  | nil => rfl
  | cons p l ih =>
    simp only [poolWfFrom, Bool.and_eq_true, decide_eq_true_eq] at h
    rw [poolRead, if_neg (by omega)]
    exact ih h.2 (by omega)

/-- Reading after a write: the byte written at its address, and what was there before elsewhere. -/
theorem poolRead_poolWriteFrom (a c : Nat) (x : Byte) : ∀ (l : List Host.Cell) (low : Nat), poolWfFrom low l = true →
    poolRead (poolWrite l a x) c = if c = a then x else poolRead l c
  | [], _, _ => by rw [poolWrite, poolRead_poolCons _ _ _ _ rfl]
  | (b, y) :: l, low, h => by
    simp only [poolWfFrom, Bool.and_eq_true, decide_eq_true_eq] at h
    unfold poolWrite
    split
    · rename_i hab
      have hw : poolWfFrom (a + 1) ((b, y) :: l) = true := by
        simp only [poolWfFrom, Bool.and_eq_true, decide_eq_true_eq]
        exact ⟨⟨by omega, h.1.2⟩, h.2⟩
      exact poolRead_poolCons a c x _ (poolRead_below hw (by omega))
    · split
      · rename_i _ hab
        subst hab
        rw [poolRead_poolCons a c x l (poolRead_below h.2 (by omega)), poolRead]
        split <;> rfl
      · rename_i h1 h2
        rw [poolRead, poolRead, poolRead_poolWriteFrom a c x l (b + 1) h.2]
        by_cases hc : c = b
        · simp [hc, Ne.symm h2]
        · simp [hc]

theorem poolRead_poolWrite (pool : List Host.Cell) (a c : Nat) (x : Byte) (h : Memory.wf pool = true) :
    poolRead (poolWrite pool a x) c = if c = a then x else poolRead pool c := poolRead_poolWriteFrom a c x pool 0 h

/-- The data of a read beat keeps the canonical form. -/
theorem placeRead_wf (e : Entry) (b : Beat) (lanes : List Nat) (data : LaneData) (s : State) (h : s.poolLaw) :
    (placeRead e b lanes data s).poolLaw := by
  unfold placeRead
  split
  · exact h
  · show Memory.wf (List.foldl _ _ _) = true
    have key : ∀ (ls : List Nat) (pool : List Host.Cell), Memory.wf pool = true → Memory.wf (ls.foldl (fun pool l =>
        poolWrite pool (e.poolAddr (e.readPlace (b.word + l - e.addr.toNat))) (LaneData.lane data l)) pool) = true := by
      intro ls
      induction ls with
      | nil => intro pool hp; exact hp
      | cons l ls ih => intro pool hp; exact ih _ (poolWrite_wf _ _ _ hp)
    exact key _ _ h

end Sys2Proof.Machine
end

