-- ==== Sys2Proof/Tests/Slice0.lean ====
section
/-! SUPPORT. The model's own tests: ill-formed commands that the check refuses; the worked examples of the spec; one small step
of each command; and, for every statement that has hypotheses, a state and operands that meet them. -/

namespace Sys2Proof.Tests

open Sys2Proof.Machine

-- One theorem after another: the kernel evaluations of these tests are not to run side by side.
set_option Elab.async false

/-! ### Small states -/

/-- The state a command answers. -/
def after (c : Instr) (s : State) : State :=
  match exec c s with
  | .next t => t
  | .fault _ | .refused _ => s

/-- Reset, with the Ring Port in a state, at cycle 100 of 8 slots. -/
def onLine (st : RingState) : State :=
  { State.reset with
    ring := { RingPort.initial with state := st, lost := false, lastCycle := 100, slotCount := 8, captured := some 0 } }

/-- A node in SYNC, running, with number 5 and manager 1. -/
def node : State :=
  { onLine .sync with
    mgmt := { Mgmt.initial with node := 5, manager := some 1 }
    bridge := { Bridge.initial with state := .running } }

/-- Window 0 at address 100H, one page, every attribute, wait budget 2. -/
def someWindow (inUse : Nat) : Window :=
  { valid := true, base := 0x100, size := 1, width := .w4,
    attrs := { read := true, write := true, lock := true, burst := true, line := false },
    budget := 2, owner := none, inUse := inUse }

/-- The node with window 0. -/
def windowed (inUse : Nat) : State := { node with windows := windowsInitial.set 0 (someWindow inUse) }

/-- A transaction of four bytes of node 9, tag 3, at address 100H in window 0. -/
def entryOf (op : ReqOp) (st : EntryState) : Entry :=
  { Entry.initial with
    state := st, source := 9, tag := 3, op := op, addr := 0x100, total := 4, window := 0, blocks := [0] }

/-- The node with one entry, in the queue of its state. -/
def holding (e : Entry) : State :=
  { windowed (if e.state = .replying then 0 else 1) with
    table := { Table.initial with
      entries := entriesInitial.set 0 e
      order := [0]
      requests := if e.state = .queued then [0] else [] }
    replyQueue := if e.state = .replying ∨ e.state = .executing ∧ e.op = .read then [.entry 0] else [] }

/-- The word beat at address 100H. -/
def wordBeat (write : Bool) : Beat := { addr := 0x100, width := .w4, write := write, lanes := [0, 1, 2, 3] }

/-- A READ in execution with its beat on the bus. -/
def reading : State :=
  { holding (entryOf .read .executing) with
    bus := { Bus.initial with engine := .cycle, current := some (wordBeat false) } }

/-- A READ in execution while the bus is lent. -/
def lent : State :=
  { holding (entryOf .read .executing) with
    bus := { Bus.initial with
      engine := .yielded, grant := true, grantTime := some 0, plan := [{ lineBurst := false, beats := [wordBeat false] }] }
    pins := { reset := false, holdRequest := true } }

/-- A READ in execution between two cycles, with the separating clock to come. -/
def between : State :=
  { holding (entryOf .read .executing) with
    bus := { Bus.initial with plan := [{ lineBurst := false, beats := [wordBeat false] }], separating := true } }

/-- The record of the cycle next in order after that of these states. -/
def inOrder : RawRecord := { bytes := cycleRecord 101 8 }

/-- The node with a pending commit. -/
def committing (c : CommitState) : State := { node with sched := { node.sched with commit := c } }

/-- A SWAP in execution with the beat of its read part on the bus. -/
def swapping : State :=
  { holding (entryOf .swap .executing) with
    bus := { Bus.initial with engine := .locked, lock := true, current := some (wordBeat false) } }

/-- A SWAP in execution before its sequence, with the separating clock to come. -/
def due : State :=
  { holding (entryOf .swap .executing) with
    bus := { Bus.initial with plan := [{ lineBurst := false, beats := [wordBeat false] }], separating := true } }

/-- A SWAP in execution before its sequence, the bus lent in the separating clock. -/
def lentDue : State :=
  { due with
    bus := { due.bus with engine := .yielded, grant := true, grantTime := some 0, separating := false }
    pins := { reset := false, holdRequest := true } }

/-- A state in which the hold is requested. -/
def asked (s : State) : State := { s with pins := { s.pins with holdRequest := true } }

/-- A state with a WRITE in ASSEMBLING and a reply beside its entry 0, in window 0. -/
def crowded (s : State) : State :=
  { s with
    table := { s.table with
      entries := (s.table.entries.set 1 { entryOf .write .assembling with tag := 4, blocks := [1], received := 2 }).set 2
        { entryOf .write .replying with tag := 5, blocks := [2] }
      order := [0, 1, 2] }
    windows := windowsInitial.set 0 (someWindow 2)
    replyQueue := s.replyQueue ++ [.entry 2] }

/-- The active schedule with one entry of action `a`, ANY, ANY, at index 2. -/
def scheduled (a : Action) (s : State) : State :=
  { s with sched := { s.sched with active := bankInitial.set 2 { action := a, channel := none, source := none } } }

/-- A management request of node 1 to node 5. -/
def ask : MgmtSlot :=
  { index := 0, size := 2, dest := 5, source := 1, tag := 7, status := 0, flags := 0, argLen := 0,
    param := List.replicate 8 0, args := [] }

/-- The same with parameter bytes. -/
def askWith (param : List Byte) : MgmtSlot := { ask with param := padTo 8 param }

/-- The same with arguments. -/
def askArgs (param args : List Byte) : MgmtSlot :=
  { askWith param with argLen := BitVec.ofNat 16 args.length, args := args }

/-- A node that is not yet assigned. -/
def unassigned : State := { node with mgmt := Mgmt.initial }

/-- A request of node 1 to an unassigned node. -/
def askUnassigned (number : Byte) : MgmtSlot := { askWith [number] with dest := 0 }

/-- A request segment of node 9, tag 3, to node 5 at slot 2 on channel 1: four bytes at address 100H. -/
def segment : SegSlot :=
  { index := 2, channel := 1, size := 1, dest := 5, source := 9, tag := 3, status := 0, flags := 1, total := 4, count := 0,
    addr := 0x100, data := [] }

/-- The same with data. -/
def segmentWith (data : List Byte) : SegSlot := { segment with count := BitVec.ofNat 16 data.length, data := data }

/-! ### Ill-formed commands -/

theorem test_wf_index_too_high : (Instr.identify { ask with index := 240 }).wellFormed = false := by decide
theorem test_wf_size_too_high : (Instr.identify { ask with size := 16 }).wellFormed = false := by decide
theorem test_wf_param_too_short : (Instr.assign { ask with param := [] }).wellFormed = false := by decide
theorem test_wf_args_too_long : (Instr.schedLoad { ask with size := 0, args := [0] }).wellFormed = false := by decide
theorem test_wf_channel_zero : (Instr.read { segment with channel := 0 }).wellFormed = false := by decide
theorem test_wf_channel_too_high : (Instr.read { segment with channel := 64 }).wellFormed = false := by decide
theorem test_wf_data_too_long : (Instr.write { segment with size := 0, data := [0] }).wellFormed = false := by decide
theorem test_wf_later_at_zero : (Instr.laterSegment .write 0 segment).wellFormed = false := by decide
theorem test_wf_record_too_long : (Instr.cycleMark { bytes := List.replicate 7 0 }).wellFormed = false := by decide
theorem test_wf_body_without_mark :
    (Instr.slotArrival { header := [], mark := none, body := [0] }).wellFormed = false := by decide
theorem test_wf_waits_too_many : (Instr.busError 255).wellFormed = false := by decide
theorem test_wf_commands :
    (Instr.identify ask).wellFormed = true ∧ (Instr.read segment).wellFormed = true
      ∧ (Instr.cycleMark { bytes := cycleRecord 7 240, strays := [.byte 1, .payloadMark .data] }).wellFormed = true
      ∧ (Instr.slotArrival { header := [], mark := none, body := [], strays := [.payloadMark .void] }).wellFormed = true
      ∧ (Instr.laterSegment .write 4 segment).wellFormed = true := by decide +kernel

/-! ### The spec's worked examples -/

/-- spec/01: the check over the nine characters 1 to 9 (R4). -/
theorem test_check_value : check [0x31, 0x32, 0x33, 0x34, 0x35, 0x36, 0x37, 0x38, 0x39] = 0xAEE7 := by decide +kernel

/-- spec/05, "one range at two widths": the units of the plan at width 4 and at width 2. -/
theorem test_plan_at_two_widths :
    (planFor { Entry.initial with op := .write, addr := 0x1006, total := 22 } (someWindow 0) .w4).map
        (fun c => (c.lineBurst, c.beats.map (fun b => (b.addr, b.lanes))))
      = [(true, [(0x1004, [2, 3]), (0x1008, [0, 1, 2, 3]), (0x100C, [0, 1, 2, 3])]),
         (true, [(0x1010, [0, 1, 2, 3]), (0x1014, [0, 1, 2, 3]), (0x1018, [0, 1, 2, 3])])]
    ∧ (planFor { Entry.initial with op := .write, addr := 0x1006, total := 22 } (someWindow 0) .w2).map
        (fun c => c.beats.map (fun b => b.addr))
      = [[0x1006, 0x1008, 0x100A, 0x100C, 0x100E], [0x1010, 0x1012, 0x1014, 0x1016, 0x1018, 0x101A]] := by
  decide +kernel

/-- spec/05, "a line read": the units in wrap order, and the transaction positions that each completes. -/
theorem test_plan_of_a_line_read :
    let e := { Entry.initial with op := .read, addr := 0x200A, total := 20 }
    let w := { someWindow 0 with attrs := { read := true, write := false, lock := false, burst := true, line := true } }
    (planFor e w .w4).map (fun c => c.beats.map (fun b => (b.addr, b.positions e b.lanes)))
      = [[(0x2008, [0, 1]), (0x200C, [2, 3, 4, 5]), (0x2000, []), (0x2004, [])],
         [(0x2010, [6, 7, 8, 9]), (0x2014, [10, 11, 12, 13]), (0x2018, [14, 15, 16, 17]), (0x201C, [18, 19])]] := by
  decide +kernel

/-- spec/05, "narrowing inside a burst": the first beat answered with accepted width 2, BURST-READY and then READY. -/
theorem test_narrowing_inside_a_burst :
    let s : State := { reading with
      table := { reading.table with
        entries := entriesInitial.set 0 { entryOf .write .executing with addr := 0x3000, total := 8 } }
      bus := { reading.bus with
        current := some { addr := 0x3000, width := .w4, write := true, lanes := [0, 1, 2, 3] }
        rest := [{ addr := 0x3004, width := .w4, write := true, lanes := [0, 1, 2, 3] }], lineBurst := true, burst := true } }
    let t := after (.beatTaken 0 .burstReady .w2 ⟨0, 0, 0, 0⟩) s
    let u := after (.beatTaken 0 .ready .w2 ⟨0, 0, 0, 0⟩) s
    (t.bus.current.map (fun b => b.addr) = some 0x3002 ∧ t.bus.rest.map (fun b => b.addr) = [0x3004, 0x3006]
      ∧ (t.entry 0).done = 2 ∧ t.bus.width = .w2)
    ∧ (u.bus.engine = .idle ∧ u.bus.plan.map (fun c => c.beats.map (fun b => b.addr)) = [[0x3002, 0x3004, 0x3006]]) := by
  decide +kernel

/-- A WRITE of 32 bytes at 5000H, whose window it holds. -/
def longWrite (st : EntryState) : State :=
  let s := holding { entryOf .write st with addr := 0x5000, total := 32, received := 32 }
  { s with windows := windowsInitial.set 0 { someWindow 1 with base := 0x5000 } }

/-- The unit addresses of the beat on the bus, of the rest of its cycle, and of the plan. -/
def units (s : State) : Option Nat × List Nat × List (List Nat) :=
  (s.bus.current.map (fun b => b.addr), s.bus.rest.map (fun b => b.addr), s.bus.plan.map (fun c => c.beats.map (fun b => b.addr)))

/-- spec/06, "a write cut by a hold": the Bus Engine is in CYCLE at the handover, and at the hold release. -/
theorem test_cycle_at_handover_and_at_release :
    let word := fun a : Nat => ({ addr := a, width := .w4, write := true, lanes := [0, 1, 2, 3] } : Beat)
    let handed := arbitrate (longWrite .queued)
    let released := after .holdRelease { longWrite .executing with
      bus := { lent.bus with plan := [{ lineBurst := true, beats := [word 0x5008, word 0x500C] }] }
      pins := lent.pins }
    (handed.bus.engine = .cycle ∧ handed.bus.burst = true
      ∧ units handed = (some 0x5000, [0x5004, 0x5008, 0x500C], [[0x5010, 0x5014, 0x5018, 0x501C]]))
    ∧ (released.bus.engine = .cycle ∧ released.bus.grant = false ∧ released.bus.burst = true
      ∧ units released = (some 0x5008, [0x500C], [])) := by
  decide +kernel

/-- spec/02, R40: a target of 500 is ahead at 499, reached at 500, passed at 502, ahead at 120. -/
theorem test_commit_target_500 :
    (CommitState.pendingAt 500).due 499 = none ∧ (CommitState.pendingAt 500).due 500 = some false
      ∧ (CommitState.pendingAt 500).due 502 = some true ∧ (CommitState.pendingAt 500).due 120 = none := by decide

/-- spec/02, R26: indices 0, 2, 2, 5, 3 in a cycle of four slots: the second 2 and the 5 are out of sequence. -/
theorem test_sequence_of_indices :
    let s := { node with ring := { node.ring with slotCount := 4 } }
    s.inSequence 0 = true ∧ (s.withPrevIndex (some 0)).inSequence 2 = true
      ∧ (s.withPrevIndex (some 2)).inSequence 2 = false ∧ (s.withPrevIndex (some 2)).inSequence 5 = false
      ∧ (s.withPrevIndex (some 2)).inSequence 3 = true := by decide

/-! ### One step of each command -/

theorem test_lineLoss : (after .lineLoss reading).ring.state = .down ∧ ((after .lineLoss reading).entry 0).mark = .quiet := by
  decide +kernel
theorem test_lineRestore : (after .lineRestore State.reset).ring.state = .hunt := by decide +kernel
theorem test_cycleMark :
    let record : RawRecord := { bytes := cycleRecord 101 8, strays := [.byte 1] }
    let t := after (.cycleMark record) (onLine .armed)
    t.ring.state = .sync ∧ t.ring.lineOut = .record record := by decide +kernel
theorem test_cycleLost :
    (after .cycleLost { node with ring := { node.ring with period := some 3, timebase := 6 } }).ring.state = .hunt := by
  decide +kernel
theorem test_timebaseTick : (after .timebaseTick reading).reports.counters.busyTicks = 1 := by decide +kernel
theorem test_scheduleSwap :
    after .scheduleSwap (committing .pendingNext) = after (.cycleMark inOrder) (committing .pendingNext)
      ∧ (after .scheduleSwap (committing .pendingNext)).sched.swapCycle = some 101
      ∧ after .scheduleSwap node = node := by decide +kernel
theorem test_assemblyGapExpiry :
    let write := fun gap => holding { entryOf .write .assembling with gap := gap }
    (after .assemblyGapExpiry (write 3)).replyQueue = [.entry 0] ∧ after .assemblyGapExpiry (write 2) = write 2 := by
  decide +kernel
theorem test_replyExpired :
    let reply := fun count => holding { entryOf .write .replying with deadline := count }
    (after .replyExpired (reply 7)).table.order = [] ∧ after .replyExpired (reply 6) = reply 6 := by decide +kernel
theorem test_slotArrival_forwards_strays :
    (after (.slotArrival { encodeSlot 0 0 0 .void (List.replicate 16 0) with strays := [.payloadMark .data, .byte 7] }) node).ring.lineOut
      = .slot { encodeSlot 0 0 0 .void (List.replicate 16 0) with strays := [.payloadMark .data, .byte 7] } := by decide +kernel
theorem test_slotArrival_bad_header :
    (after (.slotArrival { header := [], mark := none, body := [] }) node).reports.ring.events = 1 := by decide +kernel
theorem test_identify : (after (.identify ask) node).mgmt.queue.map (fun x => x.args) = [[0x0E, 0x27, 0x03, 0x16, 2]] := by
  decide +kernel
theorem test_assign : (after (.assign (askWith [6])) { node with bridge := Bridge.initial }).mgmt.node = 6 := by decide +kernel
/-- R161: an ASSIGN of node 6 from source 200: to an unassigned node (log 21), and to node 5 of manager 1, case 4. -/
theorem test_assign_source_200 :
    let s := after (.assign { askUnassigned 6 with source := 200 }) unassigned
    let t := after (.assign { askWith [6] with source := 200 }) node
    (s.mgmt.node = 0 ∧ s.mgmt.queue.map (fun x => x.status) = [MgmtStatus.badArg.code] ∧ s.reports.mgmt.events = 0)
    ∧ (t.mgmt.node = 5 ∧ t.mgmt.queue.map (fun x => x.status) = [MgmtStatus.denied.code] ∧ t.reports.mgmt.events = 1) := by
  decide +kernel
theorem test_configure :
    (after (.configure (askArgs [0x08] [0, 0, 0, 0, 0, 0, 0, 15, 0, 0, 0])) node).mgmt.params.gapLimit = 15 := by
  decide +kernel
theorem test_schedLoad :
    (after (.schedLoad (askArgs [239, 1] [0x40, 0x05])) node).sched.shadow[239]?
      = some { action := .take, channel := some 5, source := none } := by decide +kernel
theorem test_schedRead :
    (after (.schedRead (askWith [0, 2, 1])) (scheduled .give node)).mgmt.queue.map (fun x => x.args) = [[0x80, 0x80]] := by
  decide +kernel
theorem test_schedCommitNext : (after (.schedCommitNext ask) node).sched.commit = .pendingNext := by decide +kernel
/-- R38: a selector that is neither NEXT nor AT. -/
theorem test_schedCommit_selector_3 :
    let t := after (.slotArrival ((askWith [3]).arrival .schedCommit).raw) (committing (.pendingAt 258))
    t.sched.commit = .pendingAt 258
      ∧ t.mgmt.queue.map (fun x => (x.status, x.param.take 3)) = [(MgmtStatus.badArg.code, [2, 1, 2])] := by decide +kernel
theorem test_schedCommitAt : (after (.schedCommitAt (askWith [0, 1, 2])) node).sched.commit = .pendingAt 258 := by
  decide +kernel
theorem test_schedCancel :
    (after (.schedCancel ask) { node with sched := { node.sched with commit := .pendingNext } }).sched.commit = .none := by
  decide +kernel
theorem test_windowLoad :
    ((after (.windowLoad (askArgs [] [3, 0, 0x1F, 2, 0, 0, 2, 0, 0, 1, 8, 0])) node).window 3).base = 0x200 := by
  decide +kernel
theorem test_windowInvalidate :
    ((after (.windowInvalidate (askArgs [] [0, 0, 0, 0, 0, 0, 0, 0, 0, 0, 0, 0])) (windowed 0)).window 0)
      = { someWindow 0 with valid := false } := by decide +kernel
theorem test_windowRead :
    (after (.windowRead ask) (windowed 0)).mgmt.queue.map (fun x => x.args)
      = [[0, 0x80, 0x0F, 4, 0, 0, 1, 0, 0, 1, 2, 0]] := by decide +kernel
theorem test_start : (after (.start ask) { node with bridge := Bridge.initial }).bridge.state = .running := by decide +kernel
theorem test_stop : (after (.stop ask) reading).bridge.state = .draining := by decide +kernel
theorem test_stopWithFlush : (after (.stopWithFlush ask) lent).bridge.state = .stopped := by decide +kernel
theorem test_abort : ((after (.abort (askWith [1])) (holding (entryOf .read .queued))).entry 0).final = some .aborted := by
  decide +kernel
theorem test_abortQuiet : (after (.abortQuiet (askWith [1])) (holding (entryOf .read .queued))).table.order = [] := by
  decide +kernel
theorem test_status : (after (.status ask) node).mgmt.queue.map (fun x => x.args.length) = [24] := by decide +kernel
theorem test_reportRead : (after (.reportRead (askWith [4])) node).mgmt.queue.map (fun x => x.args.length) = [28] := by
  decide +kernel
theorem test_reportClear :
    (after (.reportClear ask) (report { kind := .cycleSkip } node)).reports.ring = { events := 1, record := none } := by
  decide +kernel
theorem test_reset : (after (.reset ask) node).bridge = { Bridge.initial with resetCount := 1 } := by decide +kernel
theorem test_softResetTakesEffect :
    (after .softResetTakesEffect { node with bridge := { node.bridge with softReset := some (1, 7) } }).bridge
      = { Bridge.initial with resetCount := 1 } := by decide +kernel
theorem test_read : ((after (.read segment) (scheduled .take (windowed 0))).entry 0).state = .executing := by decide +kernel
theorem test_write :
    ((after (.write { segmentWith [1, 2] with flags := 0 }) (scheduled .take (windowed 0))).entry 0).received = 2 := by
  decide +kernel
theorem test_writeQuiet :
    let t := after (.writeQuiet (segmentWith [1, 2, 3, 4])) (scheduled .take (windowed 0))
    t.bus.engine = .cycle ∧ t.bus.current = some (wordBeat true) ∧ t.bus.plan = [] := by decide +kernel
theorem test_swap : ((after (.swap (segmentWith [1, 2, 3, 4])) (scheduled .take (windowed 0))).window 0).inUse = 1 := by
  decide +kernel
theorem test_add :
    ((after (.add { segmentWith [1, 2, 3] with total := 3 }) (scheduled .take (windowed 0))).descriptor 0).map (fun r => r.status)
      = some .align := by decide +kernel
theorem test_cswap :
    ((after (.cswap (segmentWith [1, 2, 3, 4, 5, 6, 7, 8])) (scheduled .take (windowed 0))).entry 0).state = .executing := by
  decide +kernel
theorem test_laterSegment :
    ((after (.laterSegment .write 2 (segmentWith [3, 4])) (scheduled .take (holding
      { entryOf .write .assembling with received := 2 }))).entry 0).state = .executing := by decide +kernel
theorem test_busCycleStart : (after .busCycleStart between).bus.current = some (wordBeat false) := by decide +kernel
/-- R80, R113: at the end of an execution the queued READ is handed over and joins the Reply Queue; its first cycle starts after
the separating clock. So too where the entry joins in that clock. A hold granted in it separates the two cycles itself. -/
theorem test_cycles_are_separated :
    let next := { entryOf .read .queued with tag := 4, blocks := [1] }
    let s : State := { reading with
      table := { reading.table with
        entries := (entriesInitial.set 0 (entryOf .read .executing)).set 1 next, order := [0, 1], requests := [1] } }
    let ended := after (.beatTaken 0 .ready .w4 ⟨1, 2, 3, 4⟩) s
    let joined := after (.read { segment with tag := 4 })
      (scheduled .take (after (.beatTaken 0 .ready .w4 ⟨1, 2, 3, 4⟩) reading))
    let held := after .holdRequest ended
    (ended.bus.engine = .idle ∧ (busOut ended).cycleStart = false ∧ (ended.entry 1).state = .executing
      ∧ ended.table.requests = [] ∧ ended.replyQueue = [.entry 0, .entry 1] ∧ ended.bus.plan.length = 1)
    ∧ ((after .busCycleStart ended).bus.engine = .cycle ∧ (after .busCycleStart ended).bus.plan = [])
    ∧ (joined.bus.engine = .idle ∧ (joined.entry 1).state = .executing ∧ (after .busCycleStart joined).bus.engine = .cycle)
    ∧ (held.bus.engine = .yielded ∧ (after .holdRelease held).bus.engine = .cycle) := by decide +kernel
/-- R80, R111 step 3, R113: at the end of an execution a queued SWAP is handed over and planned, and its sequence starts after
the separating clock. R77, R81: an ABORT in that clock finds the sequence started. R111, R121 to R124: a hold request in it is
granted, and the sequence starts at the release, unless an ABORT has ended the SWAP while the bus was lent. -/
theorem test_locked_head_is_handed_over :
    let s : State := { reading with
      table := { reading.table with
        entries := reading.table.entries.set 1 { entryOf .swap .queued with tag := 4, blocks := [1], received := 4 }
        order := [0, 1], requests := [1] } }
    let t := after (.beatTaken 0 .ready .w4 ⟨1, 2, 3, 4⟩) s
    let aborted := after (.abort (askWith [3, 9, 4])) t
    let held := after .holdRequest t
    ((t.entry 1).state = .executing ∧ t.table.requests = [] ∧ t.bus.engine = .idle ∧ (busOut t).cycleStart = false
      ∧ t.bus.plan = [{ lineBurst := false, beats := [wordBeat false] }])
    ∧ ((after .busCycleStart t).bus.engine = .locked ∧ (after .busCycleStart t).bus.current = some (wordBeat false))
    ∧ (aborted.bus = (after .busCycleStart t).bus ∧ (aborted.entry 1).state = .executing ∧ (aborted.entry 1).mark = .reply)
    ∧ (held.bus.engine = .yielded ∧ held.bus.plan = t.bus.plan ∧ held.table = t.table)
    ∧ (after .holdRelease held).bus = (after .busCycleStart t).bus
    ∧ (let ended := after (.abort (askWith [3, 9, 4])) held
      ended.bus.engine = .yielded ∧ ended.bus.plan = [] ∧ (ended.entry 1).final = some .aborted ∧ (ended.entry 1).done = 0
        ∧ (ended.entry 1).old = none) := by decide +kernel
/-- R73, R81 to R84: an ABORT of everything while the bus is lent: the READ ends ABORTED, the WRITE is answered, the reply is
abandoned. -/
theorem test_abort_of_several :
    let t := after (.abort (askWith [1])) (crowded lent)
    (t.entry 0).final = some .aborted ∧ (t.entry 1).final = some .aborted ∧ (t.entry 2).state = .free
      ∧ t.replyQueue = [.entry 0, .entry 1] ∧ t.table.order = [0, 1] ∧ (t.window 0).inUse = 0 ∧ t.bus.engine = .yielded
      ∧ t.reports.counters.executed = 1 ∧ t.reports.bus.events = 1 := by decide +kernel
/-- R77, R81: an ABORT of a SWAP in its sequence sets the mark alone; at the end of the write part the SWAP ends ABORTED, with
its old value and done the total length. -/
theorem test_aborted_sequence_runs_whole :
    let marked := after (.abort (askWith [1])) swapping
    let writing : State := { holding { entryOf .swap .executing with old := some [1, 2, 3, 4], mark := .reply } with
      bus := { swapping.bus with current := some (wordBeat true) } }
    let ended := (after (.beatTaken 0 .ready .w4 ⟨0, 0, 0, 0⟩) writing).entry 0
    (marked.entry 0 = { swapping.entry 0 with mark := .reply } ∧ marked.bus = swapping.bus)
    ∧ (ended.state = .replying ∧ ended.final = some .aborted ∧ ended.done = 4 ∧ ended.old = some [1, 2, 3, 4]) := by
  decide +kernel
theorem test_beatTaken :
    let t := after (.beatTaken 0 .ready .w4 ⟨1, 2, 3, 4⟩) reading
    (t.entry 0).final = some .done ∧ t.txBytes (t.entry 0) 0 4 = [1, 2, 3, 4] := by decide +kernel
theorem test_beatTaken_locked :
    let t := after (.beatTaken 0 .ready .w4 ⟨1, 2, 3, 4⟩) swapping
    (t.entry 0).old = some [1, 2, 3, 4] ∧ t.bus.plan = [{ lineBurst := false, beats := [wordBeat true] }] := by decide +kernel
theorem test_busError : ((after (.busError 0) reading).entry 0).final = some .busError := by decide +kernel
theorem test_busTimeout : ((after .busTimeout reading).entry 0).final = some .busTimeout := by decide +kernel
theorem test_holdRequest : (after .holdRequest node).bus.engine = .yielded := by decide +kernel
theorem test_holdRelease : (after .holdRelease lent).bus.engine = .cycle := by decide +kernel
theorem test_holdLong :
    (after .holdLong { lent with
      ring := { lent.ring with timebase := 3 }
      mgmt := { lent.mgmt with params := { Params.initial with holdLimit := 2 } } }).bus.holdLong = true := by decide +kernel
theorem test_drainComplete :
    (after .drainComplete { node with bridge := { node.bridge with state := .draining } }).bridge.state = .stopped := by
  decide +kernel
theorem test_pinReset : (after .pinReset reading).table = Table.initial := by decide +kernel
theorem test_pinResetRelease :
    (after .pinResetRelease { State.reset with pins := { reset := true, holdRequest := true } }).bus.grant = true := by
  decide +kernel
theorem test_lockedSequenceNextCycle :
    (after .lockedSequenceNextCycle { swapping with
      bus := { swapping.bus with current := none, plan := [{ lineBurst := false, beats := [wordBeat true] }] } }).bus.current
      = some (wordBeat true) := by decide +kernel

/-! ### Laws of small states -/

/-- A member's number is one of a descriptor or of an entry. -/
def memberBelow (m : Member) : Bool :=
  match m with
  | .desc d => decide (d < 4)
  | .entry i => decide (i < 8)

/-- The lists of the queues have no repetition, and no member past the entries and descriptors that there are. -/
def listsCheck (s : State) : Bool :=
  decide (s.table.order.Nodup ∧ ∀ i ∈ s.table.order, i < 8) && decide (s.table.requests.Nodup ∧ ∀ i ∈ s.table.requests, i < 8)
    && decide (s.replyQueue.Nodup ∧ ∀ m ∈ s.replyQueue, memberBelow m = true)

/-- What the law of the queues asks of entry `i`. -/
def entryCheck (s : State) (i : Nat) : Bool :=
  decide (i ∈ s.table.order ↔ (s.entry i).state ≠ .free) && decide (i ∈ s.table.requests ↔ (s.entry i).state = .queued)
    && match (s.entry i).state with
      | .replying => decide (Member.entry i ∈ s.replyQueue)
      | .executing =>
        if (s.entry i).op = .read then decide ((s.entry i).mark = .quiet) || decide (Member.entry i ∈ s.replyQueue)
        else !decide (Member.entry i ∈ s.replyQueue)
      | .free | .assembling | .queued => !decide (Member.entry i ∈ s.replyQueue)

/-- The law of the queues, over the eight entries and four descriptors. -/
def queueCheck (s : State) : Bool :=
  decide (s.table.entries.length = 8 ∧ s.descriptors.length = 4) && listsCheck s && (List.range 8).all (entryCheck s)
    && decide (∀ d ∈ List.range 4, Member.desc d ∈ s.replyQueue ↔ (s.descriptor d).isSome = true)

/-- The Reply Queue's part of the law, for one entry that passes its check. -/
theorem replies_of_check {s : State} {i : Nat} (h : entryCheck s i = true) :
    (.entry i ∈ s.replyQueue → (s.entry i).state = .replying ∨ (s.entry i).state = .executing ∧ (s.entry i).op = .read)
      ∧ ((s.entry i).state = .replying → .entry i ∈ s.replyQueue)
      ∧ ((s.entry i).state = .executing → (s.entry i).op = .read → (s.entry i).mark ≠ .quiet → .entry i ∈ s.replyQueue) := by
  unfold entryCheck at h
  cases hs : (s.entry i).state <;> by_cases ho : (s.entry i).op = .read <;> simp_all
  tauto

theorem queueLaw_of_check {s : State} (h : queueCheck s = true) : s.queueLaw := by
  simp only [queueCheck, listsCheck, Bool.and_eq_true, decide_eq_true_eq, List.all_eq_true, List.mem_range] at h
  obtain ⟨⟨⟨hl, hd⟩, ⟨⟨ho, bo⟩, hr, br⟩, hq, bq⟩, he⟩ := h.1
  have h3 := h.2
  have both : ∀ i < 8, (i ∈ s.table.order ↔ (s.entry i).state ≠ .free) ∧ (i ∈ s.table.requests ↔ (s.entry i).state = .queued) :=
    fun i hi => by
      have := he i hi
      simp only [entryCheck, Bool.and_eq_true, decide_eq_true_eq] at this
      exact this.1
  have h1 := fun i hi => (both i hi).1
  have h2 := fun i hi => (both i hi).2
  have h4 := fun i hi => (replies_of_check (he i hi)).1
  have h5 := fun i hi => (replies_of_check (he i hi)).2.1
  have h6 := fun i hi => (replies_of_check (he i hi)).2.2
  have past : ∀ i, ¬i < 8 → s.entry i = Entry.initial := fun i hi => entry_ge (by omega)
  refine ⟨hl, hd, ho, fun i => ?_, hr, fun i => ?_, hq, fun d => ?_, fun i hi => ?_, fun i hi => ?_, fun i hi => ?_⟩
  · by_cases hi : i < 8
    · exact h1 i hi
    · exact ⟨fun h => absurd (bo i h) hi, fun h => absurd (by rw [past i hi]; rfl) h⟩
  · by_cases hi : i < 8
    · exact h2 i hi
    · exact ⟨fun h => absurd (br i h) hi, fun h => by rw [past i hi] at h; exact absurd h (by decide)⟩
  · by_cases hi : d < 4
    · exact h3 d hi
    · refine ⟨fun h => absurd (of_decide_eq_true (bq _ h)) hi, fun h => ?_⟩
      have : s.descriptor d = none := by simp [State.descriptor, List.getD, List.getElem?_eq_none (by omega : s.descriptors.length ≤ d)]
      rw [this] at h
      exact absurd h (by decide)
  · exact h4 i (of_decide_eq_true (bq _ hi)) hi
  · by_cases h8 : i < 8
    · exact h5 i h8 hi
    · rw [past i h8] at hi; exact absurd hi (by decide)
  · by_cases h8 : i < 8
    · exact h6 i h8 hi
    · rw [past i h8] at hi; exact absurd hi (by decide)

/-- At most one entry is EXECUTING: a list of eight entries at most, checked pair by pair. -/
theorem oneExecuting_of_check {s : State} (hl : s.table.entries.length = 8)
    (h : ∀ i < 8, ∀ j < 8, (s.entry i).state = .executing → (s.entry j).state = .executing → i = j) : s.oneExecuting := by
  intro i j hi hj
  have lt : ∀ k, (s.entry k).state = .executing → k < 8 := fun k hk => by
    by_cases h8 : k < 8
    · exact h8
    · rw [entry_ge (by omega)] at hk; exact absurd hk (by decide)
  exact h i (lt i hi) j (lt j hj) hi hj

/-- What holds of a FREE entry and of the first eight holds of every entry. -/
theorem every_entry {s : State} {p : Nat → Entry → Prop} (hl : s.table.entries.length = 8) (h : ∀ i < 8, p i (s.entry i))
    (free : ∀ i, p i Entry.initial) (i : Nat) : p i (s.entry i) := by
  by_cases h8 : i < 8
  · exact h i h8
  · rw [entry_ge (by omega)]; exact free i

/-- In a state that holds entry 0 alone every open entry is entry 0. -/
theorem only_zero {s : State} {e : Entry} (h : s.table.entries = entriesInitial.set 0 e) {j : Nat} (hj : (s.entry j).state ≠ .free) :
    j = 0 := by
  by_contra hne
  apply hj
  by_cases h8 : j < 8
  · simp only [State.entry, h, entriesInitial, List.getD_eq_getElem?_getD]
    rw [List.getElem?_set_ne (by omega), List.getElem?_replicate]
    simp [Config.entries, h8, Entry.initial]
  · rw [entry_ge (by rw [h]; show 8 ≤ j; omega)]; rfl

/-- A state that has window 0 alone has its other windows at their reset values. -/
theorem window_other {s : State} {n i : Nat} (h : s.windows = windowsInitial.set 0 (someWindow n)) (hi : i ≠ 0) :
    s.window i = Window.initial := by
  simp only [State.window, h, windowsInitial, List.getD_eq_getElem?_getD]
  rw [List.getElem?_set_ne (by omega), List.getElem?_replicate]
  by_cases h16 : i < 16 <;> simp [Config.windows, h16]

/-- The windows of a state that has window 0 alone obey the law of windows. -/
theorem windowLaw_of_first {s : State} (n : Nat) (h : s.windows = windowsInitial.set 0 (someWindow n)) : s.windowLaw := by
  have first : s.window 0 = someWindow n := by simp [State.window, h, windowsInitial, Config.windows]
  have other : ∀ i, i ≠ 0 → s.window i = Window.initial := fun i hi => window_other h hi
  refine ⟨by simp [h, windowsInitial, Config.windows], fun i => ?_, fun i j a hi hj => ?_⟩
  · by_cases hi : i = 0
    · subst hi; rw [first]; intro _; exact ⟨by simp [someWindow], by simp [someWindow], by simp [someWindow, Window.limit], by simp [someWindow], fun n h => by cases h⟩
    · rw [other i hi]; intro h; exact absurd h (by decide)
  · have zero : ∀ k, (s.window k).holds a = true → k = 0 := fun k hk => by
      by_contra hne
      rw [other k hne] at hk
      exact absurd hk (by simp [Window.holds, Window.initial])
    rw [zero i hi, zero j hj]

/-! ### Witnesses: a state and operands that meet the hypotheses of each statement -/

/-- The part with its reset pin asserted. -/
def pinned : State := { State.reset with pins := { reset := true, holdRequest := false } }

/-- The node with a wait count. -/
def waiting (n : Nat) : State := { reading with bus := { reading.bus with waitCount := n } }

/-- The node at a timebase value. -/
def atTime (t : Word) (s : State) : State := { s with ring := { s.ring with timebase := t } }

/-- A state with another configuration. -/
def configured (p : Params) (s : State) : State := { s with mgmt := { s.mgmt with params := p } }

/-- A state with another bridge state. -/
def bridged (b : BridgeState) (s : State) : State := { s with bridge := { s.bridge with state := b } }

/-- A slot index is admitted where no slot of the cycle has been held before. -/
theorem admits_first {s : State} {i : Byte} (h : s.pins.reset = false ∧ s.ring.state = .sync ∧ s.ring.blind = false
    ∧ i.toNat < s.ring.slotCount.toNat ∧ s.prevIndex = none) : s.admits i :=
  ⟨h.1, h.2.1, h.2.2.1, h.2.2.2.1, fun p hp => by rw [h.2.2.2.2] at hp; cases hp⟩

theorem witness_StepOnAnEmptyQueueIsOneClock :
    (pinned.pending = [] ∧ pinned.pins.reset = true)
    ∧ (∃ s t : State, s.pending = [] ∧ s.pins.reset = false ∧ s.mgmt.params.prescaler.clocks ≤ s.ring.divider + 1
        ∧ exec .timebaseTick s = .next t ∧ t.bus.engine = .idle)
    ∧ (∃ s t : State, s.pending = [] ∧ s.pins.reset = false ∧ ¬s.mgmt.params.prescaler.clocks ≤ s.ring.divider + 1
        ∧ t = { s with ring := { s.ring with divider := s.ring.divider + 1 } } ∧ t.bus.engine = .yielded)
    ∧ (∃ s t : State, s.pending = [] ∧ s.pins.reset = false ∧ ¬s.mgmt.params.prescaler.clocks ≤ s.ring.divider + 1
        ∧ t = { s with ring := { s.ring with divider := s.ring.divider + 1 } } ∧ t.bus.engine = .locked ∧ t.bus.current = none)
    ∧ (∃ s t : State, s.pending = [] ∧ s.pins.reset = false ∧ ¬s.mgmt.params.prescaler.clocks ≤ s.ring.divider + 1
        ∧ t = { s with ring := { s.ring with divider := s.ring.divider + 1 } } ∧ t.bus.engine = .cycle
        ∧ t.bus.current = some (wordBeat false) ∧ t.executing = some 0
        ∧ (t.window (t.entry 0).window).budget.toNat ≤ t.bus.waitCount + 1)
    ∧ (∃ s t : State, s.pending = [] ∧ s.pins.reset = false ∧ ¬s.mgmt.params.prescaler.clocks ≤ s.ring.divider + 1
        ∧ t = { s with ring := { s.ring with divider := s.ring.divider + 1 } } ∧ t.bus.engine = .cycle
        ∧ t.bus.current = some (wordBeat false) ∧ t.executing = some 0
        ∧ t.bus.waitCount + 1 < (t.window (t.entry 0).window).budget.toNat) := by
  refine ⟨⟨rfl, rfl⟩, ⟨{ node with ring := { node.ring with divider := 7 } }, _, rfl, rfl, by decide, rfl, by decide +kernel⟩,
    ⟨lent, _, rfl, rfl, by decide, rfl, rfl⟩,
    ⟨{ swapping with bus := { swapping.bus with current := none } }, _, rfl, rfl, by decide, rfl, rfl, rfl⟩,
    ⟨waiting 1, _, rfl, rfl, by decide, rfl, rfl, rfl, by decide +kernel, by decide +kernel⟩,
    ⟨waiting 0, _, rfl, rfl, by decide, rfl, rfl, rfl, by decide +kernel, by decide +kernel⟩⟩

theorem witness_PinResetTakesEveryBlockToItsResetValue :
    (pinned.pins.reset = true ∧ Instr.lineLoss ≠ .pinReset ∧ Instr.lineLoss ≠ .pinResetRelease
      ∧ Instr.lineLoss ≠ .holdRequest ∧ Instr.lineLoss ≠ .holdRelease)
    ∧ (exec .pinReset node = .next (pinReset node) ∧ node.pins.holdRequest = false)
    ∧ (exec .pinReset lent = .next (pinReset lent) ∧ lent.pins.holdRequest = true)
    ∧ (let s := { pinned with pins := { reset := true, holdRequest := true } }
      s.pins.reset = true ∧ s.bus.engine = .idle ∧ s.pins.holdRequest = true ∧ s.executing = none)
    ∧ (let s := { due with pins := { reset := true, holdRequest := true } }
      s.pins.reset = true ∧ s.bus.engine = .idle ∧ s.pins.holdRequest = true ∧ (s.entry 0).op.locked = true)
    ∧ (pinned.bus.engine = .idle ∧ pinned.pins.holdRequest = false ∧ pinned.executing = none ∧ pinned.table.requests = [])
    ∧ node.pins.reset = false := by
  exact ⟨⟨rfl, by decide, by decide, by decide, by decide⟩, ⟨rfl, rfl⟩, ⟨rfl, rfl⟩, by decide +kernel, by decide +kernel,
    by decide +kernel, rfl⟩

theorem witness_LineEventsMoveTheRingPort :
    (State.reset.pins.reset = false ∧ State.reset.ring.state = .down)
    ∧ (node.pins.reset = false ∧ node.ring.state ≠ .down ∧ node.bridge.softReset = none ∧ node.executing = none
        ∧ ¬(node.bus.engine = .idle ∧ node.pins.holdRequest = true))
    ∧ (reading.pins.reset = false ∧ reading.ring.state ≠ .down ∧ reading.bridge.softReset = none
        ∧ reading.bus.engine = .cycle ∧ reading.executing = some 0)
    ∧ (swapping.ring.state ≠ .down ∧ swapping.bridge.softReset = none ∧ swapping.bus.engine = .locked) := by decide +kernel

theorem witness_LineLossEndsAnExecutionBetweenCycles :
    lent.pins.reset = false ∧ lent.ring.state ≠ .down ∧ lent.bridge.softReset = none ∧ lent.bus.engine = .yielded
      ∧ lent.executing = some 0
    ∧ (between.pins.reset = false ∧ between.ring.state ≠ .down ∧ between.bridge.softReset = none
      ∧ (between.bus.engine = .idle ∧ between.pins.holdRequest = false ∧ (between.entry 0).op.locked = false)
      ∧ between.executing = some 0)
    ∧ (due.pins.reset = false ∧ due.ring.state ≠ .down ∧ due.executing = some 0 ∧ due.bus.engine = .idle
      ∧ due.pins.holdRequest = false ∧ (due.entry 0).op.locked = true)
    ∧ exec .busCycleStart due = .next (after .busCycleStart due) := by
  have read : ∀ s ∈ [lent, between], s.pins.reset = false ∧ s.ring.state ≠ .down ∧ s.bridge.softReset = none
      ∧ s.executing = some 0 := by decide +kernel
  have h := read lent (by simp)
  exact ⟨h.1, h.2.1, h.2.2.1, rfl, h.2.2.2, by decide +kernel, by decide +kernel, rfl⟩

theorem witness_HuntLooksForAValidRecord :
    (onLine .hunt).pins.reset = false ∧ (onLine .hunt).ring.state = .hunt
      ∧ judgeCycle (cycleRecord 65535 1) = some { number := 65535, slotCount := 1 }
      ∧ judgeCycle (cycleRecord 0 240) = some { number := 0, slotCount := 240 }
      ∧ judgeCycle (cycleRecord 0 241) = none ∧ judgeCycle (cycleRecord 0 0) = none := by decide +kernel

/-- In a state that holds entry 0 alone no other entry reaches a limit. -/
theorem reaches_zero {s : State} {e : Entry} (h : s.table.entries = entriesInitial.set 0 e) {j : Nat} :
    (s.reachesGapLimit j → j = 0) ∧ (s.reachesDeadline j → j = 0) :=
  ⟨fun hj => only_zero h (by rw [hj.1]; decide), fun hj => only_zero h (by rw [hj.1]; decide)⟩

theorem nothing_expires (st : RingState) (n : Half) : (onLine st).nothingExpires n := by
  have initial : ∀ i, (onLine st).entry i = Entry.initial :=
    every_entry (s := State.reset) (p := fun _ e => e = Entry.initial) rfl (by decide +kernel) (by simp)
  exact ⟨fun i h => by rw [State.reachesGapLimit, initial] at h; exact absurd h.1 (by decide),
    fun i h => by rw [State.reachesDeadline, initial] at h; exact absurd h.1 (by decide), fun ⟨_, h, _⟩ => by cases h⟩

/-- A valid record of cycle 101 is a cycle mark in SYNC, of that number. -/
theorem marks_101 {s : State} (h : s.ring.state = .sync) : s.marksSync (cycleRecord 101 8) 101 :=
  Or.inl ⟨{ number := 101, slotCount := 8 }, by decide +kernel, rfl, Or.inl h⟩

/-- A write in ASSEMBLING with a gap count, and a reply with a deadline count. -/
def gapped (n : Nat) : State := holding { entryOf .write .assembling with gap := n }
def overdue (n : Nat) : State := holding { entryOf .write .replying with deadline := n }

/-- The write at gap count 3, and it alone, reaches the limit of 4 at the next mark; the reply at deadline count 7 the
deadline of 8. Below that nothing does. -/
theorem reaches_at_the_limit :
    ((∀ j, (gapped 3).reachesGapLimit j ↔ j = 0) ∧ ∀ j, ¬(gapped 3).reachesDeadline j)
    ∧ ((∀ j, (overdue 7).reachesDeadline j ↔ j = 0) ∧ ∀ j, ¬(overdue 7).reachesGapLimit j)
    ∧ (∀ j, ¬(gapped 2).reachesGapLimit j) ∧ ∀ j, ¬(overdue 6).reachesDeadline j := by
  have zero : ∀ e : Entry, ∀ j, ((holding e).reachesGapLimit j → j = 0) ∧ ((holding e).reachesDeadline j → j = 0) :=
    fun e j => reaches_zero (e := e) rfl
  refine ⟨⟨fun j => ⟨(zero _ j).1, ?_⟩, fun j h => ?_⟩, ⟨fun j => ⟨(zero _ j).2, ?_⟩, fun j h => ?_⟩, fun j h => ?_, fun j h => ?_⟩
  · rintro rfl; exact ⟨rfl, by decide⟩
  · obtain rfl := (zero _ j).2 h; exact absurd h.1 (by decide)
  · rintro rfl; exact ⟨rfl, by decide⟩
  · obtain rfl := (zero _ j).1 h; exact absurd h.1 (by decide)
  · obtain rfl := (zero _ j).1 h; exact absurd h.2 (by decide)
  · obtain rfl := (zero _ j).2 h; exact absurd h.2 (by decide)

theorem witness_ArmedWaitsForTheSuccessor :
    (onLine .armed).pins.reset = false ∧ (onLine .armed).ring.state = .armed
      ∧ (judgeCycle (cycleRecord 102 8) = some { number := 102, slotCount := 8 } ∧ (102 : Half) ≠ (onLine .armed).ring.lastCycle + 1)
      ∧ judgeCycle [] = none
      ∧ (judgeCycle (cycleRecord 101 8) = some { number := 101, slotCount := 8 } ∧ (101 : Half) = (onLine .armed).ring.lastCycle + 1
        ∧ (onLine .armed).nothingExpires 101) := by
  exact ⟨rfl, rfl, by decide +kernel, by decide +kernel, by decide +kernel, by decide, nothing_expires _ _⟩

theorem witness_SyncFollowsTheNumbering :
    (onLine .sync).pins.reset = false ∧ (onLine .sync).ring.state = .sync
      ∧ (judgeCycle (cycleRecord 101 8) = some { number := 101, slotCount := 8 } ∧ (onLine .sync).nothingExpires 101)
      ∧ (judgeCycle (cycleRecord 7 8) = some { number := 7, slotCount := 8 } ∧ (onLine .sync).nothingExpires 7)
      ∧ (judgeCycle [] = none ∧ (onLine .sync).ring.blind = false
        ∧ (onLine .sync).nothingExpires ((onLine .sync).ring.lastCycle + 1))
      ∧ (let s := { onLine .sync with ring := { (onLine .sync).ring with blind := true } };
        s.pins.reset = false ∧ s.ring.state = .sync ∧ s.ring.blind = true ∧ judgeCycle [] = none) := by
  exact ⟨rfl, rfl, ⟨by decide +kernel, nothing_expires _ _⟩, ⟨by decide +kernel, nothing_expires _ _⟩,
    ⟨by decide +kernel, rfl, nothing_expires _ _⟩, rfl, rfl, rfl, by decide +kernel⟩

theorem witness_SyncFollowsTheNumbering_expiry :
    (∀ n ∈ [(100 : Half), 32870], (committing (.pendingAt n)).pins.reset = false ∧ (committing (.pendingAt n)).ring.state = .sync
      ∧ (101 : Half) = (committing (.pendingAt n)).ring.lastCycle + 1 ∧ (committing (.pendingAt n)).commitLateAt 101
      ∧ (∀ j, ¬(committing (.pendingAt n)).reachesGapLimit j) ∧ ∀ j, ¬(committing (.pendingAt n)).reachesDeadline j)
    ∧ (∀ n ∈ [(101 : Half), 32869], (committing (.pendingAt n)).nothingExpires 101)
    ∧ ((gapped 3).queueLaw ∧ ¬(gapped 3).commitLateAt 101 ∧ (∀ j, (gapped 3).reachesGapLimit j ↔ j = 0)
      ∧ (∀ j, ¬(gapped 3).reachesDeadline j) ∧ (gapped 3).ring.state = .sync ∧ (101 : Half) = (gapped 3).ring.lastCycle + 1)
    ∧ ((overdue 7).queueLaw ∧ ¬(overdue 7).commitLateAt 101 ∧ (∀ j, ¬(overdue 7).reachesGapLimit j)
      ∧ (∀ j, (overdue 7).reachesDeadline j ↔ j = 0) ∧ (overdue 7).ring.state = .sync
      ∧ (101 : Half) = (overdue 7).ring.lastCycle + 1) := by
  obtain ⟨⟨g1, g2⟩, ⟨d1, d2⟩, _, _⟩ := reaches_at_the_limit
  have never : ∀ e : Entry, ¬(holding e).commitLateAt 101 := fun _ ⟨_, h, _⟩ => by cases h
  have none_reaches : ∀ c, (∀ j, ¬(committing c).reachesGapLimit j) ∧ ∀ j, ¬(committing c).reachesDeadline j := fun c =>
    ⟨(nothing_expires .sync 101).1, (nothing_expires .sync 101).2.1⟩
  refine ⟨fun n hn => ⟨rfl, rfl, rfl, ⟨n, rfl, ?_⟩, none_reaches _⟩, fun n hn => ⟨(none_reaches _).1, (none_reaches _).2, ?_⟩,
    ⟨queueLaw_of_check (by decide +kernel), never _, g1, g2, rfl, rfl⟩,
    queueLaw_of_check (by decide +kernel), never _, d2, d1, rfl, rfl⟩
  · have : n = 100 ∨ n = 32870 := by simpa using hn
    rcases this with rfl | rfl <;> decide
  · rintro ⟨m, h, h1, h2⟩
    have hm : n = m := by simpa [committing] using h
    subst hm
    have : n = 101 ∨ n = 32869 := by simpa using hn
    rcases this with rfl | rfl
    · exact absurd h1 (by decide)
    · exact absurd h2 (by decide)

/-- What the marks of the three expiries leave, computed. -/
theorem test_marks_at_which_something_expires :
    (let t := after (.cycleMark inOrder) (committing (.pendingAt 100));
      (t.sched.commit = .none ∧ t.sched.swapCycle = some 101 ∧ t.reports.counters.cyclesInSync = 1 ∧ t.prevIndex = none)
        ∧ (t.reports.bank .ring).record.map (fun r => (r.kind, r.cycle)) = some (.commitLate, 101))
    ∧ (let t := after (.cycleMark inOrder) (gapped 3);
      ((t.entry 0).gap = 4 ∧ (t.entry 0).final = some .incomplete ∧ (t.window 0).inUse = 0 ∧ t.replyQueue = [.entry 0])
        ∧ (t.reports.bank .slot).record.map (fun r => (r.kind, r.cycle)) = some (.incomplete, 101))
    ∧ (let t := after (.cycleMark inOrder) (overdue 7);
      (t.entry 0 = Entry.initial ∧ t.table.order = [] ∧ t.replyQueue = [])
        ∧ (t.reports.bank .slot).record.map (fun r => (r.kind, r.cycle)) = some (.replyExpired, 101)) := by
  decide +kernel

theorem witness_LimitsExpireAndTicksCount :
    (let s := configured { Params.initial with cycleLimit := 5 } (atTime 5 node);
      s.pins.reset = false ∧ s.ring.state = .sync ∧ s.ring.captured = some 0 ∧ s.mgmt.params.cycleLimit ≠ 0
        ∧ s.mgmt.params.cycleLimit ≤ (s.ring.timebase - 0).toNat)
    ∧ (let s := { node with ring := { node.ring with period := some 3 } };
      s.ring.state = .sync ∧ s.ring.captured = some 0 ∧ s.mgmt.params.cycleLimit = 0 ∧ s.ring.period = some 3)
    ∧ (node.mgmt.params.cycleLimit = 0 ∧ node.ring.period = none)
    ∧ (let s := configured { Params.initial with holdLimit := 2 } (atTime 3 lent);
      s.bus.engine = .yielded ∧ s.bus.grantTime = some 0 ∧ s.mgmt.params.holdLimit ≠ 0 ∧ s.bus.holdLong = false
        ∧ s.mgmt.params.holdLimit < (s.ring.timebase - 0).toNat)
    ∧ (node.bus.engine ≠ .yielded ∧ (atTime 1 node).cycleLimitExpired = false ∧ (atTime 1 node).holdLimitExceeded = false)
    ∧ (let s := configured { Params.initial with holdLimit := 2 } (atTime 3 lent);
      s.cycleLimitExpired = false ∧ s.holdLimitExceeded = true)
    ∧ (let s := configured { Params.initial with cycleLimit := 5 } (atTime 5 node);
      s.cycleLimitExpired = true ∧ s.holdLimitExceeded = false) := by decide +kernel

theorem hunt_marks_no_sync (record : List Byte) (k : Half) : ¬(onLine .hunt).marksSync record k := by
  rintro (⟨_, _, _, h | ⟨h, _⟩⟩ | ⟨_, h, _⟩) <;> cases h

theorem witness_ScheduleSwapActivatesTheShadow :
    ((onLine .hunt).pins.reset = false ∧ ¬(onLine .hunt).marksSync (cycleRecord 101 8) 101)
    ∧ ((committing .none).ring.nextRecord = inOrder ∧ (committing .none).pins.reset = false)
    ∧ ((committing .none).marksSync (cycleRecord 101 8) 101 ∧ (committing .none).sched.commit = .none)
    ∧ ((committing .pendingNext).marksSync (cycleRecord 101 8) 101 ∧ (committing .pendingNext).sched.commit = .pendingNext
      ∧ (committing .pendingNext).bridge.softReset = none)
    ∧ (∀ n ∈ [(101 : Half), 100, 32870], (committing (.pendingAt n)).marksSync (cycleRecord 101 8) 101
      ∧ (committing (.pendingAt n)).sched.commit = .pendingAt n ∧ (101 - n).toNat ≤ 32767)
    ∧ ((committing (.pendingAt 32869)).marksSync (cycleRecord 101 8) 101 ∧ ¬((101 : Half) - 32869).toNat ≤ 32767) := by
  refine ⟨⟨rfl, hunt_marks_no_sync _ _⟩, ⟨by decide +kernel, rfl⟩, ⟨marks_101 rfl, rfl⟩, ⟨marks_101 rfl, rfl, rfl⟩, fun n hn => ⟨marks_101 rfl, rfl, ?_⟩,
    marks_101 rfl, by decide⟩
  have : n = 101 ∨ n = 100 ∨ n = 32870 := by simpa using hn
  rcases this with rfl | rfl | rfl <;> decide

theorem node_mgmtLaw : node.mgmtLaw :=
  ⟨by decide, by decide, (fun n h => by cases h; decide), by decide, by decide, by decide, by decide, by decide, by decide,
    by decide⟩

theorem witness_CountsExpireAtMarks :
    (gapped 3).pins.reset = false ∧ (gapped 3).queueLaw ∧ (overdue 7).queueLaw
      ∧ (¬(onLine .hunt).marksSync (cycleRecord 101 8) 101 ∧ (onLine .hunt).pins.reset = false)
      ∧ ((∀ j, ¬(gapped 2).reachesGapLimit j) ∧ (gapped 2).queueLaw)
      ∧ ((∀ j, ¬(overdue 6).reachesDeadline j) ∧ (overdue 6).queueLaw)
      ∧ ((gapped 3).marksSync (cycleRecord 101 8) 101 ∧ (gapped 3).reachesGapLimit 0 ∧ (gapped 3).bridge.softReset = none
        ∧ (gapped 3).mgmtLaw)
      ∧ ((overdue 7).marksSync (cycleRecord 101 8) 101 ∧ (overdue 7).reachesDeadline 0 ∧ (overdue 7).bridge.softReset = none) := by
  obtain ⟨⟨g1, _⟩, ⟨d1, _⟩, g2, d2⟩ := reaches_at_the_limit
  exact ⟨rfl, queueLaw_of_check (by decide +kernel), queueLaw_of_check (by decide +kernel), ⟨hunt_marks_no_sync _ _, rfl⟩,
    ⟨g2, queueLaw_of_check (by decide +kernel)⟩, ⟨d2, queueLaw_of_check (by decide +kernel)⟩,
    ⟨marks_101 rfl, (g1 0).mpr rfl, rfl, node_mgmtLaw⟩, marks_101 rfl, (d1 0).mpr rfl, rfl⟩

theorem witness_SlotsKeepTheirHeader :
    (State.reset.pins.reset = false ∧ State.reset.ring.state = .down) ∧ (onLine .hunt).ring.state = .hunt
      ∧ (let s := { node with ring := { node.ring with blind := true } };
        s.pins.reset = false ∧ s.ring.state = .sync ∧ s.ring.blind = true)
      ∧ ∃ t, node.pins.reset = false ∧ node.ring.state ≠ .down
        ∧ exec (.slotArrival (encodeSlot 0 0 0 .void (List.replicate 16 0))) node = .next t := by
  exact ⟨⟨rfl, rfl⟩, rfl, ⟨rfl, rfl, rfl⟩, _, rfl, by decide, rfl⟩

theorem witness_SlotFaultsAreReported :
    (node.pins.reset = false ∧ node.ring.state = .sync ∧ node.ring.blind = false
      ∧ (judgeSlot { header := [], mark := none, body := [] }).headerGood = false)
    ∧ ((judgeSlot (encodeSlot 8 1 0 .void (List.replicate 16 0))).headerGood = true
      ∧ node.ring.slotCount.toNat ≤ (judgeSlot (encodeSlot 8 1 0 .void (List.replicate 16 0))).index.toNat)
    ∧ (let bad := { encodeSlot 7 1 0 .void (List.replicate 16 0) with body := List.replicate 18 0 }
      (judgeSlot bad).headerGood = true ∧ node.admits (judgeSlot bad).index ∧ (judgeSlot bad).payloadGood = false)
    ∧ (let s := { node with sched := { node.sched with
          active := bankInitial.set 2 { action := .pass, channel := some 63, source := none } } }
      let slot := encodeSlot 2 1 0 .void (List.replicate 16 0);
      (judgeSlot slot).headerGood = true ∧ s.admits (judgeSlot slot).index ∧ (judgeSlot slot).payloadGood = true
        ∧ (judgeSlot slot).channel ≠ 0 ∧ (s.activeEntry (judgeSlot slot).index).channel = some 63
        ∧ (63 : Byte) ≠ (judgeSlot slot).channel) := by
  exact ⟨by decide +kernel, by decide +kernel,
    ⟨by decide +kernel, admits_first (by decide +kernel), by decide +kernel⟩,
    by decide +kernel, admits_first (by decide +kernel), by decide +kernel, by decide +kernel, by decide +kernel, by decide +kernel⟩

theorem witness_SlotsWithNothingToDoPass :
    (let a := judgeSlot (encodeSlot 2 0 0 .data (List.replicate 16 0));
      a.headerGood = true ∧ a.payloadGood = true ∧ node.admits a.index ∧ a.channel = 0 ∧ a.kind = .data)
    ∧ (let a := judgeSlot (encodeSlot 2 1 0 .void (List.replicate 16 0));
      a.headerGood = true ∧ a.payloadGood = true ∧ (scheduled .take node).admits a.index ∧ a.channel ≠ 0
        ∧ ((scheduled .take node).activeEntry a.index).channel = none ∧ a.kind = .void
        ∧ ((scheduled .take node).activeEntry a.index).action = .take)
    ∧ (headerInRange 2 1 0 = true ∧ (1 : Byte) ≠ 0 ∧ (List.replicate 16 (0 : Byte)).length = payloadLength 0
      ∧ (scheduled .both node).admits 2 ∧ ((scheduled .both node).activeEntry 2).channel = none
      ∧ ((scheduled .both node).activeEntry 2).action = .both
      ∧ ¬((Segment.ofBytes (List.replicate 16 0)).source = node.mgmt.node
        ∧ (Segment.ofBytes (List.replicate 16 0)).op = replyCode)
      ∧ (Segment.ofBytes (List.replicate 16 0)).dest ≠ node.mgmt.node)
    ∧ ((scheduled .give node).admits 2 ∧ ((scheduled .give node).activeEntry 2).channel = none
      ∧ ((scheduled .give node).activeEntry 2).action = .give) := by
  exact ⟨⟨by decide +kernel, by decide +kernel, admits_first (by decide +kernel), by decide +kernel, by decide +kernel⟩,
    ⟨by decide +kernel, by decide +kernel, admits_first (by decide +kernel), by decide +kernel, by decide +kernel,
      by decide +kernel, by decide +kernel⟩,
    ⟨by decide, by decide, by decide, admits_first (by decide +kernel), by decide +kernel, by decide +kernel, by decide +kernel,
      by decide +kernel⟩,
    admits_first (by decide +kernel), by decide +kernel, by decide +kernel⟩

theorem witness_ProgressIsAsTheTableGives :
    ((entryOf .read .executing).op = .read ∧ (entryOf .read .executing).state = .executing)
    ∧ ((reading.entry 0).op = .read ∧ (reading.entry 0).state = .executing)
    ∧ ((holding (entryOf .read .replying)).entry 0).state = .replying
    ∧ ((holding (entryOf .writeQuiet .replying)).entry 0).op = .writeQuiet
    ∧ ((holding (entryOf .cswap .replying)).entry 0).op = .cswap
    ∧ ((0 : Byte).toNat ≤ 15 ∧ (15 : Byte).toNat ≤ 15)
    ∧ ((reading.entry 0).sent = (reading.entry 0).done ∧ reading.replyQueue = [.entry 0]
      ∧ reading.memberCanProgress 0 (.entry 0) = false)
    ∧ (let s := { reading with
          descriptors := descriptorsInitial.set 1 (some { requester := 9, tag := 3, status := .length, total := 0, addr := 0 })
          replyQueue := [.entry 0, .desc 1] };
      s.replyQueue = [.entry 0] ++ .desc 1 :: [] ∧ s.memberCanProgress 240 (.entry 0) = false
        ∧ s.memberCanProgress 240 (.desc 1) = true ∧ (s.descriptor 1).isSome = true) := by decide +kernel

/-- The node with entry 0, whose reply can be given at slot 2. -/
def giving (e : Entry) : State := scheduled .give (holding e)

theorem giving_admits (e : Entry) : (giving e).admits 2 :=
  admits_first ⟨rfl, rfl, rfl, (by decide : (2 : Byte).toNat < (8 : Byte).toNat), rfl⟩

/-- The same at a slot of action BOTH. -/
theorem witness_GivesUnderBoth (e : Entry) : (scheduled .both (holding e)).admits 2
    ∧ ((scheduled .both (holding e)).activeEntry 2).channel = none ∧ ((scheduled .both (holding e)).activeEntry 2).action = .both :=
  ⟨admits_first ⟨rfl, rfl, rfl, (by decide : (2 : Byte).toNat < (8 : Byte).toNat), rfl⟩, rfl, rfl⟩

theorem witness_GiveSendsReadData :
    (headerInRange 2 1 1 = true ∧ (1 : Byte) ≠ 0 ∧ (giving (entryOf .read .executing)).admits 2
      ∧ ((giving (entryOf .read .executing)).activeEntry 2).channel = none
      ∧ ((giving (entryOf .read .executing)).activeEntry 2).action = .give
      ∧ ∀ m ∈ (giving (entryOf .read .executing)).replyQueue,
          (giving (entryOf .read .executing)).memberCanProgress (capacityOf 1) m = false)
    ∧ (let s := giving { entryOf .read .executing with done := 3, sent := 1 };
      s.admits 2 ∧ s.replyQueue = [] ++ .entry 0 :: [] ∧ (s.entry 0).op = .read ∧ (s.entry 0).sent < (s.entry 0).done
        ∧ 1 ≤ capacityOf 1 ∧ (s.entry 0).state = .executing ∧ (s.entry 0).mark ≠ .quiet)
    ∧ (let s := giving { entryOf .read .replying with done := 40, total := 40, final := some .done };
      s.admits 2 ∧ s.replyQueue = [] ++ .entry 0 :: [] ∧ (s.entry 0).op = .read ∧ (s.entry 0).state = .replying
        ∧ (s.entry 0).sent + min ((s.entry 0).done - (s.entry 0).sent) (capacityOf 1) < (s.entry 0).done) := by
  exact ⟨⟨by decide, by decide, giving_admits _, by decide +kernel, by decide +kernel, by decide +kernel⟩,
    ⟨giving_admits _, by decide +kernel, by decide +kernel, by decide +kernel, by decide, by decide +kernel, by decide +kernel⟩,
    giving_admits _, by decide +kernel, by decide +kernel, by decide +kernel, by decide +kernel⟩

theorem witness_GiveClosesReplies :
    (∀ op ∈ [ReqOp.read, .write, .writeQuiet, .swap, .add, .cswap],
      let s := giving { entryOf op .replying with done := 4, sent := 0, final := some .done, old := some [1, 2, 3, 4] };
      headerInRange 2 1 1 = true ∧ s.replyQueue = [] ++ .entry 0 :: [] ∧ (s.entry 0).state = .replying
        ∧ (s.entry 0).final = some .done ∧ (s.entry 0).done ≤ capacityOf 1 ∧ (s.activeEntry 2).action = .give)
    ∧ (giving { entryOf .read .replying with done := 4, sent := 4, final := some .busError }).admits 2
    ∧ (let s := { giving Entry.initial with
          descriptors := [none, none, none, some
            { requester := 9, tag := 3, status := .noWindow, total := 4, addr := 0 }]
          replyQueue := [.desc 3] }
      s.admits 2 ∧ s.replyQueue = [] ++ .desc 3 :: [] ∧ (s.descriptor 3).isSome = true) := by
  exact ⟨by decide +kernel, giving_admits _, admits_first ⟨rfl, rfl, rfl, by decide, rfl⟩, rfl, rfl⟩

/-- A return of the part: four bytes of the reply to node 9, tag 3, from offset 0. -/
def returned : List Byte := padTo 32 [9, 5, 3, 0x80, 0, 0, 0, 4, 0, 0, 0, 4, 0, 0, 1, 0]

theorem witness_ReturnsAreStripped :
    (headerInRange 2 1 1 = true ∧ (1 : Byte) ≠ 0 ∧ returned.length = payloadLength 1
      ∧ (giving (entryOf .read .replying)).admits 2
      ∧ ((giving (entryOf .read .replying)).activeEntry 2).channel = none
      ∧ ((giving (entryOf .read .replying)).activeEntry 2).action = .give
      ∧ (Segment.ofBytes returned).source = node.mgmt.node ∧ (Segment.ofBytes returned).op = replyCode)
    ∧ (giving (entryOf .swap .queued)).replyQueue = []
    ∧ (∀ st ∈ [EntryState.replying, .executing],
      let s := giving { entryOf .read st with done := 4, sent := 4 };
      let g := Segment.ofBytes returned;
      (Member.entry 0 ∈ s.replyQueue ∧ g.last = false ∧ (s.entry 0).source = g.dest ∧ (s.entry 0).tag = g.tag
        ∧ (s.entry 0).total = g.total.toNat ∧ (s.entry 0).addr = g.addr ∧ g.offset.toNat + g.count.toNat ≤ (s.entry 0).sent)
      ∧ (∀ m ∈ s.replyQueue, m = .entry 0) ∧ (s.entry 0).state = st)
    ∧ (∀ j, Member.entry j ∈ (giving (entryOf .read .replying)).replyQueue → j = 0)
    ∧ (∀ b ∈ [reading.bus, between.bus, lent.bus],
      let s := { giving { entryOf .read .executing with done := 4, sent := 4 } with bus := b };
      s.bridge.softReset = none ∧ (s.entry 0).op = .read ∧ (s.entry 0).state = .executing)
    ∧ [reading.bus, between.bus, lent.bus].map (fun b => b.engine) = [.cycle, .idle, .yielded] := by
  refine ⟨⟨by decide, by decide, by decide +kernel, giving_admits _, by decide +kernel, by decide +kernel, by decide +kernel,
    by decide +kernel⟩, by decide +kernel, by decide +kernel, fun j h => ?_, by decide +kernel, rfl⟩
  have : (giving (entryOf .read .replying)).replyQueue = [.entry 0] := rfl
  rw [this] at h
  simpa using h

theorem witness_ManagementRecordsAreGivenInOrder :
    headerInRange 0 0 1 = true ∧ node.admits 0 ∧ node.mgmt.queue = []
      ∧ (let s := { node with mgmt := { node.mgmt with
            queue := [{ dest := 1, tag := 7, op := 0x8D, status := 0, param := [], args := List.replicate 17 0 }] } }
        s.admits 0 ∧ s.mgmt.queue.map (fun x => decide (capacityOf 1 < x.args.length)) = [true])
      ∧ (let s := { node with mgmt := { node.mgmt with
            queue := [{ dest := 1, tag := 7, op := 0x8D, status := 0, param := [], args := List.replicate 16 0 }] } }
        s.admits 0 ∧ s.mgmt.queue.map (fun x => decide (x.args.length ≤ capacityOf 1)) = [true]) := by
  exact ⟨by decide, admits_first ⟨rfl, rfl, rfl, by decide, rfl⟩, rfl,
    ⟨admits_first ⟨rfl, rfl, rfl, by decide, rfl⟩, by decide +kernel⟩,
    admits_first ⟨rfl, rfl, rfl, by decide, rfl⟩, by decide +kernel⟩


/-! ### Witnesses: management -/

/-- A state in which a management request from node 1 to node 5 at slot 0 is judged by its own rule. -/
theorem ask_reaches {m : MgmtSlot} {s : State}
    (hm : m.fits = true ∧ m.index = 0 ∧ m.dest = 5 ∧ m.source = 1 ∧ m.status = 0 ∧ m.flags = 0
      ∧ m.argLen.toNat ≤ capacityOf m.size)
    (hs : s.pins.reset = false ∧ s.ring.state = .sync ∧ s.ring.blind = false ∧ s.prevIndex = none ∧ s.ring.slotCount = 8
      ∧ s.mgmt.node = 5 ∧ s.mgmt.queue = [] ∧ s.bridge.softReset = none) : m.reaches s := by
  obtain ⟨hf, hi, hd, hsrc, hst, hfl, hl⟩ := hm
  obtain ⟨h1, h2, h3, h4, h5, h6, h7, h8⟩ := hs
  exact ⟨hf, admits_first ⟨h1, h2, h3, by rw [hi, h5]; decide, h4⟩, Or.inl (by rw [hd, h6]),
    fun _ => by rw [hsrc, h6]; decide, hst, hfl, hl, by rw [h7]; decide, h8⟩

/-- The node's manager is node 1. -/
theorem node_authorised : ask.authorised node := ⟨by decide, rfl⟩

/-- An ASSIGN to the unassigned node is judged by its own rule, whatever its source. -/
theorem unassigned_reached (number source : Byte) : { askUnassigned number with source := source }.reaches unassigned :=
  ⟨rfl, admits_first ⟨rfl, rfl, rfl, (by decide : (0 : Byte).toNat < (8 : Byte).toNat), rfl⟩, Or.inl rfl, fun h => absurd rfl h,
    rfl, rfl, (by decide : (0 : Half).toNat ≤ capacityOf 2), (by decide : 0 < 4), rfl⟩

theorem askUnassigned_reaches (number : Byte) : (askUnassigned number).reaches unassigned := unassigned_reached number 1

theorem witness_ManagementRecordsAreJudged :
    (headerInRange 0 0 2 = true ∧ ((ask.record .status).toBytes ++ List.replicate 32 0).length = payloadLength 2
      ∧ node.admits 0)
    ∧ (let r := MgmtRecord.ofBytes ({ ask with source := 5, dest := 1 }.record .status).toBytes;
      node.mgmt.node ≠ 0 ∧ r.source = node.mgmt.node ∧ r.dest ≠ node.mgmt.node)
    ∧ (let r := MgmtRecord.ofBytes ({ ask with dest := 62 }.record .status).toBytes;
      r.source ≠ node.mgmt.node ∧ r.dest ≠ node.mgmt.node ∧ r.dest ≠ 63)
    ∧ (let r := MgmtRecord.ofBytes { ask.record .status with op := 0x80 }.toBytes;
      r.source ≠ node.mgmt.node ∧ r.dest = node.mgmt.node ∧ 128 ≤ r.op.toNat)
    ∧ (let r := MgmtRecord.ofBytes { ask.record .status with op := 0x11 }.toBytes;
      r.dest = node.mgmt.node ∧ ¬(128 ≤ r.op.toNat ∨ r.op = 0x20) ∧ MgmtOp.ofCode r.op = none)
    ∧ (let r := MgmtRecord.ofBytes ({ ask with dest := 63, argLen := 33 }.record .status).toBytes;
      r.source ≠ node.mgmt.node ∧ node.mgmt.node ≠ 0 ∧ r.dest = 63 ∧ r.dest ≠ node.mgmt.node
        ∧ ¬(128 ≤ r.op.toNat ∨ r.op = 0x20) ∧ capacityOf 2 < r.argLen.toNat)
    ∧ (let s := { node with bridge := { node.bridge with softReset := some (1, 7) } };
      let r := MgmtRecord.ofBytes (ask.record .status).toBytes;
      r.source ≠ s.mgmt.node ∧ r.dest = s.mgmt.node ∧ ¬(128 ≤ r.op.toNat ∨ r.op = 0x20)
        ∧ ¬(MgmtOp.ofCode r.op = none ∨ r.status ≠ 0 ∨ r.flags ≠ 0 ∨ capacityOf 2 < r.argLen.toNat)
        ∧ s.bridge.softReset.isSome = true) := by
  exact ⟨⟨by decide, by decide +kernel, admits_first (by decide +kernel)⟩, by decide +kernel, by decide +kernel,
    by decide +kernel, by decide +kernel, by decide +kernel, by decide +kernel⟩

theorem witness_AuthorityIsJudgedFirst :
    ((Instr.assign { ask with dest := 63 }).managementRequest = some ({ ask with dest := 63 }, .assign)
      ∧ ({ ask with dest := 63 } : MgmtSlot).reaches node ∧ ({ ask with dest := 63 } : MgmtSlot).dest ≠ node.mgmt.node)
    ∧ ((Instr.start (askUnassigned 0)).managementRequest = some (askUnassigned 0, .start)
      ∧ (askUnassigned 0).reaches unassigned ∧ unassigned.mgmt.node = 0)
    ∧ (let s := { node with mgmt := { node.mgmt with manager := some 2 } };
      (Instr.start ask).managementRequest = some (ask, .start) ∧ ask.reaches s ∧ s.mgmt.node ≠ 0
        ∧ s.mgmt.manager ≠ some ask.source ∧ ask.dest = s.mgmt.node) := by
  exact ⟨⟨rfl, ⟨by decide +kernel, admits_first (by decide +kernel), Or.inr ⟨by decide, rfl⟩, fun _ => by decide, rfl, rfl,
      by decide, by decide, rfl⟩, by decide⟩,
    ⟨rfl, askUnassigned_reaches 0, rfl⟩, rfl, ask_reaches (by decide +kernel) (by decide +kernel), by decide, by decide, rfl⟩

theorem witness_IdentifyAndStatusReadTheNode :
    (∀ leaf ∈ [(0 : Byte), 1, 2, 3, 4], ∃ m : MgmtSlot, m.reaches node ∧ byteAt m.param 0 = leaf ∧ m.dest = node.mgmt.node) := by
  intro leaf h
  have : leaf = 0 ∨ leaf = 1 ∨ leaf = 2 ∨ leaf = 3 ∨ leaf = 4 := by simpa using h
  rcases this with rfl | rfl | rfl | rfl | rfl <;>
    exact ⟨askWith [_], ask_reaches (by decide +kernel) (by decide +kernel), rfl, rfl⟩

theorem witness_AssignNamesTheNode :
    ((askUnassigned 62).reaches unassigned ∧ (askUnassigned 62).dest = unassigned.mgmt.node ∧ (askUnassigned 62).source.toNat = 1
      ∧ (byteAt (askUnassigned 62).param 0).toNat = 62 ∧ unassigned.mgmt.node = 0)
    ∧ (∀ source ∈ [(0 : Byte), 62, 63, 64], { askUnassigned 1 with source := source }.reaches unassigned)
    ∧ ((askWith [63]).reaches node ∧ 62 < (byteAt (askWith [63]).param 0).toNat ∧ (askWith [0]).reaches node
      ∧ byteAt (askWith [0]).param 0 = 0)
    ∧ (let s := { node with mgmt := { node.mgmt with manager := some 2 } };
      (askWith [6]).reaches s ∧ (byteAt (askWith [6]).param 0).toNat = 6 ∧ s.mgmt.node ≠ 0
        ∧ s.mgmt.manager ≠ some (askWith [6]).source)
    ∧ ((askWith [5]).reaches node ∧ node.mgmt.manager = some (askWith [5]).source ∧ byteAt (askWith [5]).param 0 = node.mgmt.node)
    ∧ ((askWith [6]).reaches (bridged .stopped node) ∧ byteAt (askWith [6]).param 0 ≠ node.mgmt.node
      ∧ (bridged .stopped node).bridge.state = .stopped)
    ∧ ((askWith [6]).reaches node ∧ node.bridge.state ≠ .stopped) := by
  exact ⟨⟨askUnassigned_reaches 62, rfl, rfl, by decide, rfl⟩, fun source _ => unassigned_reached 1 source,
    ⟨ask_reaches (by decide +kernel) (by decide +kernel), by decide, ask_reaches (by decide +kernel) (by decide +kernel), rfl⟩,
    ⟨ask_reaches (by decide +kernel) (by decide +kernel), by decide, by decide, by decide⟩,
    ⟨ask_reaches (by decide +kernel) (by decide +kernel), by decide, by decide⟩,
    ⟨ask_reaches (by decide +kernel) (by decide +kernel), by decide, rfl⟩,
    ask_reaches (by decide +kernel) (by decide +kernel), by decide⟩

/-- A CONFIGURE with a mask and its eleven bytes. -/
def askConfigure (mask : Byte) (prescaler gap : Byte) : MgmtSlot :=
  askArgs [mask] [prescaler, 0, 0, 5, 0, 0, 2, gap, 15, 15, 15]

theorem configure_reaches {s : State} (mask prescaler gap : Byte)
    (hs : s.pins.reset = false ∧ s.ring.state = .sync ∧ s.ring.blind = false ∧ s.prevIndex = none ∧ s.ring.slotCount = 8
      ∧ s.mgmt.node = 5 ∧ s.mgmt.queue = [] ∧ s.bridge.softReset = none) : (askConfigure mask prescaler gap).reaches s :=
  ask_reaches ⟨rfl, rfl, rfl, rfl, rfl, rfl, (by decide : (11 : Half).toNat ≤ capacityOf 2)⟩ hs

theorem witness_ConfigureSetsTheSelectedParameters :
    (ask.reaches node ∧ ask.authorised node ∧ ask.dest = node.mgmt.node ∧ ask.argLen ≠ 11)
    ∧ ((askConfigure 0x80 0 1).reaches node ∧ (askConfigure 0x80 0 1).argLen = 11
      ∧ (byteAt (askConfigure 0x80 0 1).param 0).getLsbD 7 = true)
    ∧ ((askConfigure 0x08 0 16).reaches node ∧ (byteAt (askConfigure 0x08 0 16).param 0).getLsbD 3 = true
      ∧ ¬(byteAt (askConfigure 0x08 0 16).args 7).toNat ≤ 15)
    ∧ (∃ p : Params, (askConfigure 0x7F 3 15).reaches node ∧ p.prescaler.code = 3 ∧ p.cycleLimit = 5 ∧ p.holdLimit = 2
        ∧ p.gapLimit = 15 ∧ p.deadline = 15 ∧ p.bankEnables.code = 15 ∧ p.noticeEnables.code = 15
        ∧ tripleAt (askConfigure 0x7F 3 15).args 1 = 5 ∧ tripleAt (askConfigure 0x7F 3 15).args 4 = 2)
    ∧ (let s := atTime 5 node;
      (askConfigure 0x02 0 1).reaches s ∧ (configured { Params.initial with cycleLimit := 5 } s).cycleLimitExpired = true
        ∧ (configured { Params.initial with cycleLimit := 5 } s).holdLimitExceeded = false)
    ∧ (let s := atTime 3 lent;
      (askConfigure 0x04 0 1).reaches s ∧ (configured { Params.initial with holdLimit := 2 } s).holdLimitExceeded = true
        ∧ (configured { Params.initial with holdLimit := 2 } s).cycleLimitExpired = false) := by
  exact ⟨⟨ask_reaches (by decide +kernel) (by decide +kernel), node_authorised, rfl, by decide⟩,
    ⟨configure_reaches _ _ _ (by decide +kernel), rfl, by decide⟩,
    ⟨configure_reaches _ _ _ (by decide +kernel), by decide, by decide⟩,
    ⟨{ prescaler := .p512, cycleLimit := 5, holdLimit := 2, gapLimit := 15, deadline := 15,
       bankEnables := { ring := true, slot := true, bus := true, mgmt := true },
       noticeEnables := { ring := true, slot := true, bus := true, mgmt := true } },
      configure_reaches _ _ _ (by decide +kernel), by decide, rfl, rfl, rfl, rfl, by decide, by decide, by decide, by decide⟩,
    ⟨configure_reaches _ _ _ (by decide +kernel), by decide +kernel, by decide +kernel⟩,
    configure_reaches _ _ _ (by decide +kernel), by decide +kernel, by decide +kernel⟩

theorem witness_SchedLoadEditsTheShadow :
    (let s := { node with sched := { node.sched with commit := .pendingNext } };
      ask.reaches s ∧ ask.authorised s ∧ ask.dest = s.mgmt.node ∧ s.sched.commit ≠ .none)
    ∧ ((askArgs [240, 1] [0, 0]).reaches node ∧ ¬(byteAt (askArgs [240, 1] [0, 0]).param 0).toNat ≤ 239)
    ∧ ((askArgs [239, 1] [0x3F, 0]).reaches node ∧ SchedEntry.ofBytes 0x3F 0 = none)
    ∧ ((askArgs [239, 1] [0xFE, 0x3F]).reaches node ∧ node.sched.commit = .none
      ∧ SchedEntry.ofBytes 0xFE 0x3F = some { action := .both, channel := some 63, source := some 62 }) := by
  exact ⟨⟨ask_reaches (by decide +kernel) (by decide +kernel), ⟨by decide, rfl⟩, rfl, by decide⟩,
    ⟨ask_reaches (by decide +kernel) (by decide +kernel), by decide⟩,
    ⟨ask_reaches (by decide +kernel) (by decide +kernel), by decide⟩,
    ask_reaches (by decide +kernel) (by decide +kernel), rfl, by decide⟩

theorem witness_ScheduleAndWindowsAreRead :
    ((askWith [1, 224, 16]).reaches node ∧ (askWith [1, 224, 16]).dest = node.mgmt.node
      ∧ (((node.sched.shadow.drop 224).take 16).flatMap SchedEntry.toBytes).length = capacityOf 2)
    ∧ ((askWith [0, 0, 17]).reaches node ∧ capacityOf 2 < (((node.sched.active.drop 0).take 17).flatMap SchedEntry.toBytes).length)
    ∧ ((askWith [2, 0, 1]).reaches node ∧ ¬(byteAt (askWith [2, 0, 1]).param 0).toNat ≤ 1)
    ∧ ((askWith [15]).reaches node ∧ (byteAt (askWith [15]).param 0).toNat ≤ 15 ∧ 12 ≤ capacityOf 2)
    ∧ ((askWith [16]).reaches node ∧ 15 < (byteAt (askWith [16]).param 0).toNat) := by
  exact ⟨⟨ask_reaches (by decide +kernel) (by decide +kernel), rfl, by decide +kernel⟩,
    ⟨ask_reaches (by decide +kernel) (by decide +kernel), by decide +kernel⟩,
    ⟨ask_reaches (by decide +kernel) (by decide +kernel), by decide⟩,
    ⟨ask_reaches (by decide +kernel) (by decide +kernel), by decide, by decide⟩,
    ask_reaches (by decide +kernel) (by decide +kernel), by decide⟩

theorem witness_SchedCommitArmsASwap :
    ask.reaches node ∧ ask.authorised node ∧ byteAt ask.param 0 ≠ 1 ∧ byteAt ask.param 0 ≠ 2 :=
  ⟨ask_reaches (by decide +kernel) (by decide +kernel), node_authorised, by decide, by decide⟩

theorem witness_SchedCancelForgetsTheCommit :
    (ask.reaches node ∧ ask.authorised node ∧ ask.dest = node.mgmt.node ∧ node.sched.commit = .none)
    ∧ (let s := { node with sched := { node.sched with commit := .pendingAt 7 } };
      ask.reaches s ∧ ask.authorised s ∧ s.sched.commit ≠ .none)
    ∧ (let s := { node with mgmt := { node.mgmt with manager := some 2 } };
      ask.reaches s ∧ s.mgmt.node ≠ 0 ∧ s.mgmt.manager ≠ some ask.source) := by
  exact ⟨⟨ask_reaches (by decide +kernel) (by decide +kernel), node_authorised, rfl, rfl⟩,
    ⟨ask_reaches (by decide +kernel) (by decide +kernel), ⟨by decide, rfl⟩, by decide⟩,
    ask_reaches (by decide +kernel) (by decide +kernel), by decide, by decide⟩

/-- The record of window `i` at 200H, one page, width 2, with a valid byte, a budget and an owner. -/
def windowRecord (i valid budget owner : Byte) : List Byte := [i, valid, 0x1F, 2, 0, 0, 2, 0, 0, 1, budget, owner]

theorem windowRecord_reaches {s : State} (i valid budget owner : Byte)
    (hs : s.pins.reset = false ∧ s.ring.state = .sync ∧ s.ring.blind = false ∧ s.prevIndex = none ∧ s.ring.slotCount = 8
      ∧ s.mgmt.node = 5 ∧ s.mgmt.queue = [] ∧ s.bridge.softReset = none) :
    (askArgs [] (windowRecord i valid budget owner)).reaches s :=
  ask_reaches ⟨rfl, rfl, rfl, rfl, rfl, rfl, (by decide : (12 : Half).toNat ≤ capacityOf 2)⟩ hs

theorem witness_WindowLoadIsJudgedInOrder :
    ((Instr.windowLoad (askArgs [] (windowRecord 15 0 1 62))).managementRequest
        = some (askArgs [] (windowRecord 15 0x80 1 62), .windowLoad)
      ∧ (askArgs [] (windowRecord 15 0x80 1 62)).reaches (windowed 0) ∧ ask.authorised (windowed 0) ∧ (windowed 0).windowLaw
      ∧ ((windowed 0).window 15).inUse = 0
      ∧ (0x200 + 256 * 1 ≤ 2 ^ 32 ∧ (62 : Byte).toNat ≤ 62)
      ∧ ∀ j a, j ≠ 15 → ((windowed 0).window j).holds a = true → a < 0x200 ∨ 0x200 + 256 ≤ a)
    ∧ ((Instr.windowInvalidate (askArgs [] (windowRecord 0 0x80 1 0))).managementRequest
        = some (askArgs [] (windowRecord 0 0 1 0), .windowLoad)
      ∧ ((windowed 0).window 0).inUse = 0 ∧ (byteAt (windowRecord 0 0 1 0) 1).getLsbD 7 = false)
    ∧ ((askArgs [] (windowRecord 16 0x80 1 0)).reaches (windowed 0) ∧ 15 < (byteAt (windowRecord 16 0x80 1 0) 0).toNat)
    ∧ ((askArgs [] (windowRecord 0 0x80 1 0)).reaches (windowed 1) ∧ (windowed 1).windowLaw ∧ 0 < ((windowed 1).window 0).inUse)
    ∧ ((askArgs [] (windowRecord 1 0x80 0 0)).reaches (windowed 0) ∧ ¬byteAt (windowRecord 1 0x80 0 0) 10 ≠ 0) := by
  refine ⟨⟨rfl, windowRecord_reaches _ _ _ _ (by decide +kernel), ⟨by decide, rfl⟩, windowLaw_of_first 0 rfl, by decide +kernel,
      by decide, fun j a _ hj => ?_⟩,
    ⟨rfl, by decide +kernel, by decide⟩, ⟨windowRecord_reaches _ _ _ _ (by decide +kernel), by decide⟩,
    ⟨windowRecord_reaches _ _ _ _ (by decide +kernel), windowLaw_of_first 1 rfl, by decide +kernel⟩,
    windowRecord_reaches _ _ _ _ (by decide +kernel), by decide⟩
  have zero := (windowLaw_of_first (s := windowed 0) 0 rfl).2.2
  by_cases hj0 : j = 0
  · subst hj0
    simp [windowed, State.window, windowsInitial, Config.windows, someWindow, Window.holds, Window.limit] at hj
    omega
  · have h0 : (windowed 0).window j = Window.initial := window_other rfl hj0
    rw [h0] at hj
    simp [Window.holds, Window.initial] at hj

theorem witness_StartAndStopMoveTheBridge :
    (ask.reaches node ∧ ask.authorised node ∧ node.bridge.state = .running)
    ∧ (ask.reaches (bridged .stopped node) ∧ ask.authorised (bridged .stopped node) ∧ (bridged .stopped node).bridge.state ≠ .running)
    ∧ ((askWith [2]).reaches node ∧ 1 < (byteAt (askWith [2]).param 0).toNat)
    ∧ ((askWith [1]).reaches node ∧ (byteAt (askWith [1]).param 0).toNat ≤ 1 ∧ (∀ e ∈ node.table.entries, e.state = .free)
      ∧ ∀ d ∈ node.descriptors, d = none)
    ∧ (ask.reaches reading ∧ ¬∀ e ∈ reading.table.entries, e.state = .free)
    ∧ (ask.reaches (bridged .draining reading) ∧ (bridged .draining reading).bridge.state = .draining
      ∧ ∃ e ∈ (bridged .draining reading).table.entries, e.state ≠ .free)
    ∧ (let s := { bridged .draining node with
          descriptors := descriptorsInitial.set 3
            (some { requester := 9, tag := 3, status := .length, total := 0, addr := 0x100 }) }
      ask.reaches s ∧ s.bridge.state = .draining ∧ s.bridge.flush = false ∧ (∀ e ∈ s.table.entries, e.state = .free)
        ∧ ∃ d ∈ s.descriptors, d ≠ none)
    ∧ (ask.reaches (bridged .draining node) ∧ (bridged .draining node).bridge.state = .draining
      ∧ (∀ e ∈ (bridged .draining node).table.entries, e.state = .free)
      ∧ ∀ d ∈ (bridged .draining node).descriptors, d = none) := by
  exact ⟨⟨ask_reaches (by decide +kernel) (by decide +kernel), node_authorised, rfl⟩,
    ⟨ask_reaches (by decide +kernel) (by decide +kernel), ⟨by decide, rfl⟩, by decide⟩,
    ⟨ask_reaches (by decide +kernel) (by decide +kernel), by decide⟩,
    ⟨ask_reaches (by decide +kernel) (by decide +kernel), by decide, by decide +kernel, by decide +kernel⟩,
    ⟨ask_reaches (by decide +kernel) (by decide +kernel), by decide +kernel⟩,
    ⟨ask_reaches (by decide +kernel) (by decide +kernel), rfl, by decide +kernel⟩,
    ⟨ask_reaches (by decide +kernel) (by decide +kernel), rfl, rfl, by decide +kernel, by decide +kernel⟩,
    ask_reaches (by decide +kernel) (by decide +kernel), rfl, by decide +kernel, by decide +kernel⟩

theorem one_executing {s : State} {e : Entry} (h : s.table.entries = entriesInitial.set 0 e) : s.oneExecuting := by
  have hl : s.table.entries.length = 8 := by rw [h]; rfl
  have other : ∀ i, i ≠ 0 → (s.entry i).state ≠ .executing := by
    intro i hi
    by_cases h8 : i < 8
    · have : s.entry i = Entry.initial := by
        simp only [State.entry, h, entriesInitial, List.getD_eq_getElem?_getD]
        rw [List.getElem?_set_ne (by omega), List.getElem?_replicate]
        simp [Config.entries, h8]
      rw [this]; decide
    · rw [entry_ge (by omega)]; decide
  intro i j hi hj
  have hi0 : i = 0 := by by_contra h; exact other i h hi
  have hj0 : j = 0 := by by_contra h; exact other j h hj
  rw [hi0, hj0]

theorem witness_StopWithFlushEndsEverything :
    ((askWith [1]).reaches node ∧ (askWith [1]).authorised node ∧ (byteAt (askWith [1]).param 0).toNat ≤ 1
      ∧ node.bridge.state ≠ .stopped ∧ node.executing = none)
    ∧ ((askWith [2]).reaches node ∧ 1 < (byteAt (askWith [2]).param 0).toNat)
    ∧ (ask.reaches (bridged .stopped node) ∧ (bridged .stopped node).bridge.state = .stopped)
    ∧ (ask.reaches reading ∧ reading.executing = some 0 ∧ reading.oneExecuting ∧ reading.bus.engine = .cycle)
    ∧ (ask.reaches swapping ∧ swapping.executing = some 0 ∧ swapping.oneExecuting ∧ swapping.bus.engine = .locked)
    ∧ (ask.reaches lent ∧ lent.executing = some 0 ∧ lent.oneExecuting ∧ lent.bus.engine = .yielded)
    ∧ (ask.reaches between ∧ between.executing = some 0 ∧ between.oneExecuting ∧ between.bus.engine = .idle
      ∧ between.pins.holdRequest = false ∧ (between.entry 0).op.locked = false)
    ∧ (ask.reaches lentDue ∧ lentDue.executing = some 0 ∧ lentDue.oneExecuting ∧ lentDue.bus.engine = .yielded)
    ∧ (ask.reaches due ∧ due.executing = some 0 ∧ due.oneExecuting ∧ due.bus.engine = .idle ∧ due.pins.holdRequest = false
      ∧ (due.entry 0).op.locked = true ∧ exec .busCycleStart due = .next (after .busCycleStart due)) := by
  exact ⟨⟨ask_reaches (by decide +kernel) (by decide +kernel), ⟨by decide, rfl⟩, by decide, by decide, by decide +kernel⟩,
    ⟨ask_reaches (by decide +kernel) (by decide +kernel), by decide⟩,
    ⟨ask_reaches (by decide +kernel) (by decide +kernel), rfl⟩,
    ⟨ask_reaches (by decide +kernel) (by decide +kernel), by decide +kernel, one_executing rfl, rfl⟩,
    ⟨ask_reaches (by decide +kernel) (by decide +kernel), by decide +kernel, one_executing rfl, rfl⟩,
    ⟨ask_reaches (by decide +kernel) (by decide +kernel), by decide +kernel, one_executing rfl, rfl⟩,
    ⟨ask_reaches (by decide +kernel) (by decide +kernel), by decide +kernel, one_executing rfl, rfl, rfl, rfl⟩,
    ⟨ask_reaches (by decide +kernel) (by decide +kernel), by decide +kernel, one_executing rfl, rfl⟩,
    ask_reaches (by decide +kernel) (by decide +kernel), by decide +kernel, one_executing rfl, rfl, rfl, rfl, rfl⟩

theorem witness_AbortEndsTheMatchedEntries :
    ((Instr.abort (askWith [1, 0, 0, 1])).managementRequest = some (askWith [1, 0, 0, 0], .abort)
      ∧ (Instr.abortQuiet (askWith [1])).managementRequest = some (askWith [1, 0, 0, 1], .abort)
      ∧ (askWith [1]).reaches reading ∧ (askWith [1]).authorised reading ∧ (askWith [1]).dest = reading.mgmt.node
      ∧ reading.queueLaw ∧ reading.oneExecuting ∧ reading.bus.engine = .cycle)
    ∧ ((askWith [4]).reaches reading ∧ byteAt (askWith [4]).param 0 ≠ 1 ∧ byteAt (askWith [4]).param 0 ≠ 2
      ∧ byteAt (askWith [4]).param 0 ≠ 3)
    ∧ ((askWith [2, 63]).reaches reading ∧ isNode (byteAt (askWith [2, 63]).param 1) = false)
    ∧ (let s := holding (entryOf .write .assembling);
      (askWith [3, 9, 3]).reaches s ∧ s.queueLaw ∧ s.oneExecuting ∧ isNode (byteAt (askWith [3, 9, 3]).param 1) = true
        ∧ (s.entry 0).source = 9 ∧ (s.entry 0).tag = 3 ∧ (s.entry 0).state = .assembling)
    ∧ ((askWith [1]).reaches lent ∧ lent.queueLaw ∧ lent.oneExecuting ∧ lent.bus.engine = .yielded
      ∧ (lent.entry 0).state = .executing ∧ ∀ j, (lent.entry j).state ≠ .free → j = 0)
    ∧ (∀ s ∈ [crowded lent, crowded between, crowded lentDue], (askWith [1]).reaches s ∧ (askWith [1]).authorised s ∧ s.queueLaw ∧ s.oneExecuting
      ∧ (s.bus.engine = .yielded ∨ s.bus.engine = .idle ∧ (s.entry 0).op.locked = false) ∧ (s.entry 0).state = .executing
      ∧ (s.entry 1).state = .assembling ∧ (s.entry 2).state = .replying)
    ∧ ((askWith [1]).reaches (crowded due) ∧ (crowded due).queueLaw ∧ (crowded due).oneExecuting
      ∧ (crowded due).bus.engine = .idle ∧ (crowded due).pins.holdRequest = false ∧ ((crowded due).entry 0).state = .executing
      ∧ ((crowded due).entry 0).op.locked = true
      ∧ exec .busCycleStart (crowded due) = .next (after .busCycleStart (crowded due))) := by
  have one : ∀ s : State, s.table.entries.length = 8 → (∀ i < 8, (s.entry i).state = .executing → i = 0) → s.oneExecuting :=
    fun s hl h i j hi hj => by
      have only := every_entry (p := fun i e => e.state = .executing → i = 0) hl h (by simp [Entry.initial])
      rw [only i hi, only j hj]
  have crowd : ∀ s ∈ [crowded lent, crowded between, crowded lentDue], (askWith [1]).reaches s ∧ (askWith [1]).authorised s
      ∧ s.queueLaw ∧ s.oneExecuting ∧ (s.bus.engine = .yielded ∨ s.bus.engine = .idle ∧ (s.entry 0).op.locked = false)
      ∧ (s.entry 0).state = .executing ∧ (s.entry 1).state = .assembling ∧ (s.entry 2).state = .replying := by
    intro s hs
    rcases (by simpa using hs : s = crowded lent ∨ s = crowded between ∨ s = crowded lentDue) with rfl | rfl | rfl <;>
      exact ⟨ask_reaches (by decide +kernel) (by decide +kernel), ⟨by decide, rfl⟩, queueLaw_of_check (by decide +kernel),
        one _ rfl (by decide +kernel), by decide +kernel, rfl, rfl, rfl⟩
  exact ⟨⟨rfl, rfl, ask_reaches (by decide +kernel) (by decide +kernel), ⟨by decide, rfl⟩, rfl,
      queueLaw_of_check (by decide +kernel), one_executing rfl, rfl⟩,
    ⟨ask_reaches (by decide +kernel) (by decide +kernel), by decide, by decide, by decide⟩,
    ⟨ask_reaches (by decide +kernel) (by decide +kernel), by decide⟩,
    ⟨ask_reaches (by decide +kernel) (by decide +kernel), queueLaw_of_check (by decide +kernel), one_executing rfl, by decide,
      rfl, rfl, rfl⟩,
    ⟨ask_reaches (by decide +kernel) (by decide +kernel), queueLaw_of_check (by decide +kernel), one_executing rfl, rfl, rfl,
      every_entry (p := fun j e => e.state ≠ .free → j = 0) rfl (by decide +kernel) (by simp [Entry.initial])⟩,
    crowd, ask_reaches (by decide +kernel) (by decide +kernel), queueLaw_of_check (by decide +kernel),
    one _ rfl (by decide +kernel), rfl, rfl, rfl, rfl, rfl⟩

theorem witness_ReportsAreReadAndCleared :
    (∀ selector ∈ [(0 : Byte), 3, 4, 5, 6], ∃ m : MgmtSlot, m.reaches node ∧ m.authorised node ∧ m.dest = node.mgmt.node
        ∧ byteAt m.param 0 = selector)
    ∧ (node.reports.bank .ring).record = none ∧ node.reports.lastTx = none
    ∧ ((report { kind := .cycleSkip } node).reports.bank .ring).record.isSome = true
    ∧ (endExecution 0 .done reading).reports.lastTx.isSome = true
    ∧ (3 : Byte) = BankName.mgmt.code := by
  refine ⟨fun selector h => ?_, rfl, rfl, by decide +kernel, by decide +kernel, rfl⟩
  have : selector = 0 ∨ selector = 3 ∨ selector = 4 ∨ selector = 5 ∨ selector = 6 := by simpa using h
  rcases this with rfl | rfl | rfl | rfl | rfl <;>
    exact ⟨askWith [_], ask_reaches (by decide +kernel) (by decide +kernel), ⟨by decide, rfl⟩, rfl, rfl⟩

theorem ask_resets {s : State}
    (hs : s.pins.reset = false ∧ s.ring.state = .sync ∧ s.ring.blind = false ∧ s.prevIndex = none ∧ s.ring.slotCount = 8
      ∧ s.mgmt.node = 5 ∧ s.mgmt.manager = some 1 ∧ s.bridge.softReset = none) : ask.resets s := by
  obtain ⟨h1, h2, h3, h4, h5, h6, h7, h8⟩ := hs
  exact ⟨rfl, admits_first ⟨h1, h2, h3, by rw [h5]; decide, h4⟩, h6.symm, ⟨by rw [h6]; decide, h7⟩, by rw [h6]; decide, rfl, rfl,
    by decide, h8⟩

theorem witness_ResetBeginsTheSoftReset :
    (ask.resets node ∧ node.executing = none)
    ∧ (ask.resets reading ∧ reading.executing = some 0 ∧ reading.bus.engine = .cycle)
    ∧ (ask.resets swapping ∧ swapping.executing = some 0 ∧ swapping.bus.engine = .locked)
    ∧ (ask.resets lent ∧ lent.executing = some 0 ∧ lent.oneExecuting ∧ lent.bus.engine = .yielded)
    ∧ (ask.resets between ∧ between.executing = some 0 ∧ between.oneExecuting ∧ between.bus.engine = .idle
      ∧ (between.entry 0).op.locked = false)
    ∧ (ask.resets lentDue ∧ lentDue.executing = some 0 ∧ lentDue.oneExecuting ∧ lentDue.bus.engine = .yielded)
    ∧ (ask.resets due ∧ due.executing = some 0 ∧ due.bus.engine = .idle ∧ due.pins.holdRequest = false
      ∧ (due.entry 0).op.locked = true
      ∧ exec .busCycleStart due = .next (after .busCycleStart due)) := by
  exact ⟨⟨ask_resets (by decide +kernel), by decide +kernel⟩, ⟨ask_resets (by decide +kernel), by decide +kernel, rfl⟩,
    ⟨ask_resets (by decide +kernel), by decide +kernel, rfl⟩,
    ⟨ask_resets (by decide +kernel), by decide +kernel, one_executing rfl, rfl⟩,
    ⟨ask_resets (by decide +kernel), by decide +kernel, one_executing rfl, rfl, rfl⟩,
    ⟨ask_resets (by decide +kernel), by decide +kernel, one_executing rfl, rfl⟩,
    ask_resets (by decide +kernel), by decide +kernel, rfl, rfl, rfl, rfl⟩

/-! ### Witnesses: request segments -/

/-- A segment of node 9 to node 5 at slot 2 comes to the checks. -/
theorem segment_reaches {g : SegSlot} {offset : Half} {s : State}
    (hg : g.fits = true ∧ g.index = 2 ∧ g.channel = 1 ∧ g.dest = 5 ∧ g.source = 9)
    (hs : s.pins.reset = false ∧ s.ring.state = .sync ∧ s.ring.blind = false ∧ s.prevIndex = none ∧ s.ring.slotCount = 8
      ∧ s.mgmt.node = 5 ∧ s.bridge.state = .running)
    (he : s.activeEntry 2 = { action := .take, channel := none, source := none }
      ∨ s.activeEntry 2 = { action := .both, channel := none, source := none }) : g.reaches offset s := by
  obtain ⟨hf, hi, hc, hd, hsrc⟩ := hg
  obtain ⟨h1, h2, h3, h4, h5, h6, h7⟩ := hs
  refine ⟨⟨hf, admits_first ⟨h1, h2, h3, by rw [hi, h5]; decide, h4⟩, ?_, ?_, ?_, by rw [h6]; decide, by rw [hd, h6],
    by rw [hsrc]; decide⟩, Or.inl h7⟩
  all_goals rw [hi]; rcases he with he | he <;> rw [he] <;> simp

/-- The same for entry 2 of action TAKE. -/
theorem segment_at_take {g : SegSlot} {offset : Half} {s : State} (hg : g.fits = true ∧ g.index = 2 ∧ g.channel = 1 ∧ g.dest = 5 ∧ g.source = 9)
    (hs : s.pins.reset = false ∧ s.ring.state = .sync ∧ s.ring.blind = false ∧ s.prevIndex = none ∧ s.ring.slotCount = 8
      ∧ s.mgmt.node = 5 ∧ s.bridge.state = .running) : g.reaches offset (scheduled .take s) :=
  segment_reaches hg hs (Or.inl rfl)

theorem node_tag_free (n : Nat) (source tag : Byte) :
    ∀ i, ((scheduled .take (windowed n)).entry i).state ≠ .free →
      ¬(((scheduled .take (windowed n)).entry i).source = source ∧ ((scheduled .take (windowed n)).entry i).tag = tag) := by
  intro i h
  have : (scheduled .take (windowed n)).entry i = Entry.initial :=
    every_entry (s := State.reset) (p := fun _ e => e = Entry.initial) rfl (by decide +kernel) (by simp) i
  rw [this] at h
  exact absurd rfl h

theorem witness_FirstSegmentsOpenTransactions :
    (segment.reaches 0 (scheduled .take (windowed 0)) ∧ segment.passes .read 0 (scheduled .take (windowed 0))
      ∧ (scheduled .take (windowed 0)).windowLaw ∧ (scheduled .take (windowed 0)).offers 0 [0] 1)
    ∧ ((segmentWith [1, 2, 3, 4]).reaches 0 (scheduled .take (windowed 0))
      ∧ (segmentWith [1, 2, 3, 4]).passes .writeQuiet 0 (scheduled .take (windowed 0)))
    ∧ ({ segmentWith [1] with flags := 0 } : SegSlot).passes .write 0 (scheduled .take (windowed 0))
    ∧ (segmentWith [1, 2, 3, 4]).passes .swap 0 (scheduled .take (windowed 0))
    ∧ (segmentWith [1, 2, 3, 4]).passes .add 0 (scheduled .take (windowed 0))
    ∧ (segmentWith [1, 2, 3, 4, 5, 6, 7, 8]).passes .cswap 0 (scheduled .take (windowed 0)) := by
  refine ⟨⟨segment_at_take (by decide +kernel) (by decide +kernel), ?_, windowLaw_of_first 0 rfl,
    by decide +kernel, by decide +kernel, fun j h => absurd h (by omega), by decide +kernel, by decide +kernel⟩,
    ⟨segment_at_take (by decide +kernel) (by decide +kernel), ?_⟩, ?_, ?_, ?_, ?_⟩
  all_goals
    exact ⟨rfl, by decide, by decide, by decide, by decide, by decide, by decide, by decide, node_tag_free 0 _ _,
      by decide +kernel, by decide +kernel, by decide +kernel, Or.inl rfl, by decide +kernel⟩

theorem witness_FirstSegmentsAreTurnedDown :
    (let s := scheduled .take (windowed 0);
      ({ segment with status := 1 } : SegSlot).reaches 0 s ∧ s.windowLaw ∧ s.descriptors.length = 4
        ∧ ({ segment with status := 1 } : SegSlot).status ≠ 0 ∧ s.descriptor 0 = none
        ∧ (1024 < (1025 : Half).toNat ∧ (1024 : Half).toNat ≤ 1024)
        ∧ (∀ e ∈ s.table.entries, e.state = .free)
        ∧ ((s.window 0).holds 0x1FF = true ∧ (s.window 0).holds 0x200 = false ∧ (s.window 0).holds 0xFF = false))
    ∧ (let s := { scheduled .take (windowed 0) with
          descriptors := List.replicate 4 (some { requester := 9, tag := 3, status := .length, total := 0, addr := 0 }) }
      segment.reaches 0 s ∧ s.descriptors.length = 4 ∧ ∀ d ∈ s.descriptors, d ≠ none)
    ∧ ((Instr.read segment).segmentRequest = some (segment, .read, 0)
      ∧ segment.presented (scheduled .take (bridged .stopped node)) ∧ (bridged .stopped node).bridge.state = .stopped)
    ∧ (segment.presented (scheduled .take (bridged .draining node)) ∧ (bridged .draining node).bridge.state = .draining)
    ∧ (let s := { scheduled .take (windowed 0) with
          table := { Table.initial with entries := List.replicate 8 { entryOf .read .queued with source := 8, blocks := [] } } }
      segment.reaches 0 s ∧ segment.passes .read 0 s ∧ s.windowLaw ∧ ∀ e ∈ s.table.entries, e.state ≠ .free) := by
  have presented : ∀ b, segment.presented (scheduled .take (bridged b node)) := fun b =>
    ⟨by decide +kernel, admits_first ⟨rfl, rfl, rfl, (by decide : (2 : Byte).toNat < (8 : Byte).toNat), rfl⟩, Or.inl rfl,
      Or.inl rfl, Or.inl rfl, (by decide : (5 : Byte) ≠ 0), rfl, by decide⟩
  refine ⟨⟨segment_at_take (by decide +kernel) (by decide +kernel), windowLaw_of_first 0 rfl, rfl, by decide, rfl, by decide,
      by decide +kernel, by decide +kernel⟩,
    ⟨segment_reaches (by decide +kernel) (by decide +kernel) (Or.inl rfl), rfl, by decide +kernel⟩,
    ⟨rfl, presented _, rfl⟩, ⟨presented _, rfl⟩,
    ⟨segment_reaches (by decide +kernel) (by decide +kernel) (Or.inl rfl), ?_, windowLaw_of_first 0 rfl, by decide +kernel⟩⟩
  exact ⟨rfl, by decide, by decide, by decide, by decide, by decide, by decide, by decide,
    every_entry (p := fun _ e => e.state ≠ .free → ¬(e.source = 9 ∧ e.tag = 3)) rfl (by decide +kernel) (by simp [Entry.initial]),
    by decide +kernel, by decide +kernel, by decide +kernel, Or.inl rfl, by decide +kernel⟩

/-- Node 9's WRITE of tag 3, in ASSEMBLING with some bytes received. -/
def assembling (received : Nat) : State := holding { entryOf .write .assembling with received := received }

theorem assembling_pairs (n : Nat) : (scheduled .take (assembling n)).pairLaw := by
  have zero : ∀ j, ((scheduled .take (assembling n)).entry j).state ≠ .free → j = 0 := by
    intro j hj
    by_contra h
    apply hj
    by_cases h8 : j < 8
    · have : j = 1 ∨ j = 2 ∨ j = 3 ∨ j = 4 ∨ j = 5 ∨ j = 6 ∨ j = 7 := by omega
      rcases this with rfl | rfl | rfl | rfl | rfl | rfl | rfl <;> rfl
    · rw [entry_ge (by show 8 ≤ j; omega)]; rfl
  intro i j hi hj _ _
  rw [zero i hi, zero j hj]

theorem witness_LaterSegmentsAreJudged :
    ((segmentWith [3, 4]).reaches 2 (scheduled .take (assembling 2)) ∧ (scheduled .take (assembling 2)).pairLaw
      ∧ (((scheduled .take (assembling 2)).entry 0).state = .assembling ∧ ((scheduled .take (assembling 2)).entry 0).source = 9
        ∧ ((scheduled .take (assembling 2)).entry 0).tag = 3)
      ∧ ¬((2 : Half).toNat + (segmentWith [3, 4]).count.toNat ≤ 2) ∧ (2 : Half).toNat ≤ 2
      ∧ (2 : Half).toNat + (segmentWith [3, 4]).count.toNat = ((scheduled .take (assembling 2)).entry 0).total)
    ∧ ((segmentWith [3, 4]).reaches 2 (scheduled .take (assembling 1)) ∧ ((scheduled .take (assembling 1)).entry 0).received < 2)
    ∧ (({ segmentWith [2] with flags := 0 } : SegSlot).reaches 1 (scheduled .take (assembling 2))
      ∧ (1 : Half).toNat + ({ segmentWith [2] with flags := 0 } : SegSlot).count.toNat
          ≤ ((scheduled .take (assembling 2)).entry 0).received)
    ∧ ((segmentWith [3, 4]).reaches 2 (scheduled .take (windowed 0)) ∧ (scheduled .take (windowed 0)).descriptors.length = 4
      ∧ (scheduled .take (windowed 0)).descriptor 0 = none
      ∧ ∀ i, ¬((scheduled .take (windowed 0)).entry i).state = .assembling) := by
  refine ⟨⟨segment_at_take (by decide +kernel) (by decide +kernel), assembling_pairs 2, ⟨rfl, rfl, rfl⟩, by decide, by decide,
      by decide +kernel⟩,
    ⟨segment_at_take (by decide +kernel) (by decide +kernel), by decide +kernel⟩,
    ⟨segment_at_take (by decide +kernel) (by decide +kernel), by decide +kernel⟩,
    segment_at_take (by decide +kernel) (by decide +kernel), rfl, rfl, ?_⟩
  exact every_entry (s := State.reset) (p := fun _ e => ¬e.state = .assembling) rfl (by decide +kernel) (by simp [Entry.initial])

theorem witness_ThePoolHoldsTransactionBytes :
    (let e := { entryOf .read .executing with blocks := [0, 23], total := 512 };
      reading.poolLaw ∧ e.blocks.Nodup ∧ 508 + [(1 : Byte), 2, 3, 4].length ≤ 256 * e.blocks.length
        ∧ (∀ b ∈ (entryOf .write .queued).blocks, b ∉ [1, 23]))
    ∧ (reading.poolLaw ∧ (wordBeat false).write = false ∧ (entryOf .read .executing).op.locked = false
      ∧ (entryOf .read .executing).blocks.Nodup
      ∧ (entryOf .read .executing).total ≤ 256 * (entryOf .read .executing).blocks.length
      ∧ [0, 1, 2, 3].Nodup ∧ (∀ l ∈ [0, 1, 2, 3], l < 4)
      ∧ ∀ l ∈ [0, 1, 2, 3], (entryOf .read .executing).needs ((wordBeat false).word + l) = true)
    ∧ (∀ n ∈ [1, 4], let e := { entryOf .cswap .executing with total := n };
      swapping.poolLaw ∧ (wordBeat false).write = false ∧ e.op.locked = true ∧ e.blocks.length = 1
        ∧ (e.total = 1 ∨ e.total = 2 ∨ e.total = 4) ∧ [0, 1, 2, 3].Nodup ∧ (∀ l ∈ [0, 1, 2, 3], l < 4)
        ∧ e.needs ((wordBeat false).word + 0) = true)
    ∧ (wordBeat true).write = true ∧ ((reading.entry 0).op.locked = false ∧ (reading.entry 0).done = 0) := by
  refine ⟨⟨rfl, by decide +kernel⟩, ⟨rfl, by decide +kernel⟩, fun n hn => ?_, rfl, by decide +kernel⟩
  rcases (by simpa using hn : n = 1 ∨ n = 4) with rfl | rfl <;> exact ⟨rfl, by decide +kernel⟩

/-- R77, R104: what a read beat of a CSWAP puts beside the compare and the new value, which it keeps. -/
theorem test_old_value_lies_beside_the_operands :
    let e := entryOf .cswap .executing
    let s := swapping.writeTx e 0 [11, 12, 13, 14, 21, 22, 23, 24]
    let t := placeRead e (wordBeat false) [0, 1, 2, 3] ⟨1, 2, 3, 4⟩ s
    t.txBytes e (oldPlace 0) 4 = [1, 2, 3, 4] ∧ t.txBytes e 0 8 = [11, 12, 13, 14, 21, 22, 23, 24] := by decide +kernel

/-! ### Witnesses: the tributary bus -/

theorem witness_PlansCarryEveryByteOnce :
    (entryOf .read .executing).op.locked = false ∧ 0 < (entryOf .read .executing).total
      ∧ 0 < ({ entryOf .write .executing with addr := 0xFFFFFFFF, total := 1 } : Entry).total := by decide

set_option synthInstance.maxSize 400 in
theorem witness_TheIdleBusDecides :
    reading.bus.engine ≠ .idle
    ∧ (let s := { node with pins := { reset := false, holdRequest := true } }
      s.bus.engine = .idle ∧ s.pins.holdRequest = true ∧ s.executing = none)
    ∧ (∀ s ∈ [asked between, asked due], s.bus.engine = .idle ∧ s.pins.holdRequest = true ∧ s.executing = some 0)
    ∧ (between.bus.engine = .idle ∧ between.pins.holdRequest = false ∧ between.bus.separating = true ∧ between.executing ≠ none)
    ∧ (let s := { holding (entryOf .read .queued) with bus := { Bus.initial with separating := true } }
      s.bus.engine = .idle ∧ s.pins.holdRequest = false ∧ s.bus.separating = true ∧ s.executing = none
        ∧ s.bridge.softReset = none ∧ s.table.requests = 0 :: [] ∧ 0 ∉ ([] : List Nat) ∧ (s.entry 0).state = .queued)
    ∧ (let s := { holding (entryOf .swap .queued) with bus := { Bus.initial with separating := true } }
      s.bus.engine = .idle ∧ s.pins.holdRequest = false ∧ s.bus.separating = true ∧ s.executing = none
        ∧ s.bridge.softReset = none ∧ s.table.requests = 0 :: [] ∧ (s.entry 0).state = .queued ∧ (s.entry 0).op.locked = true)
    ∧ (let s := holding (entryOf .read .executing);
      s.bus.engine = .idle ∧ s.pins.holdRequest = false ∧ s.bus.separating = false ∧ s.executing ≠ none ∧ s.bus.plan = [])
    ∧ (let s := { between with bus := { between.bus with separating := false } }
      s.bus.engine = .idle ∧ s.pins.holdRequest = false ∧ s.bus.separating = false ∧ s.executing = some 0
        ∧ s.bus.plan = { lineBurst := false, beats := [wordBeat false] } :: [])
    ∧ (node.bus.engine = .idle ∧ node.pins.holdRequest = false ∧ node.bus.separating = false ∧ node.executing = none
      ∧ node.table.requests = [])
    ∧ (let s := holding (entryOf .read .queued);
      let e := s.entry 0
      let w := s.window e.window
      s.bus.engine = .idle ∧ s.pins.holdRequest = false ∧ s.bus.separating = false ∧ s.executing = none
        ∧ s.bridge.softReset = none ∧ s.table.requests = 0 :: [] ∧ 0 ∉ ([] : List Nat) ∧ e.state = .queued
        ∧ planFor e w w.width = { lineBurst := false, beats := [wordBeat false] } :: []) := by decide +kernel

theorem witness_CyclesStartFromIdle :
    (reading.pins.reset = false ∧ reading.bus.engine ≠ .idle)
    ∧ (between.pins.reset = false ∧ between.bus.engine = .idle ∧ between.pins.holdRequest = false ∧ between.executing = some 0
      ∧ between.bus.plan = { lineBurst := false, beats := [wordBeat false] } :: [] ∧ between.bridge.state ≠ .draining
      ∧ between.bus.separating = true)
    ∧ (due.bus.engine = .idle ∧ due.pins.holdRequest = false ∧ due.executing = some 0 ∧ due.bus.separating = true
      ∧ due.bus.plan = { lineBurst := false, beats := [wordBeat false] } :: [] ∧ due.bridge.state ≠ .draining)
    ∧ (∀ s ∈ [asked between, asked due], s.pins.reset = false ∧ s.bus.engine = .idle ∧ s.executing = some 0
      ∧ s.bridge.state ≠ .draining ∧ s.pins.holdRequest = true) := by decide +kernel

/-- A READ in execution whose cycle has a second beat. -/
def bursting : State :=
  { reading with bus := { reading.bus with rest := [{ wordBeat false with addr := 0x104 }], lineBurst := true, burst := true } }

theorem witness_WholeBeatsAreTaken :
    (∀ s ∈ [reading, bursting], s.pins.reset = false ∧ s.bus.engine = .cycle ∧ s.bus.current = some (wordBeat false)
      ∧ s.executing = some 0 ∧ s.bus.waitCount + 1 < (s.window (s.entry 0).window).budget.toNat
      ∧ (wordBeat false).width.bytes ≤ Width.w4.bytes ∧ (s.entry 0).mark = .none)
    ∧ reading.bus.rest = [] ∧ bursting.bus.rest = { wordBeat false with addr := 0x104 } :: []
    ∧ (after .lineLoss reading).bus.engine = .cycle ∧ ((after .lineLoss reading).entry 0).mark ≠ .none := by decide +kernel

theorem witness_NarrowingRebuildsThePlan :
    ((wordBeat false).width.bytes ≤ Width.w4.bytes ∧ Width.w2.bytes < (wordBeat false).width.bytes ∧ (wordBeat false).lanes = [0, 1, 2, 3].filter (fun _ => true)
      ∧ (wordBeat false).lanes ≠ [])
    ∧ (∀ x ∈ [wordBeat true, { addr := 0x102, width := .w2, write := false, lanes := [3] },
        { addr := 0x103, width := .w1, write := false, lanes := [3] }],
      (x.lanes = [0, 1, 2, 3].filter (fun l => x.lanes.contains l)) ∧ x.addr % x.width.bytes = 0
        ∧ (∀ l ∈ x.lanes, x.addr ≤ x.word + l ∧ x.word + l < x.addr + x.width.bytes) ∧ x.lanes ≠ [])
    ∧ (∀ s ∈ [reading, bursting], s.pins.reset = false ∧ s.bus.engine = .cycle ∧ s.bus.current = some (wordBeat false)
      ∧ s.executing = some 0 ∧ s.bus.waitCount + 1 < (s.window (s.entry 0).window).budget.toNat
      ∧ Width.w1.bytes < (wordBeat false).width.bytes)
    ∧ (bursting.bus.rest ≠ [] ∧ ((wordBeat false).reissue .w2 ++ bursting.bus.rest.flatMap (fun x => x.split .w2)).length = 3)
    ∧ reading.bus.rest = [] := by decide +kernel

theorem witness_FailedBeatsEndTheExecution :
    (∀ s ∈ [reading, swapping], s.pins.reset = false ∧ (s.bus.engine = .cycle ∨ s.bus.engine = .locked)
      ∧ s.bus.current = some (wordBeat false) ∧ s.executing = some 0
      ∧ s.bus.waitCount + 1 < (s.window (s.entry 0).window).budget.toNat
      ∧ (s.window (s.entry 0).window).budget.toNat ≤ s.bus.waitCount + 2)
    ∧ node.bus.engine = .idle ∧ lent.bus.engine = .yielded := by decide +kernel

theorem witness_TheHoldIsServedFromIdle :
    (node.pins.reset = false ∧ node.bus.engine = .idle ∧ node.executing = none)
      ∧ (∀ s ∈ [between, due], s.pins.reset = false ∧ s.bus.engine = .idle ∧ s.executing = some 0)
      ∧ (reading.pins.reset = false ∧ reading.bus.engine ≠ .idle)
      ∧ (∀ s ∈ [lent, lentDue], s.pins.reset = false ∧ s.bus.engine = .yielded ∧ s.bus.separating = false
        ∧ s.executing = some 0 ∧ s.bus.plan = { lineBurst := false, beats := [wordBeat false] } :: [])
      ∧ node.bus.engine ≠ .yielded := by decide +kernel

theorem witness_LockedSequencesRunWhole :
    (let s := { swapping with bus := { swapping.bus with
          current := none, plan := [{ lineBurst := false, beats := [wordBeat true] }] } };
      s.pins.reset = false ∧ s.bus.engine = .locked ∧ s.bus.current = none ∧ s.executing = some 0
        ∧ s.bus.plan = { lineBurst := false, beats := [wordBeat true] } :: [] ∧ (s.entry 0).op.locked = true)
    ∧ (swapping.bus.engine = .locked ∧ swapping.bus.current = some (wordBeat false) ∧ swapping.bus.rest = []
      ∧ swapping.executing = some 0 ∧ (swapping.entry 0).op.locked = true
      ∧ swapping.bus.waitCount + 1 < (swapping.window (swapping.entry 0).window).budget.toNat
      ∧ swapping.bus.plan = [] ∧ (swapping.entry 0).old = none)
    ∧ (let s := after (.beatTaken 0 .ready .w4 ⟨1, 2, 3, 4⟩) swapping;
      s.bus.engine = .locked ∧ s.bus.plan ≠ [] ∧ (s.entry 0).old.isSome = true)
    ∧ (Width.w2.bytes < (wordBeat false).width.bytes ∧ (wordBeat false).reissue .w2 ≠ [])
    ∧ (let b : Beat := { addr := 0x100, width := .w4, write := false, lanes := [0] }
      Width.w1.bytes < b.width.bytes ∧ b.reissue .w1 = [])
    ∧ ([(1 : Byte), 2, 3, 4].length = (entryOf .add .executing).total ∧ (entryOf .add .executing).addr.toNat % 4 = 0)
    ∧ (entryOf .add .executing).op.locked = true := by
  decide +kernel

/-- R103: a value of two bytes in the upper half of its word, at each width: the read part, and the write part. -/
theorem test_locked_parts :
    let e := { entryOf .add .executing with addr := 0x102, total := 2 }
    let w := someWindow 1
    planFor e w .w4 = [{ lineBurst := false, beats := [{ addr := 0x100, width := .w4, write := false, lanes := [2, 3] }] }]
    ∧ planFor e w .w2 = [{ lineBurst := false, beats := [{ addr := 0x102, width := .w2, write := false, lanes := [2, 3] }] }]
    ∧ lockedPart e .w1 true = [{ lineBurst := false, beats := [{ addr := 0x102, width := .w1, write := true, lanes := [2] }] },
        { lineBurst := false, beats := [{ addr := 0x103, width := .w1, write := true, lanes := [3] }] }] := by decide +kernel

theorem witness_ExecutionsEndAsTheirOperationRequires :
    ((reading.entry 0).state = .executing ∧ (reading.entry 0).mark ≠ .quiet ∧ (reading.entry 0).op ≠ .writeQuiet)
    ∧ (((holding (entryOf .writeQuiet .executing)).entry 0).state = .executing
      ∧ ((holding (entryOf .writeQuiet .executing)).entry 0).op = .writeQuiet)
    ∧ (((after .lineLoss reading).entry 0).state = .executing ∧ ((after .lineLoss reading).entry 0).mark = .quiet) := by
  decide +kernel

theorem busLaw_of (s : State) (h : (s.bus.lock = true ↔ s.bus.engine = .locked) ∧ (s.bus.grant = true ↔ s.bus.engine = .yielded)
    ∧ (s.bus.grantTime.isSome = true ↔ s.bus.engine = .yielded) ∧ (s.bus.current.isSome = true → s.bus.busy = true)
    ∧ (s.bus.separating = true → s.bus.engine = .idle)) : s.busLaw := h

theorem witness_TheTributaryOutputsFollowTheEngine :
    (lent.busLaw ∧ lent.bus.engine = .yielded) ∧ (node.busLaw ∧ node.bus.engine = .idle)
      ∧ (reading.busLaw ∧ reading.bus.engine = .cycle ∧ reading.bus.current = some (wordBeat false) ∧ reading.executing = some 0)
      ∧ (swapping.busLaw ∧ swapping.bus.engine = .locked)
      ∧ (let s := { swapping with bus := { swapping.bus with current := none } };
        s.busLaw ∧ s.bus.engine = .locked ∧ s.bus.current = none)
      ∧ (let s := { holding { entryOf .swap .executing with old := some [1, 2, 3, 4] } with
            bus := { swapping.bus with current := some (wordBeat true) } };
        s.busLaw ∧ s.bus.engine = .locked ∧ s.bus.current = some (wordBeat true) ∧ s.executing = some 0
          ∧ (s.entry 0).op.locked = true ∧ (s.entry 0).old = some [1, 2, 3, 4]) := by
  exact ⟨⟨busLaw_of _ (by decide), rfl⟩, ⟨busLaw_of _ (by decide), rfl⟩, ⟨busLaw_of _ (by decide), rfl, rfl, by decide +kernel⟩,
    ⟨busLaw_of _ (by decide), rfl⟩, ⟨busLaw_of _ (by decide), rfl, rfl⟩, busLaw_of _ (by decide), rfl, rfl, by decide +kernel⟩

/-! ### Witnesses: bridge control, reports, invariants -/

theorem witness_DrainsAndSoftResetsComplete :
    (let s := bridged .draining node;
      s.pins.reset = false ∧ s.bridge.state = .draining ∧ (∀ e ∈ s.table.entries, e.state = .free) ∧ ∀ d ∈ s.descriptors, d = none)
    ∧ node.bridge.state ≠ .draining
    ∧ (let s := bridged .draining reading; s.bridge.state = .draining ∧ ¬∀ e ∈ s.table.entries, e.state = .free)
    ∧ (let s := { node with bridge := { node.bridge with softReset := some (1, 7) } };
      s.pins.reset = false ∧ s.bridge.softReset = some (1, 7) ∧ s.executing = none)
    ∧ node.bridge.softReset = none
    ∧ (between.pins.reset = false ∧ between.executing ≠ none ∧ between.pins.holdRequest = false ∧ between.bus.separating = true)
    ∧ (lent.pins.reset = false ∧ lent.executing ≠ none ∧ lent.pins.holdRequest = true)
    ∧ exec .drainComplete node = .next node := by
  exact ⟨by decide +kernel, by decide, by decide +kernel, by decide +kernel, rfl, by decide +kernel, by decide +kernel, rfl⟩

theorem witness_SoftResetKeepsTheNodeAndTheBanks :
    (∀ c p, node.ring.state = .sync → node.ring.captured = some c → node.ring.period = some p →
      (node.ring.timebase - c).toNat < 2 * p.toNat)
    ∧ (let s := { node with ring := { node.ring with period := some 3, timebase := 5 } };
      s.ring.captured = some 0 ∧ s.ring.period = some 3 ∧ (s.ring.timebase - 0).toNat < 2 * (3 : Word).toNat)
    ∧ (configured { Params.initial with prescaler := .p512 } node).mgmt.params.prescaler ≠ .p8
    ∧ lent.bus.engine = .yielded := by
  refine ⟨fun c p _ _ h => ?_, by decide, by decide, rfl⟩
  cases h

theorem witness_ReportsFillAndAddToRecords :
    (node.mgmt.params.bankEnables.of .ring = true ∧ (node.reports.bank .ring).record = none
      ∧ node.mgmt.params.noticeEnables.of .ring = false)
    ∧ (let s := configured { Params.initial with noticeEnables := { ring := true, slot := true, bus := true, mgmt := true } } node;
      s.mgmt.params.noticeEnables.of .ring = true ∧ s.mgmt.manager = some 1 ∧ s.mgmt.queue.length < 4)
    ∧ (let s := { node with mgmt := { node.mgmt with
          queue := List.replicate 4 { dest := 1, tag := 0, op := 0x81, status := 0, param := [], args := [] } } };
      4 ≤ s.mgmt.queue.length ∧ s.mgmt.manager = some 1)
    ∧ ((report { kind := .cycleSkip } node).reports.bank .ring).record.isSome = true
    ∧ (configured { Params.initial with bankEnables := { ring := false, slot := true, bus := true, mgmt := true } }
        node).mgmt.params.bankEnables.of .ring = false := by decide +kernel

theorem witness_StepKeepsTheRegisterLaws :
    (∃ t, step reading = .next t) ∧ reading.ringLaw ∧ reading.busLaw ∧ reading.bridgeLaw ∧ reading.mgmtLaw ∧ reading.schedLaw
      ∧ reading.windowLaw ∧ reading.reportLaw ∧ reading.poolLaw := by
  refine ⟨⟨_, rfl⟩, ⟨by decide, by decide, by decide, by decide, by decide, by decide, fun i h => by cases h⟩,
    busLaw_of _ (by decide), (fun h => by cases h),
    node_mgmtLaw,
    ⟨rfl, rfl, fun e he => ?_, fun e he => ?_⟩, windowLaw_of_first 1 rfl, fun name => ?_, rfl⟩
  · rw [List.eq_of_mem_replicate he]; exact ⟨(fun c h => by cases h), fun c h => by cases h⟩
  · rw [List.eq_of_mem_replicate he]; exact ⟨(fun c h => by cases h), fun c h => by cases h⟩
  · cases name <;> exact ⟨by decide, fun r h => by cases h⟩

set_option synthInstance.maxSize 1000 in
theorem witness_StepKeepsOneExecutionAndTheQueues :
    ((∃ t, step reading = .next t) ∧ reading.oneExecuting ∧ reading.lockLaw ∧ reading.queueLaw ∧ swapping.lockLaw)
    ∧ ((∃ t, step swapping = .next t) ∧ swapping.oneExecuting ∧ swapping.queueLaw ∧ swapping.countLaw ∧ swapping.sequenceLaw
      ∧ (swapping.entry 0).state = .executing ∧ (swapping.entry 0).op.locked = true ∧ swapping.bus.engine = .locked)
    ∧ ∀ s ∈ [due, lentDue], (∃ t, step s = .next t) ∧ s.oneExecuting ∧ s.queueLaw ∧ s.countLaw ∧ s.sequenceLaw
      ∧ (s.entry 0).state = .executing ∧ (s.entry 0).op.locked = true ∧ (s.bus.engine = .idle ∨ s.bus.engine = .yielded) := by
  have counts : ∀ s : State, s.table.entries = entriesInitial.set 0 (entryOf .swap .executing) → s.countLaw := fun s h =>
    every_entry (p := fun _ e => e.countLaw) (by rw [h]; rfl)
      (fun i hi => by
        have : ∀ i < 8, (entriesInitial.set 0 (entryOf .swap .executing)).getD i Entry.initial |>.countLaw := by
          unfold Entry.countLaw; decide +kernel
        simpa only [State.entry, h] using this i hi)
      (fun _ => by unfold Entry.countLaw; decide)
  have unmarked : ∀ s : State, s.table.entries = entriesInitial.set 0 (entryOf .swap .executing) →
      ∀ i, (s.entry i).state = .assembling ∨ (s.entry i).state = .queued → (s.entry i).mark = .none := fun s h i hi => by
    have h0 := only_zero h (j := i) (by rcases hi with hi | hi <;> rw [hi] <;> decide)
    subst h0
    simp only [State.entry, h]
    rfl
  refine ⟨⟨⟨_, rfl⟩, one_executing rfl, ⟨fun _ => ⟨0, by decide +kernel, by decide +kernel⟩, fun h => by cases h⟩,
      queueLaw_of_check (by decide +kernel), (fun h => by cases h), fun _ => ⟨0, by decide +kernel, by decide +kernel⟩⟩,
    ⟨⟨_, rfl⟩, one_executing rfl, queueLaw_of_check (by decide +kernel), counts _ rfl,
      ⟨unmarked _ rfl, fun _ _ _ => Or.inl rfl⟩, rfl, rfl, rfl⟩,
    fun s hs => ?_⟩
  have hc : queueCheck s = true ∧ s.table.entries = entriesInitial.set 0 (entryOf .swap .executing)
      ∧ (s.bus.engine = .idle ∧ s.bus.separating = true ∨ s.bus.engine = .yielded)
      ∧ s.bus.plan = lockedPart (s.entry 0) s.bus.width false := by
    revert s
    decide +kernel
  have he : s.entry 0 = entryOf .swap .executing := by rw [State.entry, hc.2.1]; rfl
  refine ⟨?_, one_executing hc.2.1, queueLaw_of_check hc.1, counts s hc.2.1, ⟨unmarked s hc.2.1, fun i hi _ => ?_⟩,
    by rw [he]; rfl, by rw [he]; rfl, hc.2.2.1.imp_left And.left⟩
  · simp only [List.mem_cons, List.not_mem_nil, or_false] at hs
    rcases hs with rfl | rfl <;> exact ⟨_, rfl⟩
  · have h0 := only_zero hc.2.1 (j := i) (by rw [hi]; decide)
    subst h0
    exact Or.inr ⟨hc.2.2.1, by rw [he]; rfl, hc.2.2.2⟩

/-- A WRITE of four bytes that is answered with a status, and its counts. -/
def answered (final : Status) (received done : Nat) : Entry :=
  { entryOf .write .replying with final := some final, received := received, done := done }

set_option synthInstance.maxSize 1000 in
/-- R76: after execution a write has received all its bytes; one that ended in ASSEMBLING still lacks some. -/
theorem test_received_is_kept :
    (∀ e ∈ [answered .done 4 4, answered .busError 4 1, answered .incomplete 2 0, answered .aborted 2 0], e.countLaw)
    ∧ ∀ e ∈ [answered .busError 2 1, answered .aborted 2 1, answered .sequence 4 0], ¬e.countLaw := by
  unfold Entry.countLaw
  decide +kernel

set_option synthInstance.maxSize 1000 in
theorem witness_StepKeepsTheCountsAndThePairs :
    (∃ t, step reading = .next t) ∧ reading.oneExecuting ∧ reading.queueLaw ∧ reading.countLaw ∧ reading.pairLaw
      ∧ reading.blockLaw ∧ reading.inUseLaw := by
  refine ⟨⟨_, rfl⟩, one_executing rfl, queueLaw_of_check (by decide +kernel), ?_, ?_,
    ⟨fun i hi => ?_, fun i j hi hj _ _ _ => ?_⟩, rfl, ?_, fun w hw => ?_⟩
  · exact every_entry (p := fun _ e => e.countLaw) rfl (by unfold Entry.countLaw; decide +kernel)
      (fun _ => by unfold Entry.countLaw; decide)
  · intro i j hi hj _ _
    rw [only_zero (s := reading) rfl hi, only_zero (s := reading) rfl hj]
  · rw [only_zero (s := reading) rfl hi]
    exact ⟨by decide, by decide, by decide⟩
  · rw [only_zero (s := reading) rfl hi, only_zero (s := reading) rfl hj]
  · exact every_entry (p := fun _ e => e.window < 16) rfl (by decide +kernel) (by simp [Entry.initial])
  · have h16 : w < 16 := hw
    by_cases h0 : w = 0
    · subst h0; decide +kernel
    · have hwin : reading.window w = Window.initial := window_other (n := 1) rfl h0
      rw [hwin]
      have : reading.table.entries.filter (fun e => e.holdsWindow w) = [] := by
        rw [List.filter_eq_nil_iff]
        intro e he
        have he' : e = entryOf .read .executing ∨ e = Entry.initial := by
          have : e ∈ entriesInitial.set 0 (entryOf .read .executing) := he
          rcases List.mem_or_eq_of_mem_set this with h | h
          · exact Or.inr (List.eq_of_mem_replicate h)
          · exact Or.inl h
        rcases he' with rfl | rfl
        · simp [Entry.holdsWindow, entryOf, Ne.symm h0]
        · simp [Entry.holdsWindow, Entry.initial]
      rw [this]; rfl

theorem witness_TheActiveBankChangesOnlyAtASwapOrAReset :
    (exec .scheduleSwap (committing .pendingNext) = .next (after .scheduleSwap (committing .pendingNext))
      ∧ (committing .pendingNext).marksSync (cycleRecord 101 8) 101)
    ∧ exec (.reset ask) node = .next (after (.reset ask) node) :=
  ⟨⟨rfl, marks_101 rfl⟩, rfl⟩

theorem witness_CommandsAreTheSlotsTheySpell :
    ((Instr.stop (askWith [1])).managementRequest = some (askWith [0], .stop) ∧ (Instr.stop (askWith [1])).wellFormed = true)
    ∧ ((Instr.laterSegment .write 65535 (segmentWith [1])).segmentRequest = some (segmentWith [1], .write, 65535)
      ∧ (Instr.laterSegment .write 65535 (segmentWith [1])).wellFormed = true) := by decide +kernel

/-- A slot of a header with a good check and `n` zero bytes after its Payload Mark. -/
def framed (index channel size : Byte) (n : Nat) : RawSlot :=
  { header := headerBytes index channel size, mark := some .faulted, body := List.replicate n 0 }

/-- The judgement of a slot at the bounds of R3, and where one condition fails. -/
theorem witness_CommandsAreTheSlotsTheySpell_judgement :
    (judgeSlot (framed 239 63 15 258)).headerGood = true
    ∧ ((judgeSlot (framed 0 0 0 18)).headerGood = true ∧ (judgeSlot (framed 0 0 0 18)).payloadGood = false)
    ∧ (judgeSlot (encodeSlot 0 0 0 .void (List.replicate 16 0))).payloadGood = true
    ∧ ∀ bad ∈ [framed 240 0 0 18, framed 0 64 0 18, framed 0 0 16 274, framed 0 0 0 17, framed 0 0 0 19,
          { framed 0 0 0 18 with mark := none }, { framed 0 0 0 18 with header := headerBytes 0 0 0 ++ [0] },
          { framed 0 0 0 18 with header := [0, 0, 0, 0, 0] }],
        (judgeSlot bad).headerGood = false := by decide +kernel

theorem witness_RecordsReadBack :
    (∃ c, judgeCycle (cycleRecord 65535 240) = some c)
    ∧ ({ action := .both, channel := some 63, source := some 62 } : SchedEntry).law
    ∧ (∃ e, SchedEntry.ofBytes 0xFE 0x80 = some e)
    ∧ ((someWindow 8).law ∧ (someWindow 8).valid = true ∧ (someWindow 8).inUse ≤ 8 ∧ 15 < 16)
    ∧ (let record := (someWindow 8).toBytes 15
      record.length = 12 ∧ (byteAt record 1).getLsbD 7 = true ∧ ∃ w, Window.ofBytes record = some w) := by
  exact ⟨⟨{ number := 65535, slotCount := 240 }, by decide +kernel⟩,
    ⟨fun c h => by cases h; decide, fun n h => by cases h; decide⟩,
    ⟨{ action := .both, channel := none, source := some 62 }, by decide⟩,
    ⟨fun _ => ⟨by decide, by decide, by decide, by decide, fun n h => by cases h⟩, rfl, by decide, by decide⟩,
    by decide +kernel, by decide +kernel, ⟨{ someWindow 0 with inUse := 0 }, by decide +kernel⟩⟩

end Sys2Proof.Tests
end

section
/-! PROOFS. The slot ring and the Ring Port (spec/01): what an arrival on the line does in HUNT. -/

namespace Sys2Proof.Machine

/-! ### The arrivals on the line, with the reset pin released -/

theorem exec_cycleMark {s : State} (record : RawRecord) (h : s.pins.reset = false) :
    exec (.cycleMark record) s = .next (cycleMark record s) := by
  show execCycleMark record s = _
  simp [execCycleMark, unlessPinReset, h]

theorem exec_slotArrival {s : State} (slot : RawSlot) (h : s.pins.reset = false) :
    exec (.slotArrival slot) s = .next (slotArrival (judgeSlot slot) s) :=
  exec_arrive (judgeSlot slot) h

/-! ### What the Ring Port forwards -/

/-- Outside DOWN the record is forwarded and the previous slot index becomes none before the record is judged (R9, R24). -/
theorem cycleMark_received {s : State} (record : RawRecord) (h : s.ring.state ≠ .down) :
    cycleMark record s
      = judgeMark (judgeCycle record.bytes)
          ((s.withRing { s.ring with lineOut := .record record }).withPrevIndex none) :=
  if_neg h

/-- Slots are presented to the Slot Engine in SYNC alone (R8). -/
theorem presents_eq_false {s : State} (h : s.ring.state ≠ .sync) : s.presents = false := by
  simp [State.presents, h]

/-- A slot that is not presented passes through the part as it came (R8, R9). -/
theorem slotArrival_unpresented {s : State} (a : Arrival) (hd : s.ring.state ≠ .down) (hp : s.presents = false) :
    slotArrival a s = forwardSlot a.raw s := by
  simp [slotArrival, hd, hp]

/-! ### The judgement of a record in HUNT (R11) -/

theorem judgeMark_hunt_valid {s : State} (c : CycleInfo) (h : s.ring.state = .hunt) :
    judgeMark (some c) s = s.withRing (s.ring.armedAt c) := by
  simp [judgeMark, h]

theorem judgeMark_hunt_invalid {s : State} (h : s.ring.state = .hunt) : judgeMark none s = s := by
  simp [judgeMark, h]

/-- Settles O8: in HUNT the Ring Port alone judges the forwarded record, and no slot is presented to the Slot Engine. -/
theorem huntLooksForAValidRecord : Obligations.HuntLooksForAValidRecord := by
  intro s hreset hhunt
  have hdown : s.ring.state ≠ .down := by simp [hhunt]
  have hsync : s.ring.state ≠ .sync := by simp [hhunt]
  refine ⟨fun record c hvalid => ?valid, fun record hinvalid => ?invalid, fun slot => ?slot⟩
  case valid =>
    rw [exec_cycleMark record hreset, cycleMark_received record hdown, hvalid]
    exact congrArg Host.Outcome.next (judgeMark_hunt_valid c hhunt)
  case invalid =>
    rw [exec_cycleMark record hreset, cycleMark_received record hdown, hinvalid]
    exact congrArg Host.Outcome.next (judgeMark_hunt_invalid hhunt)
  case slot =>
    rw [exec_slotArrival slot hreset, slotArrival_unpresented _ hdown (presents_eq_false hsync)]
    rfl

end Sys2Proof.Machine
end

section
/-! PROOFS. The Reply Emitter's choice and its filling step (spec/07, section 7.3), and a VOID slot that comes to it. -/

namespace Sys2Proof.Machine

/-! ### The table of the members that can make progress (R135) -/

theorem canProgress_executing_read {e : Entry} {capacity : Nat} (hop : e.op = .read) (hst : e.state = .executing) :
    e.canProgress capacity = true ↔ e.mark ≠ .quiet ∧ e.sent < e.done ∧ 1 ≤ capacity := by
  simp [Entry.canProgress, hop, hst, and_assoc]

theorem canProgress_replying_read {e : Entry} {capacity : Nat} (hop : e.op = .read) (hst : e.state = .replying) :
    e.canProgress capacity = true ↔ e.sent < e.done ∧ 1 ≤ capacity ∨ e.sent = e.done := by
  simp [Entry.canProgress, hop, hst]

theorem canProgress_replying_write {e : Entry} {capacity : Nat} (hop : e.op = .write ∨ e.op = .writeQuiet)
    (hst : e.state = .replying) : e.canProgress capacity = true := by
  rcases hop with hop | hop <;> simp [Entry.canProgress, hop, hst]

theorem canProgress_replying_locked {e : Entry} {capacity : Nat} (hop : e.op = .swap ∨ e.op = .add ∨ e.op = .cswap)
    (hst : e.state = .replying) : e.canProgress capacity = true ↔ e.done ≤ capacity := by
  rcases hop with hop | hop | hop <;> simp [Entry.canProgress, hop, hst]

/-! ### The capacity of a slot (R31, R135) -/

theorem capacityOf_eq_payloadLength_sub (size : Byte) : capacityOf size = payloadLength size - 16 := by
  unfold capacityOf payloadLength
  omega

theorem capacityOf_le_of_code {size : Byte} (h : size.toNat ≤ 15) : capacityOf size ≤ 240 := by
  unfold capacityOf
  omega

@[simp] theorem capacityOf_zero : capacityOf 0 = 0 := rfl

/-! ### One segment given for a member (R142) -/

theorem giveMember_entry (length capacity i : Nat) (im : Image) (s : State) :
    giveMember length capacity (.entry i) im s
      = (giveEntry i (s.pieceOf (s.entry i) capacity) s,
          segmentImage length ((s.entry i).replySegment s.mgmt.node (s.pieceOf (s.entry i) capacity))) := rfl

theorem giveMember_free_desc {s : State} {d : Nat} (length capacity : Nat) (im : Image) (h : s.descriptor d = none) :
    giveMember length capacity (.desc d) im s = (s, im) := by
  simp [giveMember, h]

theorem giveMember_pending_desc {s : State} {d : Nat} {r : ShortReply} (length capacity : Nat) (im : Image)
    (h : s.descriptor d = some r) :
    giveMember length capacity (.desc d) im s = (giveShort d s, segmentImage length (r.segment s.mgmt.node)) := by
  simp [giveMember, h]

/-- Every member but a descriptor that holds no short reply gives a DATA payload. -/
theorem giveMember_kind {s : State} (length capacity : Nat) {m : Member} (im : Image)
    (hm : ∀ d, m = .desc d → (s.descriptor d).isSome = true) : (giveMember length capacity m im s).2.kind = .data := by
  cases m with
  | entry i => rfl
  | desc d =>
    obtain ⟨r, hr⟩ := Option.isSome_iff_exists.1 (hm d rfl)
    rw [giveMember_pending_desc length capacity im hr, segmentImage]

/-- The entry's side of a giving takes the entry out of the Reply Queue with a LAST segment alone (R142). -/
theorem sendPiece_replyQueue (i : Nat) (p : Piece) (s : State) :
    (sendPiece i p s).replyQueue
      = if p.last then s.replyQueue.filter (fun x => decide (x ≠ .entry i)) else s.replyQueue := by
  unfold sendPiece
  cases p.last <;> rfl

@[simp] theorem countGiven_replyQueue (s : State) : (countGiven s).replyQueue = s.replyQueue := rfl

theorem giveEntry_replyQueue (i : Nat) (p : Piece) (s : State) :
    (giveEntry i p s).replyQueue
      = if p.last then s.replyQueue.filter (fun x => decide (x ≠ .entry i)) else s.replyQueue := by
  unfold giveEntry
  cases hl : p.last <;> simp [sendPiece_replyQueue, hl]

theorem giveShort_replyQueue (d : Nat) (s : State) :
    (giveShort d s).replyQueue = s.replyQueue.filter (fun x => decide (x ≠ .desc d)) := by
  simp [giveShort, freeDescriptor]

/-- A giving takes at most its own member out of the Reply Queue: every other one keeps its place. -/
theorem giveMember_replyQueue (length capacity : Nat) (m : Member) (im : Image) (s : State) :
    (giveMember length capacity m im s).1.replyQueue = s.replyQueue
      ∨ (giveMember length capacity m im s).1.replyQueue = s.replyQueue.filter (fun x => decide (x ≠ m)) := by
  cases m with
  | entry i =>
    rw [giveMember_entry, giveEntry_replyQueue]
    exact (ite_eq_or_eq _ _ _).symm
  | desc d =>
    cases hd : s.descriptor d with
    | none => exact .inl (by rw [giveMember_free_desc length capacity im hd])
    | some r =>
      rw [giveMember_pending_desc length capacity im hd]
      exact .inr (giveShort_replyQueue d s)

/-! ### The filling step (R32, R33, R135) -/

theorem fillStep_of_not_void {im : Image} (length capacity : Nat) (s : State) (h : im.kind ≠ .void) :
    fillStep length capacity im s = (s, im) :=
  if_neg h

theorem fillStep_of_no_progress {s : State} {capacity : Nat} (length : Nat) (im : Image)
    (h : ∀ m ∈ s.replyQueue, s.memberCanProgress capacity m = false) : fillStep length capacity im s = (s, im) := by
  have hnone : s.replyQueue.find? (s.memberCanProgress capacity) = none := by simpa using h
  simp [fillStep, hnone]

/-- The first member that can make progress is found behind those that cannot. -/
theorem find?_first_progress {s : State} {capacity : Nat} {older younger : List Member} {m : Member}
    (hq : s.replyQueue = older ++ m :: younger) (ho : ∀ x ∈ older, s.memberCanProgress capacity x = false)
    (hm : s.memberCanProgress capacity m = true) : s.replyQueue.find? (s.memberCanProgress capacity) = some m := by
  have hnone : older.find? (s.memberCanProgress capacity) = none := by simpa using ho
  rw [hq, List.find?_append, hnone, Option.none_or, List.find?_cons_of_pos hm]

theorem fillStep_of_first_progress {s : State} {capacity : Nat} {older younger : List Member} {m : Member} {im : Image}
    (length : Nat) (hv : im.kind = .void) (hq : s.replyQueue = older ++ m :: younger)
    (ho : ∀ x ∈ older, s.memberCanProgress capacity x = false) (hm : s.memberCanProgress capacity m = true) :
    fillStep length capacity im s = giveMember length capacity m im s := by
  simp [fillStep, hv, find?_first_progress hq ho hm]

/-! ### A slot on its way to the filling step (R29, R32, R33) -/

theorem stripStep_of_not_data {im : Image} (index : Byte) (s : State) (h : im.kind ≠ .data) :
    stripStep index im s = (s, im) :=
  if_neg fun hd => h hd.1

theorem intakeStep_of_not_data {im : Image} (filter : Option Byte) (a : Arrival) (s : State) (h : im.kind ≠ .data) :
    intakeStep filter a im s = (s, im) :=
  if_neg h

/-- A VOID slot comes to the filling step of its action as it arrived, with nothing stripped and nothing taken. -/
theorem applyAction_void {a : Arrival} {action : Action} (filter : Option Byte) (s : State) (hk : a.kind = .void)
    (hact : action = .give ∨ action = .both) :
    applyAction action filter a s = fillStep (payloadLength a.size) a.capacity a.image s := by
  have hi : a.image.kind ≠ .data := by simp [Arrival.image, hk]
  have hstrip : a.strip (s, a.image) = (s, a.image) := stripStep_of_not_data a.index s hi
  have hintake : a.intake filter (s, a.image) = (s, a.image) := intakeStep_of_not_data filter a s hi
  rcases hact with rfl | rfl
  · rw [applyAction, hstrip, Arrival.fill]
  · rw [applyAction, hstrip, hintake, Arrival.fill]

theorem matchesChannel_iff (e : SchedEntry) (channel : Byte) :
    e.matchesChannel channel = true ↔ e.channel = none ∨ e.channel = some channel := by
  unfold SchedEntry.matchesChannel
  cases e.channel <;> simp

theorem scheduledSlot_of_match {a : Arrival} {s : State}
    (h : (s.activeEntry a.index).channel = none ∨ (s.activeEntry a.index).channel = some a.channel) :
    scheduledSlot a s = applyAction (s.activeEntry a.index).action (s.activeEntry a.index).source a s :=
  if_pos ((matchesChannel_iff _ _).2 h)

/-- An admitted slot with good checks on a scheduled channel leaves as its entry's action has left it (R29 to R34). -/
theorem exec_slotArrival_scheduled {s : State} {index channel size : Byte} {kind : MarkKind} {payload : List Byte}
    (hp : payload.length = payloadLength size) (hh : headerInRange index channel size = true) (hc : channel ≠ 0)
    (ha : s.admits index)
    (hch : (s.activeEntry index).channel = none ∨ (s.activeEntry index).channel = some channel) :
    exec (.slotArrival (encodeSlot index channel size kind payload)) s
      = (let r := applyAction (s.activeEntry index).action (s.activeEntry index).source
          (arrivalOf index channel size kind payload) { s with prevIndex := some index }
        .next (r.1.leaving (encodeSlot index channel size r.2.kind r.2.payload))) := by
  have hsched : scheduledSlot (arrivalOf index channel size kind payload) (s.withPrevIndex (some index))
      = applyAction (s.activeEntry index).action (s.activeEntry index).source
          (arrivalOf index channel size kind payload) { s with prevIndex := some index } :=
    scheduledSlot_of_match hch
  rw [exec_slotArrival _ ha.1, judgeSlot_encodeSlot _ _ _ _ _ hp, slotArrival_admitted _ _ _ _ _ ha hh, if_neg hc, hsched]

/-- At GIVE and BOTH an admitted VOID slot leaves as the filling step has left it. -/
theorem exec_slotArrival_void_fills {s : State} {index channel size : Byte}
    (hh : headerInRange index channel size = true) (hc : channel ≠ 0) (ha : s.admits index)
    (hch : (s.activeEntry index).channel = none ∨ (s.activeEntry index).channel = some channel)
    (hact : (s.activeEntry index).action = .give ∨ (s.activeEntry index).action = .both) :
    exec (.slotArrival (encodeSlot index channel size .void (List.replicate (payloadLength size) 0))) s
      = (let r := fillStep (payloadLength size) (capacityOf size)
          { kind := .void, payload := List.replicate (payloadLength size) 0 } { s with prevIndex := some index }
        .next (r.1.leaving (encodeSlot index channel size r.2.kind r.2.payload))) := by
  rw [exec_slotArrival_scheduled List.length_replicate hh hc ha hch, applyAction_void _ _ rfl hact, arrivalOf_capacity]
  rfl

/-- Settles O17: the table of R135, the capacity, and the filling step, from the choice to the slot on the line out. -/
theorem progressIsAsTheTableGives : Obligations.ProgressIsAsTheTableGives := by
  refine ⟨fun s capacity i d => ?table, fun size hsize => ?capacity, fun s length capacity im => ⟨?passed, ?given⟩,
    fun a filter s => ?actions, fun s index channel size hh hc ha hch hact => ?void⟩
  case table =>
    exact ⟨rfl, canProgress_executing_read, canProgress_replying_read, canProgress_replying_write,
      canProgress_replying_locked⟩
  case capacity =>
    exact ⟨capacityOf_eq_payloadLength_sub size, capacityOf_le_of_code hsize, fun h => h ▸ capacityOf_zero⟩
  case passed =>
    rintro (hkind | hnone)
    · exact fillStep_of_not_void length capacity s hkind
    · exact fillStep_of_no_progress length im hnone
  case given =>
    intro older younger m hvoid hqueue holder hm hdesc
    have hfill := fillStep_of_first_progress length hvoid hqueue holder hm
    rw [hfill]
    exact ⟨rfl, giveMember_kind length capacity im hdesc, giveMember_replyQueue length capacity m im s⟩
  case actions => exact ⟨rfl, rfl⟩
  case void => exact exec_slotArrival_void_fills hh hc ha hch hact

end Sys2Proof.Machine
end

section
/-! PROOFS. The laws of the blocks' registers: windows after an update, the values of a reset, and the laws of the bridge, the
schedule, the report banks and the Data Pool. -/

namespace Sys2Proof.Machine

/-! ### Windows after an update -/

theorem modWindow_window (s : State) (i : Nat) (f : Window → Window) (j : Nat) :
    (s.modWindow i f).window j = if j = i ∧ i < s.windows.length then f (s.window j) else s.window j := by
  simp only [State.window, State.modWindow, withWindows_windows, List.getD_eq_getElem?_getD, List.getElem?_modify]
  by_cases hj : i = j
  · subst hj
    by_cases hl : i < s.windows.length <;> simp [hl]
  · simp [hj, Ne.symm hj]

/-- A window past the end of the table is as a reset leaves it. -/
theorem window_ge {s : State} {i : Nat} (h : s.windows.length ≤ i) : s.window i = Window.initial := by
  rw [State.window, List.getD_eq_default _ _ h]

theorem freeAllButExecuting_window (s : State) (i : Nat) :
    (freeAllButExecuting s).window i = { s.window i with inUse := (s.window i).inUse - s.waitingIn i } := by
  show (s.windows.mapIdx _).getD i Window.initial = _
  by_cases hl : i < s.windows.length
  · simp [State.window, List.getD_eq_getElem?_getD, hl]
  · have hw := window_ge (Nat.le_of_not_lt hl)
    rw [hw, List.getD_eq_default _ _ (by simpa using hl)]
    simp [Window.initial]

theorem tearDownBlocks_window (s : State) (i : Nat) :
    (tearDownBlocks s).window i = { s.window i with inUse := (s.window i).inUse - s.waitingIn i } :=
  freeAllButExecuting_window s i

theorem endExecution_windows (i : Nat) (st : Status) (s : State) :
    (endExecution i st s).windows = (releaseWindow i s).windows := by
  simp [endExecution, countExecuted, State.modCounters, releaseWindow, State.modWindow, State.entry]

theorem answerUnexecuted_windows (i : Nat) (st : Status) (s : State) :
    (answerUnexecuted i st s).windows = (releaseWindow i s).windows := by
  simp [answerUnexecuted]

theorem dropEntry_windows (i : Nat) (s : State) : (dropEntry i s).windows = (releaseWindow i s).windows := by
  simp [dropEntry]

theorem allocate_windows (i : Nat) (op : ReqOp) (g : Segment) (w : Nat) (bs : List Nat) (s : State) :
    (allocate i op g w bs s).windows = (s.modWindow w (fun w => { w with inUse := w.inUse + 1 })).windows := rfl

/-! ### The values of a reset -/

@[simp] theorem pinReset_fields (s : State) :
    (pinReset s).ring = RingPort.initial ∧ (pinReset s).prevIndex = none ∧ (pinReset s).sched = Schedule.initial
      ∧ (pinReset s).descriptors = descriptorsInitial ∧ (pinReset s).table = Table.initial
      ∧ (pinReset s).windows = windowsInitial ∧ (pinReset s).bus = Bus.initial ∧ (pinReset s).replyQueue = []
      ∧ (pinReset s).mgmt = Mgmt.initial ∧ (pinReset s).reports = Reports.initial ∧ (pinReset s).bridge = Bridge.initial
      ∧ (pinReset s).choices = s.choices ∧ (pinReset s).pending = s.pending :=
  ⟨rfl, rfl, rfl, rfl, rfl, rfl, rfl, rfl, rfl, rfl, rfl, rfl, rfl⟩

@[simp] theorem softResetValues_fields (s : State) :
    (softResetValues s).ring = s.ring.softReset (decide (s.mgmt.params.prescaler ≠ .p8))
      ∧ (softResetValues s).prevIndex = none ∧ (softResetValues s).sched = Schedule.initial
      ∧ (softResetValues s).descriptors = descriptorsInitial
      ∧ (softResetValues s).table = { Table.initial with pool := s.table.pool }
      ∧ (softResetValues s).windows = windowsInitial
      ∧ (softResetValues s).bus = s.bus.softReset (decide (s.mgmt.params.prescaler ≠ .p8)) s.ring.timebase
      ∧ (softResetValues s).replyQueue = []
      ∧ (softResetValues s).mgmt = { s.mgmt with params := Params.initial, queue := [], noticeSeq := 0 }
      ∧ (softResetValues s).reports = { s.reports with counters := Counters.initial, lastTx := none }
      ∧ (softResetValues s).bridge
          = { state := .stopped, flush := false, softReset := none, resetCount := s.bridge.resetCount + 1 }
      ∧ (softResetValues s).pins = s.pins ∧ (softResetValues s).choices = s.choices
      ∧ (softResetValues s).pending = s.pending :=
  ⟨rfl, rfl, rfl, rfl, rfl, rfl, rfl, rfl, rfl, rfl, rfl, rfl, rfl, rfl⟩

theorem window_of_windowsInitial {s : State} (h : s.windows = windowsInitial) (i : Nat) : s.window i = Window.initial := by
  simp only [State.window, h, windowsInitial, List.getD_eq_getElem?_getD, List.getElem?_replicate]
  split <;> rfl

theorem entry_of_entriesInitial {s : State} (h : s.table.entries = entriesInitial) (i : Nat) :
    s.entry i = Entry.initial := by
  simp only [State.entry, h, entriesInitial, List.getD_eq_getElem?_getD, List.getElem?_replicate]
  split <;> rfl

theorem descriptor_of_descriptorsInitial {s : State} (h : s.descriptors = descriptorsInitial) (d : Nat) :
    s.descriptor d = none := by
  simp only [State.descriptor, h, descriptorsInitial, List.getD_eq_getElem?_getD, List.getElem?_replicate]
  split <;> rfl

/-! ### The laws of the registers are kept by every act -/

/-- The bridge's law is of the bridge alone (R187). -/
theorem closed_bridgeLaw : Closed State.bridgeLaw := by
  refine ⟨?acts, fun s _ h => h⟩
  constructor
  case start | drain | pinReset | softReset | tearDown => intros; simp [State.bridgeLaw, startBridge, tearDownBlocks, Bridge.initial]
  case flushed =>
    intro s remains _
    cases remains <;> simp [State.bridgeLaw, Bridge.flushed]
  case judgeDrain =>
    intro s h
    unfold judgeDrain
    split
    · simp [State.bridgeLaw]
    · exact h
  all_goals intros; simpa [State.bridgeLaw] using ‹State.bridgeLaw _›

/-! ### The schedule -/

theorem schedLaw_initial {s : State} (h : s.sched = Schedule.initial) : s.schedLaw := by
  have hl : SchedEntry.initial.law := by simp [SchedEntry.law, SchedEntry.initial]
  simp only [State.schedLaw, h, Schedule.initial, bankInitial, List.length_replicate, List.mem_replicate, true_and]
  exact ⟨fun e he => he.2 ▸ hl, fun e he => he.2 ▸ hl⟩

/-- The schedule's law is of its two banks alone: what is loaded is in range, and a swap repeats the shadow bank (R22). -/
theorem closed_schedLaw : Closed State.schedLaw := by
  refine ⟨?acts, fun s _ ⟨_, hs, _, hes⟩ => ⟨hs, hs, hes, hes⟩⟩
  constructor
  case shadow =>
    intro s first es hr hes ⟨ha, hs, hea, hesh⟩
    simp only [scheduleRange, Bool.and_eq_true, decide_eq_true_eq] at hr
    refine ⟨ha, ?_, hea, ?_⟩
    · simp only [withSched_sched, Schedule.load, List.length_append, List.length_take, List.length_drop, hs, Config.slots]
      omega
    · intro e he
      simp only [withSched_sched, Schedule.load, List.mem_append] at he
      rcases he with (he | he) | he
      · exact hesh e (List.mem_of_mem_take he)
      · exact hes e he
      · exact hesh e (List.mem_of_mem_drop he)
  case softReset | pinReset => intros; exact schedLaw_initial rfl
  all_goals intros; simpa [State.schedLaw] using ‹State.schedLaw _›

/-! ### The report banks -/

theorem Reports.bank_setBank (r : Reports) (b name : BankName) (x : Bank) :
    (r.setBank b x).bank name = if name = b then x else r.bank name := by
  cases b <;> cases name <;> rfl

theorem saturate_le (n : Nat) : saturate n ≤ 65535 := Nat.min_le_right _ _

theorem saturate_pos (n : Nat) : 0 < saturate n := by unfold saturate; omega

/-- A bank's law survives one more report of its own: counted alone, filled, or added (R174 to R176). -/
theorem Bank.law_counted {b : Bank} {name : BankName} (h : b.law name) : b.counted.law name := ⟨saturate_le _, h.2⟩

theorem reportLaw_setBank {s t : State} {b : BankName} {x : Bank} (ht : t.reports = s.reports.setBank b x)
    (hx : x.law b) (h : s.reportLaw) : t.reportLaw := by
  intro name
  rw [ht, Reports.bank_setBank]
  split
  · rename_i hn; exact hn ▸ hx
  · exact h name

theorem report_reportLaw (k : Report) {s : State} (h : s.reportLaw) : (report k s).reportLaw := by
  have hc := Bank.law_counted (h k.kind.bank)
  unfold report
  dsimp only
  split
  · split
    · refine reportLaw_setBank rfl ⟨hc.1, fun r hr => ?_⟩ h
      cases hr
      simp [Report.toRecord]
    · rename_i rec hrec
      refine reportLaw_setBank rfl ⟨hc.1, fun r hr => ?_⟩ h
      cases hr
      exact ⟨(hc.2 rec hrec).1, saturate_le _, by simp [BankRecord.added, saturate_pos]⟩
  · exact reportLaw_setBank rfl hc h

theorem reportLaw_of_banks {s t : State} (hb : ∀ name, t.reports.bank name = s.reports.bank name) (h : s.reportLaw) :
    t.reportLaw := fun name => hb name ▸ h name

theorem modCounters_bank (s : State) (f : Counters → Counters) (name : BankName) :
    (s.modCounters f).reports.bank name = s.reports.bank name := by cases name <;> rfl

theorem endExecution_reportLaw (i : Nat) (st : Status) {s : State} (h : s.reportLaw) : (endExecution i st s).reportLaw := by
  have hr : ∀ (e : Entry) (t : State), t.reportLaw → (reportEnd e st t).reportLaw := by
    intro e t ht
    unfold reportEnd
    split
    · exact report_reportLaw _ ht
    · split
      · exact report_reportLaw _ ht
      · exact ht
  unfold endExecution State.reportLaw
  simp only [leaveExecuting_frame]
  refine hr _ _ (reportLaw_of_banks (s := s) (fun name => ?_) h)
  cases name <;> simp [Reports.bank, countExecuted, State.modCounters]

/-- The banks' law is kept by reports, by a clearing, and by everything else that leaves the banks as they are. -/
theorem closed_reportLaw : Closed State.reportLaw := by
  refine ⟨?acts, fun s _ h => h⟩
  constructor
  case report => exact fun s k h => report_reportLaw k h
  case clearBank =>
    intro s b h
    exact reportLaw_setBank rfl ⟨(h b).1, fun r hr => by cases hr⟩ h
  case pinReset =>
    intro s _ name
    cases name <;> exact ⟨Nat.zero_le _, fun r hr => by cases hr⟩
  case takenBeat =>
    intro s i b answer w data _ _ _ h
    refine reportLaw_of_banks (fun name => ?_) h
    cases name <;> simp [Reports.bank]
  case allocate =>
    intro s i rest op g window capacity _ _ _ h
    refine reportLaw_of_banks (fun name => ?_) h
    cases name <;> rfl
  case counters => exact fun s f h => reportLaw_of_banks (modCounters_bank s f) h
  case softReset =>
    intro s _ h
    exact reportLaw_of_banks (fun name => by cases name <;> rfl) h
  case endExecution => exact fun s i st _ _ h => endExecution_reportLaw i st h
  case claimLent => exact fun s i quiet _ _ _ h => endExecution_reportLaw i .aborted h
  all_goals intros; simpa [State.reportLaw] using ‹State.reportLaw _›

/-! ### The Data Pool -/

/-- The pool's canonical form is kept by its every write; what else there is does not write it. -/
theorem closed_poolLaw : Closed State.poolLaw := by
  refine ⟨?acts, fun s _ h => h⟩
  constructor
  case pinReset => intro s _; rfl
  case takenBeat =>
    intro s i b answer w data _ _ _ h
    exact placeRead_wf (s.entry i) b (b.takenLanes w) data (countBeat s) h
  case allocate =>
    intro s i rest op g window capacity _ _ _ h
    exact poolWriteRun_wf _ _ _ _ h
  case append =>
    intro s i op g capacity _ _ _ _ h
    exact poolWriteRun_wf _ _ _ _ h
  all_goals intros; simpa [State.poolLaw] using ‹State.poolLaw _›

end Sys2Proof.Machine
end

section
/-! PROOFS. The laws of the blocks' registers, continued: the Ring Port, the Management Unit, the windows and the bus; and every
step keeps them all. -/

namespace Sys2Proof.Machine

/-! ### The Ring Port -/

theorem ringLaw_initial {s : State} (hr : s.ring = RingPort.initial) (hp : s.prevIndex = none) : s.ringLaw := by
  have hc : 0 < s.mgmt.params.prescaler.clocks := by cases s.mgmt.params.prescaler <;> decide
  simp [State.ringLaw, hr, hp, RingPort.initial, hc]

theorem Prescaler.clocks_pos (p : Prescaler) : 0 < p.clocks := by cases p <;> decide

/-- A measured period is never 0 (R17). -/
theorem RingPort.measured_ne_zero {r : RingPort} (h : r.period ≠ some 0) : r.measured ≠ some 0 := by
  unfold RingPort.measured
  split
  · exact h
  · split
    · simp
    · simpa using ‹_›

/-- The Ring Port's law, act by act: the state of the line, the captures, the divider under its prescaler, and the indices. -/
theorem closed_ringLaw : Closed State.ringLaw := by
  refine ⟨?acts, fun s _ h => h⟩
  constructor
  case noPrev =>
    rintro s ⟨h1, h2, h3, h4, h5, h6, h7⟩
    exact ⟨h1, h2, h3, h4, h5, h6, fun i hi => by cases hi⟩
  case prev =>
    rintro s i hi _ ⟨h1, h2, h3, h4, h5, h6, h7⟩
    exact ⟨h1, h2, h3, h4, h5, h6, fun j hj => by cases hj; exact hi⟩
  case armedAt =>
    rintro s c hs hc ⟨h1, h2, h3, h4, h5, h6, h7⟩
    have hd : s.ring.state ≠ .down := by rcases hs with hs | hs <;> simp [hs]
    have hb : s.ring.blind = false := by rcases hs with hs | hs <;> simpa [hs] using h2
    exact ⟨by simpa [RingPort.armedAt, RingPort.capture, hd] using h1, by simp [RingPort.armedAt, RingPort.capture, hb],
      fun _ => Or.inl rfl, h4, h5, hc, h7⟩
  case syncAt =>
    rintro s c hs hc ⟨h1, h2, h3, h4, h5, h6, h7⟩
    have hd : s.ring.state ≠ .down := by rcases hs with hs | hs <;> simp [hs]
    exact ⟨by simpa [RingPort.syncAt, RingPort.measureAndCapture, hd] using h1, fun _ => rfl, fun _ => Or.inr rfl,
      RingPort.measured_ne_zero h4, h5, hc, h7⟩
  case blindMark =>
    rintro s hs ⟨h1, h2, h3, h4, h5, h6, h7⟩
    exact ⟨h1, fun _ => hs, fun _ => Or.inr hs, RingPort.measured_ne_zero h4, h5, h6, h7⟩
  case toHunt =>
    rintro s hs ⟨h1, h2, h3, h4, h5, h6, h7⟩
    exact ⟨by simpa [RingPort.toHunt, hs] using h1, by simp [RingPort.toHunt], by simp [RingPort.toHunt], h4, h5, h6, h7⟩
  case toDown =>
    rintro s _ ⟨h1, h2, h3, h4, h5, h6, h7⟩
    exact ⟨by simp [RingPort.toDown], by simp [RingPort.toDown], by simp [RingPort.toDown], h4, h5, h6, h7⟩
  case restore =>
    rintro s _ ⟨h1, h2, h3, h4, h5, h6, h7⟩
    exact ⟨by simp [RingPort.restored], by simp [RingPort.restored], by simp [RingPort.restored], h4, h5, h6, h7⟩
  case timebase =>
    rintro s ⟨h1, h2, h3, h4, h5, h6, h7⟩
    exact ⟨h1, h2, h3, h4, Prescaler.clocks_pos _, h6, h7⟩
  case divider =>
    rintro s hd ⟨h1, h2, h3, h4, h5, h6, h7⟩
    exact ⟨h1, h2, h3, h4, hd, h6, h7⟩
  case setParams =>
    rintro s p _ ⟨h1, h2, h3, h4, h5, h6, h7⟩
    unfold setParams
    dsimp only
    split
    · rename_i hp
      exact ⟨h1, h2, h3, h4, by simpa [hp] using h5, h6, h7⟩
    · exact ⟨h1, h2, by simp [RingPort.prescalerChanged], by simp [RingPort.prescalerChanged], Prescaler.clocks_pos _, h6, h7⟩
  case softReset =>
    rintro s _ ⟨h1, h2, h3, h4, h5, h6, h7⟩
    by_cases hp : s.mgmt.params.prescaler = .p8
    · simpa [State.ringLaw, RingPort.softReset, hp, Prescaler.clocks_pos] using ⟨h1, h2, h3, h4, h6⟩
    · simpa [State.ringLaw, RingPort.softReset, RingPort.prescalerChanged, hp, Prescaler.clocks_pos] using ⟨h1, h2, h6⟩
  case pinReset => exact fun s _ => ringLaw_initial rfl rfl
  all_goals intros; simpa [State.ringLaw] using ‹State.ringLaw _›

/-! ### The Management Unit -/

theorem mgmtLaw_initial {s : State} (h : s.mgmt = Mgmt.initial) : s.mgmtLaw := by
  simp [State.mgmtLaw, h, Mgmt.initial, Params.initial, Config.mgmtReplies]

/-- The law of the Management Unit, its configuration's share named. -/
theorem mgmtLaw_iff (s : State) :
    s.mgmtLaw ↔ (s.mgmt.manager = none ↔ s.mgmt.node = 0) ∧ s.mgmt.node.toNat ≤ 62
      ∧ (∀ n, s.mgmt.manager = some n → isNode n = true) ∧ s.mgmt.queue.length ≤ Config.mgmtReplies ∧ s.mgmt.params.law :=
  Iff.rfl

/-- A notice is queued only where there is room for it (R179). -/
theorem Mgmt.notice_length (m : Mgmt) (kind : ReportKind) (cycle : Half) (h : m.queue.length ≤ Config.mgmtReplies) :
    (m.notice kind cycle).1.queue.length ≤ Config.mgmtReplies := by
  unfold Mgmt.notice
  split
  · split
    · simpa [Mgmt.pushNotice] using ‹_›
    · exact h
  · exact h

theorem report_queue_length (k : Report) {s : State} (h : s.mgmt.queue.length ≤ Config.mgmtReplies) :
    (report k s).mgmt.queue.length ≤ Config.mgmtReplies := by
  unfold report
  dsimp only
  split
  · split
    · exact Mgmt.notice_length _ _ _ h
    · exact h
  · exact h

theorem report_mgmtLaw (k : Report) {s : State} (h : s.mgmtLaw) : (report k s).mgmtLaw := by
  obtain ⟨h1, h2, h3, h4, h5⟩ := (mgmtLaw_iff s).1 h
  rw [mgmtLaw_iff]
  simp only [report_mgmt]
  exact ⟨h1, h2, h3, report_queue_length k h4, h5⟩

theorem reportEnd_mgmtLaw (e : Entry) (st : Status) {s : State} (h : s.mgmtLaw) : (reportEnd e st s).mgmtLaw := by
  unfold reportEnd
  split
  · exact report_mgmtLaw _ h
  · split
    · exact report_mgmtLaw _ h
    · exact h

theorem endExecution_mgmtLaw (i : Nat) (st : Status) {s : State} (h : s.mgmtLaw) : (endExecution i st s).mgmtLaw := by
  unfold endExecution State.mgmtLaw
  simp only [leaveExecuting_frame]
  exact reportEnd_mgmtLaw _ _ h

theorem Params.initial_law : Params.initial.law := by simp [Params.law, Params.initial]

theorem node_of_isNode {n : Byte} (h : isNode n = true) : n ≠ 0 ∧ n.toNat ≤ 62 := by
  simp only [isNode, Bool.and_eq_true, decide_eq_true_eq] at h
  exact ⟨fun h0 => by simp [h0] at h, h.2⟩

/-- The Management Unit's law, act by act: a notice and a reply where there is room, node and manager set together, and a
configuration in range. -/
theorem closed_mgmtLaw : Closed State.mgmtLaw := by
  refine ⟨?acts, fun s _ h => h⟩
  constructor
  case report => exact fun s k h => report_mgmtLaw k h
  case setParams =>
    intro s p hp h
    obtain ⟨h1, h2, h3, h4, h5⟩ := (mgmtLaw_iff s).1 h
    rw [mgmtLaw_iff]
    simp only [setParams_frame]
    exact ⟨h1, h2, h3, h4, hp h5⟩
  case queueReply =>
    rintro s x hroom ⟨h1, h2, h3, h4, h5⟩
    refine ⟨h1, h2, h3, ?_, h5⟩
    rcases hroom with hroom | ⟨h0, hm⟩
    · simpa [queueReply] using hroom
    · exact absurd (h1.2 h0) hm
  case dequeue =>
    rintro s x rest hq ⟨h1, h2, h3, h4, h5⟩
    refine ⟨h1, h2, h3, ?_, h5⟩
    rw [hq, List.length_cons] at h4
    exact Nat.le_of_succ_le h4
  case dropReplies =>
    rintro s ⟨h1, h2, h3, h4, h5⟩
    exact ⟨h1, h2, h3, Nat.zero_le _, h5⟩
  case assign =>
    rintro s n m _ hn hm ⟨h1, h2, h3, h4, h5⟩
    have hn := node_of_isNode hn
    exact ⟨⟨(fun hk => nomatch hk), fun hk => absurd hk hn.1⟩, hn.2, fun k hk => by cases hk; exact hm, h4, h5⟩
  case renumber =>
    rintro s n h0 hn ⟨h1, h2, h3, h4, h5⟩
    have hn := node_of_isNode hn
    exact ⟨⟨fun hk => absurd (h1.1 hk) h0, fun hk => absurd hk hn.1⟩, hn.2, h3, h4, h5⟩
  case softReset =>
    rintro s _ ⟨h1, h2, h3, h4, h5⟩
    exact ⟨h1, h2, h3, Nat.zero_le _, Params.initial_law⟩
  case pinReset => exact fun s _ => mgmtLaw_initial rfl
  case endExecution => exact fun s i st _ _ h => endExecution_mgmtLaw i st h
  case claimLent => exact fun s i quiet _ _ _ h => endExecution_mgmtLaw i .aborted h
  all_goals intros; simpa [State.mgmtLaw] using ‹State.mgmtLaw _›

/-! ### The windows -/

theorem windowLaw_initial {s : State} (h : s.windows = windowsInitial) : s.windowLaw := by
  have hw := window_of_windowsInitial h
  have hh : ∀ a, Window.initial.holds a = false := fun a => rfl
  refine ⟨by simp [h, windowsInitial], fun i => ?_, fun i j a hi _ => ?_⟩
  · rw [hw]; intro hv; cases hv
  · rw [hw, hh] at hi; cases hi

/-- The law of the windows does not look at their in-use counts. -/
theorem windowLaw_of_inUse {s t : State} (hl : t.windows.length = s.windows.length)
    (hw : ∀ i, ∃ n, t.window i = { s.window i with inUse := n }) (h : s.windowLaw) : t.windowLaw := by
  obtain ⟨h1, h2, h3⟩ := h
  have hholds : ∀ i a, (t.window i).holds a = (s.window i).holds a := fun i a => by
    obtain ⟨n, hn⟩ := hw i
    rw [hn]; rfl
  refine ⟨hl.trans h1, fun i => ?_, fun i j a => ?_⟩
  · obtain ⟨n, hn⟩ := hw i
    rw [hn]; exact h2 i
  · rw [hholds, hholds]; exact h3 i j a

theorem windowLaw_of_windows {s t : State} (hw : t.windows = s.windows) (h : s.windowLaw) : t.windowLaw :=
  windowLaw_of_inUse (by rw [hw]) (fun i => ⟨(s.window i).inUse, by simp [State.window, hw]⟩) h

theorem modWindow_inUse_windowLaw (i : Nat) (f : Window → Nat) {s : State} (h : s.windowLaw) :
    (s.modWindow i (fun w => { w with inUse := f w })).windowLaw := by
  refine windowLaw_of_inUse (by simp [State.modWindow]) (fun j => ?_) h
  rw [modWindow_window]
  split
  · exact ⟨_, rfl⟩
  · exact ⟨_, rfl⟩

theorem releaseWindow_windowLaw (i : Nat) {s : State} (h : s.windowLaw) : (releaseWindow i s).windowLaw :=
  modWindow_inUse_windowLaw _ _ h

/-- A window loaded where no other valid one is met, or taken out of use, leaves the windows lawful (R91, R93, R94). -/
theorem modWindow_windowLaw {i : Nat} {f : Window → Window} {s : State} (h : s.windowLaw) (hlaw : (f (s.window i)).law)
    (hfree : ∀ j a, j ≠ i → (f (s.window i)).holds a = true → (s.window j).holds a = false) :
    (s.modWindow i f).windowLaw := by
  obtain ⟨h1, h2, h3⟩ := h
  refine ⟨by simpa [State.modWindow] using h1, fun j => ?_, fun j k a hj hk => ?_⟩
  · rw [modWindow_window]
    split
    · rename_i hj; rw [hj.1]; exact hlaw
    · exact h2 j
  · rw [modWindow_window] at hj hk
    split at hj <;> split at hk
    · rename_i hj' hk'; rw [hj'.1, hk'.1]
    · rename_i hj' hk'
      rw [hj'.1] at hj
      by_contra hne
      rw [hfree k a (fun hki => hne (by rw [hki, hj'.1])) hj] at hk
      cases hk
    · rename_i hj' hk'
      rw [hk'.1] at hk
      by_contra hne
      rw [hfree j a (fun hji => hne (by rw [hji, hk'.1])) hk] at hj
      cases hj
    · exact h3 j k a hj hk

theorem Window.holds_iff (w : Window) (a : Nat) :
    w.holds a = true ↔ w.valid = true ∧ w.base.toNat ≤ a ∧ a < w.limit := by
  simp [Window.holds, and_assoc]

/-- A window record that is read describes a lawful window (R91, R93). -/
theorem Window.law_ofBytes {r : List Byte} {w : Window} (h : Window.ofBytes r = some w) : w.law := by
  unfold Window.ofBytes at h
  dsimp only at h
  split at h
  · cases h
  · split at h
    · cases h
    · rename_i hbad
      cases h
      simp only [not_or, not_not, Nat.not_lt] at hbad
      obtain ⟨_, _, hbase, hsize, hlim, hbudget, howner⟩ := hbad
      refine fun _ => ⟨hbase, hsize, hlim, hbudget, fun n hn => ?_⟩
      dsimp only at hn
      split at hn
      · cases hn
      · rename_i h0
        cases hn
        have hz : (byteAt r 11).toNat ≠ 0 := fun hz => h0 (BitVec.eq_of_toNat_eq hz)
        simp only [isNode, Bool.and_eq_true, decide_eq_true_eq]
        omega

/-- Where no clash is found, no other window covers an address of the record's range (R93). -/
theorem windowClash_eq_false {s : State} {i : Nat} {w : Window} (h : s.windowClash i w = false) {j a : Nat} (hj : j ≠ i)
    (hw : w.base.toNat ≤ a ∧ a < w.limit) : (s.window j).holds a = false := by
  by_contra hn
  rw [Bool.not_eq_false, Window.holds_iff] at hn
  obtain ⟨hv, hb, hl⟩ := hn
  have hlt : j < s.windows.length := by
    by_contra hge
    rw [window_ge (Nat.le_of_not_lt hge)] at hv
    cases hv
  simp only [State.windowClash, List.any_eq_false, List.mem_range, Bool.and_eq_true, decide_eq_true_eq] at h
  refine h j hlt ⟨⟨hj, hv⟩, ?_⟩
  simp only [Window.overlaps, Bool.and_eq_true, decide_eq_true_eq]
  omega

/-- The windows' law, act by act: in-use counts do not matter, and a load meets no other valid window. -/
theorem closed_windowLaw : Closed State.windowLaw := by
  refine ⟨?acts, fun s _ h => h⟩
  constructor
  case tearDown =>
    intro s _ _ h
    exact windowLaw_of_inUse (by simp [tearDownBlocks, freeAllButExecuting]) (fun i => ⟨_, tearDownBlocks_window s i⟩) h
  case freeAllButExecuting =>
    intro s h
    exact windowLaw_of_inUse (by simp [Machine.freeAllButExecuting]) (fun i => ⟨_, freeAllButExecuting_window s i⟩) h
  case softReset => exact fun s _ _ => windowLaw_initial rfl
  case pinReset => exact fun s _ => windowLaw_initial rfl
  case endExecution =>
    exact fun s i st _ _ h => windowLaw_of_windows (endExecution_windows i st s) (releaseWindow_windowLaw i h)
  case claimLent =>
    exact fun s i quiet _ _ _ h => windowLaw_of_windows (endExecution_windows i .aborted _)
      (releaseWindow_windowLaw i (s := s.modEntry i _) h)
  case answerUnexecuted =>
    exact fun s i st _ h => windowLaw_of_windows (answerUnexecuted_windows i st s) (releaseWindow_windowLaw i h)
  case dropEntry =>
    exact fun s i _ h => windowLaw_of_windows (dropEntry_windows i s) (releaseWindow_windowLaw i h)
  case allocate =>
    intro s i rest op g window capacity _ _ _ h
    exact windowLaw_of_windows (allocate_windows i op g window _ s) (modWindow_inUse_windowLaw _ _ h)
  case loadWindow =>
    intro s i record w _ _ hw hc h
    have hlaw : w.law := Window.law_ofBytes hw
    refine modWindow_windowLaw h hlaw fun j a hj ha => windowClash_eq_false hc hj ?_
    exact ((Window.holds_iff _ a).1 ha).2
  case invalidate =>
    intro s i _ _ h
    exact modWindow_windowLaw h (fun hv => by cases hv) fun j a _ ha => by simp [Window.holds] at ha
  all_goals intros; simpa [State.windowLaw, State.window] using ‹State.windowLaw _›

/-! ### The Bus Engine -/

theorem busLaw_initial {s : State} (h : s.bus = Bus.initial) : s.busLaw := by
  simp [State.busLaw, h, Bus.initial]

/-- The Bus Engine with no transaction in execution is lawful, lent or idle (R110, R113). -/
theorem busLaw_cleared {s t : State} (ht : t.bus = s.bus.cleared) (h : s.busLaw) : t.busLaw := by
  obtain ⟨h1, h2, h3, h4, h5⟩ := h
  cases he : s.bus.engine <;> simp_all [State.busLaw, Bus.cleared, Bus.initial, Bus.busy]

/-- What the bus's law looks at, kept: the law is kept. -/
theorem busLaw_of_fields {s t : State} (he : t.bus.engine = s.bus.engine) (hl : t.bus.lock = s.bus.lock)
    (hg : t.bus.grant = s.bus.grant) (ht : t.bus.grantTime.isSome = s.bus.grantTime.isSome)
    (hc : t.bus.current.isSome = true → s.bus.current.isSome = true ∨ s.bus.busy = true)
    (hs : t.bus.separating = true → s.bus.separating = true) (h : s.busLaw) : t.busLaw := by
  obtain ⟨h1, h2, h3, h4, h5⟩ := h
  have hb : t.bus.busy = s.bus.busy := by rw [Bus.busy, he, Bus.busy]
  refine ⟨by rw [hl, he]; exact h1, by rw [hg, he]; exact h2, by rw [ht, he]; exact h3, fun hcur => ?_,
    fun hsep => he ▸ h5 (hs hsep)⟩
  rw [hb]
  exact (hc hcur).elim h4 id

/-- A Bus Engine that starts a cycle takes the lock indication of the operation's kind, out of IDLE or LOCKED (R111, R120). -/
theorem busLaw_started {s t : State} {locked : Bool} (ht : t.bus = s.bus.started locked)
    (hs : s.bus.engine = .idle ∧ s.bus.separating = false ∨ s.bus.engine = .locked) (h : s.busLaw) : t.busLaw := by
  obtain ⟨h1, h2, h3, h4, h5⟩ := h
  have hsep : s.bus.separating = false := by
    rcases hs with ⟨_, hs⟩ | he
    · exact hs
    · simpa [he] using h5
  have hny : s.bus.engine ≠ .yielded := by rcases hs with ⟨he, _⟩ | he <;> simp [he]
  unfold State.busLaw
  rw [ht]
  unfold Bus.started
  split
  · exact ⟨h1, h2, h3, h4, h5⟩
  · split
    · exact ⟨h1, h2, h3, h4, h5⟩
    · cases locked <;> simp_all [Bus.busy]

theorem startCycle_busLaw {s : State} (hs : s.bus.engine = .idle ∧ s.bus.separating = false ∨ s.bus.engine = .locked)
    (h : s.busLaw) : (startCycle s).busLaw := by
  unfold startCycle
  split
  · exact h
  · exact busLaw_started rfl hs h

theorem separated_busLaw {s : State} (h : s.busLaw) : (s.withBus { s.bus with separating := false }).busLaw :=
  busLaw_of_fields (s := s) rfl rfl rfl rfl .inl (fun hs => by cases hs) h

theorem startDueSequence_busLaw {s : State} (he : s.bus.engine = .idle) (h : s.busLaw) : (startDueSequence s).busLaw :=
  startDueSequence_of he (separated_busLaw h) fun _ ht h => startCycle_busLaw (.inl ht) h

theorem endGrant_busLaw {s : State} (he : s.bus.engine = .yielded) (h : s.busLaw) : (endGrant s).busLaw := by
  obtain ⟨h1, h2, h3, h4, h5⟩ := h
  simp_all [State.busLaw, endGrant, Bus.busy]

/-- The bus's law, act by act: the engine state moves together with the lock indication, the grant and the beat. -/
theorem closed_busLaw : Closed State.busLaw := by
  refine ⟨?acts, fun s _ h => h⟩
  constructor
  case setParams => exact fun s p _ h => busLaw_of_fields (by simp) (by simp) (by simp) (by simp) (by simp +contextual) (by simp) h
  case softReset =>
    intro s _ ⟨h1, h2, h3, h4, h5⟩
    cases he : s.bus.engine <;> cases hp : decide (s.mgmt.params.prescaler ≠ .p8) <;>
      simp_all [State.busLaw, Bus.softReset, Bus.cleared, Bus.prescalerChanged, Bus.initial, Bus.busy]
  case pinReset => exact fun s _ => busLaw_initial rfl
  case grantHold =>
    rintro s he ⟨h1, h2, h3, h4, h5⟩
    simp_all [State.busLaw, Machine.grantHold, Bus.busy]
  case endGrant => exact fun s he _ h => endGrant_busLaw he h
  case endGrantDue =>
    exact fun s i he _ _ h => startSeparated_endGrant_of (endGrant_busLaw he h) fun _ ht h => startCycle_busLaw (.inl ht) h
  case handOver =>
    intro s i rest he _ _ h
    refine startSeparated_handOver_of he ?_ fun _ ht h => startCycle_busLaw (.inl ht) h
    exact busLaw_of_fields (by simp) (by simp) (by simp) (by simp) (by simp +contextual) (by simp) h
  case startDue => exact fun s i _ hd h => startDueSequence_busLaw ((sequenceDue_iff s i).1 hd).1 h
  case separated => exact fun s _ _ h => separated_busLaw h
  case startCycle => exact fun s hs h => startCycle_busLaw hs h
  case toIdle =>
    rintro s he hc ⟨h1, h2, h3, h4, h5⟩
    simp_all [State.busLaw, Machine.toIdle]
  case holdFlag | waitCount => exact fun s x h => busLaw_of_fields rfl rfl rfl rfl .inl id h
  case takenBeat =>
    intro s i b answer w data _ _ hb h
    exact busLaw_of_fields (by simp) (by simp) (by simp) (by simp) (fun _ => .inr hb) (by simp) h
  case endExecution => exact fun s i st _ _ h => busLaw_cleared (by simp) h
  case claimLent => exact fun s i quiet _ _ _ h => busLaw_cleared (s := s) (by simp [State.modEntry]) h
  case setMark =>
    intro s i quiet _ _ h
    exact setMark_of (fun hd => startDueSequence_busLaw ((sequenceDue_iff s i).1 hd).1 h) (fun t _ ht => ht) h
  all_goals intros; simpa [State.busLaw] using ‹State.busLaw _›

/-! ### Every step -/

/-- What every act keeps, the state after a step has. -/
theorem Closed.of_step {P : State → Prop} (c : Closed P) {s s' : State} (hs : Machine.step s = .next s') (h : P s) : P s' := by
  obtain ⟨t, ht, hP⟩ := c.step h
  cases hs.symm.trans ht
  exact hP

/-- Settles O54: each law of a block's registers is closed under the acts of the block, and so under every step. -/
theorem stepKeepsTheRegisterLaws : Obligations.StepKeepsTheRegisterLaws := fun _ _ hs =>
  ⟨closed_ringLaw.of_step hs, closed_busLaw.of_step hs, closed_bridgeLaw.of_step hs, closed_mgmtLaw.of_step hs,
    closed_schedLaw.of_step hs, closed_windowLaw.of_step hs, closed_reportLaw.of_step hs, closed_poolLaw.of_step hs⟩

end Sys2Proof.Machine
end

section
/-! PROOFS. One execution at most, and a busy bus for it alone (R72, R110, R120): what the acts leave as it is, and the two laws
act by act. -/

namespace Sys2Proof.Machine

/-! ### What the acts leave as it is -/

@[simp] theorem modCounters_frame (s : State) (f : Counters → Counters) :
    (s.modCounters f).ring = s.ring ∧ (s.modCounters f).prevIndex = s.prevIndex ∧ (s.modCounters f).sched = s.sched
      ∧ (s.modCounters f).descriptors = s.descriptors ∧ (s.modCounters f).table = s.table
      ∧ (s.modCounters f).windows = s.windows ∧ (s.modCounters f).bus = s.bus
      ∧ (s.modCounters f).replyQueue = s.replyQueue ∧ (s.modCounters f).mgmt = s.mgmt
      ∧ (s.modCounters f).bridge = s.bridge ∧ (s.modCounters f).pins = s.pins ∧ (s.modCounters f).choices = s.choices
      ∧ (s.modCounters f).pending = s.pending :=
  ⟨rfl, rfl, rfl, rfl, rfl, rfl, rfl, rfl, rfl, rfl, rfl, rfl, rfl⟩

@[simp] theorem clearBank_frame (b : BankName) (s : State) :
    (clearBank b s).ring = s.ring ∧ (clearBank b s).prevIndex = s.prevIndex ∧ (clearBank b s).sched = s.sched
      ∧ (clearBank b s).descriptors = s.descriptors ∧ (clearBank b s).table = s.table
      ∧ (clearBank b s).windows = s.windows ∧ (clearBank b s).bus = s.bus ∧ (clearBank b s).replyQueue = s.replyQueue
      ∧ (clearBank b s).mgmt = s.mgmt ∧ (clearBank b s).bridge = s.bridge ∧ (clearBank b s).pins = s.pins
      ∧ (clearBank b s).choices = s.choices ∧ (clearBank b s).pending = s.pending :=
  ⟨rfl, rfl, rfl, rfl, rfl, rfl, rfl, rfl, rfl, rfl, rfl, rfl, rfl⟩

@[simp] theorem startBridge_frame (s : State) :
    (startBridge s).ring = s.ring ∧ (startBridge s).prevIndex = s.prevIndex ∧ (startBridge s).sched = s.sched
      ∧ (startBridge s).descriptors = s.descriptors ∧ (startBridge s).table = s.table
      ∧ (startBridge s).windows = s.windows ∧ (startBridge s).bus = s.bus ∧ (startBridge s).replyQueue = s.replyQueue
      ∧ (startBridge s).mgmt = s.mgmt ∧ (startBridge s).reports = s.reports ∧ (startBridge s).pins = s.pins
      ∧ (startBridge s).choices = s.choices ∧ (startBridge s).pending = s.pending :=
  ⟨rfl, rfl, rfl, rfl, rfl, rfl, rfl, rfl, rfl, rfl, rfl, rfl, rfl⟩

@[simp] theorem swapBanks_frame (s : State) :
    (swapBanks s).ring = s.ring ∧ (swapBanks s).prevIndex = s.prevIndex ∧ (swapBanks s).descriptors = s.descriptors
      ∧ (swapBanks s).table = s.table ∧ (swapBanks s).windows = s.windows ∧ (swapBanks s).bus = s.bus
      ∧ (swapBanks s).replyQueue = s.replyQueue ∧ (swapBanks s).mgmt = s.mgmt ∧ (swapBanks s).reports = s.reports
      ∧ (swapBanks s).bridge = s.bridge ∧ (swapBanks s).pins = s.pins ∧ (swapBanks s).choices = s.choices
      ∧ (swapBanks s).pending = s.pending :=
  ⟨rfl, rfl, rfl, rfl, rfl, rfl, rfl, rfl, rfl, rfl, rfl, rfl, rfl⟩

@[simp] theorem advanceCounts_frame (s : State) :
    (advanceCounts s).ring = s.ring ∧ (advanceCounts s).prevIndex = s.prevIndex ∧ (advanceCounts s).sched = s.sched
      ∧ (advanceCounts s).descriptors = s.descriptors ∧ (advanceCounts s).windows = s.windows
      ∧ (advanceCounts s).bus = s.bus ∧ (advanceCounts s).replyQueue = s.replyQueue ∧ (advanceCounts s).mgmt = s.mgmt
      ∧ (advanceCounts s).reports = s.reports ∧ (advanceCounts s).bridge = s.bridge ∧ (advanceCounts s).pins = s.pins
      ∧ (advanceCounts s).choices = s.choices ∧ (advanceCounts s).pending = s.pending
      ∧ (advanceCounts s).table.order = s.table.order ∧ (advanceCounts s).table.requests = s.table.requests
      ∧ (advanceCounts s).table.pool = s.table.pool :=
  ⟨rfl, rfl, rfl, rfl, rfl, rfl, rfl, rfl, rfl, rfl, rfl, rfl, rfl, rfl, rfl, rfl⟩

@[simp] theorem freeAllButExecuting_frame (s : State) :
    (freeAllButExecuting s).ring = s.ring ∧ (freeAllButExecuting s).prevIndex = s.prevIndex
      ∧ (freeAllButExecuting s).sched = s.sched ∧ (freeAllButExecuting s).descriptors = s.descriptors
      ∧ (freeAllButExecuting s).bus = s.bus ∧ (freeAllButExecuting s).mgmt = s.mgmt
      ∧ (freeAllButExecuting s).reports = s.reports ∧ (freeAllButExecuting s).bridge = s.bridge
      ∧ (freeAllButExecuting s).pins = s.pins ∧ (freeAllButExecuting s).choices = s.choices
      ∧ (freeAllButExecuting s).pending = s.pending ∧ (freeAllButExecuting s).table.requests = []
      ∧ (freeAllButExecuting s).table.order = s.table.order.filter s.isExecuting
      ∧ (freeAllButExecuting s).table.pool = s.table.pool :=
  ⟨rfl, rfl, rfl, rfl, rfl, rfl, rfl, rfl, rfl, rfl, rfl, rfl, rfl, rfl⟩

@[simp] theorem tearDownBlocks_frame (s : State) :
    (tearDownBlocks s).ring = s.ring ∧ (tearDownBlocks s).prevIndex = s.prevIndex ∧ (tearDownBlocks s).bus = s.bus
      ∧ (tearDownBlocks s).mgmt = s.mgmt ∧ (tearDownBlocks s).reports = s.reports ∧ (tearDownBlocks s).pins = s.pins
      ∧ (tearDownBlocks s).choices = s.choices ∧ (tearDownBlocks s).pending = s.pending
      ∧ (tearDownBlocks s).replyQueue = [] ∧ (tearDownBlocks s).descriptors = descriptorsInitial
      ∧ (tearDownBlocks s).table.requests = [] ∧ (tearDownBlocks s).table.order = s.table.order.filter s.isExecuting
      ∧ (tearDownBlocks s).table.pool = s.table.pool := by
  simp [tearDownBlocks]

@[simp] theorem freeAllDescriptors_frame (s : State) :
    (freeAllDescriptors s).ring = s.ring ∧ (freeAllDescriptors s).prevIndex = s.prevIndex
      ∧ (freeAllDescriptors s).sched = s.sched ∧ (freeAllDescriptors s).table = s.table
      ∧ (freeAllDescriptors s).windows = s.windows ∧ (freeAllDescriptors s).bus = s.bus
      ∧ (freeAllDescriptors s).mgmt = s.mgmt ∧ (freeAllDescriptors s).reports = s.reports
      ∧ (freeAllDescriptors s).bridge = s.bridge ∧ (freeAllDescriptors s).pins = s.pins
      ∧ (freeAllDescriptors s).choices = s.choices ∧ (freeAllDescriptors s).pending = s.pending
      ∧ (freeAllDescriptors s).descriptors = descriptorsInitial :=
  ⟨rfl, rfl, rfl, rfl, rfl, rfl, rfl, rfl, rfl, rfl, rfl, rfl, rfl⟩

@[simp] theorem queueShortReply_frame (d : Nat) (r : ShortReply) (s : State) :
    (queueShortReply d r s).ring = s.ring ∧ (queueShortReply d r s).prevIndex = s.prevIndex
      ∧ (queueShortReply d r s).sched = s.sched ∧ (queueShortReply d r s).table = s.table
      ∧ (queueShortReply d r s).windows = s.windows ∧ (queueShortReply d r s).bus = s.bus
      ∧ (queueShortReply d r s).mgmt = s.mgmt ∧ (queueShortReply d r s).reports = s.reports
      ∧ (queueShortReply d r s).bridge = s.bridge ∧ (queueShortReply d r s).pins = s.pins
      ∧ (queueShortReply d r s).choices = s.choices ∧ (queueShortReply d r s).pending = s.pending
      ∧ (queueShortReply d r s).descriptors = s.descriptors.set d (some r)
      ∧ (queueShortReply d r s).replyQueue = s.replyQueue ++ [.desc d] :=
  ⟨rfl, rfl, rfl, rfl, rfl, rfl, rfl, rfl, rfl, rfl, rfl, rfl, rfl, rfl⟩

@[simp] theorem freeDescriptor_frame (d : Nat) (s : State) :
    (freeDescriptor d s).ring = s.ring ∧ (freeDescriptor d s).prevIndex = s.prevIndex
      ∧ (freeDescriptor d s).sched = s.sched ∧ (freeDescriptor d s).table = s.table
      ∧ (freeDescriptor d s).windows = s.windows ∧ (freeDescriptor d s).bus = s.bus
      ∧ (freeDescriptor d s).mgmt = s.mgmt ∧ (freeDescriptor d s).reports = s.reports
      ∧ (freeDescriptor d s).bridge = s.bridge ∧ (freeDescriptor d s).pins = s.pins
      ∧ (freeDescriptor d s).choices = s.choices ∧ (freeDescriptor d s).pending = s.pending
      ∧ (freeDescriptor d s).descriptors = s.descriptors.set d none
      ∧ (freeDescriptor d s).replyQueue = s.replyQueue.filter (fun m => decide (m ≠ .desc d)) :=
  ⟨rfl, rfl, rfl, rfl, rfl, rfl, rfl, rfl, rfl, rfl, rfl, rfl, rfl, rfl⟩

@[simp] theorem holdOld_frame (i : Nat) (old : List Byte) (s : State) :
    (holdOld i old s).ring = s.ring ∧ (holdOld i old s).prevIndex = s.prevIndex ∧ (holdOld i old s).sched = s.sched
      ∧ (holdOld i old s).descriptors = s.descriptors ∧ (holdOld i old s).windows = s.windows
      ∧ (holdOld i old s).bus = s.bus ∧ (holdOld i old s).replyQueue = s.replyQueue ∧ (holdOld i old s).mgmt = s.mgmt
      ∧ (holdOld i old s).reports = s.reports ∧ (holdOld i old s).bridge = s.bridge ∧ (holdOld i old s).pins = s.pins
      ∧ (holdOld i old s).choices = s.choices ∧ (holdOld i old s).pending = s.pending
      ∧ (holdOld i old s).table.order = s.table.order ∧ (holdOld i old s).table.requests = s.table.requests
      ∧ (holdOld i old s).table.pool = s.table.pool :=
  ⟨rfl, rfl, rfl, rfl, rfl, rfl, rfl, rfl, rfl, rfl, rfl, rfl, rfl, rfl, rfl, rfl⟩

@[simp] theorem modEntry_frame (s : State) (i : Nat) (f : Entry → Entry) :
    (s.modEntry i f).ring = s.ring ∧ (s.modEntry i f).prevIndex = s.prevIndex ∧ (s.modEntry i f).sched = s.sched
      ∧ (s.modEntry i f).descriptors = s.descriptors ∧ (s.modEntry i f).windows = s.windows
      ∧ (s.modEntry i f).bus = s.bus ∧ (s.modEntry i f).replyQueue = s.replyQueue ∧ (s.modEntry i f).mgmt = s.mgmt
      ∧ (s.modEntry i f).reports = s.reports ∧ (s.modEntry i f).bridge = s.bridge ∧ (s.modEntry i f).pins = s.pins
      ∧ (s.modEntry i f).choices = s.choices ∧ (s.modEntry i f).pending = s.pending
      ∧ (s.modEntry i f).table.order = s.table.order ∧ (s.modEntry i f).table.requests = s.table.requests
      ∧ (s.modEntry i f).table.pool = s.table.pool :=
  ⟨rfl, rfl, rfl, rfl, rfl, rfl, rfl, rfl, rfl, rfl, rfl, rfl, rfl, rfl, rfl, rfl⟩

@[simp] theorem buildWritePart_frame (i : Nat) (s : State) :
    (buildWritePart i s).ring = s.ring ∧ (buildWritePart i s).prevIndex = s.prevIndex
      ∧ (buildWritePart i s).sched = s.sched ∧ (buildWritePart i s).descriptors = s.descriptors
      ∧ (buildWritePart i s).table = s.table ∧ (buildWritePart i s).windows = s.windows
      ∧ (buildWritePart i s).replyQueue = s.replyQueue ∧ (buildWritePart i s).mgmt = s.mgmt
      ∧ (buildWritePart i s).reports = s.reports ∧ (buildWritePart i s).bridge = s.bridge
      ∧ (buildWritePart i s).pins = s.pins ∧ (buildWritePart i s).choices = s.choices
      ∧ (buildWritePart i s).pending = s.pending :=
  ⟨rfl, rfl, rfl, rfl, rfl, rfl, rfl, rfl, rfl, rfl, rfl, rfl, rfl⟩

@[simp] theorem toIdle_frame (s : State) :
    (toIdle s).ring = s.ring ∧ (toIdle s).prevIndex = s.prevIndex ∧ (toIdle s).sched = s.sched
      ∧ (toIdle s).descriptors = s.descriptors ∧ (toIdle s).table = s.table ∧ (toIdle s).windows = s.windows
      ∧ (toIdle s).replyQueue = s.replyQueue ∧ (toIdle s).mgmt = s.mgmt ∧ (toIdle s).reports = s.reports
      ∧ (toIdle s).bridge = s.bridge ∧ (toIdle s).pins = s.pins ∧ (toIdle s).choices = s.choices
      ∧ (toIdle s).pending = s.pending :=
  ⟨rfl, rfl, rfl, rfl, rfl, rfl, rfl, rfl, rfl, rfl, rfl, rfl, rfl⟩

@[simp] theorem grantHold_frame (s : State) :
    (grantHold s).ring = s.ring ∧ (grantHold s).prevIndex = s.prevIndex ∧ (grantHold s).sched = s.sched
      ∧ (grantHold s).descriptors = s.descriptors ∧ (grantHold s).table = s.table ∧ (grantHold s).windows = s.windows
      ∧ (grantHold s).replyQueue = s.replyQueue ∧ (grantHold s).mgmt = s.mgmt ∧ (grantHold s).reports = s.reports
      ∧ (grantHold s).bridge = s.bridge ∧ (grantHold s).pins = s.pins ∧ (grantHold s).choices = s.choices
      ∧ (grantHold s).pending = s.pending :=
  ⟨rfl, rfl, rfl, rfl, rfl, rfl, rfl, rfl, rfl, rfl, rfl, rfl, rfl⟩

@[simp] theorem endGrant_frame (s : State) :
    (endGrant s).ring = s.ring ∧ (endGrant s).prevIndex = s.prevIndex ∧ (endGrant s).sched = s.sched
      ∧ (endGrant s).descriptors = s.descriptors ∧ (endGrant s).table = s.table ∧ (endGrant s).windows = s.windows
      ∧ (endGrant s).replyQueue = s.replyQueue ∧ (endGrant s).mgmt = s.mgmt ∧ (endGrant s).reports = s.reports
      ∧ (endGrant s).bridge = s.bridge ∧ (endGrant s).pins = s.pins ∧ (endGrant s).choices = s.choices
      ∧ (endGrant s).pending = s.pending :=
  ⟨rfl, rfl, rfl, rfl, rfl, rfl, rfl, rfl, rfl, rfl, rfl, rfl, rfl⟩

/-! ### At most one entry is EXECUTING (R72) -/

/-- Nothing becomes EXECUTING: at most one entry is, as before. -/
theorem oneExecuting_of_states {s t : State} (h : ∀ j, (t.entry j).state = .executing → (s.entry j).state = .executing)
    (hs : s.oneExecuting) : t.oneExecuting := fun i j hi hj => hs i j (h i hi) (h j hj)

theorem markCounted_state (e : Entry) : e.markCounted.state = e.state := by
  unfold Entry.markCounted
  split <;> simp_all

theorem markCounted_fields (e : Entry) :
    e.markCounted.source = e.source ∧ e.markCounted.tag = e.tag ∧ e.markCounted.op = e.op ∧ e.markCounted.addr = e.addr
      ∧ e.markCounted.total = e.total ∧ e.markCounted.window = e.window ∧ e.markCounted.blocks = e.blocks
      ∧ e.markCounted.received = e.received ∧ e.markCounted.done = e.done ∧ e.markCounted.sent = e.sent
      ∧ e.markCounted.final = e.final ∧ e.markCounted.mark = e.mark ∧ e.markCounted.old = e.old := by
  unfold Entry.markCounted
  split <;> simp

theorem afterEnd_state (e : Entry) (st : Status) :
    (e.afterEnd st).state = if e.mark = .quiet ∨ e.op = .writeQuiet then .free else .replying := by
  unfold Entry.afterEnd
  split <;> rfl

theorem newEntry_not_executing (op : ReqOp) (g : Segment) (w : Nat) (bs : List Nat) :
    (newEntry op g w bs).state ≠ .executing := by
  rcases newEntry_state op g w bs with h | h <;> rw [h] <;> decide

theorem holdOld_entry (i : Nat) (old : List Byte) (s : State) (hi : (s.entry i).state ≠ .free) (j : Nat) :
    (holdOld i old s).entry j = if j = i then { s.entry i with old := some old } else s.entry j :=
  modEntry_entry s i _ hi j

theorem setMark_entry (quiet : Bool) (i : Nat) (s : State) (hi : (s.entry i).state ≠ .free) (j : Nat) :
    (setMark quiet i s).entry j
      = if j = i then { s.entry i with mark := (s.entry i).mark.claim quiet } else s.entry j := by
  rw [← modEntry_entry s i (fun e => { e with mark := e.mark.claim quiet }) hi j, State.entry, State.entry]
  simp

theorem startSeparated_entry (s : State) (j : Nat) : (startSeparated s).entry j = s.entry j :=
  entry_of_entries (by simp) j

/-- The entry of a giving: sent and the deadline count change, or a LAST piece frees it. -/
theorem sendPiece_state (i : Nat) (p : Piece) (s : State) (hi : (s.entry i).state ≠ .free) (j : Nat) :
    ((sendPiece i p s).entry j).state = if j = i ∧ p.last = true then .free else (s.entry j).state := by
  rw [sendPiece_entry i p s hi j]
  grind [Entry.initial]

theorem canProgress_not_free {e : Entry} {capacity : Nat} (h : e.canProgress capacity = true) : e.state ≠ .free := by
  rcases canProgress_state h with ⟨hs, _⟩ | hs <;> rw [hs] <;> decide

/-- A claim on an operation that waits while the bus is lent ends its execution: its mark, then the end (R81, R124). -/
theorem claimLent_entry (s : State) (i : Nat) (quiet : Bool) (hi : (s.entry i).state ≠ .free) (j : Nat) :
    (endExecution i .aborted (s.modEntry i (fun e => { e with mark := e.mark.claim quiet }))).entry j
      = if j = i then ({ s.entry i with mark := (s.entry i).mark.claim quiet } : Entry).afterEnd .aborted
        else s.entry j := by
  have hm := modEntry_entry s i (fun e => { e with mark := e.mark.claim quiet }) hi
  have hi' : ((s.modEntry i (fun e => { e with mark := e.mark.claim quiet })).entry i).state ≠ .free := by
    rw [hm, if_pos rfl]; exact hi
  rw [endExecution_entry _ _ _ hi', hm, hm, if_pos rfl]
  split <;> rfl

theorem entriesIn_free_head {s : State} {i : Nat} {rest : List Nat} (h : s.entriesIn .free = i :: rest) :
    i < s.table.entries.length ∧ (s.entry i).state = .free := by
  have hm : i ∈ s.entriesIn .free := by rw [h]; exact List.mem_cons_self
  exact ⟨entriesIn_lt hm, mem_entriesIn hm⟩

/-- The handover is the one act at which an entry becomes EXECUTING, and then none was (R72, R80). -/
theorem closed_oneExecuting : Closed State.oneExecuting := by
  refine ⟨?acts, fun s _ h => h⟩
  constructor
  case handOver =>
    intro s i rest _ hx _ h a b ha hb
    have hmod := entry_modify s (handOver i s) i _ (handOver_entries i s)
    have hnone := executing_none hx
    simp only [startSeparated_entry, hmod] at ha hb
    grind
  case softReset => exact fun s _ _ i j hi _ => by rw [softResetValues_entry] at hi; cases hi
  case pinReset => exact fun s _ i j hi _ => by rw [pinReset_entry] at hi; cases hi
  case tearDown =>
    exact fun s _ _ h => oneExecuting_of_states (fun j => by rw [tearDownBlocks_entry]; grind [Entry.initial]) h
  case freeAllButExecuting =>
    exact fun s h => oneExecuting_of_states (fun j => by rw [freeAllButExecuting_entry]; grind [Entry.initial]) h
  case takenBeat =>
    exact fun s i b x w d _ _ _ h => oneExecuting_of_states (fun j => by rw [takenBeat_state]; exact id) h
  case holdOld =>
    intro s i x hi _ h
    exact oneExecuting_of_states (fun j => by rw [holdOld_entry i x s (by simp [hi])]; grind) h
  case endExecution =>
    intro s i st hi _ h
    exact oneExecuting_of_states (fun j => by rw [endExecution_entry i st s (by simp [hi])]; grind) h
  case claimLent =>
    intro s i quiet hi _ _ h
    exact oneExecuting_of_states (fun j => by rw [claimLent_entry s i quiet (by simp [hi])]; grind) h
  case setMark =>
    intro s i quiet hi _ h
    exact oneExecuting_of_states (fun j => by rw [setMark_entry quiet i s (by simp [hi])]; grind) h
  case advanceCounts =>
    exact fun s h => oneExecuting_of_states (fun j => by rw [advanceCounts_entry, markCounted_state]; exact id) h
  case answerUnexecuted =>
    intro s i st hi h
    have hf : (s.entry i).state ≠ .free := by grind
    exact oneExecuting_of_states (fun j => by rw [answerUnexecuted_entry i st s hf]; grind) h
  case dropEntry =>
    exact fun s i _ h => oneExecuting_of_states (fun j => by rw [dropEntry_entry]; grind [Entry.initial]) h
  case freeReplying =>
    exact fun s i _ h => oneExecuting_of_states (fun j => by rw [freeEntry_entry]; grind [Entry.initial]) h
  case allocate =>
    intro s i rest op g window capacity hf _ _ h
    have hnew := newEntry_not_executing op g window (s.freeBlocks.take (blocksNeeded op g.total.toNat))
    exact oneExecuting_of_states (fun j => by rw [allocate_entry _ _ _ _ _ _ (entriesIn_free_head hf).1]; grind) h
  case append =>
    intro s i op g capacity hi _ _ _ h
    exact oneExecuting_of_states (fun j => by rw [appendSegment_entry i g s (by simp [hi])]; grind) h
  case sendPiece =>
    intro s i capacity _ hp h
    exact oneExecuting_of_states (fun j => by rw [sendPiece_state _ _ _ (canProgress_not_free hp)]; grind) h
  all_goals intros; simpa [State.oneExecuting, startSeparated_entry] using ‹State.oneExecuting _›

/-! ### A cycle in progress is an EXECUTING entry's (R110, R120) -/

/-- A busy Bus Engine stays busy for an entry that stays EXECUTING: the law is kept. -/
theorem lockLaw_of_executing {s t : State} (h : s.lockLaw) (he : t.bus.busy = true → t.bus.engine = s.bus.engine)
    (hx : ∀ j, (s.entry j).state = .executing → (t.entry j).state = .executing ∧ (t.entry j).op = (s.entry j).op) :
    t.lockLaw := by
  have keep : ∀ j locked, (s.entry j).state = .executing ∧ (s.entry j).op.locked = locked →
      (t.entry j).state = .executing ∧ (t.entry j).op.locked = locked :=
    fun j locked hj => ⟨(hx j hj.1).1, by rw [(hx j hj.1).2]; exact hj.2⟩
  constructor
  · intro hc
    obtain ⟨j, hj⟩ := h.1 (he (by simp [Bus.busy, hc]) ▸ hc)
    exact ⟨j, keep j false hj⟩
  · intro hc
    obtain ⟨j, hj⟩ := h.2 (he (by simp [Bus.busy, hc]) ▸ hc)
    exact ⟨j, keep j true hj⟩

/-- An engine that is not busy owes nothing. -/
theorem lockLaw_of_not_busy {s : State} (h : s.bus.busy = false) : s.lockLaw := by
  simp only [Bus.busy, Bool.or_eq_false_iff, decide_eq_false_iff_not] at h
  exact ⟨fun hc => absurd hc h.1, fun hc => absurd hc h.2⟩

theorem cleared_not_busy (b : Bus) : b.cleared.busy = false := by
  cases he : b.engine <;> simp [Bus.cleared, Bus.busy, he]

theorem softReset_not_busy (b : Bus) (changed : Bool) (now : Word) : (b.softReset changed now).busy = false := by
  cases he : b.engine <;> cases changed <;>
    simp [Bus.softReset, Bus.busy, Bus.cleared, Bus.prescalerChanged, Bus.initial, he]

/-- A cycle that starts is the EXECUTING entry's, of its kind. -/
theorem startCycle_lockLaw {s : State} (h : s.lockLaw) : (startCycle s).lockLaw := by
  unfold startCycle
  split
  · exact h
  · rename_i i hx
    have hi := executing_state hx
    rcases Bus.started_cases s.bus (s.entry i).op.locked with hb | hb
    · rw [hb]; exact h
    · cases hl : (s.entry i).op.locked <;> rw [hl] at hb
      · exact ⟨fun _ => ⟨i, hi, hl⟩, fun hc => by simp [hb] at hc⟩
      · exact ⟨fun hc => by simp [hb] at hc, fun _ => ⟨i, hi, hl⟩⟩

theorem idle_not_busy {b : Bus} (h : b.engine = .idle) : b.busy = false := by simp [Bus.busy, h]

theorem startDueSequence_lockLaw {s : State} (he : s.bus.engine = .idle) (h : s.lockLaw) : (startDueSequence s).lockLaw :=
  startDueSequence_of he h fun _ _ h => startCycle_lockLaw h

/-- The law of the busy bus, act by act: who is EXECUTING stays so, and keeps its operation, until the bus is cleared. -/
theorem closed_lockLaw : Closed State.lockLaw := by
  refine ⟨?acts, fun s _ h => h⟩
  constructor
  case setParams =>
    exact fun s p _ h => lockLaw_of_executing h (fun _ => by simp) (fun j hj => by simpa using hj)
  case handOver =>
    intro s i rest he _ _ _
    exact startSeparated_handOver_of he (lockLaw_of_not_busy (idle_not_busy (by simpa using he)))
      fun _ _ h => startCycle_lockLaw h
  case softReset => exact fun s _ _ => lockLaw_of_not_busy (softReset_not_busy _ _ _)
  case pinReset => exact fun s _ => lockLaw_of_not_busy rfl
  case grantHold => exact fun s _ _ => lockLaw_of_not_busy rfl
  case endGrant => exact fun s _ _ _ => lockLaw_of_not_busy rfl
  case endGrantDue =>
    exact fun s i _ _ _ _ => startSeparated_endGrant_of (lockLaw_of_not_busy rfl) fun _ _ h => startCycle_lockLaw h
  case startDue => exact fun s i _ hd h => startDueSequence_lockLaw ((sequenceDue_iff s i).1 hd).1 h
  case startCycle => exact fun s _ h => startCycle_lockLaw h
  case toIdle => exact fun s _ _ _ => lockLaw_of_not_busy rfl
  case writePart => exact fun s i _ h => h
  case tearDown =>
    exact fun s _ _ h => lockLaw_of_executing h (fun _ => rfl) (fun j => by rw [tearDownBlocks_entry]; grind)
  case freeAllButExecuting =>
    exact fun s h => lockLaw_of_executing h (fun _ => rfl) (fun j => by rw [freeAllButExecuting_entry]; grind)
  case takenBeat =>
    intro s i b x w d _ _ _ h
    exact lockLaw_of_executing h (fun _ => by simp)
      (fun j hj => ⟨by rw [takenBeat_state]; exact hj, takenBeat_entry Entry.op (fun _ _ => rfl) ..⟩)
  case holdOld =>
    intro s i x hi _ h
    exact lockLaw_of_executing h (fun _ => rfl) (fun j => by rw [holdOld_entry i x s (by simp [hi])]; grind)
  case endExecution => exact fun s i st _ _ _ => lockLaw_of_not_busy (by simp [cleared_not_busy])
  case claimLent => exact fun s i quiet _ _ _ _ => lockLaw_of_not_busy (by simp [cleared_not_busy])
  case setMark =>
    intro s i quiet hi _ h
    refine setMark_of (fun hd => startDueSequence_lockLaw ((sequenceDue_iff s i).1 hd).1 h) (fun t ht hlock => ?_) h
    have hti : (t.entry i).state = .executing := by rw [entry_of_table (s := s) (by rw [ht])]; exact hi
    exact lockLaw_of_executing hlock (fun _ => rfl) (fun j => by rw [modEntry_entry _ _ _ (by simp [hti])]; grind)
  case advanceCounts =>
    intro s h
    exact lockLaw_of_executing h (fun _ => rfl)
      (fun j hj => by rw [advanceCounts_entry, markCounted_state, (markCounted_fields _).2.2.1]; exact ⟨hj, rfl⟩)
  case answerUnexecuted =>
    intro s i st hi h
    have hf : (s.entry i).state ≠ .free := by grind
    exact lockLaw_of_executing h (fun _ => by simp) (fun j => by rw [answerUnexecuted_entry i st s hf]; grind)
  case dropEntry =>
    exact fun s i hi h => lockLaw_of_executing h (fun _ => by simp) (fun j => by rw [dropEntry_entry]; grind)
  case freeReplying =>
    exact fun s i hi h => lockLaw_of_executing h (fun _ => by simp) (fun j => by rw [freeEntry_entry]; grind)
  case allocate =>
    intro s i rest op g window capacity hf _ _ h
    obtain ⟨hl, hi⟩ := entriesIn_free_head hf
    exact lockLaw_of_executing h (fun _ => by simp) (fun j => by rw [allocate_entry _ _ _ _ _ _ hl]; grind)
  case append =>
    intro s i op g capacity hi _ _ _ h
    exact lockLaw_of_executing h (fun _ => by simp) (fun j => by rw [appendSegment_entry i g s (by simp [hi])]; grind)
  case sendPiece =>
    intro s i capacity _ hp h
    have hlast := pieceOf_last (s := s) hp
    exact lockLaw_of_executing h (fun _ => by simp)
      (fun j => by rw [sendPiece_entry _ _ _ (canProgress_not_free hp)]; grind)
  all_goals intros; simpa [State.lockLaw] using ‹State.lockLaw _›

end Sys2Proof.Machine
end

section
/-! PROOFS. The law of the three queues (R68, R80, R133), act by act. -/

namespace Sys2Proof.Machine

/-! ### The three queues after a change of one entry -/

/-- Lists as they were, with every state and operation and no mark taken back. -/
theorem queueLaw_of_states {s t : State} (h : s.queueLaw) (hl : t.table.entries.length = s.table.entries.length)
    (hd : t.descriptors = s.descriptors) (ho : t.table.order = s.table.order) (hr : t.table.requests = s.table.requests)
    (hq : t.replyQueue = s.replyQueue)
    (he : ∀ j, (t.entry j).state = (s.entry j).state ∧ (t.entry j).op = (s.entry j).op
      ∧ ((s.entry j).mark = .quiet → (t.entry j).mark = .quiet)) : t.queueLaw := by
  obtain ⟨h1, h2, h3, h4, h5, h6, h7, h8, h9, h10, h11⟩ := h
  simp only [State.descriptor] at h8
  unfold State.queueLaw State.descriptor
  simp only [hl, hd, ho, hr, hq, he]
  exact ⟨h1, h2, h3, h4, h5, h6, h7, h8, h9, h10, fun j hj ho hm => h11 j hj ho fun hs => hm ((he j).2.2 hs)⟩

/-- Entry `i` becomes FREE and leaves the three lists. -/
theorem queueLaw_freed {s t : State} {i : Nat} (h : s.queueLaw) (hl : t.table.entries.length = s.table.entries.length)
    (hd : t.descriptors = s.descriptors) (he : ∀ j, t.entry j = if j = i then Entry.initial else s.entry j)
    (ho : t.table.order = s.table.order.filter (fun j => decide (j ≠ i)))
    (hr : t.table.requests = s.table.requests.filter (fun j => decide (j ≠ i)))
    (hq : t.replyQueue = s.replyQueue.filter (fun m => decide (m ≠ .entry i))) : t.queueLaw := by
  obtain ⟨h1, h2, h3, h4, h5, h6, h7, h8, h9, h10, h11⟩ := h
  have hi : Entry.initial.state = .free := rfl
  simp only [State.descriptor] at h8
  unfold State.queueLaw State.descriptor
  simp only [hl, hd, he, ho, hr, hq]
  refine ⟨h1, h2, h3.filter _, ?order, h5.filter _, ?requests, h7.filter _, ?descs, ?members, ?replying, ?reads⟩
  all_goals grind

/-- Entry `i`, which is no member of the Reply Queue, becomes REPLYING and joins it; it leaves the Request Queue. -/
theorem queueLaw_answered {s t : State} {i : Nat} (h : s.queueLaw) (hf : (s.entry i).state ≠ .free)
    (hm : .entry i ∉ s.replyQueue) (hl : t.table.entries.length = s.table.entries.length)
    (hd : t.descriptors = s.descriptors) (hi : (t.entry i).state = .replying) (he : ∀ j, j ≠ i → t.entry j = s.entry j)
    (ho : t.table.order = s.table.order) (hr : t.table.requests = s.table.requests.filter (fun j => decide (j ≠ i)))
    (hq : t.replyQueue = s.replyQueue ++ [.entry i]) : t.queueLaw := by
  obtain ⟨h1, h2, h3, h4, h5, h6, h7, h8, h9, h10, h11⟩ := h
  simp only [State.descriptor] at h8
  unfold State.queueLaw State.descriptor
  simp only [hl, hd, ho, hr, hq]
  refine ⟨h1, h2, h3, ?order, h5.filter _, ?requests, ?nodup, ?descs, ?members, ?replying, ?reads⟩
  all_goals grind

/-- Neither FREE nor QUEUED, an entry is not in the Request Queue. -/
theorem requests_filter_self {s : State} {i : Nat} (h : s.queueLaw) (hi : (s.entry i).state ≠ .queued) :
    s.table.requests.filter (fun j => decide (j ≠ i)) = s.table.requests := by
  obtain ⟨_, _, _, _, _, h6, _⟩ := h
  rw [List.filter_eq_self]
  intro j hj
  have := (h6 j).1 hj
  grind

theorem not_mem_replyQueue {s : State} {i : Nat} (h : s.queueLaw)
    (hi : (s.entry i).state ≠ .replying ∧ ¬((s.entry i).state = .executing ∧ (s.entry i).op = .read)) :
    .entry i ∉ s.replyQueue := by
  obtain ⟨_, _, _, _, _, _, _, _, h9, _⟩ := h
  grind

theorem endExecution_queueLaw {s : State} {i : Nat} (st : Status) (hi : (s.entry i).state = .executing) (h : s.queueLaw) :
    (endExecution i st s).queueLaw := by
  have hf : (s.entry i).state ≠ .free := by simp [hi]
  have he := endExecution_entry i st s hf
  have hord := endExecution_order i st s
  have hreq := endExecution_requests i st s
  have hrq := endExecution_replyQueue i st s
  have hl := endExecution_length i st s
  have hself := requests_filter_self h (i := i) (by simp [hi])
  have hd : (endExecution i st s).descriptors = s.descriptors := by simp
  by_cases hq : (s.entry i).mark = .quiet ∨ (s.entry i).op = .writeQuiet
  · simp only [Entry.afterEnd, hq, if_true] at he hord hreq hrq
    exact queueLaw_freed h hl hd he hord hreq hrq
  · simp only [Entry.afterEnd, hq, if_false] at he hord hreq hrq
    by_cases hop : (s.entry i).op = .read
    · rw [if_pos hop] at hrq
      obtain ⟨h1, h2, h3, h4, h5, h6, h7, h8, h9, h10, h11⟩ := h
      simp only [State.descriptor] at h8
      unfold State.queueLaw State.descriptor
      simp only [hl, hd, hord, hreq, hrq, he]
      refine ⟨h1, h2, h3, ?order, h5, ?requests, h7, ?descs, ?members, ?replying, ?reads⟩
      all_goals grind
    · rw [if_neg hop] at hrq
      exact queueLaw_answered h hf (not_mem_replyQueue h (by simp [hi, hop])) hl hd (by rw [he, if_pos rfl])
        (fun j hj => by rw [he, if_neg hj]) hord (by rw [hreq, hself]) hrq

theorem modEntry_length (s : State) (i : Nat) (f : Entry → Entry) :
    (s.modEntry i f).table.entries.length = s.table.entries.length := by simp [State.modEntry]

theorem claim_quiet (m : AbortMark) (quiet : Bool) (h : m = .quiet) : m.claim quiet = .quiet := by
  cases quiet <;> simp [AbortMark.claim, h]

theorem claimed_queueLaw {s : State} {i : Nat} (quiet : Bool) (hi : (s.entry i).state = .executing) (h : s.queueLaw) :
    (s.modEntry i (fun e => { e with mark := e.mark.claim quiet })).queueLaw := by
  refine queueLaw_of_states h (modEntry_length s i _) rfl rfl rfl rfl fun j => ?_
  rw [modEntry_entry s i _ (by simp [hi])]
  split
  · rename_i hj; subst hj; exact ⟨rfl, rfl, claim_quiet _ _⟩
  · exact ⟨rfl, rfl, id⟩

theorem queueLaw_initial {s : State} (he : s.table.entries = entriesInitial) (ho : s.table.order = [])
    (hr : s.table.requests = []) (hd : s.descriptors = descriptorsInitial) (hq : s.replyQueue = []) : s.queueLaw := by
  have h1 := entry_of_entriesInitial he
  have h2 := descriptor_of_descriptorsInitial hd
  unfold State.queueLaw
  simp [h1, h2, he, ho, hr, hd, hq, entriesInitial, descriptorsInitial, Entry.initial]

theorem mem_freeDescriptors {s : State} {d : Nat} {rest : List Nat} (h : s.freeDescriptors = d :: rest) :
    d < s.descriptors.length ∧ s.descriptor d = none := by
  have hm : d ∈ s.freeDescriptors := by rw [h]; exact List.mem_cons_self
  rw [State.freeDescriptors, mem_indexesOf] at hm
  obtain ⟨a, ha, hn⟩ := hm
  refine ⟨(List.getElem?_eq_some_iff.1 ha).1, ?_⟩
  simpa [State.descriptor, List.getD_eq_getElem?_getD, ha] using hn

/-- Every entry but the EXECUTING ones becomes FREE, and with them their places in the three lists. -/
theorem freeAllButExecuting_queueLaw {s : State} (h : s.queueLaw) : (freeAllButExecuting s).queueLaw := by
  obtain ⟨h1, h2, h3, h4, h5, h6, h7, h8, h9, h10, h11⟩ := h
  have hi : Entry.initial.state = .free := rfl
  simp only [State.descriptor] at h8
  have hq : (freeAllButExecuting s).replyQueue = s.replyQueue.filter (fun m =>
    match m with
    | .desc _ => true
    | .entry i => s.isExecuting i) := rfl
  have hl : (freeAllButExecuting s).table.entries.length = s.table.entries.length := by simp [freeAllButExecuting]
  unfold State.queueLaw State.descriptor
  simp only [freeAllButExecuting_frame, freeAllButExecuting_entry, hq, hl]
  refine ⟨h1, h2, h3.filter _, ?order, List.nodup_nil, ?requests, h7.filter _, ?descs, ?members, ?replying, ?reads⟩
  all_goals grind [State.isExecuting]

/-- A teardown empties the Reply Queue: an EXECUTING READ is out of it, marked quiet (R193; log 9). -/
theorem tearDownBlocks_queueLaw {s : State} (hone : s.oneExecuting)
    (hread : ∀ i, s.executing = some i → (s.entry i).op = .read → (s.entry i).mark = .quiet) (h : s.queueLaw) :
    (tearDownBlocks s).queueLaw := by
  obtain ⟨h1, h2, h3, h4, h5, h6, h7, h8, h9, h10, h11⟩ := h
  have hx : ∀ i, (s.entry i).state = .executing → s.executing = some i := fun i hi => by
    cases hx : s.executing with
    | none => exact absurd hi (executing_none hx i)
    | some j => rw [hone i j hi (executing_state hx)]
  have hi : Entry.initial.state = .free := rfl
  have hl : (tearDownBlocks s).table.entries.length = s.table.entries.length := by
    simp [tearDownBlocks, freeAllButExecuting]
  have hd := descriptor_of_descriptorsInitial (s := tearDownBlocks s) rfl
  unfold State.queueLaw
  simp only [tearDownBlocks_frame, tearDownBlocks_entry, hl, hd]
  refine ⟨h1, rfl, h3.filter _, ?order, List.nodup_nil, ?requests, List.nodup_nil, ?descs, ?members, ?replying, ?reads⟩
  all_goals grind [State.isExecuting]

theorem handOver_length (i : Nat) (s : State) : (handOver i s).table.entries.length = s.table.entries.length := by
  simp [handOver_entries]

/-- The head of the Request Queue is QUEUED. -/
theorem head_queued {s : State} {i : Nat} {rest : List Nat} (h : s.queueLaw) (hr : s.table.requests = i :: rest) :
    (s.entry i).state = .queued := by
  obtain ⟨_, _, _, _, _, h6, _⟩ := h
  exact (h6 i).1 (hr ▸ List.mem_cons_self)

theorem handOver_queueLaw {s : State} {i : Nat} {rest : List Nat} (hr : s.table.requests = i :: rest) (h : s.queueLaw) :
    (handOver i s).queueLaw := by
  have hqueued := head_queued h hr
  have he := handOver_entry i s (by simp [hqueued])
  have hm := not_mem_replyQueue h (i := i) (by simp [hqueued])
  obtain ⟨h1, h2, h3, h4, h5, h6, h7, h8, h9, h10, h11⟩ := h
  simp only [State.descriptor] at h8
  unfold State.queueLaw State.descriptor
  simp only [handOver_length, handOver_frame, handOver_requests, handOver_replyQueue, he]
  refine ⟨h1, h2, h3, ?order, h5.filter _, ?requests, ?nodup, ?descs, ?members, ?replying, ?reads⟩
  all_goals grind

theorem allocate_requests (i : Nat) (op : ReqOp) (g : Segment) (w : Nat) (bs : List Nat) (s : State) :
    (allocate i op g w bs s).table.requests
      = if (newEntry op g w bs).state = .queued then s.table.requests ++ [i] else s.table.requests := by
  show s.table.enrol i _ = _
  simp [Table.enrol]

theorem allocate_length (i : Nat) (op : ReqOp) (g : Segment) (w : Nat) (bs : List Nat) (s : State) :
    (allocate i op g w bs s).table.entries.length = s.table.entries.length := by
  show (s.table.entries.set i _).length = _
  simp

theorem allocate_queueLaw {s : State} {i : Nat} (op : ReqOp) (g : Segment) (w : Nat) (bs : List Nat)
    (hlt : i < s.table.entries.length) (hi : (s.entry i).state = .free) (h : s.queueLaw) :
    (allocate i op g w bs s).queueLaw := by
  have he := allocate_entry i op g w bs s hlt
  have hnew := newEntry_state op g w bs
  have hm := not_mem_replyQueue h (i := i) (by simp [hi])
  obtain ⟨h1, h2, h3, h4, h5, h6, h7, h8, h9, h10, h11⟩ := h
  simp only [State.descriptor] at h8
  unfold State.queueLaw State.descriptor
  simp only [allocate_length, allocate_frame, allocate_requests, he]
  refine ⟨h1, h2, ?ordered, ?order, ?once, ?requests, h7, ?descs, ?members, ?replying, ?reads⟩
  all_goals grind

theorem appendSegment_requests (i : Nat) (g : Segment) (s : State) :
    (appendSegment i g s).table.requests
      = if g.offset.toNat + g.count.toNat = (s.entry i).total then s.table.requests ++ [i] else s.table.requests := by
  show Table.enrol _ i _ = _
  simp [Table.enrol, State.writeTx]

theorem appendSegment_length (i : Nat) (g : Segment) (s : State) :
    (appendSegment i g s).table.entries.length = s.table.entries.length := by
  show (s.table.entries.modify i _).length = _
  simp

theorem appendSegment_queueLaw {s : State} {i : Nat} (g : Segment) (hi : (s.entry i).state = .assembling) (h : s.queueLaw) :
    (appendSegment i g s).queueLaw := by
  have he := appendSegment_entry i g s (by simp [hi])
  obtain ⟨h1, h2, h3, h4, h5, h6, h7, h8, h9, h10, h11⟩ := h
  simp only [State.descriptor] at h8
  unfold State.queueLaw State.descriptor
  simp only [appendSegment_length, appendSegment_frame, appendSegment_requests, he]
  refine ⟨h1, h2, h3, ?order, ?once, ?requests, h7, ?descs, ?members, ?replying, ?reads⟩
  all_goals grind

theorem queueShortReply_queueLaw {s : State} {d : Nat} (r : ShortReply) (hlt : d < s.descriptors.length)
    (hd : s.descriptor d = none) (h : s.queueLaw) : (queueShortReply d r s).queueLaw := by
  obtain ⟨h1, h2, h3, h4, h5, h6, h7, h8, h9, h10, h11⟩ := h
  simp only [State.descriptor] at h8 hd
  unfold State.queueLaw State.descriptor
  simp only [queueShortReply_frame, queueShortReply_entry, List.length_set, List.getD_eq_getElem?_getD,
    List.getElem?_set] at h8 hd ⊢
  refine ⟨h1, h2, h3, h4, h5, h6, ?nodup, ?descs, ?members, ?replying, ?reads⟩
  all_goals grind

theorem freeDescriptor_queueLaw {s : State} (d : Nat) (h : s.queueLaw) : (freeDescriptor d s).queueLaw := by
  obtain ⟨h1, h2, h3, h4, h5, h6, h7, h8, h9, h10, h11⟩ := h
  simp only [State.descriptor] at h8
  unfold State.queueLaw State.descriptor
  simp only [freeDescriptor_frame, freeDescriptor_entry, List.length_set, List.getD_eq_getElem?_getD,
    List.getElem?_set] at h8 ⊢
  refine ⟨h1, h2, h3, h4, h5, h6, h7.filter _, ?descs, ?members, ?replying, ?reads⟩
  all_goals grind

theorem freeAllDescriptors_queueLaw {s : State} (h : s.queueLaw) : (freeAllDescriptors s).queueLaw := by
  obtain ⟨h1, h2, h3, h4, h5, h6, h7, h8, h9, h10, h11⟩ := h
  have hd := descriptor_of_descriptorsInitial (s := freeAllDescriptors s) rfl
  have hq : (freeAllDescriptors s).replyQueue = s.replyQueue.filter (fun m =>
    match m with
    | .desc _ => false
    | .entry _ => true) := rfl
  unfold State.queueLaw
  simp only [freeAllDescriptors_frame, freeAllDescriptors_entry, hq, hd]
  refine ⟨h1, rfl, h3, h4, h5, h6, h7.filter _, ?descs, ?members, ?replying, ?reads⟩
  all_goals grind

theorem answerUnexecuted_queueLaw {s : State} {i : Nat} (st : Status)
    (hi : (s.entry i).state = .assembling ∨ (s.entry i).state = .queued) (h : s.queueLaw) :
    (answerUnexecuted i st s).queueLaw := by
  have hf : (s.entry i).state ≠ .free := by grind
  have he := answerUnexecuted_entry i st s hf
  exact queueLaw_answered h hf (not_mem_replyQueue h (by grind)) (by simp [answerUnexecuted]) (by simp)
    (by rw [he, if_pos rfl]) (fun j hj => by rw [he, if_neg hj]) (by simp [answerUnexecuted]) (by simp [answerUnexecuted])
    (by simp [answerUnexecuted])

theorem freeEntry_queueLaw {s : State} (i : Nat) (h : s.queueLaw) : (freeEntry i s).queueLaw :=
  queueLaw_freed h (by simp [freeEntry]) (by simp) (freeEntry_entry i s) rfl rfl rfl

theorem sendPiece_queueLaw {s : State} {i : Nat} (p : Piece) (hi : (s.entry i).state ≠ .free) (h : s.queueLaw) :
    (sendPiece i p s).queueLaw := by
  unfold sendPiece
  have ht : (s.modEntry i (fun e => { e with sent := e.sent + p.data.length, deadline := 0 })).queueLaw := by
    refine queueLaw_of_states h (modEntry_length s i _) rfl rfl rfl rfl fun j => ?_
    rw [modEntry_entry s i _ hi]
    grind
  dsimp only
  split
  · exact freeEntry_queueLaw i ht
  · exact ht

/-- One execution at most and the law of the three queues, act by act: every act that moves an entry between two states moves
it between the lists. -/
theorem closed_queueLaw : Closed (fun s => s.oneExecuting ∧ s.queueLaw) := by
  have one := closed_oneExecuting
  refine ⟨?acts, fun s hs h => ⟨one.swap s hs h.1, h.2⟩⟩
  constructor
  case tearDown =>
    exact fun s hd hr h => ⟨one.tearDown s hd hr h.1, tearDownBlocks_queueLaw h.1 hr h.2⟩
  case softReset => exact fun s hx h => ⟨one.softReset s hx h.1, queueLaw_initial rfl rfl rfl rfl rfl⟩
  case pinReset => exact fun s h => ⟨one.pinReset s h.1, queueLaw_initial rfl rfl rfl rfl rfl⟩
  case handOver =>
    intro s i rest he hx hr h
    exact ⟨one.handOver s i rest he hx hr h.1, queueLaw_of_states (handOver_queueLaw hr h.2) (by simp) (by simp) (by simp)
      (by simp) (by simp) fun j => by rw [startSeparated_entry]; exact ⟨rfl, rfl, id⟩⟩
  case takenBeat =>
    intro s i b x w d hx hb hy h
    refine ⟨one.takenBeat s i b x w d hx hb hy h.1, queueLaw_of_states h.2 (by simp) (by simp) (by simp) (by simp) (by simp)
      fun j => ?_⟩
    exact ⟨takenBeat_state .., takenBeat_entry Entry.op (fun _ _ => rfl) .., fun hm => by
      rw [takenBeat_entry Entry.mark (fun _ _ => rfl)]; exact hm⟩
  case holdOld =>
    intro s i x hi he h
    refine ⟨one.holdOld s i x hi he h.1, queueLaw_of_states h.2 (modEntry_length s i _) rfl rfl rfl rfl fun j => ?_⟩
    rw [holdOld_entry i x s (by simp [hi])]
    grind
  case endExecution => exact fun s i st hi hst h => ⟨one.endExecution s i st hi hst h.1, endExecution_queueLaw st hi h.2⟩
  case claimLent =>
    intro s i quiet hi he hl h
    refine ⟨one.claimLent s i quiet hi he hl h.1, endExecution_queueLaw .aborted ?_ (claimed_queueLaw quiet hi h.2)⟩
    rw [entry_modEntry_self s i _ (by simp [hi])]
    exact hi
  case setMark =>
    intro s i quiet hi he h
    refine ⟨one.setMark s i quiet hi he h.1, queueLaw_of_states (claimed_queueLaw quiet hi h.2) (by simp) (by simp) (by simp)
      (by simp) (by simp) fun j => ?_⟩
    rw [setMark_entry quiet i s (by simp [hi]), modEntry_entry s i _ (by simp [hi])]
    exact ⟨rfl, rfl, id⟩
  case advanceCounts =>
    intro s h
    refine ⟨one.advanceCounts s h.1, queueLaw_of_states h.2 (by simp [Machine.advanceCounts]) rfl rfl rfl rfl fun j => ?_⟩
    rw [advanceCounts_entry]
    simp [markCounted_state, markCounted_fields]
  case answerUnexecuted =>
    exact fun s i st hi h => ⟨one.answerUnexecuted s i st hi h.1, answerUnexecuted_queueLaw st (by grind) h.2⟩
  case dropEntry =>
    exact fun s i hi h => ⟨one.dropEntry s i hi h.1, freeEntry_queueLaw i (s := releaseWindow i s) h.2⟩
  case freeReplying => exact fun s i hi h => ⟨one.freeReplying s i hi h.1, freeEntry_queueLaw i h.2⟩
  case freeAllButExecuting =>
    exact fun s h => ⟨one.freeAllButExecuting s h.1, freeAllButExecuting_queueLaw h.2⟩
  case freeAllDescriptors => exact fun s h => ⟨one.freeAllDescriptors s h.1, freeAllDescriptors_queueLaw h.2⟩
  case shortReply =>
    intro s d rest r hd h
    exact ⟨one.shortReply s d rest r hd h.1, queueShortReply_queueLaw r (mem_freeDescriptors hd).1 (mem_freeDescriptors hd).2 h.2⟩
  case freeDescriptor => exact fun s d r hm hd h => ⟨one.freeDescriptor s d r hm hd h.1, freeDescriptor_queueLaw d h.2⟩
  case allocate =>
    intro s i rest op g window capacity hf hw hb h
    obtain ⟨hlt, hi⟩ := entriesIn_free_head hf
    exact ⟨one.allocate s i rest op g window capacity hf hw hb h.1, allocate_queueLaw op g window _ hlt hi h.2⟩
  case append =>
    intro s i op g capacity hi hn ho hc h
    exact ⟨one.append s i op g capacity hi hn ho hc h.1, appendSegment_queueLaw g hi h.2⟩
  case sendPiece =>
    intro s i capacity hm hp h
    exact ⟨one.sendPiece s i capacity hm hp h.1, sendPiece_queueLaw _ (canProgress_not_free hp) h.2⟩
  all_goals
    intros
    simpa [State.oneExecuting, State.queueLaw, State.descriptor, startSeparated_entry] using
      (‹_ ∧ _› : State.oneExecuting _ ∧ State.queueLaw _)

end Sys2Proof.Machine
end

section
/-! PROOFS. What one act does to one entry of the Transaction Table, said once; and the laws of the byte counters (R68, R70, R71,
R76, R77), of the pairs (R69) and of the reserved blocks (R78), which are kept because every act does one of these things. -/

namespace Sys2Proof.Machine

/-- What an act that is no allocation does to an entry. -/
inductive Entry.Change (e : Entry) : Entry → Prop where
  | kept : Change e e
  | freed : Change e Entry.initial
  | counted : Change e e.markCounted
  | marked (m : AbortMark) : e.state = .executing → Change e { e with mark := m }
  | heldOld (old : List Byte) : e.state = .executing → Change e { e with old := some old }
  | handedOver : e.state = .queued → Change e { e with state := .executing, done := 0 }
  | advanced (positions : List Nat) : e.state = .executing → (∀ k ∈ positions, k < e.total) →
      Change e { e with done := extendDone e.done positions }
  | ended (m : AbortMark) (st : Status) : e.state = .executing → st ≠ .sequence ∧ st ≠ .incomplete →
      Change e (({ e with mark := m } : Entry).afterEnd st)
  | answered (st : Status) :
      e.state = .assembling ∧ (st = .sequence ∨ st = .incomplete ∨ st = .aborted) ∨ e.state = .queued ∧ st = .aborted →
      Change e { e with state := .replying, final := some st, done := 0, deadline := 0 }
  | appended (stop : Nat) : e.state = .assembling → stop ≤ e.total →
      Change e { e with received := stop, gap := 0, state := if stop = e.total then .queued else e.state }
  | sent (n : Nat) : e.state = .executing ∨ e.state = .replying → e.op = .read →
      (e.sent ≤ e.done → e.sent + n ≤ e.done) →
      Change e { e with sent := e.sent + n, deadline := 0 }

/-! ### Every act changes entries so -/

/-- Every entry of `t` is one of `s`, changed by one act. -/
def Changes (s t : State) : Prop := ∀ j, (s.entry j).Change (t.entry j)

theorem changes_of_entries {s t : State} (h : ∀ j, t.entry j = s.entry j) : Changes s t := fun j => by
  rw [h j]
  exact .kept

/-- One entry changed, the others as they were. -/
theorem changes_of_one {s t : State} {i : Nat} {e : Entry} (he : ∀ j, t.entry j = if j = i then e else s.entry j)
    (hi : (s.entry i).Change e) : Changes s t := fun j => by
  rw [he j]
  split
  · rename_i hj; subst hj; exact hi
  · exact .kept

theorem changes_freeAllButExecuting (s : State) : Changes s (freeAllButExecuting s) := fun j => by
  rw [freeAllButExecuting_entry]
  split
  · exact .kept
  · exact .freed

theorem changes_of_initial {s t : State} (h : ∀ j, t.entry j = Entry.initial) : Changes s t := fun j => by
  rw [h j]
  exact .freed

theorem changes_advanceCounts (s : State) : Changes s (advanceCounts s) := fun j => by
  rw [advanceCounts_entry]
  exact .counted

/-- The positions that a beat completes are those of bytes of the transaction (R107). -/
theorem positions_lt {b : Beat} {e : Entry} {lanes : List Nat} {k : Nat} (h : k ∈ b.positions e lanes) : k < e.total := by
  simp only [Beat.positions, List.mem_map, List.mem_filter, Entry.needs, Bool.and_eq_true, decide_eq_true_eq] at h
  obtain ⟨l, ⟨_, h1, h2⟩, rfl⟩ := h
  omega

theorem changes_takenBeat {s : State} {i : Nat} (b : Beat) (x : Answer) (w : Width) (d : LaneData)
    (hi : (s.entry i).state = .executing) : Changes s (takenBeat i b x w d s) := by
  refine changes_of_one (takenBeat_done i b x w d s (by simp [hi])) ?_
  split
  · exact .kept
  · exact .advanced _ hi fun k hk => positions_lt hk

theorem changes_endExecution {s : State} {i : Nat} {st : Status} (hi : (s.entry i).state = .executing)
    (hst : st ≠ .sequence ∧ st ≠ .incomplete) : Changes s (endExecution i st s) :=
  changes_of_one (endExecution_entry i st s (by simp [hi])) (.ended (s.entry i).mark st hi hst)

theorem changes_claimLent {s : State} {i : Nat} (quiet : Bool) (hi : (s.entry i).state = .executing) :
    Changes s (endExecution i .aborted (s.modEntry i (fun e => { e with mark := e.mark.claim quiet }))) :=
  changes_of_one (claimLent_entry s i quiet (by simp [hi])) (.ended _ _ hi (by simp))

theorem changes_setMark {s : State} {i : Nat} (quiet : Bool) (hi : (s.entry i).state = .executing) :
    Changes s (setMark quiet i s) :=
  changes_of_one (setMark_entry quiet i s (by simp [hi])) (.marked _ hi)

theorem changes_appendSegment {s : State} {i : Nat} {op : ReqOp} {g : Segment} {capacity : Nat}
    (hi : (s.entry i).state = .assembling) (hc : inconsistent (s.entry i) op g capacity = false) :
    Changes s (appendSegment i g s) := by
  refine changes_of_one (appendSegment_entry i g s (by simp [hi])) (.appended _ hi ?_)
  simp only [inconsistent, Bool.or_eq_false_iff, decide_eq_false_iff_not, Nat.not_lt] at hc
  exact hc.1.1.2

/-- A piece without LAST is a READ's, of bytes that are done (R136, R137). -/
theorem pieceOf_not_last {s : State} {e : Entry} {capacity : Nat} (hl : (s.pieceOf e capacity).last = false) :
    e.op = .read ∧ (e.sent ≤ e.done → e.sent + (s.pieceOf e capacity).data.length ≤ e.done) := by
  unfold State.pieceOf at hl ⊢
  cases ho : e.op <;> simp only [ho] at hl ⊢ <;> try cases hl
  split at hl
  · cases hl
  · rename_i hn
    rw [if_neg hn]
    simp only [State.txBytes, List.length_map, List.length_range, true_and]
    omega

/-- A giving sends on, and a LAST segment frees its entry. -/
theorem changes_sendPiece {s : State} {i capacity : Nat} (hp : (s.entry i).canProgress capacity = true) : Changes s (sendPiece i (s.pieceOf (s.entry i) capacity) s) := by
  refine changes_of_one (sendPiece_entry i _ s (canProgress_not_free hp)) ?_
  split
  · exact .freed
  · rename_i hl
    obtain ⟨ho, hd⟩ := pieceOf_not_last (s := s) (e := s.entry i) (capacity := capacity) (by simpa using hl)
    exact .sent _ ((canProgress_state hp).imp And.left id) ho hd

/-- A property that changes of the entries and an allocation keep is kept by every act, where one execution at most and the
law of the queues are known. -/
theorem closed_of_changes {X : State → Prop} (hX : ∀ s t, X s → Changes s t → X t)
    (hnew : ∀ s i rest op g window capacity, s.entriesIn .free = i :: rest → firstChecks op g capacity s = .ok window →
      blocksNeeded op g.total.toNat ≤ s.freeBlocks.length → X s →
      X (allocate i op g window (s.freeBlocks.take (blocksNeeded op g.total.toNat)) s)) :
    Closed (fun s => (s.oneExecuting ∧ s.queueLaw) ∧ X s) := by
  have c := closed_queueLaw
  refine ⟨?acts, fun s hs h => ⟨c.swap s hs h.1, hX s _ h.2 (changes_of_entries fun _ => rfl)⟩⟩
  constructor
  case allocate =>
    intro s i rest op g window capacity hf hw hb h
    exact ⟨c.allocate s i rest op g window capacity hf hw hb h.1, hnew s i rest op g window capacity hf hw hb h.2⟩
  case tearDown =>
    exact fun s hd hr h => ⟨c.tearDown s hd hr h.1, hX s _ h.2 (changes_freeAllButExecuting s)⟩
  case freeAllButExecuting =>
    exact fun s h => ⟨c.freeAllButExecuting s h.1, hX s _ h.2 (changes_freeAllButExecuting s)⟩
  case softReset =>
    exact fun s hx h => ⟨c.softReset s hx h.1, hX s _ h.2 (changes_of_initial (softResetValues_entry s))⟩
  case pinReset => exact fun s h => ⟨c.pinReset s h.1, hX s _ h.2 (changes_of_initial (pinReset_entry s))⟩
  case handOver =>
    intro s i rest he hx hr h
    have hi := head_queued h.1.2 hr
    refine ⟨c.handOver s i rest he hx hr h.1, hX s _ h.2 (changes_of_one (i := i) (fun j => ?_) (.handedOver hi))⟩
    rw [startSeparated_entry, handOver_entry i s (by simp [hi])]
  case takenBeat =>
    intro s i b x w d hx hb hy h
    exact ⟨c.takenBeat s i b x w d hx hb hy h.1, hX s _ h.2 (changes_takenBeat b x w d (executing_state hx))⟩
  case holdOld =>
    intro s i x hi he h
    refine ⟨c.holdOld s i x hi he h.1, hX s _ h.2 (changes_of_one (holdOld_entry i x s (by simp [hi])) (.heldOld x hi))⟩
  case endExecution =>
    exact fun s i st hi hst h => ⟨c.endExecution s i st hi hst h.1, hX s _ h.2 (changes_endExecution hi hst)⟩
  case claimLent =>
    exact fun s i quiet hi he hl h => ⟨c.claimLent s i quiet hi he hl h.1, hX s _ h.2 (changes_claimLent quiet hi)⟩
  case setMark => exact fun s i quiet hi he h => ⟨c.setMark s i quiet hi he h.1, hX s _ h.2 (changes_setMark quiet hi)⟩
  case advanceCounts => exact fun s h => ⟨c.advanceCounts s h.1, hX s _ h.2 (changes_advanceCounts s)⟩
  case answerUnexecuted =>
    intro s i st hi h
    have hf : (s.entry i).state ≠ .free := by grind
    exact ⟨c.answerUnexecuted s i st hi h.1,
      hX s _ h.2 (changes_of_one (answerUnexecuted_entry i st s hf) (.answered st hi))⟩
  case dropEntry =>
    exact fun s i hi h => ⟨c.dropEntry s i hi h.1, hX s _ h.2 (changes_of_one (dropEntry_entry i s) .freed)⟩
  case freeReplying =>
    exact fun s i hi h => ⟨c.freeReplying s i hi h.1, hX s _ h.2 (changes_of_one (freeEntry_entry i s) .freed)⟩
  case append =>
    intro s i op g capacity hi hn ho hc h
    exact ⟨c.append s i op g capacity hi hn ho hc h.1, hX s _ h.2 (changes_appendSegment hi hn)⟩
  case sendPiece =>
    exact fun s i capacity hm hp h => ⟨c.sendPiece s i capacity hm hp h.1, hX s _ h.2 (changes_sendPiece hp)⟩
  case freeAllDescriptors =>
    exact fun s h => ⟨c.freeAllDescriptors s h.1, hX s _ h.2 (changes_of_entries fun _ => rfl)⟩
  case shortReply =>
    exact fun s d rest r hd h => ⟨c.shortReply s d rest r hd h.1, hX s _ h.2 (changes_of_entries fun _ => rfl)⟩
  case freeDescriptor =>
    exact fun s d r hm hd h => ⟨c.freeDescriptor s d r hm hd h.1, hX s _ h.2 (changes_of_entries fun _ => rfl)⟩
  all_goals
    intros
    obtain ⟨hlists, hx⟩ := ‹_ ∧ X _›
    refine ⟨?_, hX _ _ hx (changes_of_entries fun j => by simp [startSeparated_entry])⟩
    simpa [State.oneExecuting, State.queueLaw, State.descriptor, startSeparated_entry] using hlists

/-! ### The byte counters (R68, R70, R71, R76, R77) -/

theorem Entry.initial_countLaw : Entry.initial.countLaw := by simp [Entry.countLaw, Entry.initial]

/-- Done grows at the taking of a beat, and stays within the total length (R107). -/
theorem extendDone_bounds {total : Nat} : ∀ (positions : List Nat) (done : Nat), (∀ k ∈ positions, k < total) → done ≤ total →
    done ≤ extendDone done positions ∧ extendDone done positions ≤ total
  | [], done, _, hd => ⟨Nat.le_refl _, hd⟩
  | k :: ks, done, hk, hd => by
    have hlt := hk k List.mem_cons_self
    have ih := extendDone_bounds ks (if k = done then done + 1 else done) (fun j hj => hk j (List.mem_cons_of_mem _ hj))
      (by split <;> omega)
    have hstep : extendDone done (k :: ks) = extendDone (if k = done then done + 1 else done) ks := rfl
    rw [hstep]
    exact ⟨Nat.le_trans (by split <;> omega) ih.1, ih.2⟩

/-- The counters of an entry stay lawful whatever an act does to it. -/
theorem Entry.Change.countLaw {e e' : Entry} (hc : e.Change e') (h : e.countLaw) : e'.countLaw := by
  cases hc with
  | kept => exact h
  | freed => exact Entry.initial_countLaw
  | counted => simpa [Entry.countLaw, markCounted_state, markCounted_fields] using h
  | marked m hs => exact h
  | heldOld old hs => simpa [Entry.countLaw, hs] using h
  | handedOver hs => simp only [Entry.countLaw, hs] at h ⊢; grind
  | advanced positions hs hp =>
    have hb := extendDone_bounds positions e.done hp h.2.1
    simp only [Entry.countLaw, hs] at h ⊢
    grind
  | ended m st hs hst =>
    unfold Entry.afterEnd
    split
    · exact Entry.initial_countLaw
    · have hf : ∀ m', Entry.finalStatus { e with mark := m' } st = st
          ∨ Entry.finalStatus { e with mark := m' } st = .aborted := fun m' => ite_eq_or_eq _ _ _
      have hw : e.op.locked = true → e.op ≠ .read := by cases e.op <;> simp [ReqOp.locked]
      simp only [Entry.countLaw, hs] at h ⊢
      grind [Entry.finalDone]
  | answered st hs => simp only [Entry.countLaw] at h ⊢; grind
  | appended stop hs hle => simp only [Entry.countLaw, hs] at h ⊢; grind
  | sent n hs hop hn => simp only [Entry.countLaw] at h ⊢; grind

theorem firstChecks_ok {op : ReqOp} {g : Segment} {capacity window : Nat} {s : State}
    (h : firstChecks op g capacity s = .ok window) :
    badRequest op g capacity = false ∧ badLength op g = false ∧ badAlign op g = false ∧ s.tagInUse g.source g.tag = false
      ∧ s.resolve g.addr.toNat g.total.toNat = some window ∧ (s.window window).permits op g.source = true := by
  unfold firstChecks at h
  repeat' split at h
  all_goals cases h
  simp_all

/-- The counters of a new entry (R57). -/
theorem newEntry_countLaw {op : ReqOp} {g : Segment} (w : Nat) (bs : List Nat)
    (hl : badLength op g = false) : (newEntry op g w bs).countLaw := by
  simp only [badLength, Bool.or_eq_false_iff, decide_eq_false_iff_not, Nat.not_lt, Bool.and_eq_false_iff] at hl
  obtain ⟨⟨⟨h0, h1⟩, h2⟩, _⟩ := hl
  cases hw : op.isWrite <;> simp only [Entry.countLaw, newEntry, hw] <;> grind

theorem closed_countLaw : Closed (fun s => (s.oneExecuting ∧ s.queueLaw) ∧ s.countLaw) := by
  refine closed_of_changes (fun s t h hc j => (hc j).countLaw (h j)) ?allocate
  intro s i rest op g window capacity hf hw _ h j
  obtain ⟨_, hl, _⟩ := firstChecks_ok hw
  rw [allocate_entry _ _ _ _ _ _ (entriesIn_free_head hf).1]
  split
  · exact newEntry_countLaw _ _ hl
  · exact h j

/-! ### The pairs and the blocks (R69, R78) -/

/-- An entry that is open after an act was open before it, for the same transaction. -/
theorem Entry.Change.open_same {e e' : Entry} (hc : e.Change e') (ho : e'.state ≠ .free) :
    e.state ≠ .free ∧ e'.source = e.source ∧ e'.tag = e.tag ∧ e'.op = e.op ∧ e'.total = e.total ∧ e'.blocks = e.blocks
      ∧ e'.window = e.window := by
  cases hc with
  | freed => exact absurd rfl ho
  | counted => simp_all [markCounted_state, markCounted_fields]
  | ended m st hs _ =>
    unfold Entry.afterEnd at ho ⊢
    split at ho
    · exact absurd rfl ho
    · rename_i hn; simp [hn, hs]
  | _ => simp_all <;> grind

theorem tagInUse_eq_false {s : State} {source tag : Byte} (h : s.tagInUse source tag = false) (j : Nat)
    (ho : (s.entry j).state ≠ .free) : ¬((s.entry j).source = source ∧ (s.entry j).tag = tag) := by
  have hl := entry_lt ho
  have he : s.entry j = s.table.entries[j] := by simp [State.entry, hl]
  simp only [State.tagInUse, List.any_eq_false, Entry.names, Bool.and_eq_true, decide_eq_true_eq] at h
  rw [he] at ho ⊢
  exact fun hst => h _ (List.getElem_mem hl) ⟨⟨ho, hst.1⟩, hst.2⟩

theorem closed_pairLaw : Closed (fun s => (s.oneExecuting ∧ s.queueLaw) ∧ s.pairLaw) := by
  refine closed_of_changes (fun s t h hc i j hi hj => ?change) ?allocate
  case change =>
    obtain ⟨hi', hsi, hti, _⟩ := (hc i).open_same hi
    obtain ⟨hj', hsj, htj, _⟩ := (hc j).open_same hj
    rw [hsi, hsj, hti, htj]
    exact h i j hi' hj'
  case allocate =>
    intro s i rest op g window capacity hf hw _ h a b
    have hfresh := tagInUse_eq_false (firstChecks_ok hw).2.2.2.1
    simp only [allocate_entry _ _ _ _ _ _ (entriesIn_free_head hf).1]
    have hsrc : ∀ bs, (newEntry op g window bs).source = g.source ∧ (newEntry op g window bs).tag = g.tag :=
      fun _ => ⟨rfl, rfl⟩
    have hab := h a b
    grind

theorem mem_freeBlocks {s : State} {b : Nat} (h : b ∈ s.freeBlocks) :
    b < Config.blocks ∧ ∀ j, (s.entry j).state ≠ .free → b ∉ (s.entry j).blocks := by
  simp only [State.freeBlocks, List.mem_filter, List.mem_range, Bool.not_eq_true', State.blockReserved, List.any_eq_false,
    Bool.and_eq_true, decide_eq_true_eq, List.contains_iff_mem] at h
  refine ⟨h.1, fun j ho hb => ?_⟩
  have hl := entry_lt ho
  have he : s.entry j = s.table.entries[j] := by simp [State.entry, hl]
  rw [he] at ho hb
  exact h.2 _ (List.getElem_mem hl) ⟨ho, hb⟩

theorem closed_blockLaw : Closed (fun s => (s.oneExecuting ∧ s.queueLaw) ∧ s.blockLaw) := by
  refine closed_of_changes (fun s t h hc => ⟨fun i hi => ?own, fun i j hi hj => ?apart⟩) ?allocate
  case own =>
    obtain ⟨hi', _, _, ho, ht, hb, _⟩ := (hc i).open_same hi
    have := h.1 i hi'
    unfold Entry.blockLaw at this ⊢
    rwa [ho, ht, hb]
  case apart =>
    obtain ⟨hi', _, _, _, _, hbi, _⟩ := (hc i).open_same hi
    obtain ⟨hj', _, _, _, _, hbj, _⟩ := (hc j).open_same hj
    rw [hbi, hbj]
    exact h.2 i j hi' hj'
  case allocate =>
    intro s i rest op g window capacity hf _ hn h
    generalize hbs : s.freeBlocks.take (blocksNeeded op g.total.toNat) = bs
    have hfree : ∀ b ∈ bs, b < Config.blocks ∧ ∀ j, (s.entry j).state ≠ .free → b ∉ (s.entry j).blocks :=
      fun b hb => mem_freeBlocks (List.mem_of_mem_take (hbs ▸ hb))
    have hlaw : (newEntry op g window bs).blockLaw := by
      refine ⟨?_, ?_, fun b hb => (hfree b hb).1⟩
      · show bs.length = _
        rw [← hbs, List.length_take, Nat.min_eq_left hn]
        rfl
      · show bs.Nodup
        rw [← hbs]
        exact (List.nodup_range.filter _).sublist (List.take_sublist _ _)
    have hblocks : (newEntry op g window bs).blocks = bs := rfl
    unfold State.blockLaw
    simp only [allocate_entry _ _ _ _ _ _ (entriesIn_free_head hf).1]
    obtain ⟨h1, h2⟩ := h
    exact ⟨by grind, by grind⟩

end Sys2Proof.Machine
end

section
/-! PROOFS. The law of the in-use counts (R79, R92): a window counts the entries that hold it, and every act moves the two
together. -/

namespace Sys2Proof.Machine

/-- How many entries hold window `w`. -/
def State.holders (s : State) (w : Nat) : Nat := s.table.entries.countP (fun e => e.holdsWindow w)

theorem inUseLaw_iff (s : State) :
    s.inUseLaw ↔ s.windows.length = Config.windows ∧ (∀ i, (s.entry i).window < Config.windows)
      ∧ ∀ w, w < Config.windows → (s.window w).inUse = s.holders w := by
  simp only [State.inUseLaw, State.holders, List.countP_eq_length_filter]

/-- A table whose entries are those of another but for entry `i`. -/
theorem entries_eq_set {s t : State} {i : Nat} {e : Entry} (hl : t.table.entries.length = s.table.entries.length)
    (he : ∀ j, t.entry j = if j = i then e else s.entry j) : t.table.entries = s.table.entries.set i e := by
  refine List.ext_getElem (by simpa using hl) fun j hj hj' => ?_
  have hjs : j < s.table.entries.length := hl ▸ hj
  have := he j
  simp only [State.entry, List.getD_eq_getElem?_getD, List.getElem?_eq_getElem hj, List.getElem?_eq_getElem hjs,
    Option.getD_some] at this
  rw [this, List.getElem_set]
  grind

/-- One entry changed: it alone may begin or cease to hold a window. -/
theorem holders_of_one {s t : State} {i : Nat} {e : Entry} (hi : i < s.table.entries.length)
    (hl : t.table.entries.length = s.table.entries.length) (he : ∀ j, t.entry j = if j = i then e else s.entry j) (w : Nat) :
    t.holders w + (if (s.entry i).holdsWindow w then 1 else 0) = s.holders w + (if e.holdsWindow w then 1 else 0) := by
  have hs : s.entry i = s.table.entries[i] := by simp [State.entry, hi]
  have hle : (if (s.entry i).holdsWindow w then 1 else 0) ≤ s.holders w := by
    split
    · rename_i hh
      exact List.countP_pos_iff.2 ⟨_, List.getElem_mem hi, hs ▸ hh⟩
    · exact Nat.zero_le _
  unfold State.holders at hle ⊢
  rw [entries_eq_set hl he, List.countP_set hi, ← hs]
  omega

/-- Windows as they were, each held by the entries that held it. -/
theorem inUseLaw_of_holds {s t : State} (h : s.inUseLaw) (hw : t.windows = s.windows)
    (hl : t.table.entries.length = s.table.entries.length)
    (he : ∀ j, (t.entry j).window < Config.windows ∧ ∀ w, (t.entry j).holdsWindow w = (s.entry j).holdsWindow w) :
    t.inUseLaw := by
  rw [inUseLaw_iff] at h ⊢
  obtain ⟨h1, h2, h3⟩ := h
  refine ⟨hw ▸ h1, fun i => (he i).1, fun w hlt => ?_⟩
  have hcount : t.holders w = s.holders w := by
    have hmap : t.table.entries.map (fun e => e.holdsWindow w) = s.table.entries.map (fun e => e.holdsWindow w) := by
      refine List.ext_getElem (by simpa using hl) fun j hj hj' => ?_
      have hjt : j < t.table.entries.length := by simpa using hj
      have hjs : j < s.table.entries.length := by simpa using hj'
      have := (he j).2 w
      simpa [State.entry, hjt, hjs] using this
    have := congrArg (List.countP id) hmap
    rwa [List.countP_map, List.countP_map] at this
  rw [hcount, ← h3 w hlt, State.window, State.window, hw]

/-- Entry `i` ceases to hold its window, which counts one less (R79). -/
theorem inUseLaw_released {s t : State} {i : Nat} {e : Entry} (h : s.inUseLaw) (hi : i < s.table.entries.length)
    (hw : t.windows = (releaseWindow i s).windows) (hl : t.table.entries.length = s.table.entries.length)
    (he : ∀ j, t.entry j = if j = i then e else s.entry j) (hheld : (s.entry i).holdsWindow (s.entry i).window = true)
    (hfree : ∀ w, e.holdsWindow w = false) (hwin : e.window < Config.windows) : t.inUseLaw := by
  rw [inUseLaw_iff] at h ⊢
  obtain ⟨h1, h2, h3⟩ := h
  refine ⟨by rw [hw]; simpa [releaseWindow, State.modWindow] using h1, fun j => by rw [he]; grind, fun w hlt => ?_⟩
  have hcount := holders_of_one hi hl he w
  have hwt : t.window w = (releaseWindow i s).window w := by rw [State.window, State.window, hw]
  rw [hwt, releaseWindow, modWindow_window]
  simp only [hfree, Bool.false_eq_true, if_false, Nat.add_zero] at hcount
  by_cases hwi : w = (s.entry i).window
  · subst hwi
    rw [if_pos ⟨rfl, h1 ▸ hlt⟩]
    rw [hheld, if_pos rfl] at hcount
    have := h3 _ hlt
    show (s.window (s.entry i).window).inUse - 1 = _
    omega
  · have hnot : (s.entry i).holdsWindow w = false := by simp [Entry.holdsWindow, Ne.symm hwi]
    rw [hnot] at hcount
    rw [if_neg fun hc => hwi hc.1, h3 w hlt]
    simpa using hcount.symm

/-- A new entry holds its window, which counts one more (R57, R79). -/
theorem allocate_inUseLaw {s : State} {i : Nat} (op : ReqOp) (g : Segment) (window : Nat) (bs : List Nat) (h : s.inUseLaw)
    (hi : i < s.table.entries.length) (hf : (s.entry i).state = .free) (hwin : window < Config.windows) :
    (allocate i op g window bs s).inUseLaw := by
  rw [inUseLaw_iff] at h ⊢
  obtain ⟨h1, h2, h3⟩ := h
  have he := allocate_entry i op g window bs s hi
  have hnew : ∀ w, (newEntry op g window bs).holdsWindow w = decide (window = w) := fun w => by
    have hwn : (newEntry op g window bs).window = window := rfl
    rcases newEntry_state op g window bs with hst | hst <;> simp [Entry.holdsWindow, hst, hwn]
  refine ⟨?_, fun j => ?_, fun w hlt => ?_⟩
  · rw [allocate_windows]
    simpa [State.modWindow] using h1
  · rw [he]
    split
    · exact hwin
    · exact h2 j
  · have hcount := holders_of_one hi (allocate_length i op g window bs s) he w
    have hold : (s.entry i).holdsWindow w = false := by simp [Entry.holdsWindow, hf]
    have hwt : (allocate i op g window bs s).window w = (s.modWindow window _).window w := rfl
    rw [hwt, modWindow_window]
    rw [hold, hnew] at hcount
    by_cases hw : w = window
    · subst hw
      rw [if_pos ⟨rfl, h1 ▸ hlt⟩]
      simp only [Bool.false_eq_true, if_false, decide_true, if_true] at hcount
      show (s.window w).inUse + 1 = _
      rw [h3 w hlt]
      omega
    · rw [if_neg fun hc => hw hc.1, h3 w hlt]
      simpa [Ne.symm hw] using hcount.symm

/-- With all but the EXECUTING entries gone, a window counts the EXECUTING one that holds it (R86, R87). -/
theorem freeAllButExecuting_inUseLaw {s : State} (h : s.inUseLaw) : (freeAllButExecuting s).inUseLaw := by
  rw [inUseLaw_iff] at h ⊢
  obtain ⟨h1, h2, h3⟩ := h
  refine ⟨by simpa [freeAllButExecuting] using h1, fun j => ?_, fun w hlt => ?_⟩
  · rw [freeAllButExecuting_entry]
    split
    · exact h2 j
    · decide
  · have hmap : (freeAllButExecuting s).holders w
        = s.table.entries.countP (fun e => decide (e.state = .executing) && decide (e.window = w)) := by
      show List.countP _ (s.table.entries.map _) = _
      rw [List.countP_map]
      refine List.countP_congr fun e _ => ?_
      by_cases he : e.state = .executing <;> simp [Entry.holdsWindow, Entry.initial, he]
    have hsplit : s.holders w = s.waitingIn w
        + s.table.entries.countP (fun e => decide (e.state = .executing) && decide (e.window = w)) := by
      simp only [State.holders, State.waitingIn, ← List.countP_eq_length_filter]
      induction s.table.entries with
      | nil => rfl
      | cons e es ih =>
        simp only [List.countP_cons, ih]
        cases hs : e.state <;> by_cases hw : e.window = w <;> simp [Entry.holdsWindow, hs, hw] <;> omega
    rw [freeAllButExecuting_window, hmap]
    show (s.window w).inUse - s.waitingIn w = _
    rw [h3 w hlt, hsplit]
    omega

theorem inUseLaw_of_table_windows {s t : State} (h : s.inUseLaw) (hw : t.windows = s.windows)
    (he : t.table.entries = s.table.entries) : t.inUseLaw :=
  inUseLaw_of_holds h hw (by rw [he]) fun j => by rw [entry_of_entries he]; exact ⟨h.2.1 j, fun _ => rfl⟩

/-- One entry changed that holds what it held. -/
theorem inUseLaw_of_one {s t : State} {i : Nat} {e : Entry} (h : s.inUseLaw) (hw : t.windows = s.windows)
    (hl : t.table.entries.length = s.table.entries.length) (he : ∀ j, t.entry j = if j = i then e else s.entry j)
    (hwin : e.window < Config.windows) (hheld : ∀ w, e.holdsWindow w = (s.entry i).holdsWindow w) : t.inUseLaw := by
  refine inUseLaw_of_holds h hw hl fun j => ?_
  rw [he]
  split
  · rename_i hj; subst hj; exact ⟨hwin, hheld⟩
  · exact ⟨h.2.1 j, fun _ => rfl⟩

theorem inUseLaw_initial {s : State} (he : s.table.entries = entriesInitial) (hw : s.windows = windowsInitial) : s.inUseLaw := by
  refine ⟨by simp [hw, windowsInitial], fun i => by rw [entry_of_entriesInitial he]; decide, fun w _ => ?_⟩
  rw [window_of_windowsInitial hw, he]
  simp [entriesInitial, Window.initial, Entry.initial, Entry.holdsWindow]

theorem endExecution_inUseLaw {s : State} {i : Nat} (st : Status) (h : s.inUseLaw) (hi : (s.entry i).state = .executing) :
    (endExecution i st s).inUseLaw := by
  have hf : (s.entry i).state ≠ .free := by simp [hi]
  refine inUseLaw_released h (entry_lt hf) (endExecution_windows i st s) (endExecution_length i st s)
    (endExecution_entry i st s hf) (by simp [Entry.holdsWindow, hi]) (fun w => ?_) ?_ <;> unfold Entry.afterEnd <;> split
  · simp [Entry.holdsWindow, Entry.initial]
  · simp [Entry.holdsWindow]
  · decide
  · exact h.2.1 i

theorem claimed_inUseLaw {s : State} {i : Nat} (quiet : Bool) (h : s.inUseLaw) (hi : (s.entry i).state = .executing) :
    (s.modEntry i (fun e => { e with mark := e.mark.claim quiet })).inUseLaw :=
  inUseLaw_of_one h rfl (modEntry_length s i _) (modEntry_entry s i _ (by simp [hi])) (h.2.1 i) fun _ => rfl

/-- A load or an invalidation of a window keeps its in-use count (R93, R94). -/
theorem modWindow_inUseLaw {s : State} (i : Nat) {f : Window → Window} (h : s.inUseLaw) (hf : ∀ w, (f w).inUse = w.inUse) :
    (s.modWindow i f).inUseLaw := by
  refine ⟨by simpa [State.modWindow] using h.1, h.2.1, fun w hlt => ?_⟩
  have := h.2.2 w hlt
  rw [modWindow_window]
  split
  · rw [hf]; exact this
  · exact this

theorem resolve_lt {s : State} {addr total w : Nat} (h : s.resolve addr total = some w) : w < s.windows.length := by
  unfold State.resolve at h
  split at h
  · cases h
  · rename_i i rest heq
    have hm : i ∈ indexesOf (fun w => w.holds addr) s.windows := heq ▸ List.mem_cons_self
    obtain ⟨a, ha, _⟩ := (mem_indexesOf _ _ _).1 hm
    have := (List.getElem?_eq_some_iff.1 ha).1
    split at h
    · cases h; exact this
    · cases h

theorem sendPiece_length (i : Nat) (p : Piece) (s : State) :
    (sendPiece i p s).table.entries.length = s.table.entries.length := by
  unfold sendPiece
  cases p.last <;> simp [freeEntry, State.modEntry]

/-- The in-use counts, act by act: an act that takes an entry into or out of ASSEMBLING, QUEUED and EXECUTING counts it. -/
theorem closed_inUseLaw : Closed (fun s => (s.oneExecuting ∧ s.queueLaw) ∧ s.inUseLaw) := by
  have c := closed_queueLaw
  refine ⟨?acts, fun s hs h => ⟨c.swap s hs h.1, h.2⟩⟩
  constructor
  case handOver =>
    intro s i rest he hx hr h
    have hi := head_queued h.1.2 hr
    refine ⟨c.handOver s i rest he hx hr h.1, inUseLaw_of_one (i := i)
      (e := { s.entry i with state := .executing, done := 0 }) h.2 (by simp) (by simp [handOver_length])
      (fun j => by rw [startSeparated_entry, handOver_entry i s (by simp [hi])]) (h.2.2.1 i) fun w => ?_⟩
    simp [Entry.holdsWindow, hi]
  case takenBeat =>
    intro s i b x w d hx hb hy h
    refine ⟨c.takenBeat s i b x w d hx hb hy h.1, inUseLaw_of_holds h.2 (by simp) (by simp) fun j => ⟨?_, fun v => ?_⟩⟩
    · rw [takenBeat_entry Entry.window (fun _ _ => rfl)]; exact h.2.2.1 j
    · exact takenBeat_entry (fun e => e.holdsWindow v) (fun _ _ => rfl) ..
  case holdOld =>
    intro s i x hi he h
    exact ⟨c.holdOld s i x hi he h.1, inUseLaw_of_one h.2 rfl (modEntry_length s i _)
      (holdOld_entry i x s (by simp [hi])) (h.2.2.1 i) fun _ => rfl⟩
  case endExecution =>
    exact fun s i st hi hst h => ⟨c.endExecution s i st hi hst h.1, endExecution_inUseLaw st h.2 hi⟩
  case claimLent =>
    intro s i quiet hi he hl h
    refine ⟨c.claimLent s i quiet hi he hl h.1, endExecution_inUseLaw .aborted (claimed_inUseLaw quiet h.2 hi) ?_⟩
    rw [entry_modEntry_self s i _ (by simp [hi])]
    exact hi
  case setMark =>
    intro s i quiet hi he h
    exact ⟨c.setMark s i quiet hi he h.1,
      inUseLaw_of_table_windows (claimed_inUseLaw quiet h.2 hi) (by simp) (by simp)⟩
  case advanceCounts =>
    intro s h
    refine ⟨c.advanceCounts s h.1, inUseLaw_of_holds h.2 rfl (by simp [Machine.advanceCounts]) fun j => ?_⟩
    rw [advanceCounts_entry]
    exact ⟨by rw [(markCounted_fields _).2.2.2.2.2.1]; exact h.2.2.1 j,
      fun w => by simp [Entry.holdsWindow, markCounted_state, markCounted_fields]⟩
  case answerUnexecuted =>
    intro s i st hi h
    have hf : (s.entry i).state ≠ .free := by grind
    refine ⟨c.answerUnexecuted s i st hi h.1, inUseLaw_released h.2 (entry_lt hf) (answerUnexecuted_windows i st s)
      (by simp [Machine.answerUnexecuted]) (answerUnexecuted_entry i st s hf) ?_ (fun w => rfl) (h.2.2.1 i)⟩
    rcases hi with hi | hi <;> simp [Entry.holdsWindow, hi.1]
  case dropEntry =>
    intro s i hi h
    refine ⟨c.dropEntry s i hi h.1, inUseLaw_released h.2 (entry_lt (by grind)) (dropEntry_windows i s)
      (by simp [Machine.dropEntry, freeEntry]) (dropEntry_entry i s) ?_ (fun w => rfl) (by decide)⟩
    rcases hi with hi | hi <;> simp [Entry.holdsWindow, hi]
  case freeReplying =>
    intro s i hi h
    refine ⟨c.freeReplying s i hi h.1, inUseLaw_of_one h.2 (by simp) (by simp [freeEntry]) (freeEntry_entry i s) (by decide)
      fun w => ?_⟩
    simp [Entry.holdsWindow, hi, Entry.initial]
  case freeAllButExecuting => exact fun s h => ⟨c.freeAllButExecuting s h.1, freeAllButExecuting_inUseLaw h.2⟩
  case tearDown =>
    exact fun s hd hr h => ⟨c.tearDown s hd hr h.1,
      inUseLaw_of_table_windows (freeAllButExecuting_inUseLaw h.2) rfl rfl⟩
  case softReset => exact fun s hx h => ⟨c.softReset s hx h.1, inUseLaw_initial rfl rfl⟩
  case pinReset => exact fun s h => ⟨c.pinReset s h.1, inUseLaw_initial rfl rfl⟩
  case allocate =>
    intro s i rest op g window capacity hf hw hb h
    obtain ⟨hlt, hi⟩ := entriesIn_free_head hf
    obtain ⟨_, _, _, _, hres, _⟩ := firstChecks_ok hw
    exact ⟨c.allocate s i rest op g window capacity hf hw hb h.1,
      allocate_inUseLaw op g window _ h.2 hlt hi (h.2.1 ▸ resolve_lt hres)⟩
  case append =>
    intro s i op g capacity hi hn ho hc h
    refine ⟨c.append s i op g capacity hi hn ho hc h.1, inUseLaw_of_one h.2 (by simp) (appendSegment_length i g s)
      (appendSegment_entry i g s (by simp [hi])) (h.2.2.1 i) fun w => ?_⟩
    simp only [Entry.holdsWindow, hi]
    split <;> rfl
  case sendPiece =>
    intro s i capacity hm hp h
    have hf := canProgress_not_free hp
    refine ⟨c.sendPiece s i capacity hm hp h.1, inUseLaw_of_one h.2 (by simp) (by simp [sendPiece_length])
      (sendPiece_entry i _ s hf) ?_ fun w => ?_⟩ <;> split
    · decide
    · exact h.2.2.1 i
    · rename_i hl
      simp [Entry.holdsWindow, pieceOf_last hp hl, Entry.initial]
    · rfl
  case loadWindow =>
    exact fun s i record w hi hu hw hc h => ⟨c.loadWindow s i record w hi hu hw hc h.1, modWindow_inUseLaw i h.2 fun _ => rfl⟩
  case invalidate =>
    exact fun s i hi hu h => ⟨c.invalidate s i hi hu h.1, modWindow_inUseLaw i h.2 fun _ => rfl⟩
  case freeAllDescriptors => exact fun s h => ⟨c.freeAllDescriptors s h.1, h.2⟩
  case shortReply => exact fun s d rest r hd h => ⟨c.shortReply s d rest r hd h.1, h.2⟩
  case freeDescriptor => exact fun s d r hm hd h => ⟨c.freeDescriptor s d r hm hd h.1, h.2⟩
  all_goals
    intros
    obtain ⟨hlists, hx⟩ := (‹_ ∧ _› : (State.oneExecuting _ ∧ State.queueLaw _) ∧ State.inUseLaw _)
    refine ⟨?_, inUseLaw_of_table_windows hx (by simp) (by simp)⟩
    simpa [State.oneExecuting, State.queueLaw, State.descriptor, startSeparated_entry] using hlists

/-- Settles O56: the counters, the pairs and the blocks are kept by every change of an entry and by an allocation, and the
in-use counts by every act. -/
theorem stepKeepsTheCountsAndThePairs : Obligations.StepKeepsTheCountsAndThePairs :=
  ⟨fun _ _ hone hqueue hs => ⟨fun h => (closed_countLaw.of_step hs ⟨⟨hone, hqueue⟩, h⟩).2,
    fun h => (closed_pairLaw.of_step hs ⟨⟨hone, hqueue⟩, h⟩).2, fun h => (closed_blockLaw.of_step hs ⟨⟨hone, hqueue⟩, h⟩).2⟩,
   fun _ _ hone hqueue h hs => (closed_inUseLaw.of_step hs ⟨⟨hone, hqueue⟩, h⟩).2⟩

end Sys2Proof.Machine
end

section
/-! PROOFS. The law of the locked sequences (R81, R111, R120, R122), act by act, and what a claim does to a locked operation. -/

namespace Sys2Proof.Machine

theorem executing_eq_some {s : State} {i : Nat} (hone : s.oneExecuting) (hi : (s.entry i).state = .executing) :
    s.executing = some i := by
  cases hx : s.executing with
  | none => exact absurd hi (executing_none hx i)
  | some j => rw [hone i j hi (executing_state hx)]

/-- A part of a locked sequence is given by the place of the value alone (R103). -/
theorem lockedPart_congr {e e' : Entry} (ha : e'.addr = e.addr) (ht : e'.total = e.total) (w : Width) (write : Bool) :
    lockedPart e' w write = lockedPart e w write := by
  simp [lockedPart, Entry.neededLanes, Entry.needs, ha, ht]

/-- What an EXECUTING locked operation waits for, or is in (R111, R120, R122). -/
def Bus.sequenceOf (b : Bus) (e : Entry) : Prop :=
  b.engine = .locked
    ∨ (b.engine = .idle ∧ b.separating = true ∨ b.engine = .yielded) ∧ e.mark = .none ∧ b.plan = lockedPart e b.width false

theorem sequenceLaw_iff (s : State) :
    s.sequenceLaw ↔ (∀ i, (s.entry i).state = .assembling ∨ (s.entry i).state = .queued → (s.entry i).mark = .none)
      ∧ ∀ i, (s.entry i).state = .executing → (s.entry i).op.locked = true → s.bus.sequenceOf (s.entry i) := Iff.rfl

/-- Acts that leave the Bus Engine and the EXECUTING entries' marks and places as they are. -/
theorem sequenceLaw_of_entries {s t : State} (h : s.sequenceLaw)
    (hb : t.bus.engine = s.bus.engine ∧ t.bus.separating = s.bus.separating ∧ t.bus.plan = s.bus.plan
      ∧ t.bus.width = s.bus.width)
    (hw : ∀ j, (t.entry j).state = .assembling ∨ (t.entry j).state = .queued → (t.entry j).mark = .none)
    (hx : ∀ j, (t.entry j).state = .executing → (s.entry j).state = .executing ∧ (t.entry j).op = (s.entry j).op
      ∧ (t.entry j).mark = (s.entry j).mark ∧ (t.entry j).addr = (s.entry j).addr ∧ (t.entry j).total = (s.entry j).total) :
    t.sequenceLaw := by
  obtain ⟨he, hs, hp, hwd⟩ := hb
  refine ⟨hw, fun j hj hl => ?_⟩
  obtain ⟨hj', ho, hm, ha, ht⟩ := hx j hj
  rw [he, hs, hp, hwd, hm, lockedPart_congr ha ht]
  exact h.2 j hj' (ho ▸ hl)

/-- With no locked operation EXECUTING nothing is asked of the Bus Engine. -/
theorem sequenceLaw_of_no_locked {s t : State} (h : s.sequenceLaw) (he : ∀ j, t.entry j = s.entry j)
    (hn : ∀ j, (s.entry j).state = .executing → (s.entry j).op.locked = false) : t.sequenceLaw := by
  refine ⟨fun j hj => ?_, fun j hj hl => ?_⟩
  · rw [he] at hj ⊢; exact h.1 j hj
  · rw [he] at hj hl
    rw [hn j hj] at hl
    cases hl

/-- In LOCKED nothing more is asked. -/
theorem sequenceLaw_of_locked {s t : State} (h : s.sequenceLaw) (hl : t.bus.engine = .locked)
    (he : ∀ j, (t.entry j).state = .assembling ∨ (t.entry j).state = .queued → t.entry j = s.entry j) : t.sequenceLaw :=
  ⟨fun j hj => by have hs := he j hj; rw [hs] at hj ⊢; exact h.1 j hj, fun _ _ _ => .inl hl⟩

/-- A locked operation whose read part is planned goes to LOCKED with the start of its first cycle. -/
theorem startCycle_locked {s : State} {i : Nat} {w : Width} (hx : s.executing = some i)
    (hl : (s.entry i).op.locked = true) (hp : s.bus.plan = lockedPart (s.entry i) w false) (ht : 1 ≤ (s.entry i).total) :
    (startCycle s).bus.engine = .locked := by
  obtain ⟨b, cycles, hc, _⟩ := lockedPart_cons (e := s.entry i) (width := w) (write := false) ht
  rw [startCycle_of_plan hx (hp.trans hc) rfl]
  simp [hl]

theorem total_pos {s : State} {i : Nat} (h : s.countLaw) (hi : (s.entry i).state = .executing) : 1 ≤ (s.entry i).total := by
  obtain ⟨_, _, _, _, ht, _⟩ := h i
  exact (ht (by simp [hi])).1

/-- A locked operation that waits in IDLE or YIELDED has its read part planned. -/
theorem plan_of_waiting {s : State} {i : Nat} (h : s.sequenceLaw) (hi : (s.entry i).state = .executing)
    (hl : (s.entry i).op.locked = true) (he : s.bus.engine ≠ .locked) :
    s.bus.plan = lockedPart (s.entry i) s.bus.width false ∧ (s.entry i).mark = .none
      ∧ (s.bus.engine = .idle ∧ s.bus.separating = true ∨ s.bus.engine = .yielded) := by
  rcases h.2 i hi hl with h | ⟨hw, hm, hp⟩
  · exact absurd h he
  · exact ⟨hp, hm, hw⟩

/-- The sequence that is due starts: LOCKED. -/
theorem startDueSequence_locked {s : State} {i : Nat} (hc : s.countLaw) (h : s.sequenceLaw) (hx : s.executing = some i)
    (hd : s.sequenceDue i = true) : (startDueSequence s).bus.engine = .locked := by
  obtain ⟨he, hl⟩ := (sequenceDue_iff s i).1 hd
  have hi := executing_state hx
  obtain ⟨hp, _⟩ := plan_of_waiting h hi hl (by simp [he])
  exact startCycle_locked (s := s.withBus { s.bus with separating := false }) (i := i) hx hl hp (total_pos hc hi)

/-- A cycle that starts from IDLE with the clock passed, or in LOCKED, is a locked operation's only in LOCKED. -/
theorem startCycle_sequenceLaw {s : State} (hone : s.oneExecuting)
    (hs : s.bus.engine = .idle ∧ s.bus.separating = false ∨ s.bus.engine = .locked) (h : s.sequenceLaw) :
    (startCycle s).sequenceLaw := by
  by_cases hx : ∃ i, (s.entry i).state = .executing ∧ (s.entry i).op.locked = true
  · obtain ⟨i, hi, hl⟩ := hx
    have he : s.bus.engine = .locked := by
      by_contra hne
      obtain ⟨_, _, hw⟩ := plan_of_waiting h hi hl hne
      rcases hs with ⟨hs, hsep⟩ | hs
      · simp [hs, hsep] at hw
      · exact hne hs
    refine sequenceLaw_of_locked h ?_ fun j _ => startCycle_entry s j
    unfold startCycle
    rw [executing_eq_some hone hi]
    rcases Bus.started_cases s.bus (s.entry i).op.locked with hb | hb
    · simpa [hb] using he
    · simpa [hl] using hb
  · exact sequenceLaw_of_no_locked h (startCycle_entry s) fun j hj => by simpa using fun hl => hx ⟨j, hj, hl⟩

/-- At the end of an execution no entry is EXECUTING any more (R72, R73). -/
theorem endExecution_sequenceLaw {s : State} {i : Nat} (st : Status) (hone : s.oneExecuting)
    (hi : (s.entry i).state = .executing) (h : s.sequenceLaw) : (endExecution i st s).sequenceLaw := by
  have he := endExecution_entry i st s (by simp [hi])
  have ha := afterEnd_state (s.entry i) st
  refine ⟨fun j hj => ?_, fun j hj _ => ?_⟩
  · rw [he] at hj ⊢
    have := h.1 j
    grind
  · rw [he] at hj
    have := hone i j hi
    grind

/-- A claim's mark falls on a locked operation in its sequence, which is started where it is due, or on one that is not
locked (R77, R81). -/
theorem setMark_sequenceLaw {s : State} {i : Nat} (quiet : Bool) (hone : s.oneExecuting) (hc : s.countLaw)
    (hi : (s.entry i).state = .executing) (hy : s.bus.engine = .yielded → (s.entry i).op.locked = false)
    (h : s.sequenceLaw) : (setMark quiet i s).sequenceLaw := by
  have hx := executing_eq_some hone hi
  have he := setMark_entry quiet i s (by simp [hi])
  have hwait : ∀ j, ((setMark quiet i s).entry j).state = .assembling ∨ ((setMark quiet i s).entry j).state = .queued →
      (setMark quiet i s).entry j = s.entry j := fun j hj => by rw [he] at hj ⊢; grind
  cases hd : s.sequenceDue i
  · have hbus : (setMark quiet i s).bus = s.bus := by simp [setMark_of_not_due quiet hd]
    cases hl : (s.entry i).op.locked
    · refine ⟨fun j hj => by have hs := hwait j hj; rw [hs] at hj ⊢; exact h.1 j hj, fun j hj hlj => ?_⟩
      rw [he] at hj hlj
      have hij := hone i j hi
      grind
    · refine sequenceLaw_of_locked h ?_ hwait
      rw [hbus]
      by_contra hne
      rcases (plan_of_waiting h hi hl hne).2.2 with ⟨hidle, _⟩ | hyield
      · simp [State.sequenceDue, hidle, hl] at hd
      · rw [hy hyield] at hl; cases hl
  · refine sequenceLaw_of_locked h ?_ hwait
    rw [setMark, if_pos hd]
    exact startDueSequence_locked hc h hx hd

/-- At the handover the read part of a locked operation is planned, and it starts where no clock is awaited (R80, R98). -/
theorem handOver_sequenceLaw {s : State} {i : Nat} (hc : s.countLaw) (he : s.bus.engine = .idle)
    (hx : s.executing = none) (hi : (s.entry i).state = .queued) (h : s.sequenceLaw) :
    (startSeparated (handOver i s)).sequenceLaw := by
  have hent := handOver_entry i s (by simp [hi])
  have hself : (handOver i s).entry i = { s.entry i with state := .executing, done := 0 } := by rw [hent, if_pos rfl]
  have hnone := executing_none hx
  have honly : ∀ j, ((handOver i s).entry j).state = .executing → j = i := fun j hj => by
    rw [hent] at hj
    have := hnone j
    grind
  have hwait : ∀ j, ((handOver i s).entry j).state = .assembling ∨ ((handOver i s).entry j).state = .queued →
      ((handOver i s).entry j).mark = .none := fun j hj => by
    have := h.1 j
    rw [hent] at hj ⊢
    grind
  refine ⟨fun j hj => ?_, fun j hj hl => ?_⟩
  · rw [startSeparated_entry] at hj ⊢; exact hwait j hj
  · rw [startSeparated_entry] at hj hl ⊢
    obtain rfl := honly j hj
    have hlock : (s.entry j).op.locked = true := by simpa [hself] using hl
    have hplan : (handOver j s).bus.plan = lockedPart ((handOver j s).entry j) (handOver j s).bus.width false := by
      rw [lockedPart_congr (e := s.entry j) (by rw [hself]) (by rw [hself])]
      unfold handOver
      dsimp only
      split <;> simp [planFor, hlock]
    have hexec : (handOver j s).executing = some j :=
      executing_eq_some (fun a b ha hb => (honly a ha).trans (honly b hb).symm) hj
    rw [startSeparated_eq]
    split
    · exact .inr ⟨.inl ⟨by simpa using he, ‹_›⟩, by simp [hself, h.1 j (.inr hi)], hplan⟩
    · refine .inl (startCycle_locked hexec hl hplan ?_)
      rw [hself]
      obtain ⟨_, _, _, _, ht, _⟩ := hc j
      exact (ht (by simp [hi])).1

/-- At the hold release a locked operation that waited starts its sequence, or waits for the clock (R123). -/
theorem endGrant_sequenceLaw {s : State} {i : Nat} (hone : s.oneExecuting) (hc : s.countLaw) (he : s.bus.engine = .yielded)
    (hi : (s.entry i).state = .executing) (hl : (s.entry i).op.locked = true) (h : s.sequenceLaw) :
    (startSeparated (endGrant s)).sequenceLaw := by
  obtain ⟨hp, hm, _⟩ := plan_of_waiting h hi hl (by simp [he])
  rw [startSeparated_eq]
  split
  · refine ⟨h.1, fun j hj _ => ?_⟩
    obtain rfl := hone i j hi hj
    exact .inr ⟨.inl ⟨rfl, ‹_›⟩, hm, hp⟩
  · refine sequenceLaw_of_locked h ?_ fun j _ => startCycle_entry (endGrant s) j
    exact startCycle_locked (s := endGrant s) (executing_eq_some (s := endGrant s) hone hi) hl hp (total_pos hc hi)

/-- The separating clock passes with no sequence due: no locked operation waits in IDLE. -/
theorem separated_sequenceLaw {s : State} (hone : s.oneExecuting) (he : s.bus.engine = .idle)
    (hd : ∀ i, s.executing = some i → s.sequenceDue i = false) (h : s.sequenceLaw) :
    (s.withBus { s.bus with separating := false }).sequenceLaw := by
  refine sequenceLaw_of_no_locked h (fun _ => rfl) fun j hj => ?_
  have := hd j (executing_eq_some hone hj)
  simpa [State.sequenceDue, he] using this

/-- The law of the locked sequences, act by act, where the queues and the counts are lawful. -/
theorem closed_sequenceLaw : Closed (fun s => ((s.oneExecuting ∧ s.queueLaw) ∧ s.countLaw) ∧ s.sequenceLaw) := by
  have c := closed_countLaw
  refine ⟨?acts, fun s hs h => ⟨c.swap s hs h.1, h.2⟩⟩
  constructor
  case setParams =>
    exact fun s p hp h => ⟨c.setParams s p hp h.1, sequenceLaw_of_entries h.2 (by simp) (by simpa using h.2.1) (by simp +contextual)⟩
  case handOver =>
    intro s i rest he hx hr h
    exact ⟨c.handOver s i rest he hx hr h.1,
      handOver_sequenceLaw h.1.2 he hx (head_queued h.1.1.2 hr) h.2⟩
  case grantHold =>
    intro s he h
    refine ⟨c.grantHold s he h.1, h.2.1, fun j hj hl => .inr ?_⟩
    obtain ⟨hp, hm, _⟩ := plan_of_waiting h.2 hj hl (by simp [he])
    exact ⟨.inr rfl, hm, hp⟩
  case endGrant =>
    intro s he hn h
    refine ⟨c.endGrant s he hn h.1, sequenceLaw_of_no_locked h.2 (fun _ => rfl) fun j hj => ?_⟩
    exact hn j (executing_eq_some h.1.1.1 hj)
  case endGrantDue =>
    intro s i he hx hl h
    exact ⟨c.endGrantDue s i he hx hl h.1, endGrant_sequenceLaw h.1.1.1 h.1.2 he (executing_state hx) hl h.2⟩
  case startDue =>
    intro s i hx hd h
    exact ⟨c.startDue s i hx hd h.1, sequenceLaw_of_locked h.2 (startDueSequence_locked h.1.2 h.2 hx hd)
      fun j _ => startDueSequence_entry s j⟩
  case separated => exact fun s he hd h => ⟨c.separated s he hd h.1, separated_sequenceLaw h.1.1.1 he hd h.2⟩
  case startCycle => exact fun s hs h => ⟨c.startCycle s hs h.1, startCycle_sequenceLaw h.1.1.1 hs h.2⟩
  case toIdle =>
    intro s he hc h
    refine ⟨c.toIdle s he hc h.1, sequenceLaw_of_no_locked h.2 (fun _ => rfl) fun j hj => ?_⟩
    by_contra hl
    rcases (plan_of_waiting h.2 hj (by simpa using hl) (by simp [he])).2.2 with ⟨hi, _⟩ | hy
    · simp [he] at hi
    · simp [he] at hy
  case holdFlag => exact fun s x h => ⟨c.holdFlag s x h.1, h.2⟩
  case waitCount => exact fun s n h => ⟨c.waitCount s n h.1, h.2⟩
  case takenBeat =>
    intro s i b x w d hx hb hy h
    have hent : ∀ {β : Type} (g : Entry → β), (∀ e d, g { e with done := d } = g e) → ∀ j,
        g ((takenBeat i b x w d s).entry j) = g (s.entry j) := fun g hg j => takenBeat_entry g hg i b x w d s j
    refine ⟨c.takenBeat s i b x w d hx hb hy h.1, fun j hj => ?_, fun j hj hl => ?_⟩
    · rw [hent Entry.state fun _ _ => rfl] at hj
      rw [hent Entry.mark fun _ _ => rfl]
      exact h.2.1 j hj
    · rw [hent Entry.state fun _ _ => rfl] at hj
      rw [hent Entry.op fun _ _ => rfl] at hl
      by_cases he : s.bus.engine = .locked
      · exact .inl (by simpa using he)
      · rcases (plan_of_waiting h.2 hj hl he).2.2 with ⟨hi, _⟩ | hyield
        · simp [Bus.busy, hi] at hy
        · simp [Bus.busy, hyield] at hy
  case holdOld =>
    intro s i x hi he h
    refine ⟨c.holdOld s i x hi he h.1, sequenceLaw_of_locked h.2 he fun j hj => ?_⟩
    rw [holdOld_entry i x s (by simp [hi])] at hj ⊢
    grind
  case writePart => exact fun s i he h => ⟨c.writePart s i he h.1, sequenceLaw_of_locked h.2 he fun _ _ => rfl⟩
  case endExecution =>
    exact fun s i st hi hst h => ⟨c.endExecution s i st hi hst h.1, endExecution_sequenceLaw st h.1.1.1 hi h.2⟩
  case setMark =>
    exact fun s i quiet hi hy h => ⟨c.setMark s i quiet hi hy h.1, setMark_sequenceLaw quiet h.1.1.1 h.1.2 hi hy h.2⟩
  case claimLent =>
    intro s i quiet hi he hl h
    refine ⟨c.claimLent s i quiet hi he hl h.1, fun j hj => ?_, fun j hj _ => ?_⟩ <;>
      rw [claimLent_entry s i quiet (by simp [hi])] at hj
    · rw [claimLent_entry s i quiet (by simp [hi])]
      have := afterEnd_state { s.entry i with mark := (s.entry i).mark.claim quiet } .aborted
      have := h.2.1 j
      grind
    · have := afterEnd_state { s.entry i with mark := (s.entry i).mark.claim quiet } .aborted
      have := h.1.1.1 i j hi
      grind
  case tearDown =>
    intro s hd hr h
    have := h.2.1
    refine ⟨c.tearDown s hd hr h.1, sequenceLaw_of_entries h.2 ⟨rfl, rfl, rfl, rfl⟩ (fun j => ?_) fun j => ?_⟩ <;>
      rw [tearDownBlocks_entry] <;> grind [Entry.initial]
  case freeAllButExecuting =>
    intro s h
    have := h.2.1
    refine ⟨c.freeAllButExecuting s h.1, sequenceLaw_of_entries h.2 ⟨rfl, rfl, rfl, rfl⟩ (fun j => ?_) fun j => ?_⟩ <;>
      rw [freeAllButExecuting_entry] <;> grind [Entry.initial]
  case softReset =>
    intro s hx h
    exact ⟨c.softReset s hx h.1, fun j hj => by rw [softResetValues_entry]; rfl,
      fun j hj => by rw [softResetValues_entry] at hj; cases hj⟩
  case pinReset =>
    exact fun s h => ⟨c.pinReset s h.1, fun j hj => by rw [pinReset_entry]; rfl,
      fun j hj => by rw [pinReset_entry] at hj; cases hj⟩
  case advanceCounts =>
    intro s h
    have := h.2.1
    refine ⟨c.advanceCounts s h.1, sequenceLaw_of_entries h.2 ⟨rfl, rfl, rfl, rfl⟩ (fun j => ?_) fun j => ?_⟩ <;>
      rw [advanceCounts_entry] <;> simp only [markCounted_state, markCounted_fields]
    · exact this j
    · simp
  case answerUnexecuted =>
    intro s i st hi h
    have hf : (s.entry i).state ≠ .free := by grind
    have := h.2.1
    refine ⟨c.answerUnexecuted s i st hi h.1, sequenceLaw_of_entries h.2 (by simp) (fun j => ?_) fun j => ?_⟩ <;>
      rw [answerUnexecuted_entry i st s hf] <;> grind
  case dropEntry =>
    intro s i hi h
    have := h.2.1
    refine ⟨c.dropEntry s i hi h.1, sequenceLaw_of_entries h.2 (by simp) (fun j => ?_) fun j => ?_⟩ <;>
      rw [dropEntry_entry] <;> grind [Entry.initial]
  case freeReplying =>
    intro s i hi h
    have := h.2.1
    refine ⟨c.freeReplying s i hi h.1, sequenceLaw_of_entries h.2 (by simp) (fun j => ?_) fun j => ?_⟩ <;>
      rw [freeEntry_entry] <;> grind [Entry.initial]
  case allocate =>
    intro s i rest op g window capacity hf hw hb h
    have := h.2.1
    have hm : ∀ bs, (newEntry op g window bs).mark = .none := fun _ => rfl
    have hn := newEntry_not_executing op g window
    refine ⟨c.allocate s i rest op g window capacity hf hw hb h.1, sequenceLaw_of_entries h.2 (by simp) (fun j => ?_)
      fun j => ?_⟩ <;> rw [allocate_entry _ _ _ _ _ _ (entriesIn_free_head hf).1] <;> grind
  case append =>
    intro s i op g capacity hi hn ho hc h
    have := h.2.1
    refine ⟨c.append s i op g capacity hi hn ho hc h.1, sequenceLaw_of_entries h.2 (by simp) (fun j => ?_) fun j => ?_⟩ <;>
      rw [appendSegment_entry i g s (by simp [hi])] <;> grind
  case sendPiece =>
    intro s i capacity hm hp h
    have := h.2.1
    refine ⟨c.sendPiece s i capacity hm hp h.1, sequenceLaw_of_entries h.2 (by simp) (fun j => ?_) fun j => ?_⟩ <;>
      rw [sendPiece_entry i _ s (canProgress_not_free hp)] <;> grind [Entry.initial]
  case freeAllDescriptors => exact fun s h => ⟨c.freeAllDescriptors s h.1, h.2⟩
  case shortReply => exact fun s d rest r hd h => ⟨c.shortReply s d rest r hd h.1, h.2⟩
  case freeDescriptor => exact fun s d r hm hd h => ⟨c.freeDescriptor s d r hm hd h.1, h.2⟩
  all_goals
    intros
    simpa [State.oneExecuting, State.queueLaw, State.descriptor, State.countLaw, State.sequenceLaw] using
      (‹_ ∧ _› : ((State.oneExecuting _ ∧ State.queueLaw _) ∧ State.countLaw _) ∧ State.sequenceLaw _)

/-! ### A claim on a locked operation (R81, R120, R124, R128) -/

theorem claim_eq (m : AbortMark) (quiet : Bool) :
    m.claim quiet = if quiet = true ∨ m = .quiet then .quiet else .reply := by
  cases m <;> cases quiet <;> rfl

/-- The mark of a claim, on the table. -/
theorem modEntry_claim (s : State) (quiet : Bool) (i : Nat) :
    s.modEntry i (fun e => { e with mark := e.mark.claim quiet })
      = { s with table := { s.table with
          entries := s.table.entries.modify i (fun e => { e with
            mark := if quiet = true ∨ e.mark = .quiet then .quiet else .reply }) } } := by
  simp only [State.modEntry, claim_eq]
  rfl

/-- Settles O55: one execution at most, the queues and the locked sequences are closed under the acts, and a claim on a locked
operation comes to what its engine state says. -/
theorem stepKeepsOneExecutionAndTheQueues : Obligations.StepKeepsOneExecutionAndTheQueues := by
  refine ⟨fun s s' hone hlock hs => ?busy, fun s s' hone hqueue hcount hseq hs => ?sequence, fun s quiet i hseq hi hl => ?claim,
    fun s s' hone hqueue hs => ?queues⟩
  case busy => exact ⟨closed_oneExecuting.of_step hs hone, closed_lockLaw.of_step hs hlock⟩
  case sequence => exact (closed_sequenceLaw.of_step hs ⟨⟨⟨hone, hqueue⟩, hcount⟩, hseq⟩).2
  case queues => exact (closed_queueLaw.of_step hs ⟨hone, hqueue⟩).2
  case claim =>
    refine ⟨fun he => ?locked, fun he => ?yielded, fun he hone hcount => ?idle⟩
    case locked => rw [claimExecuting_of_busy quiet i (by simp [Bus.busy, he]), modEntry_claim]
    case yielded =>
      rw [claimExecuting_of_not_busy quiet i (by simp [Bus.busy, he]) (sequenceDue_of_yielded he i), modEntry_claim]
    case idle =>
      obtain ⟨hp, _⟩ := plan_of_waiting hseq hi hl (by simp [he])
      obtain ⟨b, cycles, hcycles, hb, _⟩ :=
        lockedPart_cons (e := s.entry i) (width := s.bus.width) (write := false) (total_pos hcount hi)
      have hd : s.sequenceDue i = true := (sequenceDue_iff s i).2 ⟨he, hl⟩
      have hstart := startDueSequence_of_plan (executing_eq_some hone hi) hl (hp.trans hcycles) rfl
      refine ⟨b, cycles, hp.trans hcycles, hb, ?_⟩
      have hmark : setMark quiet i s = (startDueSequence s).modEntry i (fun e => { e with mark := e.mark.claim quiet }) := by
        rw [setMark, if_pos hd]
      have hbusy : (setMark quiet i s).bus.busy = true := by rw [hmark, hstart]; rfl
      simp only [claimExecuting, hbusy, if_true]
      rw [hmark, modEntry_claim, hstart]
      rfl

end Sys2Proof.Machine
end

section
/-! PROOFS. The step and the resets: the command at the front, one clock on an empty queue (log 3), the values after a pin reset
(R197) and the laws they obey. -/

namespace Sys2Proof.Machine

/-- Settles O1. -/
theorem stepRunsTheFrontCommand : Obligations.StepRunsTheFrontCommand := fun _ _ _ => rfl

/-! ### One clock on an empty queue (log 2, log 3) -/

theorem step_of_empty {s : State} (h : s.pending = []) : step s = .next (clock s) := by simp [step, h]

theorem unlessPinReset_of_released {s : State} (f : State → State) (h : s.pins.reset = false) :
    unlessPinReset f s = f s := by simp [unlessPinReset, h]

theorem unlessPinReset_of_asserted {s : State} (f : State → State) (h : s.pins.reset = true) :
    unlessPinReset f s = s := by simp [unlessPinReset, h]

@[simp] theorem cycleLost_frame (s : State) :
    (cycleLost s).prevIndex = s.prevIndex ∧ (cycleLost s).sched = s.sched ∧ (cycleLost s).descriptors = s.descriptors
      ∧ (cycleLost s).table = s.table ∧ (cycleLost s).windows = s.windows ∧ (cycleLost s).bus = s.bus
      ∧ (cycleLost s).replyQueue = s.replyQueue ∧ (cycleLost s).bridge = s.bridge ∧ (cycleLost s).pins = s.pins
      ∧ (cycleLost s).choices = s.choices ∧ (cycleLost s).pending = s.pending := by
  simp [cycleLost]

@[simp] theorem holdLong_frame (s : State) :
    (holdLong s).ring = s.ring ∧ (holdLong s).prevIndex = s.prevIndex ∧ (holdLong s).sched = s.sched
      ∧ (holdLong s).descriptors = s.descriptors ∧ (holdLong s).table = s.table ∧ (holdLong s).windows = s.windows
      ∧ (holdLong s).replyQueue = s.replyQueue ∧ (holdLong s).bridge = s.bridge ∧ (holdLong s).pins = s.pins
      ∧ (holdLong s).choices = s.choices ∧ (holdLong s).pending = s.pending := by
  simp [holdLong]

/-- Expiring limits and a tick touch the timebase, the hold's flag and the reports alone. -/
@[simp] theorem expireLimits_frame (s : State) :
    (expireLimits s).prevIndex = s.prevIndex ∧ (expireLimits s).sched = s.sched
      ∧ (expireLimits s).descriptors = s.descriptors ∧ (expireLimits s).table = s.table
      ∧ (expireLimits s).windows = s.windows ∧ (expireLimits s).replyQueue = s.replyQueue
      ∧ (expireLimits s).bridge = s.bridge ∧ (expireLimits s).pins = s.pins ∧ (expireLimits s).pending = s.pending := by
  unfold expireLimits
  cases s.cycleLimitExpired <;> cases s.holdLimitExceeded
  · simp [inSomeOrder]
  · simp [inSomeOrder]
  · simp [inSomeOrder]
  · rcases inSomeOrder_two cycleLost holdLong s with h | h <;> simp [h]

@[simp] theorem advanceTimebase_frame (s : State) :
    (advanceTimebase s).prevIndex = s.prevIndex ∧ (advanceTimebase s).sched = s.sched
      ∧ (advanceTimebase s).descriptors = s.descriptors ∧ (advanceTimebase s).table = s.table
      ∧ (advanceTimebase s).windows = s.windows ∧ (advanceTimebase s).bus = s.bus
      ∧ (advanceTimebase s).replyQueue = s.replyQueue ∧ (advanceTimebase s).mgmt = s.mgmt
      ∧ (advanceTimebase s).bridge = s.bridge ∧ (advanceTimebase s).pins = s.pins
      ∧ (advanceTimebase s).choices = s.choices ∧ (advanceTimebase s).pending = s.pending := by
  unfold advanceTimebase countTick
  split <;> simp

@[simp] theorem tick_frame (s : State) :
    (tick s).prevIndex = s.prevIndex ∧ (tick s).sched = s.sched ∧ (tick s).descriptors = s.descriptors
      ∧ (tick s).table = s.table ∧ (tick s).windows = s.windows ∧ (tick s).replyQueue = s.replyQueue
      ∧ (tick s).bridge = s.bridge ∧ (tick s).pins = s.pins ∧ (tick s).pending = s.pending := by
  simp [tick]

theorem clockTimebase_pins (s : State) : (clockTimebase s).pins = s.pins := by
  unfold clockTimebase
  split <;> simp

/-- With the reset pin released the timebase moves, and then the tributary bus. -/
theorem step_of_empty_released {s : State} (h : s.pending = []) (hr : s.pins.reset = false) :
    step s = .next (clockBus (clockTimebase s)) := by
  rw [step_of_empty h, clock, unlessPinReset_of_released _ hr]

/-- The timebase's share of a clock, as a tick or a count of the divider. -/
theorem clockTimebase_eq {s t : State} (hr : s.pins.reset = false)
    (ht : if s.mgmt.params.prescaler.clocks ≤ s.ring.divider + 1 then exec .timebaseTick s = .next t
      else t = { s with ring := { s.ring with divider := s.ring.divider + 1 } }) : clockTimebase s = t := by
  unfold clockTimebase
  split at ht
  · rename_i hd
    rw [if_pos hd]
    have htick : exec .timebaseTick s = .next (tick s) := congrArg _ (unlessPinReset_of_released tick hr)
    rw [htick] at ht
    cases ht
    rfl
  · rename_i hd
    rw [if_neg hd, ht]
    rfl

/-- Settles O3: the timebase's share of the clock, then the bus's share by the engine state. -/
theorem stepOnAnEmptyQueueIsOneClock : Obligations.StepOnAnEmptyQueueIsOneClock := by
  refine fun s t hempty => ⟨fun hreset => ?asserted, fun hreset ht => ?released⟩
  case asserted => rw [step_of_empty hempty, clock, unlessPinReset_of_asserted _ hreset]
  case released =>
    have hclock := clockTimebase_eq hreset ht
    have htr : t.pins.reset = false := by rw [← hclock, clockTimebase_pins, hreset]
    have hstep : step s = .next (clockBus t) := by rw [step_of_empty_released hempty hreset, hclock]
    rw [hstep]
    refine ⟨fun he => ?yielded, fun he => ?idle, fun he hc => ?locked, fun b i he hb hx => ⟨fun hw => ?abandoned, fun hw => ?waits⟩⟩
    case yielded => simp [clockBus, he]
    case idle =>
      have : exec .busCycleStart t = .next (separatingClock t) := congrArg _ (unlessPinReset_of_released _ htr)
      rw [this]
      simp [clockBus, he]
    case locked =>
      have : exec .lockedSequenceNextCycle t = .next (lockedNextCycle t) := congrArg _ (unlessPinReset_of_released _ htr)
      rw [this]
      simp [clockBus, he, hc]
    case abandoned =>
      have hbusy : t.bus.busy = true := by rcases he with he | he <;> simp [Bus.busy, he]
      have hexec : exec .busTimeout t = .next (answerBeat 0 beatTimeout t) := congrArg _ (unlessPinReset_of_released _ htr)
      have hans : answerBeat 0 beatTimeout t = beatTimeout i b t := by simp [answerBeat, hbusy, hb, hx]
      have hsample : sampleWait i b t = beatTimeout i b t := if_pos hw
      rw [hexec, hans, ← hsample]
      rcases he with he | he <;> simp [clockBus, he, hb, hx]
    case waits =>
      have hsample : sampleWait i b t = { t with bus := { t.bus with waitCount := t.bus.waitCount + 1 } } :=
        if_neg (Nat.not_le_of_lt hw)
      rw [← hsample]
      rcases he with he | he <;> simp [clockBus, he, hb, hx]

/-! ### The pin reset (R197) -/

/-- Settles O4: the reset state's items, read off its definition. -/
theorem resetValues : Obligations.ResetValues := by
  refine ⟨⟨rfl, rfl, rfl, rfl, rfl, rfl, rfl, rfl, rfl⟩, rfl, ⟨rfl, rfl, rfl, rfl⟩, rfl, ⟨rfl, ?entries, rfl, rfl⟩, rfl,
    ⟨rfl, rfl, rfl, rfl, rfl, rfl, rfl, rfl⟩, rfl, ⟨rfl, rfl, rfl, rfl, rfl⟩, ?banks, ⟨rfl, rfl⟩, ⟨rfl, rfl, rfl, rfl⟩⟩
  case entries =>
    intro e he
    rw [List.eq_of_mem_replicate he]
    rfl
  case banks => intro name; cases name <;> rfl

/-- With nothing to grant, to go on with or to hand over, the Bus Engine's decision changes nothing (R111). -/
theorem arbitrate_of_nothing {s : State} (hh : s.pins.holdRequest = false) (hx : s.executing = none)
    (hr : s.table.requests = []) : arbitrate s = s := by
  simp [arbitrate, hh, hx, hr]

theorem arbitrate_of_hold {s : State} (he : s.bus.engine = .idle) (hh : s.pins.holdRequest = true) :
    arbitrate s = grantHold s := by
  simp [arbitrate, he, hh]

theorem arbitrate_of_not_idle {s : State} (he : s.bus.engine ≠ .idle) : arbitrate s = s := by
  simp [arbitrate, he]

theorem pinReset_executing (s : State) : (pinReset s).executing = none := by
  have : (pinReset s).entriesIn .executing = [] := by
    rw [List.eq_nil_iff_forall_not_mem]
    intro i hi
    have := mem_entriesIn hi
    rw [pinReset_entry] at this
    cases this
  rw [State.executing, this]
  rfl

theorem exec_pinResetRelease {s : State} (h : s.pins.reset = true) :
    exec .pinResetRelease s = .next (arbitrate { s with pins := { s.pins with reset := false } }) :=
  congrArg _ (if_pos h)

/-- A release at which a hold request is present in IDLE grants it (R121, R132). -/
theorem exec_pinResetRelease_hold {s : State} (h : s.pins.reset = true) (he : s.bus.engine = .idle)
    (hh : s.pins.holdRequest = true) :
    exec .pinResetRelease s = .next (grantHold { s with pins := { s.pins with reset := false } }) :=
  (exec_pinResetRelease h).trans
    (congrArg _ (arbitrate_of_hold (s := { s with pins := { s.pins with reset := false } }) he hh))

theorem exec_pinResetRelease_nothing {s : State} (h : s.pins.reset = true) (hh : s.pins.holdRequest = false)
    (hx : s.executing = none) (hr : s.table.requests = []) :
    exec .pinResetRelease s = .next { s with pins := { s.pins with reset := false } } :=
  (exec_pinResetRelease h).trans
    (congrArg _ (arbitrate_of_nothing (s := { s with pins := { s.pins with reset := false } }) hh hx hr))

/-- Settles O5: the assertion, the time the pin is held, and the release with the Bus Engine's decision after it. -/
theorem pinResetTakesEveryBlockToItsResetValue : Obligations.PinResetTakesEveryBlockToItsResetValue := by
  refine ⟨fun _ => rfl, fun c s hr h1 h2 h3 h4 => ?held, fun s hr => ?holds, fun s t ht => ?after, fun s hr => ?release,
    fun s hr => ?idle⟩
  case held =>
    have hu : ∀ f : State → State, unlessPinReset f s = s := fun f => unlessPinReset_of_asserted f hr
    cases c with
    | pinReset => exact absurd rfl h1
    | pinResetRelease => exact absurd rfl h2
    | holdRequest => exact absurd rfl h3
    | holdRelease => exact absurd rfl h4
    | _ => exact congrArg Host.Outcome.next (hu _)
  case holds => exact ⟨congrArg _ (if_pos hr), congrArg _ (if_pos hr)⟩
  case after =>
    cases ht
    exact ⟨fun hh => exec_pinResetRelease_nothing (s := pinReset s) rfl hh (pinReset_executing s) rfl,
      fun hh => exec_pinResetRelease_hold (s := pinReset s) rfl rfl hh⟩
  case release =>
    exact ⟨exec_pinResetRelease hr, fun he hh => exec_pinResetRelease_hold hr he hh,
      fun _ hh hx hq => exec_pinResetRelease_nothing hr hh hx hq⟩
  case idle => exact congrArg _ (if_neg (by simp [hr]))

/-! ### The laws after a pin reset -/

theorem reset_entry (i : Nat) : State.reset.entry i = Entry.initial := entry_of_entriesInitial rfl i

theorem reportLaw_initial {s : State} (h : s.reports = Reports.initial) : s.reportLaw := by
  intro name
  rw [h]
  cases name <;> exact ⟨Nat.zero_le _, fun r hr => by cases hr⟩

/-- Settles O57: every entry is FREE, and every block has its initial value. -/
theorem resetObeysTheLaws : Obligations.ResetObeysTheLaws := by
  have hfree : ∀ i st, st ≠ .free → (State.reset.entry i).state ≠ st := fun i st h => by
    rw [reset_entry]
    exact fun hst => h hst.symm
  refine ⟨ringLaw_initial rfl rfl, busLaw_initial rfl, (fun h => nomatch h), mgmtLaw_initial rfl, schedLaw_initial rfl,
    windowLaw_initial rfl, reportLaw_initial rfl, rfl, ?one, lockLaw_of_not_busy rfl, ?sequence,
    queueLaw_initial rfl rfl rfl rfl rfl, ?count, ?pair, ?block, inUseLaw_initial rfl rfl⟩
  case one => exact fun i _ hi _ => absurd hi (hfree i _ (by decide))
  case sequence =>
    exact ⟨fun i hi => by rw [reset_entry]; rfl, fun i hi _ => absurd hi (hfree i _ (by decide))⟩
  case count => intro i; rw [reset_entry]; exact Entry.initial_countLaw
  case pair => exact fun i _ hi _ => absurd (by rw [reset_entry]; rfl) hi
  case block => exact ⟨fun i hi => absurd (by rw [reset_entry]; rfl) hi, fun i _ hi _ => absurd (by rw [reset_entry]; rfl) hi⟩

end Sys2Proof.Machine
end

section
/-! PROOFS. Every command answers a next state and leaves the commands that wait as they are: one lemma for each operation, in
the order of the model. -/

namespace Sys2Proof.Machine

theorem inSomeOrder_pending {acts : List (State → State)} (h : ∀ f ∈ acts, ∀ t, (f t).pending = t.pending) (s : State) :
    (inSomeOrder acts s).pending = s.pending :=
  inSomeOrder_keeps (P := fun t => t.pending = s.pending) acts s (fun _ _ h => h) (fun f hf t ht => (h f hf t).trans ht) rfl

/-! ### The shared operations -/

@[simp] theorem softResetIfDue_pending (s : State) : (softResetIfDue s).pending = s.pending := by
  unfold softResetIfDue softResetEffect
  split
  · rfl
  · split
    · dsimp only
      split <;> simp
    · rfl

@[simp] theorem settle_pending (s : State) : (settle s).pending = s.pending := by simp [settle]

@[simp] theorem claimExecuting_pending (quiet : Bool) (i : Nat) (s : State) :
    (claimExecuting quiet i s).pending = s.pending := by
  unfold claimExecuting
  dsimp only
  split <;> simp

@[simp] theorem claimQuiet_pending (s : State) : (claimQuiet s).pending = s.pending := by
  unfold claimQuiet
  split <;> simp

@[simp] theorem abortEntry_pending (quiet : Bool) (s : State) (i : Nat) : (abortEntry quiet s i).pending = s.pending := by
  unfold abortEntry
  split
  · rfl
  · split <;> simp
  · split <;> simp
  · simp
  · simp

@[simp] theorem abortEntries_pending (quiet : Bool) (is : List Nat) (s : State) :
    (abortEntries quiet is s).pending = s.pending :=
  foldl_field State.pending (fun t i => abortEntry_pending quiet t i) is s

@[simp] theorem separatingClock_pending (s : State) : (separatingClock s).pending = s.pending := by
  unfold separatingClock
  split <;> simp

/-! ### The Bus Engine -/

@[simp] theorem lockedNextCycle_pending (s : State) : (lockedNextCycle s).pending = s.pending := by
  unfold lockedNextCycle
  split <;> simp

@[simp] theorem endLockedPart_pending (i : Nat) (s : State) : (endLockedPart i s).pending = s.pending := by
  unfold endLockedPart
  dsimp only
  split
  · simp
  · split <;> simp

@[simp] theorem endCycle_pending (i : Nat) (s : State) : (endCycle i s).pending = s.pending := by
  unfold endCycle
  split
  · split <;> simp
  · split
    · simp
    · split <;> simp
  · rfl
  · rfl

@[simp] theorem takeBeat_pending (i : Nat) (b : Beat) (x : Answer) (w : Width) (d : LaneData) (s : State) :
    (takeBeat i b x w d s).pending = s.pending := by
  unfold takeBeat
  dsimp only
  split <;> simp

@[simp] theorem failBeat_pending (k : ReportKind) (st : Status) (i : Nat) (b : Beat) (s : State) :
    (failBeat k st i b s).pending = s.pending := by
  simp [failBeat]

theorem answerBeat_pending (waits : Nat) {act : Nat → Beat → State → State}
    (h : ∀ i b t, (act i b t).pending = t.pending) (s : State) : (answerBeat waits act s).pending = s.pending := by
  unfold answerBeat
  split
  · split
    · split
      · exact failBeat_pending ..
      · exact h ..
    · rfl
  · rfl

@[simp] theorem holdRelease_pending (s : State) : (holdRelease s).pending = s.pending := by
  unfold holdRelease
  dsimp only
  split <;> simp

/-! ### Bridge Control and the cycle marks -/

@[simp] theorem reportLineLoss_pending (s : State) : (reportLineLoss s).pending = s.pending := by simp [reportLineLoss]

@[simp] theorem markQuiet_pending (s : State) : (markQuiet s).pending = s.pending := by
  unfold markQuiet
  split <;> simp

@[simp] theorem tearDown_pending (s : State) : (tearDown s).pending = s.pending := by
  unfold tearDown
  dsimp only
  rw [settle_pending]
  split
  · simp
  · split
    · simp
    · rw [inSomeOrder_pending]
      · simp
      · simp

@[simp] theorem lineLoss_pending (s : State) : (lineLoss s).pending = s.pending := by
  unfold lineLoss
  split <;> simp

@[simp] theorem lineRestore_pending (s : State) : (lineRestore s).pending = s.pending := by
  unfold lineRestore
  split <;> rfl

@[simp] theorem pinResetRelease_pending (s : State) : (pinResetRelease s).pending = s.pending := by
  unfold pinResetRelease
  split <;> simp

@[simp] theorem expireGaps_pending (s : State) : (expireGaps s).pending = s.pending := by
  refine foldl_field State.pending (fun t i => ?_) _ s
  unfold endIncomplete
  split <;> simp

@[simp] theorem expireReplies_pending (s : State) : (expireReplies s).pending = s.pending := by
  refine foldl_field State.pending (fun t m => ?_) _ s
  unfold abandonExpired
  split
  · rfl
  · split <;> simp

theorem markInSync_pending {ringReport : List (State → State)} (h : ∀ f ∈ ringReport, ∀ t, (f t).pending = t.pending)
    (s : State) : (markInSync ringReport s).pending = s.pending := by
  have hswap : ∀ t, (swapInTime t).pending = t.pending := fun t => by unfold swapInTime; split <;> simp
  unfold markInSync
  dsimp only
  rw [settle_pending, inSomeOrder_pending, hswap]
  · simp [countCycle]
  · intro f hf t
    simp only [markActs, List.mem_append, List.mem_ite_nil_right, List.mem_singleton] at hf
    rcases hf with ((hf | ⟨_, rfl⟩) | ⟨_, rfl⟩) | ⟨_, rfl⟩
    · exact h f hf t
    · simp [swapLate]
    · simp
    · simp

theorem judgeMark_pending (info : Option CycleInfo) (s : State) : (judgeMark info s).pending = s.pending := by
  unfold judgeMark
  split
  · rfl
  · rfl
  · rfl
  · rfl
  · split
    · rw [markInSync_pending (by simp)]; rfl
    · rfl
  · rw [markInSync_pending (by split <;> simp)]; rfl
  · split
    · simp
    · rw [markInSync_pending (by simp)]; rfl

@[simp] theorem cycleMark_pending (record : RawRecord) (s : State) : (cycleMark record s).pending = s.pending := by
  unfold cycleMark
  split
  · rfl
  · rw [judgeMark_pending]; rfl

theorem nextMarkIf_pending (p : List Byte → Bool) (s : State) : (nextMarkIf p s).pending = s.pending := by
  unfold nextMarkIf
  split <;> simp

/-! ### The intake -/

@[simp] theorem reject_pending (index : Byte) (g : Segment) (st : Status) (s : State) :
    (reject index g st s).1.pending = s.pending := by
  unfold reject
  split
  · simp [refuse]
  · dsimp only
    split <;> simp [countTaken]

@[simp] theorem decideIfQueued_pending (i : Nat) (s : State) : (decideIfQueued i s).pending = s.pending := by
  unfold decideIfQueued
  split <;> simp

@[simp] theorem intakeFirst_pending (op : ReqOp) (index : Byte) (capacity : Nat) (g : Segment) (s : State) :
    (intakeFirst op index capacity g s).1.pending = s.pending := by
  unfold intakeFirst
  split
  · simp
  · dsimp only
    split
    · simp [refuse]
    · split <;> simp [refuse]

@[simp] theorem judgeLater_pending (i : Nat) (op : ReqOp) (index : Byte) (capacity : Nat) (g : Segment) (s : State) :
    (judgeLater i op index capacity g s).pending = s.pending := by
  unfold judgeLater
  dsimp only
  split
  · simp [endSequence]
  · split
    · rfl
    · split <;> simp [endSequence]

@[simp] theorem intakeLater_pending (op : ReqOp) (index : Byte) (capacity : Nat) (g : Segment) (s : State) :
    (intakeLater op index capacity g s).1.pending = s.pending := by
  unfold intakeLater
  split <;> simp [countTaken]

@[simp] theorem intakeStep_pending (filter : Option Byte) (a : Arrival) (im : Image) (s : State) :
    (intakeStep filter a im s).1.pending = s.pending := by
  unfold intakeStep
  split
  · dsimp only
    unfold intakeSegment
    split
    · rfl
    · split
      · rfl
      · split
        · simp [refuse]
        · split <;> simp
  · rfl

/-! ### Management -/

@[simp] theorem queueReply_pending (x : MgmtReply) (s : State) : (queueReply x s).pending = s.pending := rfl

@[simp] theorem flushBridge_pending (s : State) : (flushBridge s).pending = s.pending := by simp [flushBridge]

@[simp] theorem stopBridge_pending (s : State) : (stopBridge s).pending = s.pending := by
  unfold stopBridge
  rw [(judgeDrain_frame _).2.2.2.2.2.2.2.2.2.2.2.2.2.2]
  split <;> simp

@[simp] theorem configure_pending (p : Params) (s : State) : (configure p s).pending = s.pending := by
  unfold configure
  split <;> simp

/-- What an operation carries out leaves the commands that wait. -/
theorem judgeOperation_pending (op : MgmtOp) (index : Byte) (capacity : Nat) (r : MgmtRecord) (s t : State) :
    ((judgeOperation op index capacity r s).act t).pending = t.pending := by
  have read : ∀ p q a, ((readVerdict capacity p q a).act t).pending = t.pending := fun p q a => by
    unfold readVerdict
    split <;> rfl
  cases op <;> simp only [judgeOperation]
  case identify =>
    unfold judgeIdentify
    dsimp only
    split
    · rfl
    · exact read _ _ _
  case assign =>
    unfold judgeAssign
    dsimp only
    repeat' split
    all_goals simp [reportDenied]
  case configure =>
    unfold judgeConfigure
    dsimp only
    repeat' split
    all_goals simp
  case schedLoad =>
    unfold judgeSchedLoad
    dsimp only
    repeat' split
    all_goals simp
  case schedRead =>
    unfold judgeSchedRead
    dsimp only
    split
    · rfl
    · split
      · exact read _ _ _
      · rfl
  case schedCommit =>
    unfold judgeSchedCommit
    split <;> simp
  case schedCancel =>
    unfold judgeSchedCancel
    split <;> simp
  case windowLoad =>
    unfold judgeWindowLoad
    dsimp only
    repeat' split
    all_goals simp
  case windowRead =>
    unfold judgeWindowRead
    dsimp only
    split
    · rfl
    · exact read _ _ _
  case start =>
    unfold judgeStart
    split <;> simp
  case stop =>
    unfold judgeStop
    dsimp only
    repeat' split
    all_goals simp
  case abort =>
    unfold judgeAbort
    dsimp only
    split <;> simp
  case status => exact read _ _ _
  case reportRead =>
    unfold judgeReportRead
    split
    · rfl
    · exact read _ _ _
  case reportClear =>
    unfold judgeReportClear
    split <;> simp
  case reset => rfl

@[simp] theorem executeRequest_pending (reach : Reach) (op : MgmtOp) (index : Byte) (capacity : Nat) (r : MgmtRecord)
    (s : State) : (executeRequest reach op index capacity r s).pending = s.pending := by
  have judged : ∀ t, ((judgeRequest reach op index capacity r s).act t).pending = t.pending := fun t => by
    unfold judgeRequest
    split
    · rfl
    · split
      · exact judgeOperation_pending ..
      · split
        · rfl
        · split
          · simp [reportDenied]
          · exact judgeOperation_pending ..
  unfold executeRequest answerRequest
  split
  · simp [startReset]
  · rw [judged]; rfl

@[simp] theorem judgeReached_pending (reach : Reach) (index : Byte) (capacity : Nat) (r : MgmtRecord) (im : Image) (s : State) :
    (judgeReached reach index capacity r im s).1.pending = s.pending := by
  unfold judgeReached
  repeat' split
  all_goals simp [reportBadRequest]

@[simp] theorem managementSlot_pending (length : Nat) (index : Byte) (capacity : Nat) (im : Image) (s : State) :
    (managementSlot length index capacity im s).1.pending = s.pending := by
  unfold managementSlot
  split
  · unfold judgeRecord
    dsimp only
    repeat' split
    all_goals simp [reportReturned]
  · unfold giveRecord
    repeat' split
    all_goals simp
  · rfl
  · rfl

/-! ### Replies and slots -/

@[simp] theorem actOnReturn_pending (index : Byte) (g : Segment) (s : State) :
    (actOnReturn index g s).pending = s.pending := by
  unfold actOnReturn
  split
  · simp [reportUndelivered]
  · split
    · dsimp only
      split
      · simp [reportUndelivered]
      · rw [settle_pending, inSomeOrder_pending]
        · simp
        · simp [reportUndelivered]
    · simp [reportUndelivered]
    · simp [reportUndelivered]
    · simp [reportUndelivered]
    · simp [reportUndelivered]

@[simp] theorem stripStep_pending (index : Byte) (im : Image) (s : State) : (stripStep index im s).1.pending = s.pending := by
  unfold stripStep
  split <;> simp

@[simp] theorem giveMember_pending (length capacity : Nat) (m : Member) (im : Image) (s : State) :
    (giveMember length capacity m im s).1.pending = s.pending := by
  cases m with
  | desc d => unfold giveMember; dsimp only; split <;> simp [giveShort, countGiven]
  | entry i => rw [giveMember_entry]; unfold giveEntry; dsimp only; split <;> simp [countGiven]

@[simp] theorem fillStep_pending (length capacity : Nat) (im : Image) (s : State) :
    (fillStep length capacity im s).1.pending = s.pending := by
  unfold fillStep
  split
  · split <;> simp
  · rfl

@[simp] theorem applyAction_pending (action : Action) (filter : Option Byte) (a : Arrival) (s : State) :
    (applyAction action filter a s).1.pending = s.pending := by
  cases action <;> simp [applyAction, Arrival.fill, Arrival.intake, Arrival.strip]

@[simp] theorem scheduledSlot_pending (a : Arrival) (s : State) : (scheduledSlot a s).1.pending = s.pending := by
  unfold scheduledSlot
  dsimp only
  split
  · exact applyAction_pending ..
  · simp

@[simp] theorem presentSlot_pending (a : Arrival) (s : State) : (presentSlot a s).1.pending = s.pending := by
  unfold presentSlot inSequenceSlot
  dsimp only
  repeat' split
  all_goals simp

@[simp] theorem slotArrival_pending (a : Arrival) (s : State) : (slotArrival a s).pending = s.pending := by
  unfold slotArrival forwardSlot
  repeat' split
  all_goals simp

/-! ### Every command -/

theorem unlessPinReset_pending {f : State → State} (h : ∀ t, (f t).pending = t.pending) (s : State) :
    (unlessPinReset f s).pending = s.pending := by
  unfold unlessPinReset
  split
  · rfl
  · exact h s

/-- Settles O2: every command is an operation that leaves the commands that wait, guarded by the reset pin. -/
theorem everyCommandCompletesAndKeepsTheQueue : Obligations.EveryCommandCompletesAndKeepsTheQueue := by
  intro c s
  have guarded : ∀ {f : State → State}, (∀ t, (f t).pending = t.pending) →
      ∃ t, Host.Outcome.next (unlessPinReset f s) = (.next t : Host.Outcome State Fault Refusal) ∧ t.pending = s.pending :=
    fun h => ⟨_, rfl, unlessPinReset_pending h s⟩
  have arrives : ∀ a : Arrival, ∃ t, arrive a s = .next t ∧ t.pending = s.pending := fun a => guarded (slotArrival_pending a)
  cases c with
  | lineLoss => exact guarded lineLoss_pending
  | lineRestore => exact guarded lineRestore_pending
  | cycleMark record => exact guarded (cycleMark_pending record)
  | cycleLost => exact guarded fun t => by split <;> simp
  | timebaseTick => exact guarded fun t => by simp
  | scheduleSwap => exact guarded fun t => nextMarkIf_pending _ t
  | assemblyGapExpiry => exact guarded fun t => nextMarkIf_pending _ t
  | replyExpired => exact guarded fun t => nextMarkIf_pending _ t
  | softResetTakesEffect => exact guarded fun t => by simp
  | busCycleStart => exact guarded separatingClock_pending
  | beatTaken waits answer width data => exact guarded (answerBeat_pending waits fun _ _ _ => takeBeat_pending ..)
  | busError waits => exact guarded (answerBeat_pending waits fun _ _ _ => failBeat_pending ..)
  | busTimeout => exact guarded (answerBeat_pending 0 fun _ _ _ => failBeat_pending ..)
  | holdRequest => exact ⟨_, rfl, by split <;> simp [holdRequest]⟩
  | holdRelease => exact ⟨_, rfl, by split <;> simp⟩
  | holdLong => exact guarded fun t => by split <;> simp
  | drainComplete => exact guarded fun t => by simp
  | pinReset => exact ⟨_, rfl, rfl⟩
  | pinResetRelease => exact ⟨_, rfl, pinResetRelease_pending s⟩
  | lockedSequenceNextCycle => exact guarded lockedNextCycle_pending
  | _ => exact arrives _

end Sys2Proof.Machine
end

section
/-! PROOFS. The Bus Engine in IDLE (spec/06): what it decides, what starts, and how the hold is served. -/

namespace Sys2Proof.Machine

/-! ### The decision, case by case (R111) -/

/-- The Request Queue without its head, which it lists once. -/
theorem filter_ne_head {i : Nat} {rest : List Nat} (h : i ∉ rest) :
    (i :: rest).filter (fun j => decide (j ≠ i)) = rest := by
  have hrest : ∀ j ∈ rest, decide (j ≠ i) = true := fun j hj => decide_eq_true fun he => h (he ▸ hj)
  rw [List.filter_cons_of_neg (by simp), List.filter_eq_self.2 hrest]

/-- The handover of the head of the Request Queue (R72, R80, R98). -/
theorem handOver_of_head {s : State} {i : Nat} {rest : List Nat} (hr : s.table.requests = i :: rest) (hi : i ∉ rest) :
    handOver i s = { s with
      table := { s.table with
        entries := s.table.entries.modify i (fun e => { e with state := .executing, done := 0 }), requests := rest }
      bus := { s.bus with
        plan := planFor (s.entry i) (s.window (s.entry i).window) (s.window (s.entry i).window).width
        width := (s.window (s.entry i).window).width }
      replyQueue := if (s.entry i).op = .read then s.replyQueue ++ [.entry i] else s.replyQueue } := by
  unfold handOver
  rw [hr, filter_ne_head hi]
  dsimp only
  split <;> rfl

/-- Nothing is handed over with an entry EXECUTING, a soft reset pending or nothing QUEUED (R88, R111). -/
theorem arbitrate_of_none_due {s : State} (hh : s.pins.holdRequest = false) (hx : s.executing = none)
    (h : s.bridge.softReset ≠ none ∨ s.table.requests = []) : arbitrate s = s := by
  rcases h with h | h
  · simp [arbitrate, hh, hx, Option.isSome_iff_ne_none.2 h]
  · exact arbitrate_of_nothing hh hx h

/-- The head of the Request Queue is handed over (R80). -/
theorem arbitrate_of_head {s : State} {i : Nat} {rest : List Nat} (he : s.bus.engine = .idle)
    (hh : s.pins.holdRequest = false) (hx : s.executing = none) (hs : s.bridge.softReset = none)
    (hr : s.table.requests = i :: rest) : arbitrate s = startSeparated (handOver i s) := by
  simp [arbitrate, he, hh, hx, hs, hr]

/-- With an entry EXECUTING and the separating clock passed, its next cycle starts (R111). -/
theorem arbitrate_of_plan {s : State} {i : Nat} {c : BusCycle} {cycles : List BusCycle} {b : Beat} {bs : List Beat}
    (he : s.bus.engine = .idle) (hh : s.pins.holdRequest = false) (hsep : s.bus.separating = false)
    (hx : s.executing = some i) (hp : s.bus.plan = c :: cycles) (hb : c.beats = b :: bs) :
    arbitrate s = s.withBus { s.bus with
      engine := if (s.entry i).op.locked then .locked else .cycle
      plan := cycles, current := some b, rest := bs, lineBurst := c.lineBurst
      burst := c.lineBurst && !bs.isEmpty, waitCount := 0, lock := (s.entry i).op.locked } := by
  rw [arbitrate_of_executing he hx, if_neg (by simp [hh]), startSeparated_eq, if_neg (by simp [hsep]),
    startCycle_of_plan hx hp hb]

/-- With nothing planned nothing starts. -/
theorem startCycle_of_no_plan {s : State} (h : s.bus.plan = []) : startCycle s = s := by
  unfold startCycle Bus.started
  split
  · rfl
  · rw [h]; rfl

/-- The entry that is handed over is the one EXECUTING (R72). -/
theorem handOver_executing {s : State} {i : Nat} (hx : s.executing = none) (hq : (s.entry i).state = .queued) :
    (handOver i s).executing = some i := by
  have he := handOver_entry i s (by simp [hq])
  refine executing_eq_some (fun j k hj hk => ?_) (by simp [he])
  have hself : ∀ l, ((handOver i s).entry l).state = .executing → l = i := fun l hl => by
    rw [he] at hl
    split at hl
    · assumption
    · exact absurd hl (executing_none hx l)
  rw [hself j hj, hself k hk]

/-- The head of the Request Queue is handed over and its first cycle starts (R80, R98, R111). -/
theorem arbitrate_of_head_started {s : State} {i : Nat} {rest : List Nat} {c : BusCycle} {cycles : List BusCycle} {b : Beat}
    {bs : List Beat} (he : s.bus.engine = .idle) (hh : s.pins.holdRequest = false) (hsep : s.bus.separating = false)
    (hx : s.executing = none) (hs : s.bridge.softReset = none) (hr : s.table.requests = i :: rest) (hi : i ∉ rest)
    (hq : (s.entry i).state = .queued)
    (hp : planFor (s.entry i) (s.window (s.entry i).window) (s.window (s.entry i).window).width = c :: cycles)
    (hb : c.beats = b :: bs) :
    arbitrate s = { s with
      table := { s.table with
        entries := s.table.entries.modify i (fun e => { e with state := .executing, done := 0 }), requests := rest }
      bus := { s.bus with
        width := (s.window (s.entry i).window).width
        engine := if (s.entry i).op.locked then .locked else .cycle
        plan := cycles, current := some b, rest := bs, lineBurst := c.lineBurst
        burst := c.lineBurst && !bs.isEmpty, waitCount := 0, lock := (s.entry i).op.locked }
      replyQueue := if (s.entry i).op = .read then s.replyQueue ++ [.entry i] else s.replyQueue } := by
  have hop : ((handOver i s).entry i).op = (s.entry i).op := by simp [handOver_entry i s (by simp [hq])]
  have hplan : (handOver i s).bus.plan = c :: cycles := by rw [handOver_of_head hr hi]; exact hp
  rw [arbitrate_of_head he hh hx hs hr, startSeparated_eq, if_neg (by simp [hsep]),
    startCycle_of_plan (handOver_executing hx hq) hplan hb, hop, handOver_of_head hr hi]
  rfl

/-- Settles O42: the Bus Engine's decision, in the order of its cases. -/
theorem theIdleBusDecides : Obligations.TheIdleBusDecides := by
  intro s
  dsimp only
  refine ⟨arbitrate_of_not_idle, fun he hh => arbitrate_of_hold he hh, fun he hh hsep => ⟨?waits, ?handed⟩,
    fun he hh hsep => ⟨?unplanned, fun i c cycles b bs => arbitrate_of_plan he hh hsep, arbitrate_of_none_due hh, ?started⟩⟩
  case waits =>
    rintro (hx | hs | hr)
    all_goals rw [arbitrate_of_separating he hsep, if_neg (by simp [hh])]
    · exact if_pos (.inl (Option.isSome_iff_ne_none.2 hx))
    · exact if_pos (.inr (Option.isSome_iff_ne_none.2 hs))
    · simp [hr]
  case handed =>
    intro i rest hx hs hr hi _
    rw [arbitrate_of_head he hh hx hs hr, startSeparated_eq, if_pos (by simpa using hsep), handOver_of_head hr hi]
  case unplanned =>
    intro hx hp
    obtain ⟨i, hi⟩ := Option.ne_none_iff_exists'.1 hx
    rw [arbitrate_of_executing he hi, if_neg (by simp [hh]), startSeparated_eq, if_neg (by simp [hsep]),
      startCycle_of_no_plan hp]
  case started => exact fun i rest c cycles b bs hx hs hr hi hq hp hb => arbitrate_of_head_started he hh hsep hx hs hr hi hq hp hb

/-! ### The separating clock (R111, R113) -/

theorem exec_busCycleStart {s : State} (hr : s.pins.reset = false) : exec .busCycleStart s = .next (separatingClock s) :=
  congrArg _ (unlessPinReset_of_released _ hr)

theorem separatingClock_of_idle {s : State} (he : s.bus.engine = .idle) :
    separatingClock s = arbitrate (s.withBus { s.bus with separating := false }) := if_pos he

/-- With an entry EXECUTING and the bridge not DRAINING, what follows an event is the Bus Engine's decision alone. -/
theorem settle_of_executing {s : State} {i : Nat} (hx : s.executing = some i) (hd : s.bridge.state ≠ .draining) :
    settle s = arbitrate s := by
  have hj : judgeDrain s = s := if_neg fun h => hd h.1
  have hs : softResetIfDue s = s := by
    unfold softResetIfDue
    split
    · rfl
    · simp [hx]
  rw [settle, hj, hs]

/-- Settles O43: the separating clock and the Bus Engine's decision at it. -/
theorem cyclesStartFromIdle : Obligations.CyclesStartFromIdle := by
  intro s hr
  refine ⟨fun he => ?idle, fun he => ?other, fun i c cycles b bs he hh hx hp hb => ?next, fun i he hx hd => ⟨?waits, ?held⟩,
    fun he hh => ?granted⟩
  case idle => rw [exec_busCycleStart hr, separatingClock_of_idle he]; rfl
  case other => rw [exec_busCycleStart hr, separatingClock, if_neg he]
  case next =>
    rw [exec_busCycleStart hr, separatingClock_of_idle he]
    exact congrArg _ (arbitrate_of_plan (s := s.withBus { s.bus with separating := false }) he hh rfl hx hp hb)
  case waits =>
    intro hh hsep
    rw [settle_of_executing hx hd, arbitrate_of_separating he hsep]
    simp [hh, hx]
  case held =>
    intro hh
    rw [settle_of_executing hx hd, arbitrate_of_hold he hh]
    rfl
  case granted =>
    rw [exec_busCycleStart hr, separatingClock_of_idle he]
    exact congrArg _ (arbitrate_of_hold (s := s.withBus { s.bus with separating := false }) he hh)

/-! ### The hold (R121 to R123) -/

theorem exec_holdRequest {s : State} (hr : s.pins.reset = false) :
    exec .holdRequest s = .next (arbitrate (s.withPins { s.pins with holdRequest := true })) :=
  congrArg _ (if_neg (by simp [hr]))

theorem exec_holdRelease {s : State} (hr : s.pins.reset = false) : exec .holdRelease s = .next (holdRelease s) :=
  congrArg _ (if_neg (by simp [hr]))

theorem holdRelease_of_yielded {s : State} (he : s.bus.engine = .yielded) :
    holdRelease s = arbitrate (endGrant (s.withPins { s.pins with holdRequest := false })) := by
  simp [holdRelease, he]

theorem holdRelease_of_not_yielded {s : State} (he : s.bus.engine ≠ .yielded) :
    holdRelease s = s.withPins { s.pins with holdRequest := false } := by
  unfold holdRelease
  dsimp only
  split
  · exact absurd ‹_› he
  all_goals rfl

/-- Settles O47: the request and its release, by the engine state. -/
theorem theHoldIsServedFromIdle : Obligations.TheHoldIsServedFromIdle := by
  intro s hr
  refine ⟨fun he => ?granted, fun he => ?asked, fun he => ?ended, fun i c cycles b bs he hsep hx hp hb => ?next, fun he => ?gone⟩
  case granted =>
    rw [exec_holdRequest hr]
    exact congrArg _ (arbitrate_of_hold (s := s.withPins { s.pins with holdRequest := true }) he rfl)
  case asked =>
    rw [exec_holdRequest hr]
    exact congrArg _ (arbitrate_of_not_idle (s := s.withPins { s.pins with holdRequest := true }) he)
  case ended => rw [exec_holdRelease hr, holdRelease_of_yielded he]; rfl
  case next =>
    rw [exec_holdRelease hr, holdRelease_of_yielded he]
    exact congrArg _ (arbitrate_of_plan (s := endGrant (s.withPins { s.pins with holdRequest := false })) rfl rfl hsep hx hp hb)
  case gone => rw [exec_holdRelease hr, holdRelease_of_not_yielded he]; rfl

/-! ### The tributary outputs (R112, R113) -/

theorem grant_of_busLaw {s : State} (h : s.busLaw) (he : s.bus.engine ≠ .yielded) : s.bus.grant = false := by
  obtain ⟨_, hgrant, _⟩ := h
  exact Bool.eq_false_iff.2 fun hg => he (hgrant.1 hg)

theorem lock_of_busLaw {s : State} (h : s.busLaw) (he : s.bus.engine ≠ .locked) : s.bus.lock = false := by
  obtain ⟨hlock, _⟩ := h
  exact Bool.eq_false_iff.2 fun hl => he (hlock.1 hl)

/-- With a beat on the bus, the outputs drive it. -/
theorem busOut_of_beat {s : State} {b : Beat} {i : Nat} (he : s.bus.engine = .cycle ∨ s.bus.engine = .locked)
    (hb : s.bus.current = some b) (hx : s.executing = some i) :
    busOut s = { released := false, cycleStart := true, lock := s.bus.lock, grant := s.bus.grant, burst := s.bus.burst,
                 last := s.bus.rest.isEmpty, beat := some b, data := s.writeData i b } := by
  rcases he with he | he <;> simp [busOut, he, hb, hx]

theorem writeByte_of_not_locked {s : State} {e : Entry} (h : e.op.locked = false) (k : Nat) : s.writeByte e k = s.txByte e k := by
  simp [State.writeByte, h]

theorem writeByte_of_old {s : State} {e : Entry} {old : List Byte} (h : e.op.locked = true) (ho : e.old = some old) (k : Nat) :
    s.writeByte e k = byteAt (s.valueToWrite e old) k := by
  simp [State.writeByte, h, ho]

/-- Settles O50: what is driven, by the engine state. -/
theorem theTributaryOutputsFollowTheEngine : Obligations.TheTributaryOutputsFollowTheEngine := by
  intro s hlaw
  refine ⟨fun he => ?yielded, fun he => ?idle, fun b i he hb hx => ?beat, fun he hb => ?between⟩
  case yielded =>
    obtain ⟨_, hgrant, _⟩ := hlaw
    simp [busOut, he, hgrant.2 he]
  case idle =>
    simp [busOut, he, grant_of_busLaw hlaw, lock_of_busLaw hlaw]
  case beat =>
    have hg : s.bus.grant = false := grant_of_busLaw hlaw (by rcases he with he | he <;> simp [he])
    simp only [busOut_of_beat he hb hx, hg, true_and]
    refine ⟨by simp, hlaw.1, fun hw hl => ?_, fun old hw hl ho => ?_, fun hw => ?_⟩
    · simp [State.writeData, hw, writeByte_of_not_locked hl]
    · simp [State.writeData, hw, writeByte_of_old hl ho]
    · simp [State.writeData, hw]
  case between =>
    have hl : s.bus.lock = true := hlaw.1.2 he
    simp [busOut, he, hb, hl]

end Sys2Proof.Machine
end

section
/-! PROOFS. The Report Unit (spec/08, section 8.4), and what the timebase supervises (spec/01, section 1.8; R125). -/

namespace Sys2Proof.Machine

/-! ### A report (R174 to R176, R179) -/

/-- A report into a disabled bank is counted alone (R174). -/
theorem report_of_disabled {r : Report} {s : State} (h : s.mgmt.params.bankEnables.of r.kind.bank = false) :
    report r s = s.withReports (s.reports.setBank r.kind.bank (s.reports.bank r.kind.bank).counted) := by
  simp [report, h]

/-- A report that finds its record valid is added to it (R176). -/
theorem report_of_valid {r : Report} {s : State} {held : BankRecord}
    (h : s.mgmt.params.bankEnables.of r.kind.bank = true) (hr : (s.reports.bank r.kind.bank).record = some held) :
    report r s = s.withReports (s.reports.setBank r.kind.bank
      { (s.reports.bank r.kind.bank).counted with record := some held.added }) := by
  simp [report, h, Bank.counted, hr]

/-- A report that finds its record empty fills it (R175). -/
theorem report_of_empty {r : Report} {s : State} (h : s.mgmt.params.bankEnables.of r.kind.bank = true)
    (hr : (s.reports.bank r.kind.bank).record = none) :
    report r s = (s.withMgmt (s.mgmt.notice r.kind s.ring.lastCycle).1).withReports (s.reports.setBank r.kind.bank
      { (s.reports.bank r.kind.bank).counted with
        record := some (r.toRecord s.ring.lastCycle (s.mgmt.notice r.kind s.ring.lastCycle).2) }) := by
  simp [report, h, Bank.counted, hr]

/-- No notice is called for where notices are off or there is no manager (R171). -/
theorem Mgmt.notice_of_none {m : Mgmt} {k : ReportKind} (c : Half)
    (h : m.params.noticeEnables.of k.bank = false ∨ m.manager = none) : m.notice k c = (m, false) := by
  unfold Mgmt.notice
  split
  · rename_i hn hm
    simp [hn, hm] at h
  · rfl

/-- A notice is queued where there is room, and is lost where there is none (R171, R179). -/
theorem Mgmt.notice_of_manager {m : Mgmt} {k : ReportKind} {manager : Byte} (c : Half)
    (hn : m.params.noticeEnables.of k.bank = true) (hm : m.manager = some manager) :
    m.notice k c = if m.queue.length < 4 then (m.pushNotice manager k c, false) else (m, true) := by
  unfold Mgmt.notice
  rw [hn, hm]
  rfl

theorem codesAreOfTheTables : ReportKind.codesAreOfTheTables := ⟨rfl, rfl, rfl, rfl, rfl⟩

/-- Settles O53: a report by what it finds in its bank. -/
theorem reportsFillAndAddToRecords : Obligations.ReportsFillAndAddToRecords := by
  refine ⟨fun r s => ?fills, fun r s => ⟨fun held he hr => report_of_valid he hr, fun he => report_of_disabled he⟩,
    codesAreOfTheTables⟩
  case fills =>
    intro name bank filled he hr
    refine ⟨fun h => ?silent, fun manager hn hm => ⟨fun hl => ?queued, fun hl => ?lost⟩⟩
    case silent => rw [report_of_empty he hr, Mgmt.notice_of_none _ h]; rfl
    case queued => rw [report_of_empty he hr, Mgmt.notice_of_manager _ hn hm, if_pos hl]; rfl
    case lost => rw [report_of_empty he hr, Mgmt.notice_of_manager _ hn hm, if_neg (by omega)]; rfl

/-! ### The limits (R19, R125) -/

theorem exec_cycleLost {s : State} (hr : s.pins.reset = false) :
    exec .cycleLost s = .next (if s.cycleLimitExpired then cycleLost s else s) :=
  congrArg _ (unlessPinReset_of_released _ hr)

theorem exec_holdLong {s : State} (hr : s.pins.reset = false) :
    exec .holdLong s = .next (if s.holdLimitExceeded then holdLong s else s) :=
  congrArg _ (unlessPinReset_of_released _ hr)

theorem exec_timebaseTick {s : State} (hr : s.pins.reset = false) : exec .timebaseTick s = .next (tick s) :=
  congrArg _ (unlessPinReset_of_released _ hr)

/-- The effective limit is the configured one, or twice the measured period (R19). -/
theorem effectiveLimit_eq_some {s : State} {limit : Nat}
    (h : s.mgmt.params.cycleLimit ≠ 0 ∧ limit = s.mgmt.params.cycleLimit
      ∨ s.mgmt.params.cycleLimit = 0 ∧ ∃ p, s.ring.period = some p ∧ limit = 2 * p.toNat) :
    s.effectiveLimit = some limit := by
  rcases h with ⟨h0, rfl⟩ | ⟨h0, p, hp, rfl⟩
  · simp [State.effectiveLimit, h0]
  · simp [State.effectiveLimit, h0, hp]

theorem cycleLimitExpired_of_limit {s : State} {c : Word} {limit : Nat} (hs : s.ring.state = .sync)
    (hc : s.ring.captured = some c) (hl : s.effectiveLimit = some limit) :
    s.cycleLimitExpired = decide (limit ≤ (s.ring.timebase - c).toNat) := by
  unfold State.cycleLimitExpired
  rw [hs, hc, hl]
  rfl

/-- Without SYNC, a capture or a limit nothing expires (R19). -/
theorem cycleLimitExpired_eq_false {s : State}
    (h : s.ring.state ≠ .sync ∨ s.ring.captured = none ∨ s.mgmt.params.cycleLimit = 0 ∧ s.ring.period = none) :
    s.cycleLimitExpired = false := by
  unfold State.cycleLimitExpired
  split
  · rename_i hs hc hl
    rcases h with h | h | ⟨h0, hp⟩
    · exact absurd hs h
    · simp [h] at hc
    · simp [State.effectiveLimit, h0, hp] at hl
  · rfl

theorem holdLimitExceeded_of_grant {s : State} {g : Word} (he : s.bus.engine = .yielded) (hg : s.bus.grantTime = some g) :
    s.holdLimitExceeded = true ↔ s.mgmt.params.holdLimit ≠ 0 ∧ s.bus.holdLong = false
      ∧ s.mgmt.params.holdLimit < (s.ring.timebase - g).toNat := by
  unfold State.holdLimitExceeded
  rw [he, hg, Bool.and_eq_true, Bool.and_eq_true, decide_eq_true_iff, decide_eq_true_iff, Bool.not_eq_true', and_assoc]
  rfl

theorem holdLimitExceeded_of_not_yielded {s : State} (he : s.bus.engine ≠ .yielded) : s.holdLimitExceeded = false := by
  unfold State.holdLimitExceeded
  split
  · exact absurd ‹_› he
  · rfl

/-- One act that is carried out or not. -/
theorem inSomeOrder_if (b : Bool) (f : State → State) (s : State) :
    inSomeOrder (if b then [f] else []) s = if b then f s else s := by
  cases b <;> rfl

/-- The limits that run out, where at most one of them does: the order of the two reports is then no matter. -/
theorem expireLimits_of_no_cycle {s : State} (h : s.cycleLimitExpired = false) :
    expireLimits s = if s.holdLimitExceeded then holdLong s else s := by
  unfold expireLimits
  rw [h]
  exact inSomeOrder_if _ _ s

theorem expireLimits_of_no_hold {s : State} (h : s.holdLimitExceeded = false) :
    expireLimits s = if s.cycleLimitExpired then cycleLost s else s := by
  unfold expireLimits
  rw [h, if_neg Bool.false_ne_true, List.append_nil]
  exact inSomeOrder_if _ _ s

theorem expireLimits_of_none {s : State} (hc : s.cycleLimitExpired = false) (hh : s.holdLimitExceeded = false) :
    expireLimits s = s := by
  rw [expireLimits_of_no_hold hh, hc, if_neg Bool.false_ne_true]

/-- The state after the advance of the counter (R16, R127). -/
theorem advanceTimebase_eq (s : State) :
    advanceTimebase s = { s with
      ring := { s.ring with timebase := s.ring.timebase + 1, divider := 0 }
      reports := { s.reports with
        counters := match s.bus.engine with
          | .idle => s.reports.counters
          | .cycle | .locked => { s.reports.counters with busyTicks := s.reports.counters.busyTicks + 1 }
          | .yielded => { s.reports.counters with holdTicks := s.reports.counters.holdTicks + 1 } } } := by
  unfold advanceTimebase countTick
  rw [withRing_bus]
  cases s.bus.engine <;> rfl

/-- Settles O11: the two limits, and a tick by the limits that its new value reaches. -/
theorem limitsExpireAndTicksCount : Obligations.LimitsExpireAndTicksCount := by
  refine ⟨fun s hr => ⟨fun c limit hs hc hl => ?lost, fun h => ?unlimited, fun g he hg => ?long, fun he => ?unlent⟩,
    fun s hr => ?tick⟩
  case lost =>
    rw [exec_cycleLost hr, cycleLimitExpired_of_limit hs hc (effectiveLimit_eq_some hl)]
    simp only [decide_eq_true_iff]
    rfl
  case unlimited => rw [exec_cycleLost hr, cycleLimitExpired_eq_false h]; rfl
  case long =>
    rw [exec_holdLong hr]
    simp only [holdLimitExceeded_of_grant he hg]
    rfl
  case unlent => rw [exec_holdLong hr, holdLimitExceeded_of_not_yielded he]; rfl
  case tick =>
    intro c u
    have hu : exec .timebaseTick s = .next (expireLimits u) :=
      (exec_timebaseTick hr).trans (congrArg (fun t => Host.Outcome.next (expireLimits t)) (advanceTimebase_eq s))
    have hur : u.pins.reset = false := hr
    refine ⟨fun hc hh => ?_, fun hc => ?_, fun hh => ?_⟩
    · rw [hu, expireLimits_of_none hc hh]
    · rw [hu, expireLimits_of_no_cycle hc, exec_holdLong hur]
    · rw [hu, expireLimits_of_no_hold hh, exec_cycleLost hur]

end Sys2Proof.Machine
end

section
/-! PROOFS. Bridge Control's judgements after an event (spec/10), the soft reset's values, and the end of an execution
(spec/04, R73). -/

namespace Sys2Proof.Machine

/-! ### The drain (R191) -/

theorem indexesOf_isEmpty {α : Type} (p : α → Bool) (l : List α) : (indexesOf p l).isEmpty = true ↔ ∀ a ∈ l, p a = false := by
  rw [List.isEmpty_iff, List.eq_nil_iff_forall_not_mem]
  simp only [mem_indexesOf, not_exists, not_and, Bool.not_eq_true]
  constructor
  · intro h a ha
    obtain ⟨i, hi⟩ := List.getElem?_of_mem ha
    exact h i a hi
  · exact fun h i a ha => h a (List.mem_of_getElem? ha)

/-- The drain completion condition (R191). -/
theorem drained_iff (s : State) : s.drained = true ↔
    (∀ e ∈ s.table.entries, e.state = .free) ∧ (s.bridge.flush = true ∨ ∀ d ∈ s.descriptors, d = none) := by
  unfold State.drained State.openEntries State.pendingDescriptors
  rw [Bool.and_eq_true, Bool.or_eq_true, indexesOf_isEmpty, indexesOf_isEmpty]
  simp

theorem judgeDrain_of_drained {s : State} (hd : s.bridge.state = .draining)
    (h : (∀ e ∈ s.table.entries, e.state = .free) ∧ (s.bridge.flush = true ∨ ∀ d ∈ s.descriptors, d = none)) :
    judgeDrain s = s.withBridge { s.bridge with state := .stopped, flush := false } :=
  if_pos ⟨hd, (drained_iff s).2 h⟩

theorem judgeDrain_of_not_drained {s : State} (h : s.bridge.state ≠ .draining
      ∨ ¬((∀ e ∈ s.table.entries, e.state = .free) ∧ (s.bridge.flush = true ∨ ∀ d ∈ s.descriptors, d = none))) :
    judgeDrain s = s :=
  if_neg fun hd => h.elim (fun h => h hd.1) (fun h => h ((drained_iff s).1 hd.2))

/-! ### The soft reset that waits (R88, R195, R196) -/

theorem softResetIfDue_of_executing {s : State} (h : s.executing ≠ none) : softResetIfDue s = s := by
  unfold softResetIfDue
  split
  · rfl
  · exact if_neg (by simpa using h)

theorem softResetIfDue_of_none {s : State} (h : s.bridge.softReset = none) : softResetIfDue s = s := by
  simp [softResetIfDue, h]

theorem softResetIfDue_of_due {s : State} {source tag : Byte} (h : s.bridge.softReset = some (source, tag))
    (hx : s.executing = none) : softResetIfDue s = softResetEffect source tag s := by
  simp [softResetIfDue, h, hx]

theorem exec_softResetTakesEffect {s : State} (hr : s.pins.reset = false) :
    exec .softResetTakesEffect s = .next (arbitrate (softResetIfDue s)) :=
  congrArg _ (unlessPinReset_of_released _ hr)

theorem exec_drainComplete {s : State} (hr : s.pins.reset = false) : exec .drainComplete s = .next (judgeDrain s) :=
  congrArg _ (unlessPinReset_of_released _ hr)

/-- With an entry EXECUTING and the separating clock to come nothing starts (R113). -/
theorem arbitrate_of_waiting {s : State} (hx : s.executing ≠ none) (hh : s.pins.holdRequest = false)
    (hsep : s.bus.separating = true) : arbitrate s = s := by
  by_cases he : s.bus.engine = .idle
  · rw [arbitrate_of_separating he hsep, if_neg (by simp [hh]), if_pos (.inl (Option.isSome_iff_ne_none.2 hx))]
  · exact arbitrate_of_not_idle he

/-- Settles O51: the two judgements on their own, and the two together. -/
theorem drainsAndSoftResetsComplete : Obligations.DrainsAndSoftResetsComplete := by
  intro s closed stopped
  refine ⟨fun hr => ⟨fun hd hc => ?drained, fun h => ?open_, fun hx => ?executing, fun hx hh hsep => ?waiting,
    fun hs _ => ?none_, fun source tag hs hx => ?due⟩, fun t hr ht => ?both⟩
  case drained => rw [exec_drainComplete hr, judgeDrain_of_drained hd hc]; rfl
  case open_ => rw [exec_drainComplete hr, judgeDrain_of_not_drained h]
  case executing => rw [exec_softResetTakesEffect hr, softResetIfDue_of_executing hx]
  case waiting => rw [exec_softResetTakesEffect hr, softResetIfDue_of_executing hx, arbitrate_of_waiting hx hh hsep]
  case none_ => rw [exec_softResetTakesEffect hr, softResetIfDue_of_none hs]
  case due => rw [exec_softResetTakesEffect hr, softResetIfDue_of_due hs hx]
  case both =>
    rw [exec_drainComplete hr] at ht
    cases ht
    rw [exec_softResetTakesEffect (by simpa using hr)]
    rfl

/-! ### The values after a soft reset (R196) -/

/-- With the limit that the reset leaves not run out, a soft reset is its values and its report (R196). -/
theorem softResetEffect_eq {s : State} (source tag : Byte) (h : (softResetValues s).cycleLimitExpired = false) :
    softResetEffect source tag s
      = report { kind := .softReset, node := some source, tag := some tag } (softResetValues s) := by
  have ht : (report { kind := .softReset, node := some source, tag := some tag } (softResetValues s)).cycleLimitExpired
      = (softResetValues s).cycleLimitExpired := by
    simp [State.cycleLimitExpired, State.effectiveLimit]
  unfold softResetEffect
  dsimp only
  rw [ht, h]
  rfl

theorem RingPort.softReset_eq (r : RingPort) (p : Prescaler) :
    r.softReset (decide (p ≠ .p8))
      = if p ≠ .p8 then { r with divider := 0, captured := none, period := none } else { r with divider := 0 } := by
  unfold RingPort.softReset
  by_cases h : p ≠ .p8 <;> simp [h, RingPort.prescalerChanged]

theorem RingPort.softReset_timebase (r : RingPort) (changed : Bool) : (r.softReset changed).timebase = r.timebase := by
  cases changed <;> rfl

/-- After a soft reset the cycle limit is twice the period that it keeps. -/
theorem softResetValues_limit (s : State)
    (h : ∀ c p, (softResetValues s).ring.state = .sync → (softResetValues s).ring.captured = some c →
      (softResetValues s).ring.period = some p → (s.ring.timebase - c).toNat < 2 * p.toNat) :
    (softResetValues s).cycleLimitExpired = false := by
  have htime : (softResetValues s).ring.timebase = s.ring.timebase := RingPort.softReset_timebase _ _
  unfold State.cycleLimitExpired State.effectiveLimit
  rw [show (softResetValues s).mgmt.params.cycleLimit = 0 from rfl, if_neg (by simp)]
  split
  · rename_i c limit hs hc hl
    obtain ⟨p, hp, rfl⟩ := Option.map_eq_some_iff.1 hl
    exact decide_eq_false (by have := h c p hs hc hp; unfold spanFrom; rw [htime]; omega)
  · rfl

theorem Bus.softReset_of_not_yielded {b : Bus} (changed : Bool) (now : Word) (h : b.engine ≠ .yielded) :
    b.softReset changed now = { Bus.initial with separating := b.separating } := by
  unfold Bus.softReset
  split
  · exact absurd ‹_› h
  all_goals rfl

theorem Bus.softReset_of_yielded {b : Bus} (changed : Bool) (now : Word) (h : b.engine = .yielded) :
    b.softReset changed now = { Bus.initial with
      engine := .yielded, grant := b.grant
      grantTime := if changed then b.grantTime.map (fun _ => now) else b.grantTime
      holdLong := b.holdLong, separating := b.separating } := by
  unfold Bus.softReset Bus.cleared Bus.busy
  rw [h]
  cases changed <;> simp [Bus.prescalerChanged]

/-- Settles O52: the soft reset's values, block by block. -/
theorem softResetKeepsTheNodeAndTheBanks : Obligations.SoftResetKeepsTheNodeAndTheBanks := by
  intro s source tag changed ring hlimit
  have hring : (softResetValues s).ring = ring := RingPort.softReset_eq _ _
  refine ⟨softResetValues s, softResetEffect_eq source tag (softResetValues_limit s (hring ▸ hlimit)), hring, rfl, rfl, rfl,
    rfl, rfl, rfl, rfl, rfl, fun he => ?bus, fun he => ?lent, rfl, rfl, rfl, rfl, rfl⟩
  case bus => exact Bus.softReset_of_not_yielded _ _ he
  case lent =>
    have hb : (softResetValues s).bus = _ := Bus.softReset_of_yielded (decide changed) s.ring.timebase he
    rw [hb]
    exact ⟨rfl, rfl, rfl, rfl, rfl, rfl, by simp⟩

/-! ### The end of an execution (R73) -/

theorem Bus.cleared_engine (b : Bus) : b.cleared.engine = if b.engine = .yielded then .yielded else .idle := by
  unfold Bus.cleared
  cases b.engine <;> rfl

theorem Bus.busy_eq (b : Bus) : b.busy = decide (b.engine = .cycle ∨ b.engine = .locked) := by
  simp [Bus.busy]

/-- A report looks at the banks, the Management Unit and the last cycle number alone. -/
theorem report_congr {s t : State} (k : Report) (hm : s.mgmt = t.mgmt) (hr : s.reports = t.reports) (hl : s.ring = t.ring) :
    (report k s).mgmt = (report k t).mgmt ∧ (report k s).reports = (report k t).reports := by
  unfold report
  rw [hm, hr, hl]
  dsimp only
  split
  · split
    · exact ⟨rfl, rfl⟩
    · exact ⟨hm, rfl⟩
  · exact ⟨hm, rfl⟩

/-- The reports with one execution more, and the record of it (R73, R184). -/
def State.executed (s : State) (e : Entry) (st : Status) : Reports :=
  { s.reports with
    counters := { s.reports.counters with executed := s.reports.counters.executed + 1 }
    lastTx := some (e.lastTx st s.ring.lastCycle) }

/-- The end of an execution records it, and reports it where R128 and R148 call for that. -/
theorem endExecution_reports (i : Nat) (st : Status) (s : State) :
    (endExecution i st s).mgmt = (reportEnd (s.entry i) st { s with reports := s.executed (s.entry i) st }).mgmt
      ∧ (endExecution i st s).reports = (reportEnd (s.entry i) st { s with reports := s.executed (s.entry i) st }).reports := by
  unfold endExecution
  dsimp only
  simp only [leaveExecuting_frame]
  unfold reportEnd
  split
  · exact report_congr _ rfl rfl rfl
  · split
    · exact report_congr _ rfl rfl rfl
    · exact ⟨rfl, rfl⟩

/-- Settles O49: the end of an execution, block by block. -/
theorem executionsEndAsTheirOperationRequires : Obligations.ExecutionsEndAsTheirOperationRequires := by
  intro s i status hi
  dsimp only
  have hopen : (s.entry i).state ≠ .free := by simp [hi]
  have hentry := endExecution_entry i status s hopen
  have hbus : (endExecution i status s).bus = s.bus.cleared := by simp
  have hreports := endExecution_reports i status s
  refine ⟨?plan, ?current, ?lock, ?grant, ?engine, ?separating, endExecution_windows i status s, fun j hj => ?others, ?reports,
    fun h => ⟨?freed, ?freedOrder, ?freedQueue⟩, fun hm ho => ⟨?kept, ?keptOrder, ?keptQueue⟩⟩
  case plan => rw [hbus]; rfl
  case current => rw [hbus]; rfl
  case lock => rw [hbus]; rfl
  case grant => rw [hbus]; rfl
  case engine => rw [hbus, Bus.cleared_engine]
  case separating => rw [hbus, ← Bus.busy_eq]; rfl
  case others => rw [hentry, if_neg hj]
  case reports =>
    rw [hreports.1, hreports.2]
    unfold reportEnd
    by_cases hm : (s.entry i).mark ≠ .none
    · rw [if_pos hm, if_pos hm]; rfl
    · rw [if_neg hm, if_neg hm]
      by_cases hq : (s.entry i).op = .writeQuiet ∧ (status = .busError ∨ status = .busTimeout)
      · rw [if_pos hq, if_pos hq]; rfl
      · rw [if_neg hq, if_neg hq]; rfl
  case freed => rw [hentry, if_pos rfl, Entry.afterEnd, if_pos h]; rfl
  case freedOrder => rw [endExecution_order, if_pos h]
  case freedQueue => rw [endExecution_replyQueue, if_pos h]
  all_goals have hn : ¬((s.entry i).mark = .quiet ∨ (s.entry i).op = .writeQuiet) := fun h => h.elim hm ho
  case kept => rw [hentry, if_pos rfl, Entry.afterEnd, if_neg hn]; rfl
  case keptOrder => rw [endExecution_order, if_neg hn]
  case keptQueue => rw [endExecution_replyQueue, if_neg hn]

end Sys2Proof.Machine
end

section
/-! PROOFS. The beats on the tributary bus (spec/06): the answers of the target, what a beat that is taken leaves, and the end
of its cycle. -/

namespace Sys2Proof.Machine

/-! ### The answer to a beat (R112, R114) -/

theorem busy_of_engine {b : Bus} (he : b.engine = .cycle ∨ b.engine = .locked) : b.busy = true := by
  rw [Bus.busy_eq]
  exact decide_eq_true he

theorem answerBeat_of_beat {s : State} {b : Beat} {i : Nat} (waits : Nat) (act : Nat → Beat → State → State)
    (he : s.bus.engine = .cycle ∨ s.bus.engine = .locked) (hb : s.bus.current = some b) (hx : s.executing = some i) :
    answerBeat waits act s = if s.budgetOf i ≤ s.bus.waitCount + waits then beatTimeout i b s else act i b s := by
  unfold answerBeat
  rw [if_pos (busy_of_engine he), hb, hx]

/-- The answer comes within the wait budget (R114). -/
theorem answerBeat_in_time {s : State} {b : Beat} {i waits : Nat} (act : Nat → Beat → State → State)
    (he : s.bus.engine = .cycle ∨ s.bus.engine = .locked) (hb : s.bus.current = some b) (hx : s.executing = some i)
    (hw : s.bus.waitCount + waits < (s.window (s.entry i).window).budget.toNat) : answerBeat waits act s = act i b s := by
  rw [answerBeat_of_beat waits act he hb hx]
  exact if_neg (Nat.not_le.2 hw)

/-- The wait budget runs out before the answer (R114, R116). -/
theorem answerBeat_late {s : State} {b : Beat} {i waits : Nat} (act : Nat → Beat → State → State)
    (he : s.bus.engine = .cycle ∨ s.bus.engine = .locked) (hb : s.bus.current = some b) (hx : s.executing = some i)
    (hw : (s.window (s.entry i).window).budget.toNat ≤ s.bus.waitCount + waits) :
    answerBeat waits act s = beatTimeout i b s := by
  rw [answerBeat_of_beat waits act he hb hx]
  exact if_pos hw

/-- Where no beat is on the bus no answer is sampled (R112). -/
theorem answerBeat_of_none {s : State} (waits : Nat) (act : Nat → Beat → State → State)
    (h : s.bus.engine = .idle ∨ s.bus.engine = .yielded ∨ s.bus.current = none) : answerBeat waits act s = s := by
  unfold answerBeat Bus.busy
  rcases h with h | h | h <;> simp [h]

theorem beatTimeout_eq_answerBeat {s : State} {b : Beat} {i : Nat}
    (he : s.bus.engine = .cycle ∨ s.bus.engine = .locked) (hb : s.bus.current = some b) (hx : s.executing = some i) :
    answerBeat 0 beatTimeout s = beatTimeout i b s := by
  rw [answerBeat_of_beat 0 beatTimeout he hb hx, ite_self]

theorem exec_busTimeout {s : State} (hr : s.pins.reset = false) :
    exec .busTimeout s = .next (answerBeat 0 beatTimeout s) := congrArg _ (unlessPinReset_of_released _ hr)

theorem exec_busError {s : State} (waits : Nat) (hr : s.pins.reset = false) :
    exec (.busError waits) s = .next (answerBeat waits beatError s) := congrArg _ (unlessPinReset_of_released _ hr)

theorem exec_beatTaken {s : State} (waits : Nat) (answer : Answer) (width : Width) (data : LaneData)
    (hr : s.pins.reset = false) :
    exec (.beatTaken waits answer width data) s
      = .next (answerBeat waits (fun i b => takeBeat i b answer width data) s) :=
  congrArg _ (unlessPinReset_of_released _ hr)

/-- Settles O46: a beat that fails, and an answer that nothing samples. -/
theorem failedBeatsEndTheExecution : Obligations.FailedBeatsEndTheExecution := by
  intro s hr
  refine ⟨fun b i waits he hb hx => ⟨?timeout, fun hw => ?error, fun hw => ⟨?lateError, fun answer width data => ?lateBeat⟩⟩,
    fun h => ⟨?noTimeout, fun waits => ⟨?noError, fun answer width data => ?noBeat⟩⟩⟩
  case timeout => rw [exec_busTimeout hr, beatTimeout_eq_answerBeat he hb hx]; rfl
  case error => rw [exec_busError waits hr, answerBeat_in_time _ he hb hx hw]; rfl
  case lateError =>
    rw [exec_busError waits hr, exec_busTimeout hr, answerBeat_late _ he hb hx hw, beatTimeout_eq_answerBeat he hb hx]
  case lateBeat =>
    rw [exec_beatTaken _ _ _ _ hr, exec_busTimeout hr, answerBeat_late _ he hb hx hw, beatTimeout_eq_answerBeat he hb hx]
  case noTimeout => rw [exec_busTimeout hr, answerBeat_of_none _ _ h]
  case noError => rw [exec_busError waits hr, answerBeat_of_none _ _ h]
  case noBeat => rw [exec_beatTaken _ _ _ _ hr, answerBeat_of_none _ _ h]

/-! ### What a beat that is taken leaves (R105 to R107) -/

/-- The state with a beat counted, its data placed and done advanced; the Bus Engine as it was (R107, R115). -/
def State.beatPlaced (s : State) (i : Nat) (b : Beat) (lanes : List Nat) (data : LaneData) : State :=
  advanceDone i (b.positions (s.entry i) lanes) (placeRead (s.entry i) b lanes data (countBeat s))

theorem placeRead_bus (e : Entry) (b : Beat) (lanes : List Nat) (data : LaneData) (s : State) :
    (placeRead e b lanes data s).bus = s.bus := by
  unfold placeRead
  split <;> rfl

theorem beatPlaced_bus (s : State) (i : Nat) (b : Beat) (lanes : List Nat) (data : LaneData) :
    (s.beatPlaced i b lanes data).bus = s.bus := by
  unfold State.beatPlaced advanceDone
  rw [modEntry_bus, placeRead_bus]
  rfl

theorem takenBeat_eq (i : Nat) (b : Beat) (answer : Answer) (accepted : Width) (data : LaneData) (s : State) :
    takenBeat i b answer accepted data s
      = (s.beatPlaced i b (b.takenLanes accepted) data).withBus (s.bus.afterBeat b answer accepted) := by
  rw [← beatPlaced_bus s i b (b.takenLanes accepted) data]
  rfl

/-- The mark of an entry is none of a beat's concern. -/
theorem takenBeat_mark (i : Nat) (b : Beat) (answer : Answer) (accepted : Width) (data : LaneData) (s : State) (j : Nat) :
    ((takenBeat i b answer accepted data s).entry j).mark = (s.entry j).mark :=
  takenBeat_entry Entry.mark (fun _ _ => rfl) i b answer accepted data s j

/-- A beat whose width is not above the accepted one is taken whole (R105). -/
theorem takenLanes_of_le {b : Beat} {accepted : Width} (h : b.width.bytes ≤ accepted.bytes) : b.takenLanes accepted = b.lanes :=
  if_pos h

theorem regroup_eq (lineBurst : Bool) (beats : List Beat) :
    regroup lineBurst beats = if beats = [] then [] else
      if lineBurst then [{ lineBurst := true, beats := beats }] else beats.map (fun x => { lineBurst := false, beats := [x] }) := by
  unfold regroup
  simp only [List.isEmpty_iff]
  rfl

/-- The cycle goes on: BURST-READY on a beat not marked last, with beats left (R115). -/
theorem afterBeat_goesOn {bus : Bus} {b next : Beat} {others : List Beat} {accepted : Width} (hrest : bus.rest ≠ [])
    (hleft : bus.beatsLeft b accepted = next :: others) :
    bus.afterBeat b .burstReady accepted = { bus with
      current := some next, rest := others, waitCount := 0
      plan := if accepted.bytes < b.width.bytes then replanCycles accepted bus.plan else bus.plan
      width := if accepted.bytes < b.width.bytes then accepted else bus.width } := by
  obtain ⟨r, rs, hr⟩ := List.exists_cons_of_ne_nil hrest
  unfold Bus.afterBeat
  rw [hleft]
  simp only [hr, decide_eq_true_eq]

/-- The cycle ends: READY, or a beat marked last (R115). -/
theorem afterBeat_ends {bus : Bus} {answer : Answer} (b : Beat) (accepted : Width) (h : answer = .ready ∨ bus.rest = []) :
    bus.afterBeat b answer accepted = { bus with
      current := none, rest := [], waitCount := 0, lineBurst := false, burst := false
      plan := regroup bus.lineBurst (bus.beatsLeft b accepted)
        ++ if accepted.bytes < b.width.bytes then replanCycles accepted bus.plan else bus.plan
      width := if accepted.bytes < b.width.bytes then accepted else bus.width } := by
  unfold Bus.afterBeat
  dsimp only
  split
  · rename_i ha hrest _
    rcases h with h | h
    · cases h
    · simp [hrest] at h
  · simp only [decide_eq_true_eq]

theorem takeBeat_goesOn {i : Nat} {b next : Beat} {others : List Beat} {answer : Answer} {accepted : Width} {s : State}
    (data : LaneData) (ha : answer = .burstReady) (hrest : s.bus.rest ≠ [])
    (hleft : s.bus.beatsLeft b accepted = next :: others) :
    takeBeat i b answer accepted data s = takenBeat i b answer accepted data s := by
  unfold takeBeat
  refine if_neg ?_
  subst ha
  rw [takenBeat_eq, withBus_bus, afterBeat_goesOn hrest hleft]
  simp

theorem takeBeat_ends {i : Nat} {answer : Answer} {s : State} (b : Beat) (accepted : Width) (data : LaneData)
    (h : answer = .ready ∨ s.bus.rest = []) :
    takeBeat i b answer accepted data s = endCycle i (takenBeat i b answer accepted data s) := by
  unfold takeBeat
  refine if_pos ?_
  rw [takenBeat_eq, withBus_bus, afterBeat_ends b accepted h]
  rfl

/-! ### The end of a cycle that is not locked (R115, R119, R128) -/

theorem endCycle_of_marked {i : Nat} {s : State} (he : s.bus.engine = .cycle) (hm : (s.entry i).mark ≠ .none) :
    endCycle i s = settle (endExecution i .aborted s) := by
  simp [endCycle, he, hm]

theorem endCycle_of_done {i : Nat} {s : State} (he : s.bus.engine = .cycle) (hm : (s.entry i).mark = .none)
    (hp : s.bus.plan = []) : endCycle i s = settle (endExecution i .done s) := by
  simp [endCycle, he, hm, hp]

theorem endCycle_of_planned {i : Nat} {s : State} (he : s.bus.engine = .cycle) (hm : (s.entry i).mark = .none)
    (hp : s.bus.plan ≠ []) : endCycle i s = settle (toIdle s) := by
  simp [endCycle, he, hm, hp]

/-- The three ends of a cycle, for a state in CYCLE that is `t` with another Bus Engine. -/
theorem endCycle_cases {i : Nat} {t : State} {mark : AbortMark} (he : t.bus.engine = .cycle) (hm : (t.entry i).mark = mark) :
    (mark ≠ .none → endCycle i t = settle (endExecution i .aborted t))
      ∧ (mark = .none → t.bus.plan = [] → endCycle i t = settle (endExecution i .done t))
      ∧ (mark = .none → t.bus.plan ≠ [] →
          endCycle i t = settle { t with bus := { t.bus with engine := .idle, separating := true } }) := by
  subst hm
  exact ⟨endCycle_of_marked he, endCycle_of_done he, endCycle_of_planned he⟩

/-- Settles O44: a beat taken whole leaves the beats after it as they are planned. -/
theorem wholeBeatsAreTaken : Obligations.WholeBeatsAreTaken := by
  intro s i waits b answer width data hr he hb hx hw hwidth e t left ended
  have hn : ¬width.bytes < b.width.bytes := Nat.not_lt.2 hwidth
  have hbeats : s.bus.beatsLeft b width = s.bus.rest := if_neg hn
  have hplaced : s.beatPlaced i b (b.takenLanes width) data = t := by rw [takenLanes_of_le hwidth]; rfl
  have htbus : t.bus = s.bus := beatPlaced_bus s i b b.lanes data
  have htake : exec (.beatTaken waits answer width data) s = .next (takeBeat i b answer width data s) := by
    rw [exec_beatTaken _ _ _ _ hr, answerBeat_in_time _ (.inl he) hb hx hw]
  refine ⟨fun next others ha hrest => ?goesOn, fun ha => ?ends⟩
  case goesOn =>
    have hrest' : s.bus.rest ≠ [] := by simp [hrest]
    have hleft : s.bus.beatsLeft b width = next :: others := hbeats.trans hrest
    rw [htake, takeBeat_goesOn data ha hrest' hleft, takenBeat_eq, ha, afterBeat_goesOn hrest' hleft, hplaced, if_neg hn,
      if_neg hn, htbus]
    rfl
  case ends =>
    have htaken : takenBeat i b answer width data s = ended := by
      have hended : ended = t.withBus { t.bus with
        current := none, rest := [], plan := left, waitCount := 0, lineBurst := false, burst := false } := rfl
      rw [takenBeat_eq, afterBeat_ends b width ha, hplaced, if_neg hn, if_neg hn, hbeats, regroup_eq, hended, htbus]
    rw [htake, takeBeat_ends b width data ha, htaken]
    have hplan : ended.bus.plan = left := rfl
    obtain ⟨hmarked, hdone, hplanned⟩ := endCycle_cases (i := i) (t := ended) (mark := e.mark) (by rw [← he, ← htbus])
      (htaken ▸ takenBeat_mark i b answer width data s i)
    exact ⟨fun hm => congrArg _ (hmarked hm), fun hm hp => congrArg _ (hdone hm hp), fun hm hp => congrArg _ (hplanned hm hp)⟩

end Sys2Proof.Machine
end

section
/-! PROOFS. Units and beats (spec/05, sections 5.4 and 5.5): the beats of a word carry its lanes once, lower unit first, and a
beat at a smaller width is split into the units of that width. -/

namespace Sys2Proof.Machine

/-! ### The units of a word (R101) -/

/-- The lanes of a word that `p` admits. -/
def lanesOf (p : Nat → Bool) : List Nat := [0, 1, 2, 3].filter p

theorem lanesOf_pairwise (p : Nat → Bool) : (lanesOf p).Pairwise (· < ·) := List.Pairwise.filter p (by decide)

theorem unitsOf_flatten (width : Width) : (unitsOf width).flatten = [0, 1, 2, 3] := by cases width <;> rfl

/-- A unit is the lanes of the word that it contains. -/
theorem lanesOf_unit {width : Width} : ∀ {u : List Nat}, u ∈ unitsOf width → lanesOf (fun l => u.contains l) = u := by
  cases width <;> decide

/-- Where a unit lies: at a multiple of its width, of as many lanes as its width. -/
theorem unit_bounds {width : Width} : ∀ {u : List Nat}, u ∈ unitsOf width →
    u.headD 0 % width.bytes = 0 ∧ u.headD 0 < 4 ∧ ∀ l ∈ u, u.headD 0 ≤ l ∧ l < u.headD 0 + width.bytes := by
  cases width <;> decide

theorem units_ascend (width : Width) : (unitsOf width).Pairwise (fun u v => u.headD 0 < v.headD 0) := by
  cases width <;> decide

/-- The lanes of a word that lie in a unit. -/
theorem lanesOf_filter_unit {width : Width} {u : List Nat} (p : Nat → Bool) (hu : u ∈ unitsOf width) :
    (lanesOf p).filter (fun l => u.contains l) = u.filter p := by
  rw [lanesOf, List.filter_comm]
  exact congrArg _ (lanesOf_unit hu)

/-! ### The beats of a word (R101) -/

/-- The beat of one unit of the word at `wa`, where the unit holds one of the lanes. -/
def unitBeats (width : Width) (wa : Nat) (write : Bool) (lanes u : List Nat) : List Beat :=
  if (lanes.filter (fun l => u.contains l)).isEmpty then []
  else [{ addr := wa + u.headD 0, width := width, write := write, lanes := lanes.filter (fun l => u.contains l) }]

theorem beatsFor_eq_flatMap (width : Width) (wa : Nat) (write : Bool) (lanes : List Nat) :
    beatsFor width wa write lanes = (unitsOf width).flatMap (unitBeats width wa write lanes) := by
  unfold beatsFor
  rw [List.filterMap_eq_flatMap_toList]
  congr 1
  funext u
  unfold unitBeats
  dsimp only
  split <;> rfl

theorem unitBeats_lanes (width : Width) (wa : Nat) (write : Bool) (lanes u : List Nat) :
    (unitBeats width wa write lanes u).flatMap (fun b => b.lanes) = lanes.filter (fun l => u.contains l) := by
  unfold unitBeats
  split
  · rename_i h
    exact (List.isEmpty_iff.1 h).symm
  · simp

/-- The beats of a word carry its lanes, each once and in order (R101). -/
theorem beatsFor_lanes (width : Width) (wa : Nat) (write : Bool) (p : Nat → Bool) :
    (beatsFor width wa write (lanesOf p)).flatMap (fun b => b.lanes) = lanesOf p := by
  calc (beatsFor width wa write (lanesOf p)).flatMap (fun b => b.lanes)
      = (unitsOf width).flatMap (fun u => u.filter p) := by
        rw [beatsFor_eq_flatMap, List.flatMap_assoc]
        simp only [unitBeats_lanes]
        exact List.flatMap_congr fun u hu => lanesOf_filter_unit p hu
    _ = lanesOf p := by rw [List.flatMap_def, ← List.filter_flatten, unitsOf_flatten]; rfl

theorem beatsFor_ascend (width : Width) (wa : Nat) (write : Bool) (lanes : List Nat) :
    (beatsFor width wa write lanes).Pairwise (fun x y => x.addr < y.addr) := by
  unfold beatsFor
  refine List.Pairwise.filterMap _ ?_ (units_ascend width)
  intro u v huv x hx y hy
  grind

/-- A beat of the word at `wa`: its width and direction, its aligned unit, and its lanes inside that unit (R101). -/
theorem beatsFor_beat {width : Width} {wa : Nat} {write : Bool} {lanes : List Nat} {b : Beat} (hwa : wa % 4 = 0)
    (h : b ∈ beatsFor width wa write lanes) :
    b.width = width ∧ b.write = write ∧ b.word = wa ∧ b.addr % width.bytes = 0 ∧ b.lanes ≠ []
      ∧ ∀ l ∈ b.lanes, l ∈ lanes ∧ b.addr ≤ wa + l ∧ wa + l < b.addr + width.bytes := by
  obtain ⟨u, hu, hne, rfl⟩ := mem_beatsFor.1 h
  obtain ⟨halign, hhead, hlanes⟩ := unit_bounds hu
  refine ⟨rfl, rfl, ?word, ?aligned, hne, fun l hl => ?lane⟩
  case word => unfold Beat.word; dsimp only; omega
  case aligned =>
    have hword : wa % width.bytes = 0 := by cases width <;> simp only [Width.bytes] <;> omega
    show (wa + u.headD 0) % width.bytes = 0
    rw [Nat.add_mod, hword, halign, Nat.add_zero, Nat.zero_mod]
  case lane =>
    rw [List.mem_filter, List.contains_iff_mem] at hl
    obtain ⟨hlow, hhigh⟩ := hlanes l hl.2
    show l ∈ lanes ∧ wa + u.headD 0 ≤ wa + l ∧ wa + l < wa + u.headD 0 + width.bytes
    exact ⟨hl.1, by omega, by omega⟩

/-! ### The accepted part of a beat (R105) -/

/-- What a list's members satisfy first, and what they do not satisfy after that, make up the list. -/
theorem filter_append_filter_not {α : Type} {q : α → Bool} : ∀ {l : List α}, l.Pairwise (fun a b => q b = true → q a = true) →
    l.filter q ++ l.filter (fun a => !q a) = l
  | [], _ => rfl
  | a :: l, h => by
    obtain ⟨ha, hl⟩ := List.pairwise_cons.1 h
    have ih := filter_append_filter_not hl
    by_cases hq : q a = true
    · simp [hq, ih]
    · have hnone : ∀ b ∈ l, ¬q b = true := fun b hb hqb => hq (ha b hb hqb)
      simp [hq, List.filter_eq_nil_iff.2 hnone] at ih ⊢
      exact ih

theorem takenLanes_of_lt {b : Beat} {accepted : Width} (h : accepted.bytes < b.width.bytes) :
    b.takenLanes accepted = b.lanes.filter (fun l => decide (l / accepted.bytes = b.lanes.headD 0 / accepted.bytes)) :=
  if_neg (Nat.not_le.2 h)

/-- The lowest enabled lane. -/
theorem headD_le_of_pairwise {l : List Nat} (h : l.Pairwise (· < ·)) {a : Nat} (ha : a ∈ l) : l.headD 0 ≤ a := by
  cases l with
  | nil => cases ha
  | cons x xs =>
    rcases List.mem_cons.1 ha with rfl | ha
    · exact Nat.le_refl _
    · exact Nat.le_of_lt ((List.pairwise_cons.1 h).1 a ha)

/-- The lanes that are re-issued are those that are not taken (R106). -/
theorem reissue_lanes {b : Beat} {accepted : Width} {p : Nat → Bool} (h : accepted.bytes < b.width.bytes)
    (hb : b.lanes = lanesOf p) :
    (b.reissue accepted).flatMap (fun x => x.lanes)
      = b.lanes.filter (fun l => !decide (l / accepted.bytes = b.lanes.headD 0 / accepted.bytes)) := by
  have hrest : b.lanes.filter (fun l => !(b.takenLanes accepted).contains l)
      = b.lanes.filter (fun l => !decide (l / accepted.bytes = b.lanes.headD 0 / accepted.bytes)) :=
    List.filter_congr fun l hl => by simp [takenLanes_of_lt h, hl]
  unfold Beat.reissue
  rw [hrest]
  generalize (fun l => !decide (l / accepted.bytes = b.lanes.headD 0 / accepted.bytes)) = q
  rw [hb, lanesOf, List.filter_filter]
  exact beatsFor_lanes _ _ _ _

theorem takenLanes_append_reissue {b : Beat} {accepted : Width} {p : Nat → Bool} (h : accepted.bytes < b.width.bytes)
    (hb : b.lanes = lanesOf p) :
    b.takenLanes accepted ++ (b.reissue accepted).flatMap (fun x => x.lanes) = b.lanes := by
  rw [reissue_lanes h hb, takenLanes_of_lt h]
  have hsorted : b.lanes.Pairwise (· < ·) := hb ▸ lanesOf_pairwise p
  refine filter_append_filter_not (hsorted.imp_of_mem fun {x y} hx _ hxy hq => ?_)
  have hhead := headD_le_of_pairwise hsorted hx
  rw [decide_eq_true_eq] at hq ⊢
  exact Nat.le_antisymm (hq ▸ Nat.div_le_div_right (Nat.le_of_lt hxy)) (Nat.div_le_div_right hhead)

theorem takenLanes_ne_nil {b : Beat} {accepted : Width} (h : accepted.bytes < b.width.bytes) (hne : b.lanes ≠ []) :
    b.takenLanes accepted ≠ [] := by
  obtain ⟨l, ls, hl⟩ := List.exists_cons_of_ne_nil hne
  rw [takenLanes_of_lt h, hl]
  simp

theorem takenLanes_unit {b : Beat} {accepted : Width} (h : accepted.bytes < b.width.bytes) :
    ∃ u, ∀ l ∈ b.takenLanes accepted, u ≤ l ∧ l < u + accepted.bytes ∧ u % accepted.bytes = 0 := by
  refine ⟨b.lanes.headD 0 / accepted.bytes * accepted.bytes, fun l hl => ?_⟩
  rw [takenLanes_of_lt h, List.mem_filter, decide_eq_true_eq] at hl
  have hpos : 0 < accepted.bytes := by cases accepted <;> decide
  have hmod := Nat.mod_lt l hpos
  have hdiv := Nat.div_add_mod l accepted.bytes
  rw [Nat.mul_comm] at hdiv
  rw [← hl.2]
  exact ⟨by omega, by omega, Nat.mul_mod_left _ _⟩

theorem word_mod (b : Beat) : b.word % 4 = 0 := Nat.mul_mod_left _ _

/-! ### A beat at a smaller width (R106) -/

theorem split_of_lt {x : Beat} {accepted : Width} (h : accepted.bytes < x.width.bytes) :
    x.split accepted = beatsFor accepted x.word x.write x.lanes := if_pos h

theorem split_of_le {x : Beat} {accepted : Width} (h : x.width.bytes ≤ accepted.bytes) : x.split accepted = [x] :=
  if_neg (Nat.not_lt.2 h)

/-- The units of a smaller width that lie in a unit. -/
def subunits (width : Width) (u : List Nat) : List (List Nat) := (unitsOf width).filter (fun v => v.all u.contains)

theorem unitsOf_refines {old new : Width} (h : new.bytes < old.bytes) : (unitsOf old).flatMap (subunits new) = unitsOf new := by
  revert h
  cases old <;> cases new <;> decide

/-- Two units of two widths are nested or apart. -/
theorem units_nested {old new : Width} (h : new.bytes < old.bytes) : ∀ u ∈ unitsOf old, ∀ v ∈ unitsOf new,
    if v.all u.contains then ∀ l ∈ v, u.contains l = true else ∀ l ∈ v, u.contains l = false := by
  revert h
  cases old <;> cases new <;> decide

theorem flatMap_filter_eq {α β : Type} (p : α → Bool) (f : α → List β) (l : List α) :
    (l.filter p).flatMap f = l.flatMap (fun a => if p a then f a else []) := by
  induction l with
  | nil => rfl
  | cons a l ih => by_cases h : p a = true <;> simp [h, ih]

/-- The beat of a unit, split, is the beats of its subunits. -/
theorem unitBeats_split {old new : Width} {wa : Nat} (write : Bool) (lanes : List Nat) (h : new.bytes < old.bytes)
    (hwa : wa % 4 = 0) {u : List Nat} (hu : u ∈ unitsOf old) :
    (unitBeats old wa write lanes u).flatMap (fun b => b.split new) = (subunits new u).flatMap (unitBeats new wa write lanes) := by
  have hnested := units_nested h u hu
  have hhead := (unit_bounds hu).2.1
  have hsub : (subunits new u).flatMap (unitBeats new wa write lanes)
      = (unitsOf new).flatMap (unitBeats new wa write (lanes.filter (fun l => u.contains l))) := by
    have hv : ∀ v ∈ unitsOf new, (if v.all u.contains then unitBeats new wa write lanes v else [])
        = unitBeats new wa write (lanes.filter (fun l => u.contains l)) v := by
      intro v hv
      have := hnested v hv
      unfold unitBeats
      simp only [List.filter_filter]
      split
      · rename_i hin
        rw [if_pos hin] at this
        have : lanes.filter (fun l => v.contains l && u.contains l) = lanes.filter (fun l => v.contains l) :=
          List.filter_congr fun l _ => by grind
        rw [this]
      · rename_i hout
        rw [if_neg hout] at this
        have : lanes.filter (fun l => v.contains l && u.contains l) = [] :=
          List.filter_eq_nil_iff.2 fun l _ => by grind
        rw [this]
        rfl
    rw [subunits, flatMap_filter_eq]
    exact List.flatMap_congr hv
  rw [hsub]
  by_cases hempty : lanes.filter (fun l => u.contains l) = []
  · have hnone : unitBeats new wa write [] = fun _ => [] := rfl
    rw [unitBeats, if_pos (List.isEmpty_iff.2 hempty), hempty, hnone]
    simp
  · have hword : ({ addr := wa + u.headD 0, width := old, write := write, lanes := lanes.filter (fun l => u.contains l) } : Beat).word
        = wa := by unfold Beat.word; dsimp only; omega
    rw [unitBeats, if_neg (mt List.isEmpty_iff.1 hempty), List.flatMap_singleton, split_of_lt h, hword, beatsFor_eq_flatMap]

/-- The beats of a word at one width, split at a smaller one, are those of the smaller width (R106). -/
theorem beatsFor_split {old new : Width} {wa : Nat} (write : Bool) (lanes : List Nat) (h : new.bytes < old.bytes)
    (hwa : wa % 4 = 0) :
    (beatsFor old wa write lanes).flatMap (fun b => b.split new) = beatsFor new wa write lanes := by
  rw [beatsFor_eq_flatMap, List.flatMap_assoc, List.flatMap_congr (fun u hu => unitBeats_split write lanes h hwa hu),
    ← List.flatMap_assoc, unitsOf_refines h, ← beatsFor_eq_flatMap]

end Sys2Proof.Machine
end

section
/-! PROOFS. A narrowed beat and the plan rebuilt after it (spec/05, section 5.5; R105, R106, R115). -/

namespace Sys2Proof.Machine

/-! ### Cycles not yet started, at a smaller width (R106) -/

/-- Single-beat cycles stay single. -/
theorem replanCycles_singles (width : Width) (beats : List Beat) :
    replanCycles width (beats.map singleCycle) = (beats.flatMap (fun b => b.split width)).map singleCycle := by
  unfold replanCycles
  rw [List.flatMap_map, List.map_flatMap]
  exact List.flatMap_congr fun b _ => by simp [singleCycle]

/-- A burst stays one cycle. -/
theorem replanCycles_burst (width : Width) (beats : List Beat) :
    replanCycles width [{ lineBurst := true, beats := beats }]
      = [{ lineBurst := true, beats := beats.flatMap (fun b => b.split width) }] := rfl

/-- The words of a line, in the order of its beats (R99, R100). -/
def Entry.lineWords (e : Entry) (w : Window) (line : Nat) : List Nat :=
  if e.lineRead w line then e.wrapWords line else e.ordinaryWords line

/-- The lanes of a word of a line (R99, R100). -/
def Entry.lineLanes (e : Entry) (w : Window) (line wa : Nat) : List Nat :=
  if e.lineRead w line then [0, 1, 2, 3] else e.neededLanes wa

/-- The beats of a line (R101). -/
def Entry.lineBeats (e : Entry) (w : Window) (width : Width) (line : Nat) : List Beat :=
  (e.lineWords w line).flatMap (fun wa => beatsFor width wa e.op.isWrite (e.lineLanes w line wa))

theorem planLine_eq (e : Entry) (w : Window) (width : Width) (line : Nat) :
    planLine e w width line = if w.attrs.burst && decide (2 ≤ (e.lineWords w line).length)
      then [{ lineBurst := true, beats := e.lineBeats w width line }] else (e.lineBeats w width line).map singleCycle := rfl

theorem lineWords_mod {e : Entry} {w : Window} {line wa : Nat} (h : wa ∈ e.lineWords w line) :
    wa % 4 = 0 ∧ 16 * line ≤ wa ∧ wa < 16 * line + 16 := by
  have hmap : ∀ l : List Nat, (∀ i ∈ l, i < 4) → wa ∈ l.map (fun i => 16 * line + 4 * i) →
      wa % 4 = 0 ∧ 16 * line ≤ wa ∧ wa < 16 * line + 16 := by
    intro l hl hwa
    obtain ⟨i, hi, rfl⟩ := List.mem_map.1 hwa
    have := hl i hi
    omega
  have hall : ∀ i ∈ [0, 1, 2, 3], i < 4 := by decide
  unfold Entry.lineWords at h
  split at h
  · refine hmap _ (fun i hi => ?_) h
    rcases List.mem_append.1 hi with hi | hi
    · exact hall i (List.mem_of_mem_drop hi)
    · exact hall i (List.mem_of_mem_take hi)
  · exact hmap _ hall (List.mem_of_mem_filter h)

theorem lineBeats_split {old new : Width} (e : Entry) (w : Window) (line : Nat) (h : new.bytes < old.bytes) :
    (e.lineBeats w old line).flatMap (fun b => b.split new) = e.lineBeats w new line := by
  unfold Entry.lineBeats
  rw [List.flatMap_assoc]
  exact List.flatMap_congr fun wa hwa => beatsFor_split _ _ h (lineWords_mod hwa).1

/-- A line planned at one width and rebuilt at a smaller one is planned at the smaller one. -/
theorem replanCycles_planLine {old new : Width} (e : Entry) (w : Window) (line : Nat) (h : new.bytes < old.bytes) :
    replanCycles new (planLine e w old line) = planLine e w new line := by
  rw [planLine_eq, planLine_eq]
  split
  · rw [replanCycles_burst, lineBeats_split e w line h]
  · rw [replanCycles_singles, lineBeats_split e w line h]

theorem replanCycles_lockedPart {old new : Width} (e : Entry) (write : Bool) (h : new.bytes < old.bytes) :
    replanCycles new (lockedPart e old write) = lockedPart e new write := by
  unfold lockedPart
  rw [replanCycles_singles]
  exact congrArg _ (beatsFor_split _ _ h (Nat.mul_mod_left _ _))

/-! ### The pieces of a beat (R106) -/

theorem reissue_pieces {b x : Beat} {accepted : Width} (hx : x ∈ b.reissue accepted) :
    x.width = accepted ∧ x.write = b.write ∧ x.addr % accepted.bytes = 0 ∧ x.lanes ≠ []
      ∧ ∀ l ∈ x.lanes, x.addr ≤ b.word + l ∧ b.word + l < x.addr + accepted.bytes := by
  obtain ⟨hwidth, hwrite, _, halign, hne, hlanes⟩ := beatsFor_beat (word_mod b) hx
  exact ⟨hwidth, hwrite, halign, hne, fun l hl => (hlanes l hl).2⟩

/-- A beat split at an accepted width: its bytes in order, unit by unit (R106). -/
theorem split_pieces {x : Beat} (accepted : Width) {p : Nat → Bool} (hp : x.lanes = lanesOf p)
    (haddr : x.addr % x.width.bytes = 0)
    (hunit : ∀ l ∈ x.lanes, x.addr ≤ x.word + l ∧ x.word + l < x.addr + x.width.bytes) (hne : x.lanes ≠ []) :
    let width := if accepted.bytes < x.width.bytes then accepted else x.width
    (x.split accepted).flatMap (fun y => y.lanes) = x.lanes
      ∧ (x.split accepted).Pairwise (fun y z => y.addr < z.addr)
      ∧ ∀ y ∈ x.split accepted, y.width = width ∧ y.write = x.write ∧ y.word = x.word ∧ y.addr % width.bytes = 0
          ∧ y.lanes ≠ [] ∧ ∀ l ∈ y.lanes, y.addr ≤ y.word + l ∧ y.word + l < y.addr + width.bytes := by
  dsimp only
  by_cases h : accepted.bytes < x.width.bytes
  · rw [split_of_lt h, if_pos h]
    refine ⟨by rw [hp]; exact beatsFor_lanes _ _ _ _, beatsFor_ascend _ _ _ _, fun y hy => ?_⟩
    obtain ⟨hwidth, hwrite, hword, halign, hlne, hlanes⟩ := beatsFor_beat (word_mod x) hy
    exact ⟨hwidth, hwrite, hword, halign, hlne, fun l hl => by rw [hword]; exact (hlanes l hl).2⟩
  · rw [split_of_le (Nat.not_lt.1 h), if_neg h]
    refine ⟨List.flatMap_singleton _ _, List.pairwise_singleton _ _, fun y hy => ?_⟩
    rw [List.mem_singleton] at hy
    subst hy
    exact ⟨rfl, rfl, rfl, haddr, hne, hunit⟩

/-! ### A narrowed beat on the bus (R115) -/

/-- What a narrowed beat leaves: the beats left of its cycle and the plan, at the accepted width. -/
theorem takenBeat_narrowed_goesOn {s : State} {i : Nat} {b next : Beat} {others : List Beat} {width : Width} (data : LaneData)
    (hn : width.bytes < b.width.bytes) (hrest : s.bus.rest ≠ [])
    (hleft : s.bus.beatsLeft b width = next :: others) :
    takeBeat i b .burstReady width data s = (s.beatPlaced i b (b.takenLanes width) data).withBus { s.bus with
      current := some next, rest := others, plan := replanCycles width s.bus.plan, width := width, waitCount := 0 } := by
  rw [takeBeat_goesOn data rfl hrest hleft, takenBeat_eq, afterBeat_goesOn hrest hleft, if_pos hn, if_pos hn]

theorem takenBeat_narrowed_ends {s : State} (i : Nat) {b : Beat} {answer : Answer} {width : Width} (data : LaneData)
    (hn : width.bytes < b.width.bytes) (ha : answer = .ready ∨ s.bus.rest = []) :
    takenBeat i b answer width data s = (s.beatPlaced i b (b.takenLanes width) data).withBus { s.bus with
      current := none, rest := []
      plan := regroup s.bus.lineBurst (s.bus.beatsLeft b width) ++ replanCycles width s.bus.plan
      width := width, waitCount := 0, lineBurst := false, burst := false } := by
  rw [takenBeat_eq, afterBeat_ends b width ha, if_pos hn, if_pos hn]

/-- Settles O45: the accepted part and the re-issue, the pieces of a beat, the lines rebuilt, and a narrowed beat taken. -/
theorem narrowingRebuildsThePlan : Obligations.NarrowingRebuildsThePlan := by
  refine ⟨fun b accepted h ⟨p, hp⟩ hne => ?accepted, fun b accepted h => takenLanes_of_le h,
    fun x accepted ⟨p, hp⟩ haddr hunit hne => split_pieces accepted hp haddr hunit hne,
    fun e w old new h => ⟨fun line => replanCycles_planLine e w line h, fun write => replanCycles_lockedPart e write h,
      fun hl width => if_neg (by simp [hl])⟩,
    fun s i waits b answer width data hr he hb hx hw hn => ?taken⟩
  case accepted =>
    refine ⟨takenLanes_ne_nil h hne, takenLanes_append_reissue h hp, fun l hl hunit => ?lowest, takenLanes_unit h,
      beatsFor_ascend _ _ _ _, fun x hx => reissue_pieces hx⟩
    case lowest => rw [takenLanes_of_lt h]; exact List.mem_filter.2 ⟨hl, decide_eq_true hunit⟩
  case taken =>
    intro e lanes t line later
    have htbus : t.bus = s.bus := beatPlaced_bus s i b lanes data
    have hbeats : s.bus.beatsLeft b width = line := if_pos hn
    have htake : exec (.beatTaken waits answer width data) s = .next (takeBeat i b answer width data s) := by
      rw [exec_beatTaken _ _ _ _ hr, answerBeat_in_time _ (.inl he) hb hx hw]
    refine ⟨fun next others ha hrest hline => ?goesOn, fun left ha hleft => ?ends⟩
    case goesOn =>
      subst ha
      rw [htake, takenBeat_narrowed_goesOn data hn hrest (hbeats.trans hline)]
      show _ = Host.Outcome.next (t.withBus { t.bus with
        current := some next, rest := others, plan := later, width := width, waitCount := 0 })
      rw [htbus]
      rfl
    case ends =>
      intro ended
      have htaken : takenBeat i b answer width data s = ended := by
        have hended : ended = t.withBus { t.bus with
          current := none, rest := [], plan := left, width := width, waitCount := 0, lineBurst := false, burst := false } := rfl
        rw [takenBeat_narrowed_ends i data hn ha, hended, hleft, hbeats, regroup_eq, htbus]
        rfl
      rw [htake, takeBeat_ends b width data ha, htaken]
      obtain ⟨hmarked, hdone, hplanned⟩ := endCycle_cases (i := i) (t := ended) (mark := e.mark) (by rw [← he, ← htbus])
        (htaken ▸ takenBeat_mark i b answer width data s i)
      exact ⟨fun hm => congrArg _ (hmarked hm), fun hm hp => congrArg _ (hdone hm hp), fun hm hp => congrArg _ (hplanned hm hp)⟩

end Sys2Proof.Machine
end

section
/-! PROOFS. The plan of a READ or a WRITE (spec/05, section 5.4; R99 to R102, R107): the bytes that its beats carry, the shape
of its cycles, and the plan written out. -/

namespace Sys2Proof.Machine

/-! ### The bytes that beats carry (R107) -/

theorem needs_iff (e : Entry) (a : Nat) : e.needs a = true ↔ e.addr.toNat ≤ a ∧ a < e.addr.toNat + e.total := by
  simp [Entry.needs]

/-- The needed bytes of the word at `wa`, as positions of the transaction. -/
def Entry.wordPositions (e : Entry) (wa : Nat) : List Nat := (e.neededLanes wa).map (fun l => wa + l - e.addr.toNat)

/-- The beats of a word carry its needed bytes among the lanes given, each once and in order. -/
theorem beatsFor_positions (e : Entry) (width : Width) {wa : Nat} (write : Bool) (p : Nat → Bool) (hwa : wa % 4 = 0) :
    (beatsFor width wa write (lanesOf p)).flatMap (fun b => b.positions e b.lanes)
      = ((lanesOf p).filter (fun l => e.needs (wa + l))).map (fun l => wa + l - e.addr.toNat) := by
  have hword : (beatsFor width wa write (lanesOf p)).flatMap (fun b => b.positions e b.lanes)
      = (beatsFor width wa write (lanesOf p)).flatMap
        (fun b => (b.lanes.filter (fun l => e.needs (wa + l))).map (fun l => wa + l - e.addr.toNat)) := by
    refine List.flatMap_congr fun b hb => ?_
    obtain ⟨_, _, hw, _⟩ := beatsFor_beat hwa hb
    rw [Beat.positions, hw]
  rw [hword, ← List.map_flatMap, ← List.filter_flatMap, beatsFor_lanes]

theorem neededLanes_eq (e : Entry) (wa : Nat) : e.neededLanes wa = lanesOf (fun l => e.needs (wa + l)) := rfl

theorem allLanes_eq : [0, 1, 2, 3] = lanesOf (fun _ => true) := rfl

theorem beatsFor_positions_needed (e : Entry) (width : Width) {wa : Nat} (write : Bool) (hwa : wa % 4 = 0) :
    (beatsFor width wa write (e.neededLanes wa)).flatMap (fun b => b.positions e b.lanes) = e.wordPositions wa := by
  rw [neededLanes_eq, beatsFor_positions e width write _ hwa, lanesOf, List.filter_filter]
  simp only [Bool.and_self]
  rfl

theorem lineLanes_positions (e : Entry) (w : Window) (width : Width) {wa : Nat} (write : Bool) (line : Nat) (hwa : wa % 4 = 0) :
    (beatsFor width wa write (e.lineLanes w line wa)).flatMap (fun b => b.positions e b.lanes) = e.wordPositions wa := by
  unfold Entry.lineLanes
  split
  · rw [allLanes_eq, beatsFor_positions e width write _ hwa]
    rfl
  · exact beatsFor_positions_needed e width write hwa

/-- The needed bytes among consecutive addresses, as positions of the transaction. -/
def Entry.rangePositions (e : Entry) (a n : Nat) : List Nat := ((List.range' a n).filter e.needs).map (fun x => x - e.addr.toNat)

theorem rangePositions_append (e : Entry) (a m n : Nat) :
    e.rangePositions a (m + n) = e.rangePositions a m ++ e.rangePositions (a + m) n := by
  unfold Entry.rangePositions
  rw [← List.range'_append_1, List.filter_append, List.map_append]

theorem wordPositions_eq (e : Entry) (wa : Nat) : e.wordPositions wa = e.rangePositions wa 4 := by
  have hrange : List.range' wa 4 = [0, 1, 2, 3].map (fun l => wa + l) := rfl
  unfold Entry.wordPositions Entry.rangePositions Entry.neededLanes
  rw [hrange, List.filter_map, List.map_map]
  rfl

theorem rangePositions_of_out {e : Entry} {a n : Nat} (h : ∀ x, a ≤ x → x < a + n → e.needs x = false) :
    e.rangePositions a n = [] := by
  unfold Entry.rangePositions
  rw [List.map_eq_nil_iff, List.filter_eq_nil_iff]
  intro x hx
  obtain ⟨hlow, hhigh⟩ := List.mem_range'_1.1 hx
  simp [h x hlow hhigh]

/-- The words of a line carry its needed bytes in ascending order, in the wrap order too (R99, R100). -/
theorem lineWords_positions (e : Entry) (w : Window) (line : Nat) :
    (e.lineWords w line).flatMap e.wordPositions = e.rangePositions (16 * line) 16 := by
  have hall : ([0, 1, 2, 3].map (fun i => 16 * line + 4 * i)).flatMap e.wordPositions = e.rangePositions (16 * line) 16 := by
    simp only [List.map_cons, List.map_nil, List.flatMap_cons, List.flatMap_nil, List.append_nil, wordPositions_eq]
    rw [show 16 = 4 + (4 + (4 + 4)) from rfl, rangePositions_append, rangePositions_append, rangePositions_append]
    rfl
  unfold Entry.lineWords
  split
  · unfold Entry.wrapWords
    dsimp only
    rw [← hall]
    split
    · rename_i hfirst
      have hstart : e.addr.toNat % 16 / 4 < 4 := by omega
      have hbefore : (([0, 1, 2, 3].take (e.addr.toNat % 16 / 4)).map (fun i => 16 * line + 4 * i)).flatMap e.wordPositions = [] := by
        rw [List.flatMap_eq_nil_iff]
        intro wa hwa
        obtain ⟨i, hi, rfl⟩ := List.mem_map.1 hwa
        have hi : i < e.addr.toNat % 16 / 4 := by
          have hlt : ∀ n < 4, ∀ i ∈ [0, 1, 2, 3].take n, i < n := by decide
          exact hlt _ hstart i hi
        rw [wordPositions_eq]
        refine rangePositions_of_out fun x _ hx => ?_
        have : line = e.addr.toNat / 16 := hfirst
        simp only [Entry.needs, Bool.and_eq_false_iff, decide_eq_false_iff_not]
        omega
      rw [List.map_append, List.flatMap_append, hbefore, List.append_nil]
      conv_rhs => rw [← List.take_append_drop (e.addr.toNat % 16 / 4) [0, 1, 2, 3]]
      rw [List.map_append, List.flatMap_append, hbefore, List.nil_append]
    · rfl
  · unfold Entry.ordinaryWords
    rw [flatMap_filter_eq, ← hall]
    refine List.flatMap_congr fun wa _ => ?_
    split
    · rfl
    · rename_i hnone
      have : e.neededLanes wa = [] := by simpa using hnone
      simp [Entry.wordPositions, this]

theorem lineBeats_positions (e : Entry) (w : Window) (width : Width) (line : Nat) :
    (e.lineBeats w width line).flatMap (fun b => b.positions e b.lanes) = e.rangePositions (16 * line) 16 := by
  rw [Entry.lineBeats, List.flatMap_assoc, ← lineWords_positions e w line]
  exact List.flatMap_congr fun wa hwa => lineLanes_positions e w width _ line (lineWords_mod hwa).1

theorem planLine_beats (e : Entry) (w : Window) (width : Width) (line : Nat) :
    (planLine e w width line).flatMap (fun c => c.beats) = e.lineBeats w width line := by
  rw [planLine_eq]
  split
  · simp
  · rw [List.flatMap_map]
    simp [singleCycle]

theorem linesPositions (e : Entry) (first n : Nat) :
    (List.range n).flatMap (fun i => e.rangePositions (16 * (first + i)) 16) = e.rangePositions (16 * first) (16 * n) := by
  induction n with
  | zero => rfl
  | succ n ih =>
    rw [List.range_succ, List.flatMap_append, ih, List.flatMap_singleton, Nat.mul_succ, rangePositions_append, Nat.mul_add]

/-- The needed bytes are the transaction's range. -/
theorem rangePositions_all {e : Entry} {a n : Nat} (hlow : a ≤ e.addr.toNat) (hhigh : e.addr.toNat + e.total ≤ a + n) :
    e.rangePositions a n = List.range e.total := by
  have hfilter : (List.range' a n).filter e.needs = List.range' e.addr.toNat e.total := by
    have := List.Ico.filter_lt (max a e.addr.toNat) (a + n) (e.addr.toNat + e.total)
    rw [← List.Ico.filter_le, List.filter_filter, max_eq_right hlow, min_eq_right hhigh] at this
    rw [List.Ico, List.Ico, Nat.add_sub_cancel_left, Nat.add_sub_cancel_left] at this
    rw [← this]
    exact List.filter_congr fun x _ => by rw [Entry.needs, Bool.and_comm]
  rw [Entry.rangePositions, hfilter, List.map_sub_range' (Nat.le_refl _), Nat.sub_self, List.range_eq_range']

/-! ### The shape of a plan (R99 to R102) -/

theorem planFor_of_not_locked {e : Entry} (w : Window) (width : Width) (h : e.op.locked = false) :
    planFor e w width = (List.range e.lineCount).flatMap (fun k => planLine e w width (e.firstLine + k)) := by
  rw [planFor, if_neg (by simp [h]), Entry.lines, List.flatMap_map]

/-- The plan carries every byte of the range, each once and in ascending order. -/
theorem planFor_positions {e : Entry} (w : Window) (width : Width) (h : e.op.locked = false) :
    ((planFor e w width).flatMap (fun c => c.beats)).flatMap (fun b => b.positions e b.lanes) = List.range e.total := by
  have hline : ∀ k, ((planLine e w width (e.firstLine + k)).flatMap (fun c => c.beats)).flatMap (fun b => b.positions e b.lanes)
      = e.rangePositions (16 * (e.firstLine + k)) 16 := fun k => by rw [planLine_beats, lineBeats_positions]
  rw [planFor_of_not_locked w width h, List.flatMap_assoc (l := List.range _), List.flatMap_assoc (l := List.range _),
    List.flatMap_congr fun k _ => hline k, linesPositions]
  exact rangePositions_all (by unfold Entry.firstLine; omega) (by unfold Entry.firstLine Entry.lineCount; omega)

theorem beatsFor_ne_nil {width : Width} {wa : Nat} {write : Bool} {p : Nat → Bool} (h : lanesOf p ≠ []) :
    beatsFor width wa write (lanesOf p) ≠ [] := by
  intro hnil
  have := beatsFor_lanes width wa write p
  rw [hnil] at this
  exact h this.symm

theorem lineLanes_eq (e : Entry) (w : Window) (line wa : Nat) :
    e.lineLanes w line wa = lanesOf (fun l => e.lineRead w line || e.needs (wa + l)) := by
  unfold Entry.lineLanes
  split
  · rename_i h; simp only [h, Bool.true_or]; rfl
  · rename_i h; simp only [h, Bool.false_or]; rfl

/-- Every word of a line has lanes to carry. -/
theorem lineLanes_ne_nil {e : Entry} {w : Window} {line wa : Nat} (h : wa ∈ e.lineWords w line) : e.lineLanes w line wa ≠ [] := by
  unfold Entry.lineLanes
  split
  · exact List.cons_ne_nil _ _
  · rename_i hr
    rw [Entry.lineWords, if_neg hr] at h
    simpa using (List.mem_filter.1 h).2

theorem lineBeats_ne_nil {e : Entry} {w : Window} {line : Nat} (width : Width) (h : e.lineWords w line ≠ []) :
    e.lineBeats w width line ≠ [] := by
  obtain ⟨wa, was, hwa⟩ := List.exists_cons_of_ne_nil h
  have hne := lineLanes_ne_nil (hwa ▸ List.mem_cons_self : wa ∈ e.lineWords w line)
  rw [lineLanes_eq] at hne
  intro hnil
  rw [Entry.lineBeats, List.flatMap_eq_nil_iff] at hnil
  have := hnil wa (hwa ▸ List.mem_cons_self)
  rw [lineLanes_eq] at this
  exact beatsFor_ne_nil hne this

/-- A beat of a line: an aligned unit of the line, of the width and direction asked for, its lanes inside it. -/
theorem lineBeats_beat {e : Entry} {w : Window} {width : Width} {line : Nat} {b : Beat} (h : b ∈ e.lineBeats w width line) :
    b.addr / 16 = line ∧ b.width = width ∧ b.addr % width.bytes = 0 ∧ b.write = e.op.isWrite ∧ b.lanes ≠ []
      ∧ ∀ l ∈ b.lanes, b.addr ≤ b.word + l ∧ b.word + l < b.addr + width.bytes := by
  obtain ⟨wa, hwa, hb⟩ := List.mem_flatMap.1 h
  obtain ⟨hmod, hlow, hhigh⟩ := lineWords_mod hwa
  obtain ⟨hwidth, hwrite, hword, halign, hne, hlanes⟩ := beatsFor_beat hmod hb
  refine ⟨?_, hwidth, halign, hwrite, hne, fun l hl => by rw [hword]; exact (hlanes l hl).2⟩
  unfold Beat.word at hword
  omega

/-- A cycle of a line: some of its beats, one alone where the window has no BURST. -/
theorem planLine_cycle {e : Entry} {w : Window} {width : Width} {line : Nat} {c : BusCycle} (h : c ∈ planLine e w width line) :
    c.beats ≠ [] ∧ (w.attrs.burst = false → c.beats.length = 1) ∧ ∀ b ∈ c.beats, b ∈ e.lineBeats w width line := by
  rw [planLine_eq] at h
  split at h
  · rename_i hburst
    rw [Bool.and_eq_true, decide_eq_true_eq] at hburst
    rw [List.mem_singleton] at h
    subst h
    refine ⟨lineBeats_ne_nil width fun hnil => ?_, fun hb => ?_, fun b hb => hb⟩
    · simp [hnil] at hburst
    · simp [hb] at hburst
  · obtain ⟨b, hb, rfl⟩ := List.mem_map.1 h
    exact ⟨List.cons_ne_nil _ _, fun _ => rfl, fun x hx => by rw [List.mem_singleton.1 hx]; exact hb⟩

/-! ### The plan written out -/

theorem filterMap_eq_filter_map {α : Type} (f : α → Beat) (l : List α) :
    l.filterMap (fun a => if (f a).lanes.isEmpty then none else some (f a)) = (l.map f).filter (fun b => !b.lanes.isEmpty) := by
  induction l with
  | nil => rfl
  | cons a l ih =>
    rw [List.filterMap_cons, List.map_cons, List.filter_cons, ih]
    cases (f a).lanes.isEmpty <;> rfl

theorem unitsOf_eq (width : Width) :
    unitsOf width = (List.range (4 / width.bytes)).map (fun u => lanesOf (fun l => decide (l / width.bytes = u))) := by
  cases width <;> rfl

theorem unit_headD (width : Width) : ∀ u < 4 / width.bytes,
    (lanesOf (fun l => decide (l / width.bytes = u))).headD 0 = u * width.bytes := by
  cases width <;> decide

theorem lane_mem_unit (width : Width) : ∀ u < 4 / width.bytes, ∀ l ∈ [0, 1, 2, 3],
    (lanesOf (fun l => decide (l / width.bytes = u))).contains l = decide (l / width.bytes = u) := by
  cases width <;> decide

/-- The beats of a word, unit by unit. -/
theorem beatsFor_eq_units (width : Width) (a : Nat) (write : Bool) (p : Nat → Bool) :
    beatsFor width a write (lanesOf p)
      = ((List.range (4 / width.bytes)).map (fun u =>
          ({ addr := a + u * width.bytes, width := width, write := write
             lanes := lanesOf (fun l => decide (l / width.bytes = u) && p l) } : Beat))).filter (fun b => !b.lanes.isEmpty) := by
  rw [← filterMap_eq_filter_map, beatsFor, unitsOf_eq, List.filterMap_map]
  refine List.filterMap_congr fun u hu => ?_
  rw [List.mem_range] at hu
  have hlanes : (lanesOf p).filter (fun l => (lanesOf (fun l => decide (l / width.bytes = u))).contains l)
      = lanesOf (fun l => decide (l / width.bytes = u) && p l) := by
    rw [show lanesOf p = [0, 1, 2, 3].filter p from rfl, List.filter_filter]
    exact List.filter_congr fun l hl => by rw [lane_mem_unit width u hu l hl]
  simp only [Function.comp_apply, hlanes, unit_headD width u hu]

/-- Whether line `k` of the transaction is a line-read line. -/
theorem lineRead_eq (e : Entry) (w : Window) (k : Nat) :
    e.lineRead w (e.firstLine + k) = decide (e.op = .read ∧ w.attrs.line = true ∧ (k = 0 ∨ k + 1 = e.lineCount)) := by
  rw [Bool.eq_iff_iff]
  simp only [Entry.lineRead, Bool.and_eq_true, Bool.or_eq_true, decide_eq_true_eq, and_assoc]
  refine and_congr_right fun _ => and_congr_right fun _ => ?_
  omega

/-- The wrap order, word by word. -/
theorem wrapWords_eq (e : Entry) (k : Nat) :
    e.wrapWords (e.firstLine + k) = [0, 1, 2, 3].map (fun j => 16 * (e.addr.toNat / 16 + k)
      + 4 * ((max e.addr.toNat (16 * (e.addr.toNat / 16 + k)) / 4 + j) % 4)) := by
  have hrotate : ∀ start < 4, [0, 1, 2, 3].drop start ++ [0, 1, 2, 3].take start = [0, 1, 2, 3].map (fun j => (start + j) % 4) := by
    decide
  have hstart : (if e.firstLine + k = e.firstLine then e.addr.toNat % 16 / 4 else 0)
      = max e.addr.toNat (16 * (e.addr.toNat / 16 + k)) / 4 % 4 := by
    split <;> omega
  unfold Entry.wrapWords
  dsimp only
  rw [hstart, hrotate _ (Nat.mod_lt _ (by decide)), List.map_map]
  refine List.map_congr_left fun j _ => ?_
  simp only [Function.comp_apply, Entry.firstLine, Nat.mod_add_mod]

/-- The words of an ordinary line overlap the range. -/
theorem ordinaryWords_eq {e : Entry} (line : Nat) (ht : 0 < e.total) :
    e.ordinaryWords line = ([0, 1, 2, 3].map (fun j => 16 * line + 4 * j)).filter
      (fun a => decide (e.addr.toNat < a + 4 ∧ a < e.addr.toNat + e.total)) := by
  unfold Entry.ordinaryWords
  refine List.filter_congr fun a _ => ?_
  rw [Bool.eq_iff_iff, Bool.not_eq_true', decide_eq_true_eq, List.isEmpty_eq_false_iff_exists_mem]
  constructor
  · rintro ⟨l, hl⟩
    obtain ⟨hl4, hneeds⟩ := List.mem_filter.1 hl
    have hbound : ∀ l ∈ [0, 1, 2, 3], l < 4 := by decide
    have := hbound l hl4
    simp only [Entry.needs, Bool.and_eq_true, decide_eq_true_eq] at hneeds
    omega
  · intro ⟨hlow, hhigh⟩
    have hmem : ∀ l < 4, l ∈ [0, 1, 2, 3] := by decide
    refine ⟨max e.addr.toNat a - a, List.mem_filter.2 ⟨hmem _ (by omega), ?_⟩⟩
    simp only [Entry.needs, Bool.and_eq_true, decide_eq_true_eq]
    omega

/-- Settles O41: the bytes, the cycles, and the plan written out. -/
theorem plansCarryEveryByteOnce : Obligations.PlansCarryEveryByteOnce := by
  intro e w width hl ht
  refine ⟨planFor_positions w width hl, fun c hc => ?cycles, ?written⟩
  case cycles =>
    rw [planFor_of_not_locked w width hl] at hc
    obtain ⟨k, _, hc⟩ := List.mem_flatMap.1 hc
    obtain ⟨hne, hone, hbeats⟩ := planLine_cycle hc
    exact ⟨hne, hone, ⟨e.firstLine + k, fun b hb => (lineBeats_beat (hbeats b hb)).1⟩, fun b hb => (lineBeats_beat (hbeats b hb)).2⟩
  case written =>
    intro first lines line lineRead words beats
    have hread : ∀ k, e.lineRead w (e.firstLine + k) = lineRead k := lineRead_eq e w
    have hwords : ∀ k, e.lineWords w (e.firstLine + k) = words k := by
      intro k
      unfold Entry.lineWords
      rw [hread, wrapWords_eq, ordinaryWords_eq _ ht]
      rfl
    have hbeats : ∀ k, e.lineBeats w width (e.firstLine + k) = beats k := by
      intro k
      unfold Entry.lineBeats
      rw [hwords]
      refine List.flatMap_congr fun a _ => ?_
      rw [lineLanes_eq, beatsFor_eq_units, hread]
      have hlanes : ∀ u, lanesOf (fun l => decide (l / width.bytes = u) && (lineRead k || e.needs (a + l)))
          = [0, 1, 2, 3].filter (fun l =>
              decide (l / width.bytes = u ∧ (lineRead k = true ∨ first ≤ a + l ∧ a + l < first + e.total))) :=
        fun u => List.filter_congr fun l _ => by
          rw [Bool.eq_iff_iff, decide_eq_true_eq, Bool.and_eq_true, Bool.or_eq_true, decide_eq_true_eq, needs_iff]
      simp only [hlanes]
    rw [planFor_of_not_locked w width hl]
    refine List.flatMap_congr fun k _ => ?_
    rw [planLine_eq, hwords, hbeats]
    simp only [Bool.and_eq_true, decide_eq_true_eq]
    rfl

end Sys2Proof.Machine
end

section
/-! PROOFS. Locked sequences (spec/05, section 5.4; spec/06, R119, R120): the parts of a sequence, the value that is written,
and the cycles from the first to the last. -/

namespace Sys2Proof.Machine

/-! ### The two parts (R103) -/

theorem lockedPart_eq (e : Entry) (width : Width) (write : Bool) :
    lockedPart e width write
      = (beatsFor width (e.addr.toNat / 4 * 4) write (e.neededLanes (e.addr.toNat / 4 * 4))).map singleCycle := rfl

theorem flatMap_singleCycle (beats : List Beat) : (beats.map singleCycle).flatMap (fun c => c.beats) = beats := by
  rw [List.flatMap_map]
  simp [singleCycle]

/-- A part carries the value's bytes, each once. -/
theorem lockedPart_positions {e : Entry} (width : Width) (write : Bool) (ht : e.total = 1 ∨ e.total = 2 ∨ e.total = 4)
    (ha : e.addr.toNat % e.total = 0) :
    ((lockedPart e width write).flatMap (fun c => c.beats)).flatMap (fun b => b.positions e b.lanes) = List.range e.total := by
  have hin : e.addr.toNat + e.total ≤ e.addr.toNat / 4 * 4 + 4 := by
    rcases ht with h | h | h <;> rw [h] at ha ⊢ <;> omega
  rw [lockedPart_eq, flatMap_singleCycle, beatsFor_positions_needed e width write (Nat.mul_mod_left _ _), wordPositions_eq]
  exact rangePositions_all (Nat.div_mul_le_self _ _) hin

/-- A cycle of a part: one beat, an aligned unit with its bytes inside it, all of them the value's. -/
theorem lockedPart_cycle {e : Entry} {width : Width} {write : Bool} {c : BusCycle} (h : c ∈ lockedPart e width write) :
    c.beats.length = 1 ∧ c.lineBurst = false
      ∧ ∀ b ∈ c.beats, b.width = width ∧ b.write = write ∧ b.addr % width.bytes = 0 ∧ b.lanes ≠ []
        ∧ ∀ l ∈ b.lanes, e.needs (b.word + l) = true ∧ b.addr ≤ b.word + l ∧ b.word + l < b.addr + width.bytes := by
  rw [lockedPart_eq] at h
  obtain ⟨b, hb, rfl⟩ := List.mem_map.1 h
  refine ⟨rfl, rfl, fun x hx => ?_⟩
  rw [List.mem_singleton.1 hx]
  obtain ⟨hwidth, hwrite, hword, halign, hne, hlanes⟩ := beatsFor_beat (Nat.mul_mod_left _ _) hb
  refine ⟨hwidth, hwrite, halign, hne, fun l hl => ?_⟩
  obtain ⟨hmem, hunit⟩ := hlanes l hl
  rw [hword]
  exact ⟨(List.mem_filter.1 hmem).2, hunit⟩

/-! ### The value that is written (R45, R104) -/

theorem valueOf_append (l : List Byte) (b : Byte) : valueOf (l ++ [b]) = valueOf l * 256 + b.toNat := by
  simp [valueOf]

theorem bytesOf_succ (n v : Nat) : bytesOf (n + 1) v = bytesOf n (v / 256) ++ [BitVec.ofNat 8 v] := by
  unfold bytesOf
  rw [List.range_succ, List.map_append, List.map_singleton]
  congr 1
  · refine List.map_congr_left fun k hk => ?_
    rw [List.mem_range] at hk
    rw [Nat.div_div_eq_div_mul, ← Nat.pow_succ', show (n - 1 - k).succ = n + 1 - 1 - k by omega]
  · simp

/-- The bytes of a value have that value, modulo what they can hold. -/
theorem valueOf_bytesOf (n v : Nat) : valueOf (bytesOf n v) = v % 256 ^ n := by
  induction n generalizing v with
  | zero => simp [bytesOf, valueOf, Nat.mod_one]
  | succ n ih =>
    have hbyte : (BitVec.ofNat 8 v).toNat = v % 256 := BitVec.toNat_ofNat ..
    rw [bytesOf_succ, valueOf_append, ih, hbyte, Nat.pow_succ', Nat.mod_mul]
    omega

theorem bytesOf_length (n v : Nat) : (bytesOf n v).length = n := by simp [bytesOf]

theorem valueToWrite_swap {s : State} {e : Entry} (old : List Byte) (h : e.op = .swap) :
    s.valueToWrite e old = s.txBytes e 0 e.total := by
  simp [State.valueToWrite, h, State.firstOperand]

theorem valueToWrite_cswap {s : State} {e : Entry} (old : List Byte) (h : e.op = .cswap) :
    s.valueToWrite e old = s.txBytes e e.total e.total := by
  simp [State.valueToWrite, h]

theorem valueToWrite_add {s : State} {e : Entry} (old : List Byte) (h : e.op = .add) :
    s.valueToWrite e old = bytesOf e.total ((valueOf old + valueOf (s.txBytes e 0 e.total)) % 2 ^ (8 * e.total)) := by
  simp [State.valueToWrite, h, State.firstOperand]

theorem valueOf_valueToWrite_add {s : State} {e : Entry} (old : List Byte) (h : e.op = .add) :
    valueOf (s.valueToWrite e old) = (valueOf old + valueOf (s.txBytes e 0 e.total)) % 2 ^ (8 * e.total) := by
  have hpow : 256 ^ e.total = 2 ^ (8 * e.total) := (Nat.pow_mul 2 8 e.total).symm
  rw [valueToWrite_add old h, valueOf_bytesOf, hpow, Nat.mod_mod]

/-! ### A beat of a locked sequence (R104, R119) -/

theorem exec_lockedSequenceNextCycle {s : State} (hr : s.pins.reset = false) :
    exec .lockedSequenceNextCycle s = .next (lockedNextCycle s) := congrArg _ (unlessPinReset_of_released _ hr)

theorem placeRead_entry (e : Entry) (b : Beat) (lanes : List Nat) (data : LaneData) (s : State) (j : Nat) :
    (placeRead e b lanes data s).entry j = s.entry j := by
  refine entry_of_table ?_ j
  unfold placeRead
  split <;> rfl

/-- What a read beat places does not look at the Bus Engine. -/
theorem placeRead_withBus (e : Entry) (b : Beat) (lanes : List Nat) (data : LaneData) (bus : Bus) (s : State) :
    (placeRead e b lanes data s).withBus bus = placeRead e b lanes data (s.withBus bus) := by
  unfold placeRead
  split <;> rfl

/-- Done stays as it is while a locked sequence runs (R77). -/
theorem advanceDone_of_locked {s : State} {i : Nat} (positions : List Nat) (h : (s.entry i).op.locked = true) :
    advanceDone i positions s = s := by
  have hentries : s.table.entries.modify i
      (fun e => if e.op.locked then e else { e with done := extendDone e.done positions }) = s.table.entries := by
    refine List.ext_getElem? fun j => ?_
    rw [List.getElem?_modify]
    split
    · rename_i hij
      subst hij
      cases hj : s.table.entries[i]? with
      | none => rfl
      | some e =>
        have he : s.entry i = e := by rw [State.entry, List.getD_eq_getElem?_getD, hj]; rfl
        simp [← he, h]
    · simp
  unfold advanceDone State.modEntry
  rw [hentries]
  rfl

theorem endCycle_of_locked {i : Nat} {s : State} (he : s.bus.engine = .locked) :
    endCycle i s = if s.bus.plan = [] then endLockedPart i s else s := by
  simp only [endCycle, he, List.isEmpty_iff]

/-- The end of the write part ends the sequence (R119). -/
theorem endLockedPart_of_held {i : Nat} {s : State} (h : (s.entry i).old.isSome = true) :
    endLockedPart i s = settle (endExecution i .done s) := by
  obtain ⟨old, ho⟩ := Option.isSome_iff_exists.1 h
  simp [endLockedPart, ho]

/-- At the end of the read part the old value is held; the sequence ends where a comparison fails, and else the write part is
built (R104). -/
theorem endLockedPart_of_none {i : Nat} {s : State} (h : (s.entry i).old = none) :
    endLockedPart i s = if (s.entry i).op = .cswap
        ∧ s.txBytes (s.entry i) (oldPlace 0) (s.entry i).total ≠ s.txBytes (s.entry i) 0 (s.entry i).total
      then settle (endExecution i .unchanged (holdOld i (s.txBytes (s.entry i) (oldPlace 0) (s.entry i).total) s))
      else buildWritePart i (holdOld i (s.txBytes (s.entry i) (oldPlace 0) (s.entry i).total) s) := by
  unfold endLockedPart
  dsimp only
  rw [h]
  rfl

/-- A locked operation's beat that is marked last: its data placed, its cycle ended, and what is left planned. -/
theorem takenBeat_of_locked {s : State} {i : Nat} {b : Beat} {answer : Answer} {width : Width} (data : LaneData)
    (hrest : s.bus.rest = []) (hl : (s.entry i).op.locked = true) :
    takenBeat i b answer width data s = placeRead (s.entry i) b (b.takenLanes width) data ((countBeat s).withBus { s.bus with
      current := none, waitCount := 0, lineBurst := false, burst := false
      plan := if width.bytes < b.width.bytes then regroup s.bus.lineBurst (b.reissue width) ++ replanCycles width s.bus.plan
        else s.bus.plan
      width := if width.bytes < b.width.bytes then width else s.bus.width }) := by
  have hplan : regroup s.bus.lineBurst (s.bus.beatsLeft b width)
        ++ (if width.bytes < b.width.bytes then replanCycles width s.bus.plan else s.bus.plan)
      = if width.bytes < b.width.bytes then regroup s.bus.lineBurst (b.reissue width) ++ replanCycles width s.bus.plan
        else s.bus.plan := by
    unfold Bus.beatsLeft
    rw [hrest]
    split
    · simp
    · rfl
  have hlocked : ((placeRead (s.entry i) b (b.takenLanes width) data (countBeat s)).entry i).op.locked = true := by
    rw [placeRead_entry]
    exact hl
  rw [takenBeat_eq, afterBeat_ends b width (.inr hrest), hplan, State.beatPlaced, advanceDone_of_locked _ hlocked,
    placeRead_withBus, ← hrest]

/-- Settles O48: the cycles of a locked sequence, its two parts, and the value that is written. -/
theorem lockedSequencesRunWhole : Obligations.LockedSequencesRunWhole := by
  refine ⟨⟨fun s hr => ⟨fun i c cycles b bs he hb hx hp hc hl => ?next, fun h => ?nothing⟩,
    fun s i waits b answer width data hr he hb hrest hx hl hw => ?taken⟩, fun s e old hlen => ⟨fun width write ht ha => ?parts,
    fun w width hl => if_pos hl, valueToWrite_swap old, valueToWrite_cswap old, fun h => ?sum⟩⟩
  case next =>
    rw [exec_lockedSequenceNextCycle hr, lockedNextCycle, if_pos ⟨he, hb⟩, startCycle_of_plan hx hp hc, hl, if_pos rfl, ← he]
    rfl
  case nothing =>
    rw [exec_lockedSequenceNextCycle hr, lockedNextCycle, if_neg fun hn => h.elim (fun h => h hn.1) (fun h => h hn.2)]
  case parts => exact ⟨lockedPart_positions width write ht ha, fun c hc => lockedPart_cycle hc⟩
  case sum =>
    exact ⟨by rw [valueToWrite_add old h, bytesOf_length], valueOf_valueToWrite_add old h⟩
  case taken =>
    intro e narrowed now singles left u old held
    have htaken : takenBeat i b answer width data s = u := by
      rw [takenBeat_of_locked data hrest hl]
      simp only [regroup_eq]
      rfl
    have hbus : u.bus = { s.bus with
        current := none, plan := left, width := now, waitCount := 0, lineBurst := false, burst := false } :=
      placeRead_bus ..
    have hentry : u.entry i = e := placeRead_entry ..
    have hexec : exec (.beatTaken waits answer width data) s = .next (if left = [] then endLockedPart i u else u) := by
      rw [exec_beatTaken _ _ _ _ hr, answerBeat_in_time _ (.inr he) hb hx hw, takeBeat_ends b width data (.inr hrest), htaken,
        endCycle_of_locked (by rw [hbus]; exact he), hbus]
    have hheld : holdOld i old u = held := rfl
    refine ⟨fun hp => ?goesOn, fun hp ho => ?ends, fun hp ho hc => ?unchanged, fun hp ho hc => ?writes⟩
    case goesOn => rw [hexec, if_neg hp]
    case ends => rw [hexec, if_pos hp, endLockedPart_of_held (by rw [hentry]; exact ho)]
    case unchanged =>
      rw [hexec, if_pos hp, endLockedPart_of_none (by rw [hentry]; exact ho), hentry, if_pos hc]
      rfl
    case writes =>
      have hopen : (u.entry i).state ≠ .free := by
        rw [hentry]
        have := executing_state hx
        simp [e, this]
      have hnew : held.entry i = { e with old := some old } := by
        rw [← hheld, holdOld_entry i old u hopen, if_pos rfl, hentry]
      rw [hexec, if_pos hp, endLockedPart_of_none (by rw [hentry]; exact ho), hentry, if_neg hc]
      show Host.Outcome.next (buildWritePart i held) = _
      rw [buildWritePart, hnew]
      have hwidth : held.bus.width = now := by
        show u.bus.width = now
        rw [hbus]
      rw [hwidth]
      rfl

end Sys2Proof.Machine
end

section
/-! PROOFS. The formats on the line (spec/01, section 1.10): bytes and fields, the check, cycle records, schedule entries and
window records read back. -/

namespace Sys2Proof.Machine

/-! ### Bits of a byte, as numbers -/

theorem getLsbD_eq_decide {w : Nat} (b : BitVec w) (i : Nat) : b.getLsbD i = decide (b.toNat / 2 ^ i % 2 = 1) :=
  Nat.testBit_eq_decide_div_mod_eq

theorem toNat_and_low (b : Byte) : (b &&& 0x3F).toNat = b.toNat % 64 := by
  rw [BitVec.toNat_and]
  exact Nat.and_two_pow_sub_one_eq_mod b.toNat 6

theorem toNat_ushiftRight_6 (b : Byte) : (b >>> 6).toNat = b.toNat / 64 := by
  rw [BitVec.toNat_ushiftRight, Nat.shiftRight_eq_div_pow]

/-- A field beside another one, in bits that the other leaves 0. -/
theorem toNat_shiftLeft_or (k : Nat) {a b : Byte} (ha : a.toNat * 2 ^ k < 256) (hb : b.toNat < 2 ^ k) :
    ((a <<< k) ||| b).toNat = a.toNat * 2 ^ k + b.toNat := by
  rw [BitVec.toNat_or, BitVec.toNat_shiftLeft, Nat.shiftLeft_eq, Nat.mod_eq_of_lt ha, ← Nat.shiftLeft_eq,
    Nat.shiftLeft_add_eq_or_of_lt hb]

/-- Bits that a mask shows to be 0. -/
theorem getLsbD_of_and_eq_zero {b mask : Byte} (h : b &&& mask = 0) {i : Nat} (hi : mask.getLsbD i = true) :
    b.getLsbD i = false := by
  have hbit : (b &&& mask).getLsbD i = false := by rw [h]; exact BitVec.getLsbD_zero
  rw [BitVec.getLsbD_and, hi, Bool.and_true] at hbit
  exact hbit

/-! ### Fields (section 1.10) -/

theorem halfBytes_toNat (h : Half) : (halfBytes h).map BitVec.toNat = [h.toNat / 256, h.toNat % 256] := by
  have := h.isLt
  simp only [halfBytes, List.map_cons, List.map_nil, BitVec.extractLsb'_toNat, Nat.shiftRight_eq_div_pow]
  simp only [List.cons.injEq, and_true]
  omega

theorem wordBytes_toNat (w : Word) : (wordBytes w).map BitVec.toNat
    = [w.toNat / 2 ^ 24, w.toNat / 2 ^ 16 % 256, w.toNat / 2 ^ 8 % 256, w.toNat % 256] := by
  have := w.isLt
  simp only [wordBytes, List.map_cons, List.map_nil, BitVec.extractLsb'_toNat, Nat.shiftRight_eq_div_pow]
  simp only [List.cons.injEq, true_and, and_true]
  omega

/-- A field's bytes are those it was read from. -/
theorem halfBytes_append (a b : Byte) : halfBytes (a ++ b : BitVec 16) = [a, b] := by
  unfold halfBytes
  rw [List.cons.injEq, List.cons.injEq]
  refine ⟨?_, ?_, rfl⟩
  · exact BitVec.extractLsb'_append_eq_left
  · exact BitVec.extractLsb'_append_eq_right

theorem wordBytes_append (a b c d : Byte) : wordBytes ((a ++ b : BitVec 16) ++ (c ++ d : BitVec 16) : BitVec 32) = [a, b, c, d] := by
  have h24 : ((a ++ b : BitVec 16) ++ (c ++ d : BitVec 16)).extractLsb' 24 8 = a :=
    (BitVec.extractLsb'_append_eq_of_le (by decide)).trans BitVec.extractLsb'_append_eq_left
  have h16 : ((a ++ b : BitVec 16) ++ (c ++ d : BitVec 16)).extractLsb' 16 8 = b :=
    (BitVec.extractLsb'_append_eq_of_le (by decide)).trans BitVec.extractLsb'_append_eq_right
  have h8 : ((a ++ b : BitVec 16) ++ (c ++ d : BitVec 16)).extractLsb' 8 8 = c :=
    (BitVec.extractLsb'_append_eq_of_add_le (by decide)).trans BitVec.extractLsb'_append_eq_left
  have h0 : ((a ++ b : BitVec 16) ++ (c ++ d : BitVec 16)).extractLsb' 0 8 = d :=
    (BitVec.extractLsb'_append_eq_of_add_le (by decide)).trans BitVec.extractLsb'_append_eq_right
  exact congr (congrArg List.cons h24) (congr (congrArg List.cons h16) (congr (congrArg List.cons h8)
    (congrArg (fun x => [x]) h0)))

/-! ### The check (R4) -/

theorem checkBit_eq (r : Half) (b : Bool) :
    checkBit r b = if b = r.getLsbD 15 then r <<< 1 else (r <<< 1) ^^^ 0x8005#16 := by
  unfold checkBit
  rw [BitVec.msb_eq_getLsbD_last]
  cases b <;> cases r.getLsbD 15 <;> rfl

theorem check_append (bytes : List Byte) (x : Byte) : check (bytes ++ [x])
    = [7, 6, 5, 4, 3, 2, 1, 0].foldl (fun (remainder : Half) (i : Nat) =>
        if x.getLsbD i = remainder.getLsbD 15 then remainder <<< 1 else (remainder <<< 1) ^^^ 0x8005#16) (check bytes) := by
  simp only [check, List.foldl_append, List.foldl_cons, List.foldl_nil, checkByte, checkBit_eq]

/-! ### Cycle records (R2) -/

theorem judgeCycle_cycleRecord (number : Half) (slotCount : Byte) : judgeCycle (cycleRecord number slotCount)
    = if 1 ≤ slotCount.toNat ∧ slotCount.toNat ≤ 240 then some { number := number, slotCount := slotCount } else none := by
  have hn : halfAt (cycleRecord number slotCount) 0 = number := halfBytes_join number
  have hc : halfAt (cycleRecord number slotCount) 4 = check ((cycleRecord number slotCount).take 4) := halfBytes_join _
  have hl : (cycleRecord number slotCount).length = 6 := rfl
  have h2 : byteAt (cycleRecord number slotCount) 2 = slotCount := rfl
  have h3 : byteAt (cycleRecord number slotCount) 3 = 1 := rfl
  simp only [judgeCycle, hn, hc, hl, h2, h3, true_and]

theorem eq_cycleRecord_of_judgeCycle {record : List Byte} {c : CycleInfo} (h : judgeCycle record = some c) :
    record = cycleRecord c.number c.slotCount := by
  unfold judgeCycle at h
  split at h
  · rename_i hgood
    obtain ⟨hlen, hcheck, hversion, _⟩ := hgood
    match record, hlen with
    | [a, b, sc, v, x, y], _ =>
      cases h
      have hv : v = 1 := hversion
      have hxy : (x ++ y : BitVec 16) = check [a, b, sc, v] := hcheck
      have hhead : halfBytes (a ++ b : BitVec 16) ++ [sc, 1] = [a, b, sc, v] := by rw [halfBytes_append, hv]; rfl
      show _ = halfBytes (a ++ b : BitVec 16) ++ [sc, 1] ++ halfBytes (check (halfBytes (a ++ b : BitVec 16) ++ [sc, 1]))
      rw [hhead, ← hxy, halfBytes_append]
      rfl
  · cases h

/-! ### Schedule entries (R22, R35) -/

theorem Action.code_lt (a : Action) : a.code.toNat < 4 := by cases a <;> decide

theorem Action.ofCode_code (a : Action) : Action.ofCode a.code = a := by cases a <;> rfl

theorem Action.code_ofCode {c : Byte} (h : c.toNat < 4) : (Action.ofCode c).code = c := by
  have hc : c.toNat = 0 ∨ c.toNat = 1 ∨ c.toNat = 2 ∨ c.toNat = 3 := by omega
  rcases hc with h | h | h | h <;> rw [show c = BitVec.ofNat 8 c.toNat by simp, h] <;> rfl

theorem SchedEntry.toBytes_eq (e : SchedEntry) :
    e.toBytes = [(e.action.code <<< 6) ||| e.source.getD 0, e.channel.getD 0x80] := by
  unfold SchedEntry.toBytes nodeByte
  cases e.channel <;> rfl

theorem toNat_action_field (a : Action) {n : Byte} (h : n.toNat < 64) :
    ((a.code <<< 6) ||| n).toNat = a.code.toNat * 64 + n.toNat :=
  toNat_shiftLeft_or 6 (by have := a.code_lt; omega) h

/-- A node number that may be absent, read back from its byte. -/
theorem nodeField_eq {source : Option Byte} (h : ∀ n, source = some n → isNode n = true) :
    (source.getD 0).toNat ≤ 62 ∧ (if source.getD 0 = 0 then none else some (source.getD 0)) = source := by
  cases source with
  | none => exact ⟨by decide, rfl⟩
  | some n =>
    have hn := h n rfl
    simp only [isNode, Bool.and_eq_true, decide_eq_true_eq] at hn
    have h0 : n ≠ 0 := fun h0 => by simp [h0] at hn
    exact ⟨hn.2, if_neg h0⟩

theorem SchedEntry.ofBytes_toBytes {e : SchedEntry} (h : e.law) :
    SchedEntry.ofBytes (byteAt e.toBytes 0) (byteAt e.toBytes 1) = some e := by
  obtain ⟨hchannel, hsource⟩ := h
  obtain ⟨hle, hback⟩ := nodeField_eq hsource
  have hb0 : byteAt e.toBytes 0 = (e.action.code <<< 6) ||| e.source.getD 0 := by rw [SchedEntry.toBytes_eq]; rfl
  have hb1 : byteAt e.toBytes 1 = e.channel.getD 0x80 := by rw [SchedEntry.toBytes_eq]; rfl
  have hfield := toNat_action_field e.action (n := e.source.getD 0) (by omega)
  have hand : ((e.action.code <<< 6) ||| e.source.getD 0) &&& 0x3F = e.source.getD 0 :=
    BitVec.eq_of_toNat_eq (by rw [toNat_and_low, hfield]; omega)
  have hshift : ((e.action.code <<< 6) ||| e.source.getD 0) >>> 6 = e.action.code :=
    BitVec.eq_of_toNat_eq (by rw [toNat_ushiftRight_6, hfield]; omega)
  have h63 : e.source.getD 0 ≠ 0x3F := fun h63 => by rw [h63] at hle; exact absurd hle (by decide)
  have hch : ¬((e.channel.getD 0x80).getLsbD 6 = true
        ∨ (e.channel.getD 0x80).getLsbD 7 = true ∧ e.channel.getD 0x80 &&& 0x3F ≠ 0)
      ∧ (if (e.channel.getD 0x80).getLsbD 7 then none else some (e.channel.getD 0x80 &&& 0x3F)) = e.channel := by
    cases hc : e.channel with
    | none => exact ⟨by decide, rfl⟩
    | some c =>
      have hlt := hchannel c hc
      have h6 : c.getLsbD 6 = false := by rw [getLsbD_eq_decide]; exact decide_eq_false (by omega)
      have h7 : c.getLsbD 7 = false := by rw [getLsbD_eq_decide]; exact decide_eq_false (by omega)
      have hlow : c &&& 0x3F = c := BitVec.eq_of_toNat_eq (by rw [toNat_and_low]; omega)
      simp only [Option.getD_some, h6, h7, hlow]
      simp
  unfold SchedEntry.ofBytes
  dsimp only
  rw [hb0, hb1, hand, hshift, hback, hch.2, if_neg fun hbad => hbad.elim h63 hch.1, Action.ofCode_code]

theorem SchedEntry.toBytes_ofBytes {b0 b1 : Byte} {e : SchedEntry} (h : SchedEntry.ofBytes b0 b1 = some e) :
    e.toBytes = [b0, b1] := by
  unfold SchedEntry.ofBytes at h
  dsimp only at h
  split at h
  · cases h
  · rename_i hgood
    simp only [not_or, not_and, not_not, Bool.not_eq_true] at hgood
    obtain ⟨_, h6, h7⟩ := hgood
    cases h
    rw [SchedEntry.toBytes_eq]
    have hsource : (if b0 &&& 0x3F = 0 then none else some (b0 &&& 0x3F) : Option Byte).getD 0 = b0 &&& 0x3F := by
      split
      · rename_i h0; exact h0.symm
      · rfl
    have hlow := toNat_and_low b0
    have hhigh := toNat_ushiftRight_6 b0
    have hlt := b0.isLt
    have hcode : (Action.ofCode (b0 >>> 6)).code = b0 >>> 6 := Action.code_ofCode (by omega)
    have hfirst : ((Action.ofCode (b0 >>> 6)).code <<< 6) ||| (b0 &&& 0x3F) = b0 := by
      refine BitVec.eq_of_toNat_eq ?_
      rw [toNat_action_field _ (by omega), hcode]
      omega
    have hsecond : (if b1.getLsbD 7 then none else some (b1 &&& 0x3F) : Option Byte).getD 0x80 = b1 := by
      have hlow1 := toNat_and_low b1
      have hlt1 := b1.isLt
      rw [getLsbD_eq_decide, decide_eq_false_iff_not] at h6
      split
      · rename_i hany
        have hzero : (b1 &&& 0x3F).toNat = 0 := by rw [h7 hany]; rfl
        rw [getLsbD_eq_decide, decide_eq_true_eq] at hany
        exact BitVec.eq_of_toNat_eq (by show 128 = b1.toNat; omega)
      · rename_i hone
        rw [getLsbD_eq_decide, decide_eq_true_eq] at hone
        exact BitVec.eq_of_toNat_eq (by rw [Option.getD_some]; omega)
    simp only [hsource, hfirst, hsecond]

/-! ### Window records (R91, R93, R95) -/

theorem Attrs.code_eq (a : Attrs) : a.code = BitVec.ofNat 8 ((if a.read then 1 else 0) + (if a.write then 2 else 0)
    + (if a.lock then 4 else 0) + (if a.burst then 8 else 0) + (if a.line then 16 else 0)) := by
  obtain ⟨read, write, lock, burst, line⟩ := a
  revert read write lock burst line
  decide

theorem Attrs.ofCode_code (a : Attrs) : Attrs.ofCode a.code = a := by
  obtain ⟨read, write, lock, burst, line⟩ := a
  revert read write lock burst line
  decide

theorem Attrs.code_and (a : Attrs) : a.code &&& 0xE0 = 0 := by
  obtain ⟨read, write, lock, burst, line⟩ := a
  revert read write lock burst line
  decide

/-- The weight of a bit of a byte. -/
theorem ite_getLsbD (b : Byte) (i k : Nat) : (if b.getLsbD i then k else 0) = k * (b.toNat / 2 ^ i % 2) := by
  rw [getLsbD_eq_decide]
  by_cases h : b.toNat / 2 ^ i % 2 = 1
  · simp [h]
  · have : b.toNat / 2 ^ i % 2 = 0 := by omega
    simp [this]

/-- An attributes byte without reserved bits is that of its attributes. -/
theorem Attrs.code_ofCode {b : Byte} (h : b &&& 0xE0 = 0) : (Attrs.ofCode b).code = b := by
  have h5 := getLsbD_of_and_eq_zero h (i := 5) rfl
  have h6 := getLsbD_of_and_eq_zero h (i := 6) rfl
  have h7 := getLsbD_of_and_eq_zero h (i := 7) rfl
  rw [getLsbD_eq_decide, decide_eq_false_iff_not] at h5 h6 h7
  have hlt := b.isLt
  rw [Attrs.code_eq]
  refine BitVec.eq_of_toNat_eq ?_
  show (BitVec.ofNat 8 ((if b.getLsbD 0 then 1 else 0) + (if b.getLsbD 1 then 2 else 0) + (if b.getLsbD 2 then 4 else 0)
    + (if b.getLsbD 3 then 8 else 0) + (if b.getLsbD 4 then 16 else 0))).toNat = b.toNat
  rw [ite_getLsbD, ite_getLsbD, ite_getLsbD, ite_getLsbD, ite_getLsbD, BitVec.toNat_ofNat]
  omega

theorem Width.ofByte_bytes (w : Width) : Width.ofByte (BitVec.ofNat 8 w.bytes) = some w := by cases w <;> rfl

theorem Width.bytes_ofByte {b : Byte} {w : Width} (h : Width.ofByte b = some w) : BitVec.ofNat 8 w.bytes = b := by
  unfold Width.ofByte at h
  split at h
  · rename_i hb; cases h; exact hb.symm
  · split at h
    · rename_i hb; cases h; exact hb.symm
    · split at h
      · rename_i hb; cases h; exact hb.symm
      · cases h

theorem Window.toBytes_eq (w : Window) (i : Nat) : w.toBytes i
    = [BitVec.ofNat 8 i, (if w.valid then 0x80 else 0) ||| BitVec.ofNat 8 w.inUse, w.attrs.code, BitVec.ofNat 8 w.width.bytes]
      ++ wordBytes w.base ++ halfBytes w.size ++ [w.budget, w.owner.getD 0] := by
  unfold Window.toBytes
  cases w.valid <;> rfl

/-- The byte of the valid bit and the in-use count. -/
theorem toNat_inUse_field {n : Nat} (h : n ≤ 15) : ((0x80 : Byte) ||| BitVec.ofNat 8 n).toNat = 128 + n := by
  have hn : (BitVec.ofNat 8 n).toNat = n := by rw [BitVec.toNat_ofNat]; omega
  have := toNat_shiftLeft_or 7 (a := 1) (b := BitVec.ofNat 8 n) (by decide) (by omega)
  rw [hn] at this
  exact this

theorem Window.ofBytes_toBytes {w : Window} {i : Nat} (hlaw : w.law) (hvalid : w.valid = true) (huse : w.inUse ≤ 8) :
    Window.ofBytes (w.toBytes i) = some { w with inUse := 0 } := by
  obtain ⟨hbase, hsize, hlimit, hbudget, howner⟩ := hlaw hvalid
  obtain ⟨hle, hback⟩ := nodeField_eq howner
  have hb1 : byteAt (w.toBytes i) 1 = (0x80 : Byte) ||| BitVec.ofNat 8 w.inUse := by
    rw [Window.toBytes_eq, if_pos hvalid]; rfl
  have hb2 : byteAt (w.toBytes i) 2 = w.attrs.code := rfl
  have hb3 : byteAt (w.toBytes i) 3 = BitVec.ofNat 8 w.width.bytes := rfl
  have hb4 : wordAt (w.toBytes i) 4 = w.base := wordBytes_join w.base
  have hb8 : halfAt (w.toBytes i) 8 = w.size := halfBytes_join w.size
  have hb10 : byteAt (w.toBytes i) 10 = w.budget := rfl
  have hb11 : byteAt (w.toBytes i) 11 = w.owner.getD 0 := rfl
  have hmask : ((0x80 : Byte) ||| BitVec.ofNat 8 w.inUse) &&& 0x70 = 0 := by
    have : ∀ n ≤ 8, ((0x80 : Byte) ||| BitVec.ofNat 8 n) &&& 0x70 = 0 := by decide
    exact this _ huse
  have hgood : ¬(((0x80 : Byte) ||| BitVec.ofNat 8 w.inUse) &&& 0x70 ≠ 0 ∨ w.attrs.code &&& 0xE0 ≠ 0 ∨ w.base.toNat % 256 ≠ 0
      ∨ w.size = 0 ∨ w.base.toNat + 256 * w.size.toNat > 2 ^ 32 ∨ w.budget = 0 ∨ (w.owner.getD 0).toNat > 62) := by
    simp only [not_or, not_not, Nat.not_lt, gt_iff_lt]
    exact ⟨hmask, w.attrs.code_and, hbase, hsize, hlimit, hbudget, hle⟩
  unfold Window.ofBytes
  dsimp only
  rw [hb1, hb2, hb3, hb4, hb8, hb10, hb11, Width.ofByte_bytes]
  dsimp only
  rw [if_neg hgood, hback, Attrs.ofCode_code, ← hvalid]

theorem Window.ofBytes_valid {r : List Byte} {w : Window} (h : Window.ofBytes r = some w) : w.valid = true ∧ w.inUse = 0 := by
  unfold Window.ofBytes at h
  dsimp only at h
  split at h
  · cases h
  · split at h
    · cases h
    · cases h; exact ⟨rfl, rfl⟩

/-- A window record with the valid bit spells its window with the count that it carries. -/
theorem Window.toBytes_ofBytes {record : List Byte} {w : Window} (hlen : record.length = 12)
    (hbit : (byteAt record 1).getLsbD 7 = true) (h : Window.ofBytes record = some w) :
    ({ w with inUse := (byteAt record 1).toNat % 16 } : Window).toBytes (byteAt record 0).toNat = record := by
  match record, hlen with
  | [b0, b1, b2, b3, a0, a1, a2, a3, s0, s1, b10, b11], _ =>
    have hbit : b1.getLsbD 7 = true := hbit
    unfold Window.ofBytes at h
    dsimp only at h
    split at h
    · cases h
    · rename_i width hwidth
      split at h
      · cases h
      · rename_i hgood
        cases h
        simp only [not_or, not_not] at hgood
        obtain ⟨hcount, hattrs, _⟩ := hgood
        have hattrs : (Attrs.ofCode b2).code = b2 := Attrs.code_ofCode hattrs
        have hwidth : BitVec.ofNat 8 width.bytes = b3 := Width.bytes_ofByte hwidth
        have hfirst : BitVec.ofNat 8 b0.toNat = b0 := by simp
        have huse : (0x80 : Byte) ||| BitVec.ofNat 8 (b1.toNat % 16) = b1 := by
          have h4 := getLsbD_of_and_eq_zero hcount (i := 4) rfl
          have h5 := getLsbD_of_and_eq_zero hcount (i := 5) rfl
          have h6 := getLsbD_of_and_eq_zero hcount (i := 6) rfl
          have h4 : ¬(b1.toNat / 2 ^ 4 % 2 = 1) := by rw [← decide_eq_false_iff_not, ← getLsbD_eq_decide]; exact h4
          have h5 : ¬(b1.toNat / 2 ^ 5 % 2 = 1) := by rw [← decide_eq_false_iff_not, ← getLsbD_eq_decide]; exact h5
          have h6 : ¬(b1.toNat / 2 ^ 6 % 2 = 1) := by rw [← decide_eq_false_iff_not, ← getLsbD_eq_decide]; exact h6
          rw [getLsbD_eq_decide, decide_eq_true_eq] at hbit
          have hlt := b1.isLt
          refine BitVec.eq_of_toNat_eq ?_
          rw [toNat_inUse_field (by omega)]
          omega
        have howner : (if b11 = 0 then none else some b11 : Option Byte).getD 0 = b11 := by
          split
          · rename_i h0; exact h0.symm
          · rfl
        have hbase : wordBytes ((a0 ++ a1 : BitVec 16) ++ (a2 ++ a3 : BitVec 16) : BitVec 32) = [a0, a1, a2, a3] :=
          wordBytes_append a0 a1 a2 a3
        have hsize : halfBytes (s0 ++ s1 : BitVec 16) = [s0, s1] := halfBytes_append s0 s1
        rw [Window.toBytes_eq]
        show [BitVec.ofNat 8 b0.toNat, (0x80 : Byte) ||| BitVec.ofNat 8 (b1.toNat % 16), (Attrs.ofCode b2).code,
            BitVec.ofNat 8 width.bytes] ++ wordBytes ((a0 ++ a1 : BitVec 16) ++ (a2 ++ a3 : BitVec 16) : BitVec 32)
            ++ halfBytes (s0 ++ s1 : BitVec 16) ++ [b10, (if b11 = 0 then none else some b11 : Option Byte).getD 0] = _
        rw [hfirst, huse, hattrs, hwidth, hbase, hsize, howner]
        rfl

/-- Settles O60: the check, the fields, and each record's reading and writing. -/
theorem recordsReadBack : Obligations.RecordsReadBack := by
  refine ⟨⟨rfl, check_append⟩, halfBytes_toNat, wordBytes_toNat, fun _ _ => rfl, judgeCycle_cycleRecord,
    fun record c h => eq_cycleRecord_of_judgeCycle h, rfl, SchedEntry.toBytes_eq, fun e h => SchedEntry.ofBytes_toBytes h,
    fun b0 b1 e h => ⟨SchedEntry.law_ofBytes h, SchedEntry.toBytes_ofBytes h⟩, fun w i => ?layout, rfl,
    fun w i hlaw hvalid huse hi => ⟨rfl, ?number, Window.ofBytes_toBytes hlaw hvalid huse⟩, fun record w hlen hbit h => ?read⟩
  case layout => rw [Window.toBytes_eq, Attrs.code_eq]
  case number =>
    show (BitVec.ofNat 8 i).toNat = i
    rw [BitVec.toNat_ofNat]
    omega
  case read =>
    obtain ⟨hvalid, huse⟩ := Window.ofBytes_valid h
    exact ⟨Window.law_ofBytes h, hvalid, huse, Window.toBytes_ofBytes hlen hbit h⟩

end Sys2Proof.Machine
end

section
/-! PROOFS. Commands as the slots that they spell (spec/01, section 1.10; R3, R4). -/

namespace Sys2Proof.Machine

/-! ### Codes -/

theorem ReqOp.code_of_ofCode {c : Byte} {op : ReqOp} (h : ReqOp.ofCode c = some op) : c = op.code := by
  unfold ReqOp.ofCode at h
  repeat' split at h
  all_goals cases h <;> assumption

theorem MgmtOp.code_of_ofCode {c : Byte} {op : MgmtOp} (h : MgmtOp.ofCode c = some op) : c = op.code := by
  have := List.find?_some h
  exact (of_decide_eq_true this).symm

/-! ### A command is its arrival -/

theorem judgeSlot_mgmtArrival (m : MgmtSlot) (op : MgmtOp) : judgeSlot (m.arrival op).raw = m.arrival op :=
  judgeSlot_encodeSlot _ _ _ _ _ (padTo_length _ _)

theorem judgeSlot_segArrival (g : SegSlot) (op : ReqOp) (offset : Half) :
    judgeSlot (g.arrival op offset).raw = g.arrival op offset :=
  judgeSlot_encodeSlot _ _ _ _ _ (padTo_length _ _)

theorem fits_mapParam {m : MgmtSlot} (i : Nat) (f : Byte → Byte) (h : m.fits = true) : (m.mapParam i f).fits = true := by
  unfold MgmtSlot.fits at *
  simp only [Bool.and_eq_true, decide_eq_true_eq] at h ⊢
  obtain ⟨⟨hheader, _⟩, hargs⟩ := h
  exact ⟨⟨hheader, by simp [MgmtSlot.mapParam]⟩, hargs⟩

theorem fits_mapArg {m : MgmtSlot} (i : Nat) (f : Byte → Byte) (h : m.fits = true) : (m.mapArg i f).fits = true := by
  unfold MgmtSlot.fits at *
  simp only [Bool.and_eq_true, decide_eq_true_eq] at h ⊢
  obtain ⟨⟨hheader, hparam⟩, hargs⟩ := h
  exact ⟨⟨hheader, hparam⟩, by simpa [MgmtSlot.mapArg] using hargs⟩

/-- A management command is the arrival of its request's slot. -/
theorem exec_of_managementRequest {c : Instr} {m : MgmtSlot} {op : MgmtOp} (h : c.managementRequest = some (m, op)) (s : State) :
    exec c s = arrive (m.arrival op) s := by
  cases c <;> cases h <;> rfl

theorem fits_of_managementRequest {c : Instr} {m : MgmtSlot} {op : MgmtOp} (h : c.managementRequest = some (m, op))
    (hw : c.wellFormed = true) : m.fits = true := by
  cases c <;> cases h
  case schedCommitNext | schedCommitAt | stop | stopWithFlush | abort | abortQuiet => exact fits_mapParam _ _ hw
  case windowLoad | windowInvalidate => exact fits_mapArg _ _ hw
  all_goals exact hw

/-- A request command is the arrival of its segment's slot. -/
theorem exec_of_segmentRequest {c : Instr} {g : SegSlot} {op : ReqOp} {offset : Half}
    (h : c.segmentRequest = some (g, op, offset)) (s : State) : exec c s = arrive (g.arrival op offset) s := by
  cases c <;> cases h <;> rfl

theorem fits_of_segmentRequest {c : Instr} {g : SegSlot} {op : ReqOp} {offset : Half}
    (h : c.segmentRequest = some (g, op, offset)) (hw : c.wellFormed = true) : g.fits = true := by
  cases c <;> cases h
  case laterSegment => exact (Bool.and_eq_true _ _ ▸ hw : _ ∧ _).1
  all_goals exact hw

theorem padTo_take {n : Nat} {l : List Byte} (h : l.length ≤ n) : (padTo n l).take l.length = l := by
  unfold padTo
  rw [List.take_take, Nat.min_eq_left h, List.take_left]

theorem headerInRange_of_mgmtFits {m : MgmtSlot} (h : m.fits = true) :
    headerInRange m.index 0 m.size = true ∧ m.param.length = 8 ∧ m.args.length ≤ capacityOf m.size := by
  unfold MgmtSlot.fits headerFits at h
  simp only [Bool.and_eq_true, decide_eq_true_eq] at h
  obtain ⟨⟨⟨hindex, hsize⟩, hparam⟩, hargs⟩ := h
  exact ⟨by simp [headerInRange, hindex, hsize], hparam, hargs⟩

theorem headerInRange_of_segFits {g : SegSlot} (h : g.fits = true) :
    headerInRange g.index g.channel g.size = true ∧ g.channel ≠ 0 ∧ g.data.length ≤ capacityOf g.size := by
  unfold SegSlot.fits headerFits at h
  simp only [Bool.and_eq_true, decide_eq_true_eq] at h
  obtain ⟨⟨⟨⟨hindex, hsize⟩, hlow⟩, hhigh⟩, hdata⟩ := h
  exact ⟨by simp [headerInRange, hindex, hsize, hhigh], fun h0 => by simp [h0] at hlow, hdata⟩

/-! ### The judgement of a slot (R3) -/

theorem headerInRange_iff (index channel size : Byte) :
    headerInRange index channel size = true ↔ index.toNat ≤ 239 ∧ channel.toNat ≤ 63 ∧ size.toNat ≤ 15 := by
  simp only [headerInRange, Bool.and_eq_true, decide_eq_true_eq]
  omega

theorem judgeSlot_headerGood (slot : RawSlot) : (judgeSlot slot).headerGood = true ↔
    ∃ index channel size high low : Byte, slot.header = [index, channel, size, high, low]
      ∧ (high ++ low : Half) = check [index, channel, size] ∧ index.toNat ≤ 239 ∧ channel.toNat ≤ 63 ∧ size.toNat ≤ 15
      ∧ slot.mark ≠ none ∧ slot.body.length = 16 * (size.toNat + 1) + 2 := by
  show (decide (slot.header.length = 5) && decide (halfAt slot.header 3 = check (slot.header.take 3))
      && headerInRange (byteAt slot.header 0) (byteAt slot.header 1) (byteAt slot.header 2) && slot.mark.isSome
      && decide (slot.body.length = payloadLength (byteAt slot.header 2) + 2)) = true ↔ _
  simp only [Bool.and_eq_true, decide_eq_true_eq, headerInRange_iff, Option.isSome_iff_ne_none]
  constructor
  · rintro ⟨⟨⟨⟨hlen, hcheck⟩, hindex, hchannel, hsize⟩, hmark⟩, hbody⟩
    match hh : slot.header, hlen with
    | [index, channel, size, high, low], _ =>
      rw [hh] at hcheck hindex hchannel hsize hbody
      exact ⟨index, channel, size, high, low, rfl, hcheck, hindex, hchannel, hsize, hmark, hbody⟩
  · rintro ⟨index, channel, size, high, low, hh, hcheck, hindex, hchannel, hsize, hmark, hbody⟩
    rw [hh]
    exact ⟨⟨⟨⟨rfl, hcheck⟩, hindex, hchannel, hsize⟩, hmark⟩, hbody⟩

/-- A framed payload and its check, as they stand in the slot's body. -/
theorem body_parts {payload : List Byte} {top bottom : Byte} {n : Nat} (h : (payload ++ [top, bottom]).length = n + 2) :
    (payload ++ [top, bottom]).take n = payload ∧ halfAt (payload ++ [top, bottom]) n = (top ++ bottom : BitVec 16) := by
  have hn : n = payload.length := by simpa using h.symm
  subst hn
  refine ⟨List.take_left, ?_⟩
  simp [halfAt, byteAt]

/-- Settles O59: the codes, the commands as arrivals, and the judgement of any slot. -/
theorem commandsAreTheSlotsTheySpell : Obligations.CommandsAreTheSlotsTheySpell := by
  refine ⟨⟨rfl, ReqOp.ofCode_code, fun _ _ h => ReqOp.code_of_ofCode h, rfl, MgmtOp.ofCode_code,
    fun _ _ h => MgmtOp.code_of_ofCode h, rfl⟩, fun c m op s h hw => ?management, fun c g op offset s h hw => ?segments,
    fun slot => ⟨judgeSlot_headerGood slot, fun index channel size high low kind payload top bottom hgood hh hmark hbody => ?payload⟩⟩
  case management =>
    obtain ⟨hrange, hparam, hargs⟩ := headerInRange_of_mgmtFits (fits_of_managementRequest h hw)
    intro raw a r
    have ha : a = m.arrival op := judgeSlot_mgmtArrival m op
    have hr : r = m.arrived op := by
      show MgmtRecord.ofBytes a.payload = _
      rw [ha]
      exact m.ofBytes_arrival op
    refine ⟨?exec, ?_⟩
    case exec =>
      rw [exec_of_managementRequest h]
      exact congrArg (arrive · s) ha.symm
    rw [ha, hr]
    exact ⟨hrange, rfl, rfl, rfl, rfl, rfl, padTo_length _ _, rfl, rfl, rfl, MgmtOp.ofCode_code op, rfl, rfl, rfl,
      padTo_self hparam, padTo_take hargs⟩
  case segments =>
    obtain ⟨hrange, _, hdata⟩ := headerInRange_of_segFits (fits_of_segmentRequest h hw)
    intro raw a r
    have ha : a = g.arrival op offset := judgeSlot_segArrival g op offset
    have hr : r = g.arrived op offset := by
      show Segment.ofBytes a.payload = _
      rw [ha]
      exact g.ofBytes_arrival op offset
    refine ⟨?exec, ?_⟩
    case exec =>
      rw [exec_of_segmentRequest h]
      exact congrArg (arrive · s) ha.symm
    rw [ha, hr]
    exact ⟨hrange, rfl, rfl, rfl, rfl, rfl, padTo_length _ _, rfl, rfl, rfl, ReqOp.ofCode_code op, rfl, rfl, rfl, rfl, rfl, rfl,
      padTo_take hdata⟩
  case payload =>
    obtain ⟨index', channel', size', high', low', hh', _, _, _, _, _, hlen⟩ := (judgeSlot_headerGood slot).1 hgood
    rw [hh] at hh'
    cases hh'
    rw [hbody] at hlen
    obtain ⟨htake, hhalf⟩ := body_parts hlen
    have hsize : byteAt slot.header 2 = size := by rw [hh]; rfl
    have hkind : (judgeSlot slot).kind = kind := by
      show slot.mark.getD .void = kind
      rw [hmark]; rfl
    refine ⟨by show byteAt slot.header 0 = index; rw [hh]; rfl, by show byteAt slot.header 1 = channel; rw [hh]; rfl, hsize, hkind,
      ?_, ?_⟩
    · show slot.body.take (payloadLength (byteAt slot.header 2)) = payload
      rw [hsize, hbody]
      exact htake
    · show decide (halfAt slot.body (payloadLength (byteAt slot.header 2))
        = payloadCheck (slot.mark.getD .void) (slot.body.take (payloadLength (byteAt slot.header 2)))) = true ↔ _
      rw [decide_eq_true_eq, hsize, hbody, hmark]
      rw [show (payload ++ [top, bottom]).take (payloadLength size) = payload from htake,
        show halfAt (payload ++ [top, bottom]) (payloadLength size) = (top ++ bottom : BitVec 16) from hhalf]
      rfl

end Sys2Proof.Machine
end

section
/-! PROOFS. A cycle mark in SYNC (spec/01, sections 1.6 and 1.7; R12 to R15): the state in which the blocks act, what each of
them does there, and the Ring Port's judgement of the record. -/

namespace Sys2Proof.Machine

/-! ### The state in which the blocks act -/

theorem due_eq_false_iff (c : CommitState) (number : Half) :
    c.due number = some false ↔ c = .pendingNext ∨ c = .pendingAt number := by
  unfold CommitState.due
  cases c with
  | none => simp
  | pendingNext => simp
  | pendingAt n =>
    have hzero : (number - n).toNat = 0 ↔ n = number := by
      constructor
      · intro h
        have : number - n = 0 := BitVec.eq_of_toNat_eq h
        exact (BitVec.sub_eq_iff_eq_add.1 this |>.trans (BitVec.zero_add n)).symm
      · rintro rfl
        simp
    simp only [hzero]
    by_cases h : n = number
    · simp [h]
    · simp only [h, if_false, reduceCtorEq, CommitState.pendingAt.injEq, false_or, iff_false]
      split <;> simp

theorem due_eq_true_iff (c : CommitState) (number : Half) :
    c.due number = some true ↔ ∃ n, c = .pendingAt n ∧ 1 ≤ (number - n).toNat ∧ (number - n).toNat ≤ 32767 := by
  unfold CommitState.due
  cases c with
  | none => simp
  | pendingNext => simp
  | pendingAt n =>
    dsimp only
    simp only [CommitState.pendingAt.injEq, exists_eq_left']
    split
    · simp only [Option.some.injEq, Bool.false_eq_true, false_iff]; omega
    · split
      · simp only [true_iff]; omega
      · simp only [reduceCtorEq, false_iff]; omega

theorem markCounted_eq (e : Entry) : e.markCounted = if e.state = .assembling then { e with gap := e.gap + 1 }
    else if e.state = .replying then { e with deadline := e.deadline + 1 } else e := by
  unfold Entry.markCounted
  cases e.state <;> rfl

/-- The state at a mark in SYNC with the Ring Port as `r`: the counts advanced, the cycle counted, and the banks swapped where
a commit is due in time. -/
theorem markedAs_eq (s : State) (r : RingPort) :
    swapInTime (countCycle (advanceCounts ((s.withRing r).withPrevIndex none))) = s.markedAs r := by
  have hentries : s.table.entries.map Entry.markCounted = s.table.entries.map (fun e =>
      if e.state = .assembling then { e with gap := e.gap + 1 }
      else if e.state = .replying then { e with deadline := e.deadline + 1 } else e) :=
    List.map_congr_left fun e _ => markCounted_eq e
  unfold swapInTime State.markedAs
  rw [← hentries]
  show (if s.sched.commit.due r.lastCycle = some false then _ else _) = _
  simp only [due_eq_false_iff]
  cases s.sched.commit with
  | none => rfl
  | pendingNext => rfl
  | pendingAt n =>
    by_cases h : n = r.lastCycle
    · simp only [h, if_pos, or_true]; rfl
    · simp only [h, if_neg, reduceCtorEq, CommitState.pendingAt.injEq, or_self, not_false_eq_true]; rfl

theorem markInSync_eq (acts : List (State → State)) (s : State) (r : RingPort) :
    markInSync acts ((s.withRing r).withPrevIndex none)
      = settle (inSomeOrder (markActs acts (s.markedAs r)) (s.markedAs r)) := by
  rw [← markedAs_eq]
  rfl

theorem markedAs_entry (s : State) (r : RingPort) (i : Nat) : (s.markedAs r).entry i = (s.entry i).markCounted := by
  rw [← markedAs_eq]
  unfold swapInTime
  split
  · exact advanceCounts_entry _ i
  · exact advanceCounts_entry _ i

/-- The banks where no commit is due in time. -/
theorem markedAs_sched_of_not_due {s : State} {r : RingPort} (h : s.sched.commit.due r.lastCycle ≠ some false) :
    (s.markedAs r).sched = s.sched := by
  rw [← markedAs_eq]
  exact (congrArg State.sched (if_neg h)).trans rfl

theorem markedAs_sched_of_due {s : State} {r : RingPort} (h : s.sched.commit.due r.lastCycle = some false) :
    (s.markedAs r).sched = s.sched.swapped r.lastCycle := by
  rw [← markedAs_eq]
  exact (congrArg State.sched (if_pos h)).trans rfl

theorem markedAs_late (s : State) (r : RingPort) :
    (s.markedAs r).sched.commit.due r.lastCycle = some true ↔ s.commitLateAt r.lastCycle := by
  by_cases h : s.sched.commit.due r.lastCycle = some false
  · have hn : ¬s.commitLateAt r.lastCycle := fun hl => by
      rw [State.commitLateAt, ← due_eq_true_iff, h] at hl
      cases hl
    rw [markedAs_sched_of_due h]
    simp only [hn, iff_false]
    exact fun h => nomatch h
  · rw [markedAs_sched_of_not_due h, due_eq_true_iff]
    rfl

theorem markedAs_gapReached (s : State) (r : RingPort) (i : Nat) :
    (s.markedAs r).gapReached i = true ↔ s.reachesGapLimit i := by
  have hp : (s.markedAs r).mgmt = s.mgmt := rfl
  unfold State.gapReached State.reachesGapLimit
  rw [markedAs_entry, hp, Bool.and_eq_true, decide_eq_true_eq, decide_eq_true_eq]
  unfold Entry.markCounted
  cases hs : (s.entry i).state <;> simp [hs]

theorem markedAs_deadlineReached (s : State) (r : RingPort) (i : Nat) :
    (s.markedAs r).deadlineReached i = true ↔ s.reachesDeadline i := by
  have hp : (s.markedAs r).mgmt = s.mgmt := rfl
  unfold State.deadlineReached State.reachesDeadline
  rw [markedAs_entry, hp, Bool.and_eq_true, decide_eq_true_eq, decide_eq_true_eq]
  unfold Entry.markCounted
  cases hs : (s.entry i).state <;> simp [hs]

theorem markedAs_someGapReached (s : State) (r : RingPort) :
    (s.markedAs r).someGapReached = true ↔ ∃ i ∈ s.table.order, s.reachesGapLimit i := by
  unfold State.someGapReached
  rw [List.any_eq_true]
  exact exists_congr fun i => and_congr_right fun _ => markedAs_gapReached s r i

theorem markedAs_someDeadlineReached (s : State) (r : RingPort) :
    (s.markedAs r).someDeadlineReached = true ↔ ∃ i, .entry i ∈ s.replyQueue ∧ s.reachesDeadline i := by
  unfold State.someDeadlineReached
  rw [List.any_eq_true]
  constructor
  · rintro ⟨m, hm, h⟩
    cases m with
    | desc d => cases h
    | entry i => exact ⟨i, hm, (markedAs_deadlineReached s r i).1 h⟩
  · rintro ⟨i, hi, h⟩
    exact ⟨.entry i, hi, (markedAs_deadlineReached s r i).2 h⟩

/-- The blocks' acts at a mark: the Ring Port's reports, then what expires. -/
theorem markActs_eq (acts : List (State → State)) (s : State) (r : RingPort) [Decidable (s.commitLateAt r.lastCycle)]
    [Decidable (∃ i ∈ s.table.order, s.reachesGapLimit i)] [Decidable (∃ i, .entry i ∈ s.replyQueue ∧ s.reachesDeadline i)] :
    markActs acts (s.markedAs r) = acts ++ (if s.commitLateAt r.lastCycle then [swapLate] else [])
      ++ (if ∃ i ∈ s.table.order, s.reachesGapLimit i then [expireGaps] else [])
      ++ (if ∃ i, .entry i ∈ s.replyQueue ∧ s.reachesDeadline i then [expireReplies] else []) := by
  unfold markActs
  rw [show (s.markedAs r).ring.lastCycle = r.lastCycle from rfl]
  simp only [markedAs_late, markedAs_someGapReached, markedAs_someDeadlineReached]

/-- A mark at which nothing expires: the Ring Port's reports alone. -/
theorem markInSync_of_nothing {s : State} {r : RingPort} (acts : List (State → State)) (h : s.nothingExpires r.lastCycle) :
    markInSync acts ((s.withRing r).withPrevIndex none) = settle (inSomeOrder acts (s.markedAs r)) := by
  classical
  obtain ⟨hgap, hdeadline, hlate⟩ := h
  rw [markInSync_eq, markActs_eq, if_neg hlate, if_neg fun ⟨i, _, hi⟩ => hgap i hi,
    if_neg fun ⟨i, _, hi⟩ => hdeadline i hi, List.append_nil, List.append_nil, List.append_nil]

/-! ### The Ring Port's judgement -/

/-- The Ring Port at a valid mark that leaves it in SYNC. -/
def State.syncRing (s : State) (record : RawRecord) (c : CycleInfo) : RingPort :=
  RingPort.syncAt { s.ring with lineOut := .record record } c

/-- The Ring Port at the first invalid record of a row. -/
def State.blindRing (s : State) (record : RawRecord) : RingPort := RingPort.blindMark { s.ring with lineOut := .record record }

theorem cycleMark_armed_successor {s : State} {record : RawRecord} {c : CycleInfo} (hs : s.ring.state = .armed)
    (hj : judgeCycle record.bytes = some c) (hn : c.number = s.ring.lastCycle + 1) :
    cycleMark record s = markInSync [] ((s.withRing (s.syncRing record c)).withPrevIndex none) := by
  rw [cycleMark_received record (by simp [hs]), hj]
  unfold judgeMark
  simp only [withPrevIndex_ring, withRing_ring, hs, hn, if_true]
  rfl

theorem cycleMark_armed_other {s : State} {record : RawRecord} {c : CycleInfo} (hs : s.ring.state = .armed)
    (hj : judgeCycle record.bytes = some c) (hn : c.number ≠ s.ring.lastCycle + 1) :
    cycleMark record s
      = (s.withRing (RingPort.armedAt { s.ring with lineOut := .record record } c)).withPrevIndex none := by
  rw [cycleMark_received record (by simp [hs]), hj]
  unfold judgeMark
  simp only [withPrevIndex_ring, withRing_ring, hs, hn, if_false]
  rfl

theorem cycleMark_armed_invalid {s : State} {record : RawRecord} (hs : s.ring.state = .armed)
    (hj : judgeCycle record.bytes = none) :
    cycleMark record s = (s.withRing { s.ring with lineOut := .record record }).withPrevIndex none := by
  rw [cycleMark_received record (by simp [hs]), hj]
  unfold judgeMark
  simp only [withPrevIndex_ring, withRing_ring, hs]

theorem cycleMark_sync_valid {s : State} {record : RawRecord} {c : CycleInfo} (hs : s.ring.state = .sync)
    (hj : judgeCycle record.bytes = some c) :
    cycleMark record s = markInSync (if c.number = s.ring.lastCycle + 1 then [] else [report { kind := .cycleSkip }])
      ((s.withRing (s.syncRing record c)).withPrevIndex none) := by
  rw [cycleMark_received record (by simp [hs]), hj]
  unfold judgeMark
  simp only [withPrevIndex_ring, withRing_ring, hs]
  rfl

theorem judgeMark_none_of_sync {s : State} (hs : s.ring.state = .sync) (hb : s.ring.blind = false) :
    judgeMark none s = markInSync [report { kind := .cycleRecordFault }] (s.withRing s.ring.blindMark) := by
  unfold judgeMark
  cases hring : s.ring.state with
  | sync => exact if_neg (by simp [hb])
  | down => simp [hs] at hring
  | hunt => simp [hs] at hring
  | armed => simp [hs] at hring

theorem cycleMark_sync_invalid {s : State} {record : RawRecord} (hs : s.ring.state = .sync)
    (hj : judgeCycle record.bytes = none) (hb : s.ring.blind = false) :
    cycleMark record s
      = markInSync [report { kind := .cycleRecordFault }] ((s.withRing (s.blindRing record)).withPrevIndex none) := by
  rw [cycleMark_received record (by simp [hs]), hj]
  exact judgeMark_none_of_sync hs hb

theorem cycleMark_sync_blind {s : State} {record : RawRecord} (hs : s.ring.state = .sync)
    (hj : judgeCycle record.bytes = none) (hb : s.ring.blind = true) :
    cycleMark record s = report { kind := .cycleRecordFault }
      ((s.withRing (RingPort.toHunt { s.ring with lineOut := .record record })).withPrevIndex none) := by
  rw [cycleMark_received record (by simp [hs]), hj]
  unfold judgeMark
  simp only [withPrevIndex_ring, withRing_ring, hs, hb, if_true]
  rfl

/-- Settles O9: a record in ARMED, by its judgement and its number. -/
theorem armedWaitsForTheSuccessor : Obligations.ArmedWaitsForTheSuccessor := by
  intro s hr hs
  refine ⟨fun record c hj hn => ?other, fun record hj => ?invalid, fun record c hj hn hnone => ?successor⟩
  case other =>
    have hring : RingPort.armedAt { s.ring with lineOut := .record record } c
        = { s.ring with
            lineOut := .record record, lastCycle := c.number, slotCount := c.slotCount, captured := some s.ring.timebase } := by
      simp only [RingPort.armedAt, RingPort.capture, hs]
    rw [exec_cycleMark record hr, cycleMark_armed_other hs hj hn, hring]
    rfl
  case invalid => rw [exec_cycleMark record hr, cycleMark_armed_invalid hs hj]; rfl
  case successor =>
    have hnone : s.nothingExpires (s.syncRing record c).lastCycle := hnone
    rw [exec_cycleMark record hr, cycleMark_armed_successor hs hj hn, markInSync_of_nothing [] hnone]
    rfl

end Sys2Proof.Machine
end

section
/-! PROOFS. What one cycle mark in SYNC does where one thing expires (R13 to R15, R40, R66, R146). -/

namespace Sys2Proof.Machine

/-! ### One act of a list -/

theorem foldl_of_fixed {α β : Type} {f : α → β → α} {s : α} {l : List β} (h : ∀ x ∈ l, f s x = s) : l.foldl f s = s := by
  induction l with
  | nil => rfl
  | cons x xs ih =>
    rw [List.foldl_cons, h x List.mem_cons_self]
    exact ih fun y hy => h y (List.mem_cons_of_mem _ hy)

/-- Where one member of a list acts and the others do nothing, before it and after it, the list acts as that member. -/
theorem foldl_of_one {α β : Type} {f : α → β → α} {s : α} {l : List β} {a : β} (hn : l.Nodup) (ha : a ∈ l)
    (hbefore : ∀ x ∈ l, x ≠ a → f s x = s) (hafter : ∀ x ∈ l, x ≠ a → f (f s a) x = f s a) : l.foldl f s = f s a := by
  obtain ⟨l₁, l₂, rfl⟩ := List.append_of_mem ha
  rw [List.nodup_append] at hn
  obtain ⟨_, hn₂, hne⟩ := hn
  rw [List.foldl_append, List.foldl_cons,
    foldl_of_fixed fun x hx => hbefore x (List.mem_append_left _ hx) (hne x hx a List.mem_cons_self)]
  refine foldl_of_fixed fun x hx => hafter x (by simp [hx]) ?_
  rintro rfl
  exact (List.nodup_cons.1 hn₂).1 hx

theorem modify_eq_set {α : Type} (l : List α) (i : Nat) (f : α → α) (d : α) : l.modify i f = l.set i (f (l.getD i d)) := by
  apply List.ext_getElem?
  intro j
  rw [List.getElem?_modify, List.getElem?_set]
  by_cases hij : i = j
  · subst hij
    by_cases hl : i < l.length
    · simp [hl]
    · simp [hl]
  · simp [hij]

/-! ### One expiry -/

/-- One write at the gap limit: the others do nothing. -/
theorem expireGaps_of_one {u : State} {i : Nat} (hn : u.table.order.Nodup) (hi : i ∈ u.table.order)
    (hone : ∀ j, u.gapReached j = true ↔ j = i) : expireGaps u
      = report ((u.entry i).reportOf .incomplete none) (answerUnexecuted i .incomplete u) := by
  have hact : endIncomplete u i = report ((u.entry i).reportOf .incomplete none) (answerUnexecuted i .incomplete u) :=
    if_pos ((hone i).2 rfl)
  have hf : (u.entry i).state ≠ .free := by
    have := (hone i).2 rfl
    simp only [State.gapReached, Bool.and_eq_true, decide_eq_true_eq] at this
    simp [this.1]
  rw [← hact]
  refine foldl_of_one hn hi (fun j _ hj => if_neg fun h => hj ((hone j).1 h)) fun j _ hj => if_neg fun h => hj ((hone j).1 ?_)
  rw [hact] at h
  simpa [State.gapReached, answerUnexecuted_entry i .incomplete u hf j, hj] using h

/-- One reply at its deadline: the others do nothing. -/
theorem expireReplies_of_one {u : State} {i : Nat} (hn : u.replyQueue.Nodup) (hi : .entry i ∈ u.replyQueue)
    (hone : ∀ j, u.deadlineReached j = true ↔ j = i) : expireReplies u
      = report ((u.entry i).reportOf .replyExpired none) (freeEntry i u) := by
  have hact : abandonExpired u (.entry i) = report ((u.entry i).reportOf .replyExpired none) (freeEntry i u) :=
    if_pos ((hone i).2 rfl)
  rw [← hact]
  refine foldl_of_one hn hi (fun m _ hm => ?before) fun m _ hm => ?after
  case before =>
    cases m with
    | desc d => rfl
    | entry j => exact if_neg fun h => hm (congrArg Member.entry ((hone j).1 h))
  case after =>
    cases m with
    | desc d => rfl
    | entry j =>
      have hj : j ≠ i := fun h => hm (congrArg Member.entry h)
      refine if_neg fun h => hj ((hone j).1 ?_)
      rw [hact] at h
      simpa [State.deadlineReached, freeEntry_entry, hj] using h

theorem answerUnexecuted_eq {u : State} {i : Nat} (st : Status) (hr : i ∉ u.table.requests) : answerUnexecuted i st u
    = { u with
        table := { u.table with
          entries := u.table.entries.set i { u.entry i with state := .replying, final := some st, done := 0, deadline := 0 } }
        windows := u.windows.modify (u.entry i).window (fun w => { w with inUse := w.inUse - 1 })
        replyQueue := u.replyQueue ++ [.entry i] } := by
  have hreq : u.table.requests.filter (fun j => decide (j ≠ i)) = u.table.requests := by
    rw [List.filter_eq_self]
    intro j hj
    simpa using fun h : j = i => hr (h ▸ hj)
  have hset := modify_eq_set u.table.entries i
    (fun e => { e with state := .replying, final := some st, done := 0, deadline := 0 }) Entry.initial
  show State.withReplyQueue (State.withTable (releaseWindow i u) { u.table with
      entries := u.table.entries.modify i (fun e => { e with state := .replying, final := some st, done := 0, deadline := 0 })
      requests := u.table.requests.filter (fun j => decide (j ≠ i)) }) _ = _
  rw [hreq, hset]
  rfl

/-! ### The Ring Port's ring at a mark -/

/-- The ring of a mark in SYNC with a valid record. -/
theorem syncRing_eq {s : State} (record : RawRecord) (c : CycleInfo) (hs : s.ring.state = .sync) :
    s.syncRing record c = { s.ring with
      blind := false, lastCycle := c.number, slotCount := c.slotCount,
      period := match s.ring.captured with
        | none => s.ring.period
        | some t => if s.ring.timebase - t = 0 then none else some (s.ring.timebase - t)
      captured := some s.ring.timebase, lineOut := .record record } := by
  unfold State.syncRing RingPort.syncAt
  simp only [hs]
  rfl

/-- A mark in order, in SYNC. -/
theorem cycleMark_sync_inOrder {s : State} {record : RawRecord} {c : CycleInfo} (hs : s.ring.state = .sync)
    (hj : judgeCycle record.bytes = some c) (hn : c.number = s.ring.lastCycle + 1) :
    cycleMark record s = settle (inSomeOrder (markActs [] (s.markedAs (s.syncRing record c))) (s.markedAs (s.syncRing record c))) := by
  rw [cycleMark_sync_valid hs hj, if_pos hn, markInSync_eq]

section
variable {s : State} {record : RawRecord} {c : CycleInfo} (hs : s.ring.state = .sync)
  (hj : judgeCycle record.bytes = some c) (hn : c.number = s.ring.lastCycle + 1)
include hs hj hn

/-- Nothing but a late commit. -/
theorem cycleMark_of_late (hl : s.commitLateAt c.number) (hg : ∀ j, ¬s.reachesGapLimit j) (hd : ∀ j, ¬s.reachesDeadline j) :
    cycleMark record s = settle (swapLate (s.markedAs (s.syncRing record c))) := by
  classical
  have hl : s.commitLateAt (s.syncRing record c).lastCycle := hl
  rw [cycleMark_sync_inOrder hs hj hn, markActs_eq, if_pos hl, if_neg fun ⟨j, _, h⟩ => hg j h, if_neg fun ⟨j, _, h⟩ => hd j h]
  rfl

/-- Nothing but one write at the gap limit. -/
theorem cycleMark_of_gap {i : Nat} (hq : s.queueLaw) (hl : ¬s.commitLateAt c.number) (hg : ∀ j, s.reachesGapLimit j ↔ j = i)
    (hd : ∀ j, ¬s.reachesDeadline j) : cycleMark record s = settle (expireGaps (s.markedAs (s.syncRing record c))) := by
  classical
  have hl : ¬s.commitLateAt (s.syncRing record c).lastCycle := hl
  obtain ⟨_, _, _, horder, _⟩ := hq
  have hi : i ∈ s.table.order := (horder i).2 (by simp [((hg i).2 rfl).1])
  rw [cycleMark_sync_inOrder hs hj hn, markActs_eq, if_neg hl, if_pos ⟨i, hi, (hg i).2 rfl⟩, if_neg fun ⟨j, _, h⟩ => hd j h]
  rfl

/-- Nothing but one reply at its deadline. -/
theorem cycleMark_of_deadline {i : Nat} (hq : s.queueLaw) (hl : ¬s.commitLateAt c.number) (hg : ∀ j, ¬s.reachesGapLimit j)
    (hd : ∀ j, s.reachesDeadline j ↔ j = i) : cycleMark record s = settle (expireReplies (s.markedAs (s.syncRing record c))) := by
  classical
  have hl : ¬s.commitLateAt (s.syncRing record c).lastCycle := hl
  obtain ⟨_, _, _, _, _, _, _, _, _, hreplying, _⟩ := hq
  have hi : .entry i ∈ s.replyQueue := hreplying i ((hd i).2 rfl).1
  rw [cycleMark_sync_inOrder hs hj hn, markActs_eq, if_neg hl, if_neg fun ⟨j, _, h⟩ => hg j h, if_pos ⟨i, hi, (hd i).2 rfl⟩]
  rfl

end

theorem swapLate_markedAs {s : State} {r : RingPort} (hl : s.commitLateAt r.lastCycle) : swapLate (s.markedAs r)
    = report { kind := .commitLate } { s.markedAs r with
        sched := { active := s.sched.shadow, shadow := s.sched.shadow, commit := .none, swapCycle := some r.lastCycle } } := by
  have hdue : s.sched.commit.due r.lastCycle ≠ some false := by
    rw [(due_eq_true_iff _ _).2 hl]
    simp
  unfold swapLate swapBanks
  rw [markedAs_sched_of_not_due hdue]
  rfl

theorem expireGaps_markedAs {s : State} {r : RingPort} {i : Nat} (hq : s.queueLaw) (hg : ∀ j, s.reachesGapLimit j ↔ j = i) :
    expireGaps (s.markedAs r)
      = report { kind := .incomplete, node := some (s.entry i).source, tag := some (s.entry i).tag, addr := some (s.entry i).addr }
          { s.markedAs r with
            table := { (s.markedAs r).table with
              entries := (s.markedAs r).table.entries.set i { s.entry i with
                gap := (s.entry i).gap + 1, state := .replying, final := some .incomplete, done := 0, deadline := 0 } }
            windows := s.windows.modify (s.entry i).window (fun w => { w with inUse := w.inUse - 1 })
            replyQueue := s.replyQueue ++ [.entry i] } := by
  obtain ⟨_, _, hnodup, horder, _, hrequests, _⟩ := hq
  have hst : (s.entry i).state = .assembling := ((hg i).2 rfl).1
  have he : (s.markedAs r).entry i = { s.entry i with gap := (s.entry i).gap + 1 } := by
    rw [markedAs_entry, markCounted_eq, if_pos hst]
  have hi : i ∈ s.table.order := (horder i).2 (by simp [hst])
  have hr : i ∉ s.table.requests := fun h => by simpa [hst] using (hrequests i).1 h
  rw [expireGaps_of_one (u := s.markedAs r) hnodup hi fun j => (markedAs_gapReached s r j).trans (hg j),
    answerUnexecuted_eq .incomplete (u := s.markedAs r) hr, he]
  rfl

theorem expireReplies_markedAs {s : State} {r : RingPort} {i : Nat} (hq : s.queueLaw) (hd : ∀ j, s.reachesDeadline j ↔ j = i) :
    expireReplies (s.markedAs r)
      = report { kind := .replyExpired, node := some (s.entry i).source, tag := some (s.entry i).tag, addr := some (s.entry i).addr }
          { s.markedAs r with
            table := { (s.markedAs r).table with
              entries := (s.markedAs r).table.entries.set i Entry.initial
              order := s.table.order.filter (fun j => decide (j ≠ i))
              requests := s.table.requests.filter (fun j => decide (j ≠ i)) }
            replyQueue := s.replyQueue.filter (fun m => decide (m ≠ .entry i)) } := by
  obtain ⟨_, _, _, _, _, _, hnodup, _, _, hreplying, _⟩ := hq
  have hst : (s.entry i).state = .replying := ((hd i).2 rfl).1
  have he : (s.markedAs r).entry i = { s.entry i with deadline := (s.entry i).deadline + 1 } := by
    rw [markedAs_entry, markCounted_eq, if_neg (by simp [hst]), if_pos hst]
  rw [expireReplies_of_one (u := s.markedAs r) hnodup (hreplying i hst)
    fun j => (markedAs_deadlineReached s r j).trans (hd j), he]
  rfl

/-- Settles O10: by the record's judgement, and in order by what expires. -/
theorem syncFollowsTheNumbering : Obligations.SyncFollowsTheNumbering := by
  refine ⟨fun s hr hs => ⟨fun record c hj => ⟨fun hnone => ?valid, fun hn => ⟨fun hl hg hd => ?late,
    fun i hq hl hg hd => ?gap, fun i hq hl hg hd => ?deadline⟩⟩, fun record hj hb hnone => ?invalid⟩,
    fun s record hr hs hb hj => ?blind⟩
  case valid =>
    have hnone : s.nothingExpires (s.syncRing record c).lastCycle := hnone
    rw [exec_cycleMark record hr, cycleMark_sync_valid hs hj, markInSync_of_nothing _ hnone, syncRing_eq record c hs]
    by_cases hn : c.number = s.ring.lastCycle + 1
    · simp only [if_pos hn]
      rfl
    · simp only [if_neg hn]
      rfl
  case late =>
    rw [exec_cycleMark record hr, cycleMark_of_late hs hj hn hl hg hd, swapLate_markedAs hl, syncRing_eq record c hs] <;> rfl
  case gap =>
    rw [exec_cycleMark record hr, cycleMark_of_gap hs hj hn hq hl hg hd, expireGaps_markedAs hq hg, syncRing_eq record c hs] <;> rfl
  case deadline =>
    rw [exec_cycleMark record hr, cycleMark_of_deadline hs hj hn hq hl hg hd, expireReplies_markedAs hq hd,
      syncRing_eq record c hs] <;> rfl
  case invalid =>
    have hnone : s.nothingExpires (s.blindRing record).lastCycle := hnone
    rw [exec_cycleMark record hr, cycleMark_sync_invalid hs hj hb, markInSync_of_nothing _ hnone]
    rfl
  case blind =>
    rw [exec_cycleMark record hr, cycleMark_sync_blind hs hj hb]
    rfl

end Sys2Proof.Machine
end

section
/-! PROOFS. What comes about at a cycle mark in SYNC: the swap of the banks (R39 to R41) and the counts that expire (R65, R66,
R75, R146), in whatever order the blocks act. -/

namespace Sys2Proof.Machine

/-! ### An act that is reached -/

/-- One member of a list takes `P` to `Q`; the others keep `P` or get to `Q` themselves, and all keep `Q`. -/
theorem foldl_reaches {α β : Type} {f : α → β → α} {P Q : α → Prop} {a : β} {l : List β} (ha : a ∈ l)
    (hP : ∀ x ∈ l, ∀ t, P t → P (f t x) ∨ Q (f t x)) (hact : ∀ t, P t → Q (f t a)) (hQ : ∀ x ∈ l, ∀ t, Q t → Q (f t x)) :
    ∀ s, P s ∨ Q s → Q (l.foldl f s) := by
  have keeps : ∀ l' : List β, (∀ x ∈ l', x ∈ l) → ∀ s, Q s → Q (l'.foldl f s) := by
    intro l'
    induction l' with
    | nil => exact fun _ _ hs => hs
    | cons x xs ih =>
      exact fun hl s hs => ih (fun y hy => hl y (List.mem_cons_of_mem _ hy)) _ (hQ x (hl x List.mem_cons_self) s hs)
  obtain ⟨l₁, l₂, rfl⟩ := List.append_of_mem ha
  intro s hs
  rw [List.foldl_append, List.foldl_cons]
  refine keeps l₂ (fun x hx => by simp [hx]) _ ?_
  have hbefore : ∀ l' : List β, (∀ x ∈ l', x ∈ l₁ ++ a :: l₂) → ∀ s, P s ∨ Q s → P (l'.foldl f s) ∨ Q (l'.foldl f s) := by
    intro l'
    induction l' with
    | nil => exact fun _ _ hs => hs
    | cons x xs ih =>
      exact fun hl s hs => ih (fun y hy => hl y (List.mem_cons_of_mem _ hy)) _
        (hs.elim (hP x (hl x List.mem_cons_self) s) fun h => Or.inr (hQ x (hl x List.mem_cons_self) s h))
  exact (hbefore l₁ (fun x hx => List.mem_append_left _ hx) s hs).elim (hact _) (hQ a ha _)

/-- The same of the acts in any order. -/
theorem inSomeOrder_reaches {P Q : State → Prop} {acts : List (State → State)} {f : State → State} {s : State} (hf : f ∈ acts)
    (hchoices : ∀ t n, P t → P (t.withChoices n)) (hP : ∀ g ∈ acts, ∀ t, P t → P (g t) ∨ Q (g t)) (hact : ∀ t, P t → Q (f t))
    (hQ : ∀ g ∈ acts, ∀ t, Q t → Q (g t)) (hs : P s) : Q (inSomeOrder acts s) := by
  unfold inSomeOrder
  split
  · exact nomatch hf
  · rw [List.mem_singleton] at hf
    exact hf ▸ hact s hs
  · refine foldl_reaches (f := fun t f => f t) ((mem_reorder _ _ _).2 hf) (fun g hg => hP g ((mem_reorder _ _ _).1 hg)) hact
      (fun g hg => hQ g ((mem_reorder _ _ _).1 hg)) _ (Or.inl (hchoices _ _ hs))

theorem foldl_keeps {α β : Type} {f : α → β → α} {P : α → Prop} {l : List β} (h : ∀ x ∈ l, ∀ t, P t → P (f t x)) :
    ∀ s, P s → P (l.foldl f s) := by
  induction l with
  | nil => exact fun _ hs => hs
  | cons x xs ih =>
    exact fun s hs => ih (fun y hy => h y (List.mem_cons_of_mem _ hy)) _ (h x List.mem_cons_self s hs)

/-- The acts of a mark are the Ring Port's reports, the late swap, and what expires. -/
theorem mem_markActs {rs : List Report} {u : State} {f : State → State} (hf : f ∈ markActs (rs.map report) u) :
    (∃ k, f = report k) ∨ f = swapLate ∧ u.sched.commit.due u.ring.lastCycle = some true ∨ f = expireGaps ∨ f = expireReplies := by
  simp only [markActs, List.mem_append, List.mem_map, List.mem_ite_nil_right, List.mem_singleton] at hf
  rcases hf with ((⟨k, _, rfl⟩ | ⟨h, rfl⟩) | ⟨_, rfl⟩) | ⟨_, rfl⟩
  · exact Or.inl ⟨k, rfl⟩
  · exact Or.inr (Or.inl ⟨rfl, h⟩)
  · exact Or.inr (Or.inr (Or.inl rfl))
  · exact Or.inr (Or.inr (Or.inr rfl))

/-! ### What follows the acts -/

theorem settle_of_no_softReset {s : State} (h : s.bridge.softReset = none) : settle s = arbitrate (judgeDrain s) := by
  rw [settle, softResetIfDue_of_none (by simpa using h)]

theorem handOver_entry_ne (s : State) {i j : Nat} (h : i ≠ j) : (handOver j s).entry i = s.entry i := by
  rw [entry_modify s (handOver j s) j _ (handOver_entries j s), if_neg (by simp [h])]

theorem mem_handOver_replyQueue (s : State) {i j : Nat} (h : i ≠ j) :
    .entry i ∈ (handOver j s).replyQueue ↔ .entry i ∈ s.replyQueue := by
  rw [handOver_replyQueue]
  split
  · simp [h]
  · exact Iff.rfl

/-- The decision of the Bus Engine leaves an entry that does not wait in the Request Queue. -/
theorem arbitrate_of_not_requested {s : State} {i : Nat} (hi : i ∉ s.table.requests) :
    (arbitrate s).entry i = s.entry i ∧ (.entry i ∈ (arbitrate s).replyQueue ↔ .entry i ∈ s.replyQueue) := by
  have separated : ∀ t : State, (startSeparated t).entry i = t.entry i
      ∧ (.entry i ∈ (startSeparated t).replyQueue ↔ .entry i ∈ t.replyQueue) := fun t => by simp [State.entry]
  unfold arbitrate
  split
  · exact ⟨rfl, Iff.rfl⟩
  · split
    · exact ⟨rfl, Iff.rfl⟩
    · split
      · exact separated s
      · split
        · exact ⟨rfl, Iff.rfl⟩
        · split
          · exact ⟨rfl, Iff.rfl⟩
          · rename_i j rest hr
            have hne : i ≠ j := fun h => hi (by simp [hr, h])
            obtain ⟨he, hq⟩ := separated (handOver j s)
            exact ⟨he.trans (handOver_entry_ne s hne), hq.trans (mem_handOver_replyQueue s hne)⟩

/-! ### The acts, on what they leave -/

theorem endIncomplete_frame (s : State) (j : Nat) : (endIncomplete s j).ring = s.ring ∧ (endIncomplete s j).sched = s.sched
    ∧ (endIncomplete s j).bridge = s.bridge ∧ (endIncomplete s j).mgmt.params = s.mgmt.params
    ∧ (endIncomplete s j).table.order = s.table.order := by
  unfold endIncomplete
  split
  · simp [answerUnexecuted]
  · simp

theorem abandonExpired_frame (s : State) (m : Member) : (abandonExpired s m).ring = s.ring
    ∧ (abandonExpired s m).sched = s.sched ∧ (abandonExpired s m).bridge = s.bridge
    ∧ (abandonExpired s m).mgmt.params = s.mgmt.params := by
  unfold abandonExpired
  split
  · simp
  · split <;> simp

@[simp] theorem expireGaps_frame (s : State) : (expireGaps s).ring = s.ring ∧ (expireGaps s).sched = s.sched
    ∧ (expireGaps s).bridge = s.bridge ∧ (expireGaps s).mgmt.params = s.mgmt.params
    ∧ (expireGaps s).table.order = s.table.order :=
  foldl_keeps (P := fun t => t.ring = s.ring ∧ t.sched = s.sched ∧ t.bridge = s.bridge ∧ t.mgmt.params = s.mgmt.params
    ∧ t.table.order = s.table.order) (fun j _ t ht => by simpa only [endIncomplete_frame] using ht) s ⟨rfl, rfl, rfl, rfl, rfl⟩

@[simp] theorem expireReplies_frame (s : State) : (expireReplies s).ring = s.ring ∧ (expireReplies s).sched = s.sched
    ∧ (expireReplies s).bridge = s.bridge ∧ (expireReplies s).mgmt.params = s.mgmt.params :=
  foldl_keeps (P := fun t => t.ring = s.ring ∧ t.sched = s.sched ∧ t.bridge = s.bridge ∧ t.mgmt.params = s.mgmt.params)
    (fun m _ t ht => by simpa only [abandonExpired_frame] using ht) s ⟨rfl, rfl, rfl, rfl⟩

/-! ### The swap at a mark -/

/-- At a mark of number `k` a pending commit is due. -/
def State.swapDue (s : State) (k : Half) : Prop :=
  s.sched.commit = .pendingNext ∨ ∃ n, s.sched.commit = .pendingAt n ∧ (k - n).toNat ≤ 32767

theorem due_eq_none_iff (s : State) (k : Half) : s.sched.commit.due k = none ↔ ¬s.swapDue k := by
  unfold CommitState.due State.swapDue
  cases s.sched.commit with
  | none => simp
  | pendingNext => simp
  | pendingAt n =>
    simp only [CommitState.pendingAt.injEq, exists_eq_left', reduceCtorEq, false_or]
    split
    · simp only [reduceCtorEq, false_iff]
      omega
    · split
      · simp only [reduceCtorEq, false_iff]
        omega
      · simp only [true_iff]
        omega

/-- The Ring Port as it is at the mark, no soft reset, and these banks. -/
def State.bankedAs (t : State) (r : RingPort) (c : Schedule) : Prop :=
  t.ring = r ∧ t.bridge.softReset = none ∧ t.sched = c

theorem bankedAs_settle {t : State} {r : RingPort} {c : Schedule} (h : t.bankedAs r c) :
    (settle t).ring = r ∧ (settle t).sched = c := by
  obtain ⟨hring, hreset, hsched⟩ := h
  rw [settle_of_no_softReset hreset]
  simp [hring, hsched]

theorem bankedAs_report (k : Report) {t : State} {r : RingPort} {c : Schedule} (h : t.bankedAs r c) :
    (report k t).bankedAs r c := by
  simpa [State.bankedAs] using h

theorem bankedAs_expireGaps {t : State} {r : RingPort} {c : Schedule} (h : t.bankedAs r c) : (expireGaps t).bankedAs r c := by
  simpa [State.bankedAs] using h

theorem bankedAs_expireReplies {t : State} {r : RingPort} {c : Schedule} (h : t.bankedAs r c) :
    (expireReplies t).bankedAs r c := by
  simpa [State.bankedAs] using h

theorem bankedAs_swapLate {t : State} {r : RingPort} {c : Schedule} (h : t.bankedAs r c) :
    (swapLate t).bankedAs r (c.swapped r.lastCycle) := by
  obtain ⟨hring, hreset, hsched⟩ := h
  refine bankedAs_report _ ⟨hring, hreset, ?_⟩
  rw [swapBanks, hsched, hring]
  rfl

/-- Where no late commit is due, the acts of a mark leave the banks. -/
theorem markActs_bankedAs {rs : List Report} {u : State} {r : RingPort} {c : Schedule} (h : u.bankedAs r c)
    (hdue : u.sched.commit.due u.ring.lastCycle ≠ some true) : (inSomeOrder (markActs (rs.map report) u) u).bankedAs r c := by
  refine inSomeOrder_keeps (P := fun t => t.bankedAs r c) _ _ (fun _ _ ht => ht) (fun f hf t ht => ?_) h
  rcases mem_markActs hf with ⟨k, rfl⟩ | ⟨rfl, hlate⟩ | rfl | rfl
  · exact bankedAs_report k ht
  · exact absurd hlate hdue
  · exact bankedAs_expireGaps ht
  · exact bankedAs_expireReplies ht

/-- A late commit that is due is carried out. -/
theorem markActs_bankedAs_late {rs : List Report} {u : State} {r : RingPort} {c : Schedule} (h : u.bankedAs r c)
    (hdue : u.sched.commit.due u.ring.lastCycle = some true) :
    (inSomeOrder (markActs (rs.map report) u) u).bankedAs r (c.swapped r.lastCycle) := by
  have hmem : swapLate ∈ markActs (rs.map report) u := by simp [markActs, hdue]
  refine inSomeOrder_reaches (P := fun t => t.bankedAs r c) (Q := fun t => t.bankedAs r (c.swapped r.lastCycle)) hmem
    (fun _ _ ht => ht) (fun f hf t ht => ?before) (fun t ht => bankedAs_swapLate ht) (fun f hf t ht => ?after) h
  case before =>
    rcases mem_markActs hf with ⟨k, rfl⟩ | ⟨rfl, _⟩ | rfl | rfl
    · exact Or.inl (bankedAs_report k ht)
    · exact Or.inr (bankedAs_swapLate ht)
    · exact Or.inl (bankedAs_expireGaps ht)
    · exact Or.inl (bankedAs_expireReplies ht)
  case after =>
    rcases mem_markActs hf with ⟨k, rfl⟩ | ⟨rfl, _⟩ | rfl | rfl
    · exact bankedAs_report k ht
    · exact (bankedAs_swapLate ht : (swapLate t).bankedAs r ((c.swapped r.lastCycle).swapped r.lastCycle))
    · exact bankedAs_expireGaps ht
    · exact bankedAs_expireReplies ht

/-- The banks after the acts of a mark. -/
theorem mark_banked {s : State} {r : RingPort} {k : Half} (rs : List Report) (hk : r.lastCycle = k)
    (h : s.bridge.softReset = none) :
    let t := settle (inSomeOrder (markActs (rs.map report) (s.markedAs r)) (s.markedAs r))
    t.ring = r ∧ (s.swapDue k → t.sched = s.sched.swapped k) ∧ (¬s.swapDue k → t.sched = s.sched) := by
  subst hk
  have hu : ∀ c, (s.markedAs r).sched = c → (s.markedAs r).bankedAs r c := fun c hc => ⟨rfl, h, hc⟩
  intro t
  cases hdue : s.sched.commit.due r.lastCycle with
  | none =>
    have hsched := markedAs_sched_of_not_due (s := s) (r := r) (by simp [hdue])
    have hnot : (s.markedAs r).sched.commit.due (s.markedAs r).ring.lastCycle ≠ some true := by
      rw [hsched, show (s.markedAs r).ring = r from rfl, hdue]
      simp
    obtain ⟨hring, hs⟩ := bankedAs_settle (markActs_bankedAs (rs := rs) (hu _ hsched) hnot)
    have hn := (due_eq_none_iff s r.lastCycle).1 hdue
    exact ⟨hring, fun hd => absurd hd hn, fun _ => hs⟩
  | some late =>
    have hd : s.swapDue r.lastCycle := by
      by_contra hn
      rw [(due_eq_none_iff s r.lastCycle).2 hn] at hdue
      cases hdue
    cases late with
    | false =>
      have hsched := markedAs_sched_of_due (s := s) (r := r) hdue
      have hnot : (s.markedAs r).sched.commit.due (s.markedAs r).ring.lastCycle ≠ some true := by
        rw [hsched]
        simp [Schedule.swapped, CommitState.due]
      obtain ⟨hring, hs⟩ := bankedAs_settle (markActs_bankedAs (rs := rs) (hu _ hsched) hnot)
      exact ⟨hring, fun _ => hs, fun hn => absurd hd hn⟩
    | true =>
      have hsched := markedAs_sched_of_not_due (s := s) (r := r) (by simp [hdue])
      have hlate : (s.markedAs r).sched.commit.due (s.markedAs r).ring.lastCycle = some true := by
        rw [hsched, show (s.markedAs r).ring = r from rfl, hdue]
      obtain ⟨hring, hs⟩ := bankedAs_settle (markActs_bankedAs_late (rs := rs) (hu _ hsched) hlate)
      exact ⟨hring, fun _ => hs, fun hn => absurd hd hn⟩

/-! ### The mark next in order -/

theorem nextMarkIf_of_not {p : List Byte → Bool} {s : State} (h : p s.ring.nextRecord.bytes = false) : nextMarkIf p s = s := by
  simp [nextMarkIf, h]

theorem nextMarkIf_of_true {p : List Byte → Bool} {s : State} (h : p s.ring.nextRecord.bytes = true) :
    nextMarkIf p s = cycleMark s.ring.nextRecord s := by
  simp [nextMarkIf, h]

/-- The mark next in order has the number next in order. -/
theorem marksSync_nextRecord {s : State} {k : Half} (h : s.marksSync s.ring.nextRecord.bytes k) : k = s.ring.lastCycle + 1 := by
  rcases h with ⟨c, hj, hk, _⟩ | ⟨_, _, _, hk⟩
  · rw [RingPort.nextRecord, judgeCycle_cycleRecord] at hj
    split at hj
    · cases hj
      exact hk.symm
    · cases hj
  · exact hk

theorem markNumber_nextRecord (s : State) : s.ring.markNumber (judgeCycle s.ring.nextRecord.bytes)
    = some (s.ring.lastCycle + 1) ∧ s.marksSync s.ring.nextRecord.bytes (s.ring.lastCycle + 1)
    ∨ s.ring.markNumber (judgeCycle s.ring.nextRecord.bytes) = none
      ∧ ¬s.marksSync s.ring.nextRecord.bytes (s.ring.lastCycle + 1) := by
  cases hm : s.ring.markNumber (judgeCycle s.ring.nextRecord.bytes) with
  | none =>
    refine Or.inr ⟨rfl, fun h => ?_⟩
    rw [(markNumber_eq_some _ _ _).2 h] at hm
    cases hm
  | some k =>
    have hs := (markNumber_eq_some _ _ _).1 hm
    have hk := marksSync_nextRecord hs
    subst hk
    exact Or.inl ⟨rfl, hs⟩

theorem swapsAt_nextRecord (s : State) : s.swapsAt s.ring.nextRecord.bytes = true
    ↔ s.marksSync s.ring.nextRecord.bytes (s.ring.lastCycle + 1) ∧ s.swapDue (s.ring.lastCycle + 1) := by
  unfold State.swapsAt
  rcases markNumber_nextRecord s with ⟨hm, hs⟩ | ⟨hm, hs⟩
  · rw [hm]
    simp only [hs, true_and, Option.isSome_iff_ne_none, ne_eq, due_eq_none_iff, not_not]
  · rw [hm]
    simp only [Bool.false_eq_true, false_iff]
    exact fun h => hs h.1

theorem exec_scheduleSwap {s : State} (hr : s.pins.reset = false) :
    exec .scheduleSwap s = .next (nextMarkIf s.swapsAt s) := congrArg Host.Outcome.next (unlessPinReset_of_released _ hr)

/-- Settles O12: the banks after the acts of a mark, whatever their order. -/
theorem scheduleSwapActivatesTheShadow : Obligations.ScheduleSwapActivatesTheShadow := by
  intro s hr due swapped next marked
  have hmark : ∀ (record : RawRecord) (k : Half), s.marksSync record.bytes k → s.bridge.softReset = none →
      ∃ t, exec (.cycleMark record) s = .next t ∧ (due k → swapped k t) ∧ (¬due k → t.sched = s.sched) := by
    intro record k hm hreset
    obtain ⟨r, rs, hsync, hk, he⟩ := cycleMark_of_marksSync hm
    rw [markInSync_eq] at he
    obtain ⟨hring, hdue, hnot⟩ := mark_banked rs hk hreset
    refine ⟨_, exec_cycleMark record hr, ?_⟩
    rw [he]
    exact ⟨fun hd => ⟨by rw [hring, hsync], by rw [hring, hk], hdue hd⟩, hnot⟩
  refine ⟨hmark, fun hm hd => ?_, fun hn => ?_⟩
  · have hexec : exec .scheduleSwap s = exec (.cycleMark next) s := by
      rw [exec_scheduleSwap hr, exec_cycleMark _ hr, nextMarkIf_of_true ((swapsAt_nextRecord s).2 ⟨hm, hd⟩)]
      rfl
    refine ⟨hexec, fun hreset => ?_⟩
    obtain ⟨t, ht, hswap, _⟩ := hmark next _ hm hreset
    exact ⟨t, hexec.trans ht, hswap hd⟩
  · have hfalse : s.swapsAt s.ring.nextRecord.bytes = false :=
      Bool.eq_false_iff.2 fun h => hn ((swapsAt_nextRecord s).1 h)
    rw [exec_scheduleSwap hr, nextMarkIf_of_not hfalse]

end Sys2Proof.Machine
end

section
/-! PROOFS. The counts that expire at a cycle mark in SYNC (R65, R66, R75, R146). -/

namespace Sys2Proof.Machine

/-! ### What the acts of a mark leave of one entry -/

/-- The Ring Port as it is at the mark, no soft reset, these parameters, and entry `i` not in the Request Queue. -/
def State.atMark (t : State) (r : RingPort) (p : Params) (i : Nat) : Prop :=
  t.ring = r ∧ t.bridge.softReset = none ∧ t.mgmt.params = p ∧ i ∉ t.table.requests

/-- Entry `i` as `e`, before it expires in allocation order. -/
def State.waitsAt (t : State) (r : RingPort) (p : Params) (i : Nat) (e : Entry) : Prop :=
  t.atMark r p i ∧ t.entry i = e ∧ i ∈ t.table.order

/-- Entry `i` as `e`, a member of the Reply Queue. -/
def State.repliesAt (t : State) (r : RingPort) (p : Params) (i : Nat) (e : Entry) : Prop :=
  t.atMark r p i ∧ t.entry i = e ∧ .entry i ∈ t.replyQueue

/-- Entry `i` abandoned. -/
def State.goneAt (t : State) (r : RingPort) (p : Params) (i : Nat) : Prop :=
  t.atMark r p i ∧ t.entry i = Entry.initial ∧ .entry i ∉ t.replyQueue ∧ i ∉ t.table.order

variable {r : RingPort} {p : Params} {i : Nat} {e : Entry} {t : State}

theorem atMark_report (k : Report) (h : t.atMark r p i) : (report k t).atMark r p i := by
  simpa [State.atMark] using h

theorem atMark_swapLate (h : t.atMark r p i) : (swapLate t).atMark r p i := atMark_report _ h

theorem atMark_answerUnexecuted (j : Nat) (st : Status) (h : t.atMark r p i) : (answerUnexecuted j st t).atMark r p i := by
  obtain ⟨hring, hreset, hparams, hreq⟩ := h
  refine ⟨by simpa using hring, by simpa using hreset, by simpa using hparams, fun hm => hreq (List.mem_of_mem_filter hm)⟩

theorem atMark_freeEntry (j : Nat) (h : t.atMark r p i) : (freeEntry j t).atMark r p i := by
  obtain ⟨hring, hreset, hparams, hreq⟩ := h
  refine ⟨by simpa using hring, by simpa using hreset, by simpa using hparams, fun hm => hreq (List.mem_of_mem_filter hm)⟩

theorem settle_atMark (h : t.atMark r p i) : (settle t).ring = r ∧ (settle t).entry i = t.entry i
    ∧ (.entry i ∈ (settle t).replyQueue ↔ .entry i ∈ t.replyQueue) ∧ (settle t).table.order = t.table.order := by
  obtain ⟨hring, hreset, _, hreq⟩ := h
  have hreq : i ∉ (judgeDrain t).table.requests := by simpa using hreq
  obtain ⟨he, hq⟩ := arbitrate_of_not_requested hreq
  rw [settle_of_no_softReset hreset]
  refine ⟨by simp [hring], by rw [he]; simp [State.entry], by rw [hq]; simp, by simp⟩

/-! ### An entry that does not expire here -/

/-- An answer to another entry leaves entry `i`. -/
theorem endIncomplete_of_ne {j : Nat} (hne : i ≠ j) (h : t.atMark r p i) : (endIncomplete t j).atMark r p i
    ∧ (endIncomplete t j).entry i = t.entry i ∧ (.entry i ∈ (endIncomplete t j).replyQueue ↔ .entry i ∈ t.replyQueue)
    ∧ (endIncomplete t j).table.order = t.table.order := by
  by_cases hg : t.gapReached j = true
  · have hact : endIncomplete t j = report ((t.entry j).reportOf .incomplete none) (answerUnexecuted j .incomplete t) := if_pos hg
    have hf : (t.entry j).state ≠ .free := by
      simp only [State.gapReached, Bool.and_eq_true, decide_eq_true_eq] at hg
      simp [hg.1]
    rw [hact]
    refine ⟨atMark_report _ (atMark_answerUnexecuted j _ h), ?_, ?_, ?_⟩
    · rw [report_entry, answerUnexecuted_entry j _ t hf, if_neg hne]
    · simp [answerUnexecuted, hne]
    · simp [answerUnexecuted]
  · have hid : endIncomplete t j = t := if_neg hg
    rw [hid]
    exact ⟨h, rfl, Iff.rfl, rfl⟩

/-- An entry that is abandoned leaves the others. -/
theorem abandonExpired_of_ne {m : Member} (hne : m ≠ .entry i) (h : t.atMark r p i) : (abandonExpired t m).atMark r p i
    ∧ (abandonExpired t m).entry i = t.entry i ∧ (.entry i ∈ (abandonExpired t m).replyQueue ↔ .entry i ∈ t.replyQueue)
    ∧ (i ∈ (abandonExpired t m).table.order ↔ i ∈ t.table.order) := by
  cases m with
  | desc d => exact ⟨h, rfl, Iff.rfl, Iff.rfl⟩
  | entry j =>
    have hij : i ≠ j := fun hj => hne (by rw [hj])
    by_cases hd : t.deadlineReached j = true
    · have hact : abandonExpired t (.entry j) = report ((t.entry j).reportOf .replyExpired none) (freeEntry j t) := if_pos hd
      rw [hact]
      refine ⟨atMark_report _ (atMark_freeEntry j h), ?_, ?_, ?_⟩
      · rw [report_entry, freeEntry_entry, if_neg hij]
      · simp [freeEntry, hij]
      · simp [freeEntry, hij]
    · have hid : abandonExpired t (.entry j) = t := if_neg hd
      rw [hid]
      exact ⟨h, rfl, Iff.rfl, Iff.rfl⟩

/-! ### The gap limit -/

/-- An entry in ASSEMBLING at the gap limit ends INCOMPLETE. -/
theorem endIncomplete_self (hst : e.state = .assembling) (hgap : p.gapLimit ≤ e.gap) (h : t.waitsAt r p i e) :
    (endIncomplete t i).repliesAt r p i { e with state := .replying, final := some .incomplete, done := 0, deadline := 0 } := by
  obtain ⟨hm, he, _⟩ := h
  have hparams : t.mgmt.params = p := hm.2.2.1
  have hg : t.gapReached i = true := by simp [State.gapReached, he, hst, hparams, hgap]
  have hact : endIncomplete t i = report ((t.entry i).reportOf .incomplete none) (answerUnexecuted i .incomplete t) := if_pos hg
  rw [hact]
  refine ⟨atMark_report _ (atMark_answerUnexecuted i _ hm), ?_, ?_⟩
  · rw [report_entry, answerUnexecuted_entry i _ t (by simp [he, hst]), if_pos rfl, he]
  · simp [answerUnexecuted]

theorem expireGaps_waits (hst : e.state = .assembling) (hgap : p.gapLimit ≤ e.gap) (h : t.waitsAt r p i e) :
    (expireGaps t).repliesAt r p i { e with state := .replying, final := some .incomplete, done := 0, deadline := 0 } := by
  refine foldl_reaches (P := fun t => t.waitsAt r p i e)
    (Q := fun t => t.repliesAt r p i { e with state := .replying, final := some .incomplete, done := 0, deadline := 0 })
    h.2.2 (fun j _ u hu => ?before)
    (fun u hu => endIncomplete_self hst hgap hu) (fun j _ u hu => ?after) t (Or.inl h)
  case before =>
    by_cases hne : i = j
    · subst hne
      exact Or.inr (endIncomplete_self hst hgap hu)
    · obtain ⟨hm, he, ho⟩ := hu
      obtain ⟨hm', he', _, ho'⟩ := endIncomplete_of_ne hne hm
      exact Or.inl ⟨hm', he'.trans he, ho' ▸ ho⟩
  case after =>
    obtain ⟨hm, he, hq⟩ := hu
    by_cases hne : i = j
    · subst hne
      have hid : endIncomplete u i = u := if_neg (by simp [State.gapReached, he])
      rw [hid]
      exact ⟨hm, he, hq⟩
    · obtain ⟨hm', he', hq', _⟩ := endIncomplete_of_ne hne hm
      exact ⟨hm', he'.trans he, hq'.2 hq⟩

/-- The gap limit leaves an entry that is not in ASSEMBLING. -/
theorem expireGaps_of_not_assembling (hst : e.state ≠ .assembling) (hm : t.atMark r p i) (he : t.entry i = e) :
    (expireGaps t).atMark r p i ∧ (expireGaps t).entry i = e
      ∧ (.entry i ∈ (expireGaps t).replyQueue ↔ .entry i ∈ t.replyQueue) := by
  refine foldl_keeps (P := fun u => u.atMark r p i ∧ u.entry i = e ∧ (.entry i ∈ u.replyQueue ↔ .entry i ∈ t.replyQueue))
    (fun j _ u hu => ?_) t ⟨hm, he, Iff.rfl⟩
  obtain ⟨hum, hue, huq⟩ := hu
  by_cases hne : i = j
  · subst hne
    have hid : endIncomplete u i = u := if_neg (by simp [State.gapReached, hue, hst])
    rw [hid]
    exact ⟨hum, hue, huq⟩
  · obtain ⟨hm', he', hq', _⟩ := endIncomplete_of_ne hne hum
    exact ⟨hm', he'.trans hue, hq'.trans huq⟩

/-! ### The reply deadline -/

/-- The deadline leaves an entry that has not reached it. -/
theorem expireReplies_of_not_reached (hd : e.state = .replying → e.deadline < p.deadline) (hm : t.atMark r p i)
    (he : t.entry i = e) : (expireReplies t).atMark r p i ∧ (expireReplies t).entry i = e
      ∧ (.entry i ∈ (expireReplies t).replyQueue ↔ .entry i ∈ t.replyQueue)
      ∧ (i ∈ (expireReplies t).table.order ↔ i ∈ t.table.order) := by
  refine foldl_keeps (P := fun u => u.atMark r p i ∧ u.entry i = e ∧ (.entry i ∈ u.replyQueue ↔ .entry i ∈ t.replyQueue)
    ∧ (i ∈ u.table.order ↔ i ∈ t.table.order)) (fun m _ u hu => ?_) t ⟨hm, he, Iff.rfl, Iff.rfl⟩
  obtain ⟨hum, hue, huq, huo⟩ := hu
  by_cases hne : m = .entry i
  · subst hne
    have hparams : u.mgmt.params = p := hum.2.2.1
    have hnot : ¬u.deadlineReached i = true := by
      simp only [State.deadlineReached, hue, hparams, Bool.and_eq_true, decide_eq_true_eq]
      exact fun h => absurd (hd h.1) (Nat.not_lt.2 h.2)
    have hid : abandonExpired u (.entry i) = u := if_neg hnot
    rw [hid]
    exact ⟨hum, hue, huq, huo⟩
  · obtain ⟨hm', he', hq', ho'⟩ := abandonExpired_of_ne hne hum
    exact ⟨hm', he'.trans hue, hq'.trans huq, ho'.trans huo⟩

/-- A reply at its deadline is abandoned. -/
theorem abandonExpired_self (hst : e.state = .replying) (hd : p.deadline ≤ e.deadline) (h : t.repliesAt r p i e) :
    (abandonExpired t (.entry i)).goneAt r p i := by
  obtain ⟨hm, he, _⟩ := h
  have hparams : t.mgmt.params = p := hm.2.2.1
  have hg : t.deadlineReached i = true := by simp [State.deadlineReached, he, hst, hparams, hd]
  have hact : abandonExpired t (.entry i) = report ((t.entry i).reportOf .replyExpired none) (freeEntry i t) := if_pos hg
  rw [hact]
  refine ⟨atMark_report _ (atMark_freeEntry i hm), ?_, ?_, ?_⟩
  · rw [report_entry, freeEntry_entry, if_pos rfl]
  · simp [freeEntry]
  · simp [freeEntry]

/-- An abandoned entry stays so at the deadline of the others. -/
theorem abandonExpired_goneAt (m : Member) (h : t.goneAt r p i) : (abandonExpired t m).goneAt r p i := by
  obtain ⟨hm, he, hq, ho⟩ := h
  by_cases hne : m = .entry i
  · subst hne
    have hid : abandonExpired t (.entry i) = t := if_neg (by simp [State.deadlineReached, he, Entry.initial])
    rw [hid]
    exact ⟨hm, he, hq, ho⟩
  · obtain ⟨hm', he', hq', ho'⟩ := abandonExpired_of_ne hne hm
    exact ⟨hm', he'.trans he, fun h => hq (hq'.1 h), fun h => ho (ho'.1 h)⟩

theorem expireReplies_repliesAt (hst : e.state = .replying) (hd : p.deadline ≤ e.deadline) (h : t.repliesAt r p i e) :
    (expireReplies t).goneAt r p i := by
  refine foldl_reaches (P := fun t => t.repliesAt r p i e) (Q := fun t => t.goneAt r p i) h.2.2 (fun m _ u hu => ?before)
    (fun u hu => abandonExpired_self hst hd hu) (fun m _ u hu => abandonExpired_goneAt m hu) t (Or.inl h)
  case before =>
    by_cases hne : m = .entry i
    · subst hne
      exact Or.inr (abandonExpired_self hst hd hu)
    · obtain ⟨hm, he, hq⟩ := hu
      obtain ⟨hm', he', hq', _⟩ := abandonExpired_of_ne hne hm
      exact Or.inl ⟨hm', he'.trans he, hq'.2 hq⟩

/-! ### The acts of a mark in any order -/

/-- A write at the gap limit ends INCOMPLETE at the mark, and its new deadline count does not expire with it. -/
theorem markActs_gap {rs : List Report} {u : State} (hst : e.state = .assembling) (hgap : p.gapLimit ≤ e.gap)
    (hpos : 1 ≤ p.deadline) (hu : u.waitsAt r p i e) (hg : u.someGapReached = true) :
    (inSomeOrder (markActs (rs.map report) u) u).repliesAt r p i
      { e with state := .replying, final := some .incomplete, done := 0, deadline := 0 } := by
  have hmem : expireGaps ∈ markActs (rs.map report) u := by simp [markActs, hg]
  refine inSomeOrder_reaches (P := fun t => t.waitsAt r p i e)
    (Q := fun t => t.repliesAt r p i { e with state := .replying, final := some .incomplete, done := 0, deadline := 0 })
    hmem (fun _ _ ht => ht) (fun f hf t ht => ?before)
    (fun t ht => expireGaps_waits hst hgap ht) (fun f hf t ht => ?after) hu
  case before =>
    obtain ⟨hm, he, ho⟩ := ht
    rcases mem_markActs hf with ⟨k, rfl⟩ | ⟨rfl, _⟩ | rfl | rfl
    · exact Or.inl ⟨atMark_report k hm, by simpa using he, by simpa using ho⟩
    · exact Or.inl ⟨atMark_swapLate hm, by simpa [swapLate, swapBanks, State.entry] using he, by simpa [swapLate, swapBanks] using ho⟩
    · exact Or.inr (expireGaps_waits hst hgap ⟨hm, he, ho⟩)
    · obtain ⟨hm', he', _, ho'⟩ := expireReplies_of_not_reached (by simp [hst]) hm he
      exact Or.inl ⟨hm', he', ho'.2 ho⟩
  case after =>
    obtain ⟨hm, he, hq⟩ := ht
    rcases mem_markActs hf with ⟨k, rfl⟩ | ⟨rfl, _⟩ | rfl | rfl
    · exact ⟨atMark_report k hm, by simpa using he, by simpa using hq⟩
    · exact ⟨atMark_swapLate hm, by simpa [swapLate, swapBanks, State.entry] using he, by simpa [swapLate, swapBanks] using hq⟩
    · obtain ⟨hm', he', hq'⟩ := expireGaps_of_not_assembling (by simp) hm he
      exact ⟨hm', he', hq'.2 hq⟩
    · obtain ⟨hm', he', hq', _⟩ := expireReplies_of_not_reached (fun _ => Nat.lt_of_lt_of_le Nat.zero_lt_one hpos) hm he
      exact ⟨hm', he', hq'.2 hq⟩

/-- A reply at its deadline is abandoned at the mark. -/
theorem markActs_deadline {rs : List Report} {u : State} (hst : e.state = .replying) (hd : p.deadline ≤ e.deadline)
    (hu : u.repliesAt r p i e) (hg : u.someDeadlineReached = true) :
    (inSomeOrder (markActs (rs.map report) u) u).goneAt r p i := by
  have hmem : expireReplies ∈ markActs (rs.map report) u := by simp [markActs, hg]
  refine inSomeOrder_reaches (P := fun t => t.repliesAt r p i e) (Q := fun t => t.goneAt r p i) hmem (fun _ _ ht => ht) (fun f hf t ht => ?before)
    (fun t ht => expireReplies_repliesAt hst hd ht) (fun f hf t ht => ?after) hu
  case before =>
    obtain ⟨hm, he, hq⟩ := ht
    rcases mem_markActs hf with ⟨k, rfl⟩ | ⟨rfl, _⟩ | rfl | rfl
    · exact Or.inl ⟨atMark_report k hm, by simpa using he, by simpa using hq⟩
    · exact Or.inl ⟨atMark_swapLate hm, by simpa [swapLate, swapBanks, State.entry] using he, by simpa [swapLate, swapBanks] using hq⟩
    · obtain ⟨hm', he', hq'⟩ := expireGaps_of_not_assembling (by simp [hst]) hm he
      exact Or.inl ⟨hm', he', hq'.2 hq⟩
    · exact Or.inr (expireReplies_repliesAt hst hd ⟨hm, he, hq⟩)
  case after =>
    obtain ⟨hm, he, hq, ho⟩ := ht
    rcases mem_markActs hf with ⟨k, rfl⟩ | ⟨rfl, _⟩ | rfl | rfl
    · exact ⟨atMark_report k hm, by simpa using he, by simpa using hq, by simpa using ho⟩
    · exact ⟨atMark_swapLate hm, by simpa [swapLate, swapBanks, State.entry] using he, by simpa [swapLate, swapBanks] using hq,
        by simpa [swapLate, swapBanks] using ho⟩
    · obtain ⟨hm', he', hq'⟩ := expireGaps_of_not_assembling (by simp [Entry.initial]) hm he
      exact ⟨hm', he', fun h => hq (hq'.1 h), by simpa using ho⟩
    · exact foldl_keeps (P := fun t => t.goneAt r p i) (fun m _ _ h => abandonExpired_goneAt m h) t ⟨hm, he, hq, ho⟩

/-! ### The mark -/

section
variable {s : State} (hq : s.queueLaw) (hreset : s.bridge.softReset = none)
include hq hreset

/-- The entry that expires is not in the Request Queue. -/
theorem markedAs_atMark (r : RingPort) (h : (s.entry i).state ≠ .queued) : (s.markedAs r).atMark r s.mgmt.params i := by
  obtain ⟨_, _, _, _, _, hrequests, _⟩ := hq
  exact ⟨rfl, hreset, rfl, fun hi => h ((hrequests i).1 hi)⟩

/-- What a mark leaves of a write at the gap limit. -/
theorem mark_gap (rs : List Report) (hpos : 1 ≤ s.mgmt.params.deadline) (hg : s.reachesGapLimit i) :
    let t := settle (inSomeOrder (markActs (rs.map report) (s.markedAs r)) (s.markedAs r))
    t.ring = r ∧ t.entry i = { s.entry i with
        gap := (s.entry i).gap + 1, state := .replying, final := some .incomplete, done := 0, deadline := 0 }
      ∧ .entry i ∈ t.replyQueue := by
  obtain ⟨hst, hlimit⟩ := hg
  have ⟨_, _, _, horder, _⟩ := hq
  have hm := markedAs_atMark hq hreset r (i := i) (by simp [hst])
  have he : (s.markedAs r).entry i = { s.entry i with gap := (s.entry i).gap + 1 } := by
    rw [markedAs_entry, markCounted_eq, if_pos hst]
  have hi : i ∈ s.table.order := (horder i).2 (by simp [hst])
  obtain ⟨hm', he', hq'⟩ := markActs_gap (rs := rs) (e := { s.entry i with gap := (s.entry i).gap + 1 }) hst hlimit hpos ⟨hm, he, hi⟩
    ((markedAs_someGapReached s r).2 ⟨i, hi, hst, hlimit⟩)
  obtain ⟨hring, hentry, hqueue, _⟩ := settle_atMark hm'
  exact ⟨hring, hentry.trans he', hqueue.2 hq'⟩

/-- What a mark leaves of a reply at its deadline. -/
theorem mark_deadline (rs : List Report) (hd : s.reachesDeadline i) :
    let t := settle (inSomeOrder (markActs (rs.map report) (s.markedAs r)) (s.markedAs r))
    t.ring = r ∧ (t.entry i).state = .free ∧ .entry i ∉ t.replyQueue ∧ i ∉ t.table.order := by
  obtain ⟨hst, hlimit⟩ := hd
  have ⟨_, _, _, _, _, _, _, _, _, hreplying, _⟩ := hq
  have hm := markedAs_atMark hq hreset r (i := i) (by simp [hst])
  have he : (s.markedAs r).entry i = { s.entry i with deadline := (s.entry i).deadline + 1 } := by
    rw [markedAs_entry, markCounted_eq, if_neg (by simp [hst]), if_pos hst]
  obtain ⟨hm', he', hq', ho'⟩ := markActs_deadline (rs := rs) (e := { s.entry i with deadline := (s.entry i).deadline + 1 }) hst hlimit ⟨hm, he, hreplying i hst⟩
    ((markedAs_someDeadlineReached s r).2 ⟨i, hreplying i hst, hst, hlimit⟩)
  obtain ⟨hring, hentry, hqueue, horder⟩ := settle_atMark hm'
  exact ⟨hring, by rw [hentry, he']; rfl, fun h => hq' (hqueue.1 h), by rw [horder]; exact ho'⟩

end

/-! ### The mark next in order -/

theorem advanceCounts_someGapReached (s : State) : (advanceCounts s).someGapReached = true
    ↔ ∃ i ∈ s.table.order, s.reachesGapLimit i := by
  rw [← markedAs_someGapReached s s.ring, ← markedAs_eq]
  unfold swapInTime
  split
  · rfl
  · rfl

theorem advanceCounts_someDeadlineReached (s : State) : (advanceCounts s).someDeadlineReached = true
    ↔ ∃ i, .entry i ∈ s.replyQueue ∧ s.reachesDeadline i := by
  rw [← markedAs_someDeadlineReached s s.ring, ← markedAs_eq]
  unfold swapInTime
  split
  · rfl
  · rfl

theorem isSome_markNumber_nextRecord (s : State) : (s.ring.markNumber (judgeCycle s.ring.nextRecord.bytes)).isSome = true
    ↔ s.marksSync s.ring.nextRecord.bytes (s.ring.lastCycle + 1) := by
  rcases markNumber_nextRecord s with ⟨hm, hs⟩ | ⟨hm, hs⟩
  · simp only [hm, Option.isSome_some, hs]
  · simp only [hm, Option.isSome_none, hs, Bool.false_eq_true]

theorem gapExpiresAt_nextRecord {s : State} (hq : s.queueLaw) : s.gapExpiresAt s.ring.nextRecord.bytes = true
    ↔ s.marksSync s.ring.nextRecord.bytes (s.ring.lastCycle + 1) ∧ ∃ i, s.reachesGapLimit i := by
  obtain ⟨_, _, _, horder, _⟩ := hq
  unfold State.gapExpiresAt
  rw [Bool.and_eq_true, isSome_markNumber_nextRecord, advanceCounts_someGapReached]
  refine and_congr_right fun _ => exists_congr fun i => and_iff_right_of_imp fun h => (horder i).2 ?_
  simp [h.1]

theorem replyExpiresAt_nextRecord {s : State} (hq : s.queueLaw) : s.replyExpiresAt s.ring.nextRecord.bytes = true
    ↔ s.marksSync s.ring.nextRecord.bytes (s.ring.lastCycle + 1) ∧ ∃ i, s.reachesDeadline i := by
  obtain ⟨_, _, _, _, _, _, _, _, _, hreplying, _⟩ := hq
  unfold State.replyExpiresAt
  rw [Bool.and_eq_true, isSome_markNumber_nextRecord, advanceCounts_someDeadlineReached]
  exact and_congr_right fun _ => exists_congr fun i => and_iff_right_of_imp fun h => hreplying i h.1

theorem exec_assemblyGapExpiry {s : State} (hr : s.pins.reset = false) :
    exec .assemblyGapExpiry s = .next (nextMarkIf s.gapExpiresAt s) := congrArg Host.Outcome.next (unlessPinReset_of_released _ hr)

theorem exec_replyExpired {s : State} (hr : s.pins.reset = false) :
    exec .replyExpired s = .next (nextMarkIf s.replyExpiresAt s) := congrArg Host.Outcome.next (unlessPinReset_of_released _ hr)

/-- Settles O13: what one entry is after the acts of a mark, whatever their order. -/
theorem countsExpireAtMarks : Obligations.CountsExpireAtMarks := by
  intro s hr hq incomplete abandoned next marked
  have hgap : ∀ (record : RawRecord) (k : Half), s.marksSync record.bytes k → s.bridge.softReset = none → s.mgmtLaw →
      ∀ i, s.reachesGapLimit i → incomplete k i (cycleMark record s) := by
    intro record k hm hreset hlaw i hi
    obtain ⟨_, _, _, _, _, _, _, _, hpos, _⟩ := hlaw
    obtain ⟨r, rs, hsync, hk, he⟩ := cycleMark_of_marksSync hm
    obtain ⟨hring, hentry, hqueue⟩ := mark_gap (r := r) hq hreset rs hpos hi
    rw [he, markInSync_eq]
    exact ⟨by rw [hring, hsync], by rw [hring, hk], hentry, hqueue⟩
  have hdeadline : ∀ (record : RawRecord) (k : Half), s.marksSync record.bytes k → s.bridge.softReset = none →
      ∀ i, s.reachesDeadline i → abandoned k i (cycleMark record s) := by
    intro record k hm hreset i hi
    obtain ⟨r, rs, hsync, hk, he⟩ := cycleMark_of_marksSync hm
    obtain ⟨hring, hentry, hqueue, horder⟩ := mark_deadline (r := r) hq hreset rs hi
    rw [he, markInSync_eq]
    exact ⟨by rw [hring, hsync], by rw [hring, hk], hentry, hqueue, horder⟩
  refine ⟨fun record k hm hreset hlaw => ⟨_, exec_cycleMark record hr, hgap record k hm hreset hlaw, hdeadline record k hm hreset⟩,
    fun i hm hi => ?gap, fun i hm hi => ?deadline, fun hn => ?noGap, fun hn => ?noDeadline⟩
  case gap =>
    have hexec : exec .assemblyGapExpiry s = .next (cycleMark next s) := by
      rw [exec_assemblyGapExpiry hr, nextMarkIf_of_true ((gapExpiresAt_nextRecord hq).2 ⟨hm, i, hi⟩)]
      rfl
    exact ⟨hexec.trans (exec_cycleMark _ hr).symm, fun hreset hlaw => ⟨_, hexec, hgap next _ hm hreset hlaw i hi⟩⟩
  case deadline =>
    have hexec : exec .replyExpired s = .next (cycleMark next s) := by
      rw [exec_replyExpired hr, nextMarkIf_of_true ((replyExpiresAt_nextRecord hq).2 ⟨hm, i, hi⟩)]
      rfl
    exact ⟨hexec.trans (exec_cycleMark _ hr).symm, fun hreset => ⟨_, hexec, hdeadline next _ hm hreset i hi⟩⟩
  case noGap =>
    have hfalse : s.gapExpiresAt s.ring.nextRecord.bytes = false := Bool.eq_false_iff.2 fun h => by
      obtain ⟨hm, i, hi⟩ := (gapExpiresAt_nextRecord hq).1 h
      exact hn.elim (fun h => h hm) fun h => h i hi
    rw [exec_assemblyGapExpiry hr, nextMarkIf_of_not hfalse]
  case noDeadline =>
    have hfalse : s.replyExpiresAt s.ring.nextRecord.bytes = false := Bool.eq_false_iff.2 fun h => by
      obtain ⟨hm, i, hi⟩ := (replyExpiresAt_nextRecord hq).1 h
      exact hn.elim (fun h => h hm) fun h => h i hi
    rw [exec_replyExpired hr, nextMarkIf_of_not hfalse]

end Sys2Proof.Machine
end

section
/-! PROOFS. Loss and restore of the line (spec/01, section 1.5; R10, R87, R128, R193). -/

namespace Sys2Proof.Machine

/-! ### What a report counts -/

theorem report_events (k : Report) (s : State) (name : BankName) : ((report k s).reports.bank name).events
    = if name = k.kind.bank then saturate (s.reports.bank name).events else (s.reports.bank name).events := by
  have hbank : ∀ x : Bank, x.events = saturate (s.reports.bank k.kind.bank).events →
      ((s.reports.setBank k.kind.bank x).bank name).events
        = if name = k.kind.bank then saturate (s.reports.bank name).events else (s.reports.bank name).events := by
    intro x hx
    rw [Reports.bank_setBank]
    by_cases h : name = k.kind.bank
    · rw [if_pos h, if_pos h, hx, h]
    · rw [if_neg h, if_neg h]
  unfold report
  dsimp only
  split
  · split
    · exact hbank _ rfl
    · exact hbank _ rfl
  · exact hbank _ rfl

/-! ### The teardown -/

theorem markQuiet_of_none {s : State} (hx : s.executing = none) : markQuiet s = s := by
  simp [markQuiet, hx]

theorem markQuiet_of_some {s : State} {i : Nat} (hx : s.executing = some i) : markQuiet s = setMark true i s := by
  simp [markQuiet, hx]

theorem exec_lineLoss {s : State} (hr : s.pins.reset = false) : exec .lineLoss s = .next (lineLoss s) :=
  congrArg Host.Outcome.next (unlessPinReset_of_released _ hr)

theorem exec_lineRestore {s : State} (hr : s.pins.reset = false) : exec .lineRestore s = .next (lineRestore s) :=
  congrArg Host.Outcome.next (unlessPinReset_of_released _ hr)

theorem lineLoss_of_up {s : State} (h : s.ring.state ≠ .down) : lineLoss s = tearDown (s.withRing s.ring.toDown) := if_neg h

/-- In STOPPED with no soft reset pending only the Bus Engine's decision follows. -/
theorem settle_of_stopped {s : State} (hb : s.bridge.state = .stopped) (hs : s.bridge.softReset = none) :
    settle s = arbitrate s := by
  have hj : judgeDrain s = s := if_neg fun h => by simp [hb] at h
  rw [settle_of_no_softReset hs, hj]

/-- With nothing planned nothing starts. -/
theorem startSeparated_of_no_plan {s : State} (hp : s.bus.plan = []) : startSeparated s = s := by
  unfold startSeparated
  split
  · rfl
  · unfold startCycle
    split
    · rfl
    · have hstart : ∀ locked, s.bus.started locked = s.bus := fun locked => by simp [Bus.started, hp]
      rw [hstart]
      rfl

/-- With nothing planned and nothing waiting, an entry that is EXECUTING or not, the Bus Engine stays as it is. -/
theorem arbitrate_of_no_plan {s : State} (hh : s.bus.engine = .idle → s.pins.holdRequest = false) (hp : s.bus.plan = [])
    (hr : s.table.requests = []) : arbitrate s = s := by
  by_cases he : s.bus.engine = .idle
  · by_cases hx : s.executing = none
    · exact arbitrate_of_nothing (hh he) hx hr
    · obtain ⟨i, hx⟩ := Option.ne_none_iff_exists'.1 hx
      rw [arbitrate_of_executing he hx, if_neg (by simp [hh he]), startSeparated_of_no_plan hp]
  · exact arbitrate_of_not_idle he

theorem reportLineLoss_table (s : State) : (reportLineLoss s).table = s.table := by simp [reportLineLoss]

theorem reportLineLoss_executing (s : State) : (reportLineLoss s).executing = s.executing :=
  executing_of_table (by rw [reportLineLoss_table])

theorem executing_withRing (s : State) (r : RingPort) : (s.withRing r).executing = s.executing := rfl

/-- The blocks after the teardown, with the EXECUTING entry as `f` leaves it. -/
theorem tearDownBlocks_quiet {s : State} {i : Nat} (r : RingPort) (hx : s.executing = some i)
    (hd : s.sequenceDue i = false) : tearDownBlocks (markQuiet (s.withRing r))
      = (tearDownBlocks (s.withRing r)).modEntry i (fun e => { e with mark := .quiet }) := by
  have hdue : (s.withRing r).sequenceDue i = false := hd
  rw [markQuiet_of_some (s := s.withRing r) hx, setMark_of_not_due true hdue]
  exact tearDownBlocks_modEntry (s := s.withRing r) _ (executing_state hx) fun _ => ⟨rfl, rfl⟩

/-- What follows the report of a line loss, with nothing in IDLE to decide. -/
theorem settle_reportLineLoss {t : State} (hb : t.bridge.state = .stopped) (hs : t.bridge.softReset = none)
    (hr : t.table.requests = []) (h : t.executing = none ∧ ¬(t.bus.engine = .idle ∧ t.pins.holdRequest = true)
      ∨ t.bus.engine ≠ .idle) : settle (reportLineLoss t) = reportLineLoss t := by
  have hbus : (reportLineLoss t).bus = t.bus := by simp [reportLineLoss]
  rw [settle_of_stopped (by simpa [reportLineLoss] using hb) (by simpa [reportLineLoss] using hs)]
  by_cases he : t.bus.engine = .idle
  · obtain ⟨hx, hn⟩ := h.resolve_right fun h => h he
    have hhold : t.pins.holdRequest = false := Bool.eq_false_iff.2 fun h => hn ⟨he, h⟩
    exact arbitrate_of_nothing (by simpa [reportLineLoss] using hhold) ((reportLineLoss_executing t).trans hx)
      (by rw [reportLineLoss_table, hr])
  · exact arbitrate_of_not_idle (by rw [hbus]; exact he)

/-- A line loss with nothing EXECUTING. -/
theorem lineLoss_of_none {s : State} (hup : s.ring.state ≠ .down) (hs : s.bridge.softReset = none) (hx : s.executing = none)
    (hn : ¬(s.bus.engine = .idle ∧ s.pins.holdRequest = true)) :
    lineLoss s = reportLineLoss (tearDownBlocks (s.withRing s.ring.toDown)) := by
  have hxt : (tearDownBlocks (s.withRing s.ring.toDown)).executing = none := (executing_of_tearDownBlocks _).trans hx
  rw [lineLoss_of_up hup, tearDown, markQuiet_of_none (s := s.withRing s.ring.toDown) hx]
  simp only [hxt]
  exact settle_reportLineLoss rfl hs (by simp) (Or.inl ⟨hxt, by simpa using hn⟩)

/-- A line loss while a bus cycle of an execution is in progress: the entry is marked quiet. -/
theorem lineLoss_of_busy {s : State} {i : Nat} (hup : s.ring.state ≠ .down) (hs : s.bridge.softReset = none)
    (hx : s.executing = some i) (hb : s.bus.engine = .cycle ∨ s.bus.engine = .locked) :
    lineLoss s = reportLineLoss ((tearDownBlocks (s.withRing s.ring.toDown)).modEntry i (fun e => { e with mark := .quiet })) := by
  have hne : s.bus.engine ≠ .idle := by rcases hb with h | h <;> simp [h]
  have hdue : s.sequenceDue i = false := by simp [State.sequenceDue, hne]
  have hxt : ((tearDownBlocks (s.withRing s.ring.toDown)).modEntry i (fun e => { e with mark := .quiet })).executing = some i := by
    exact (executing_modEntry (tearDownBlocks (s.withRing s.ring.toDown)) i (fun e => { e with mark := .quiet })
      (fun _ => rfl)).trans ((executing_of_tearDownBlocks _).trans hx)
  have hbusy : ((tearDownBlocks (s.withRing s.ring.toDown)).modEntry i (fun e => { e with mark := .quiet })).bus.busy = true := by
    rcases hb with h | h <;> simp [State.modEntry, Bus.busy, h]
  rw [lineLoss_of_up hup, tearDown, tearDownBlocks_quiet _ hx hdue]
  simp only [hxt, hbusy, if_true]
  exact settle_reportLineLoss rfl hs (by simp [State.modEntry]) (Or.inr (by simpa [State.modEntry] using hne))

/-- Settles O6: the teardown, by what is EXECUTING. -/
theorem lineEventsMoveTheRingPort : Obligations.LineEventsMoveTheRingPort := by
  refine ⟨fun s hr => ⟨fun hd => ?restore, fun hup => ?restoreUp⟩, fun s hr hd => ?lossDown, fun s hr hup hs h => ?loss⟩
  case restore =>
    rw [exec_lineRestore hr, lineRestore, if_pos hd]
    rfl
  case restoreUp => rw [exec_lineRestore hr, lineRestore, if_neg hup]
  case lossDown => rw [exec_lineLoss hr, lineLoss, if_pos hd]
  case loss =>
    cases hx : s.executing with
    | none =>
      have hn : ¬(s.bus.engine = .idle ∧ s.pins.holdRequest = true) := by
        rcases h with ⟨_, h⟩ | h | h
        · exact h
        · simp [h]
        · simp [h]
      refine ⟨(tearDownBlocks (s.withRing s.ring.toDown)).withMgmt { s.mgmt with queue := [] }, ?_, rfl, rfl, rfl, rfl, rfl, rfl,
        fun i hi => ?_, nofun, fun w => tearDownBlocks_window _ w, by simp, rfl, by simp, rfl, by simp⟩
      · rw [exec_lineLoss hr, lineLoss_of_none hup hs hx hn]
        rfl
      · exact congrArg Entry.state ((tearDownBlocks_entry (s.withRing s.ring.toDown) i).trans (if_neg hi))
    | some i =>
      have hb : s.bus.engine = .cycle ∨ s.bus.engine = .locked := h.resolve_left fun h => by simp [hx] at h
      have hi := executing_state hx
      have hentry : ∀ j, (((tearDownBlocks (s.withRing s.ring.toDown)).modEntry i (fun e => { e with mark := .quiet })).withMgmt
          { s.mgmt with queue := [] }).entry j
            = if j = i then { s.entry i with mark := .quiet } else (tearDownBlocks (s.withRing s.ring.toDown)).entry j := by
        intro j
        have hti : (tearDownBlocks (s.withRing s.ring.toDown)).entry i = s.entry i := (tearDownBlocks_entry _ i).trans (if_pos hi)
        have he := modEntry_entry (tearDownBlocks (s.withRing s.ring.toDown)) i (fun e => { e with mark := .quiet })
          (by rw [hti, hi]; simp) j
        rw [hti] at he
        exact he
      refine ⟨((tearDownBlocks (s.withRing s.ring.toDown)).modEntry i (fun e => { e with mark := .quiet })).withMgmt
        { s.mgmt with queue := [] }, ?_, rfl, rfl, rfl, rfl, rfl, rfl, fun j hj => ?_, fun j hj => ?_,
        fun w => tearDownBlocks_window _ w, by simp [State.modEntry], rfl, by simp [State.modEntry], rfl, by simp [State.modEntry]⟩
      · rw [exec_lineLoss hr, lineLoss_of_busy hup hs hx hb]
        rfl
      · have hne : j ≠ i := fun h => hj (h ▸ hi)
        rw [hentry, if_neg hne]
        exact congrArg Entry.state ((tearDownBlocks_entry (s.withRing s.ring.toDown) j).trans (if_neg hj))
      · cases hj
        rw [hentry, if_pos rfl]

/-! ### Between two cycles of an execution -/

/-- Before a locked sequence that is due, the line loss finds it started. -/
theorem lineLoss_startDueSequence {s : State} {i : Nat} (hup : s.ring.state ≠ .down) (hx : s.executing = some i)
    (hd : s.sequenceDue i = true) : lineLoss (startDueSequence s) = lineLoss s := by
  have hring : (startDueSequence s).ring = s.ring := by simp
  have hx' : (startDueSequence s).executing = some i := (executing_of_table (by simp)).trans hx
  have hstart : (startDueSequence s).withRing s.ring.toDown = startDueSequence (s.withRing s.ring.toDown) := by
    rw [startDueSequence_of_executing hx, startDueSequence_of_executing (s := s.withRing s.ring.toDown) hx]
    rfl
  have hmark : markQuiet ((startDueSequence s).withRing s.ring.toDown) = markQuiet (s.withRing s.ring.toDown) := by
    rw [markQuiet_of_some (s := (startDueSequence s).withRing s.ring.toDown) hx',
      markQuiet_of_some (s := s.withRing s.ring.toDown) hx, hstart]
    exact setMark_startDueSequence (s := s.withRing s.ring.toDown) true hx hd
  rw [lineLoss_of_up (by rw [hring]; exact hup), lineLoss_of_up hup, hring, tearDown, tearDown, hmark]

/-- What the end of an execution with the mark quiet leaves (R73, R128, R184). -/
theorem endExecution_quiet {t : State} {i : Nat} (hi : (t.entry i).state = .executing) (hm : (t.entry i).mark = .quiet) :
    ((endExecution i .aborted t).entry i).state = .free
      ∧ (endExecution i .aborted t).reports.counters.executed = t.reports.counters.executed + 1
      ∧ (endExecution i .aborted t).reports.ring.events = t.reports.ring.events
      ∧ (endExecution i .aborted t).reports.bus.events = saturate t.reports.bus.events
      ∧ ∃ l, (endExecution i .aborted t).reports.lastTx = some l ∧ l.source = (t.entry i).source ∧ l.tag = (t.entry i).tag
          ∧ l.final = .aborted := by
  obtain ⟨_, hrep⟩ := endExecution_reports i .aborted t
  rw [reportEnd, if_pos (by simp [hm])] at hrep
  have hlast : (t.entry i).finalStatus .aborted = .aborted := by simp [Entry.finalStatus]
  refine ⟨?_, ?_, ?_, ?_, ?_⟩
  · rw [endExecution_entry i .aborted t (by simp [hi]), if_pos rfl, Entry.afterEnd, if_pos (Or.inl hm)]
    rfl
  · rw [hrep, (report_counters _ _).1]
    rfl
  · rw [hrep]
    exact report_events _ _ .ring
  · rw [hrep]
    exact report_events _ _ .bus
  · rw [hrep, (report_counters _ _).2]
    exact ⟨_, rfl, rfl, rfl, hlast⟩

theorem reportLineLoss_fields (t : State) (j : Nat) : (reportLineLoss t).entry j = t.entry j
    ∧ (reportLineLoss t).replyQueue = t.replyQueue ∧ (reportLineLoss t).bus = t.bus
    ∧ (reportLineLoss t).ring = t.ring ∧ (reportLineLoss t).bridge = t.bridge ∧ (reportLineLoss t).pins = t.pins
    ∧ (reportLineLoss t).reports.counters = t.reports.counters ∧ (reportLineLoss t).reports.lastTx = t.reports.lastTx
    ∧ (reportLineLoss t).reports.ring.events = saturate t.reports.ring.events
    ∧ (reportLineLoss t).reports.bus.events = t.reports.bus.events := by
  refine ⟨report_entry _ _ _, by simp [reportLineLoss], by simp [reportLineLoss], by simp [reportLineLoss],
    by simp [reportLineLoss], by simp [reportLineLoss], (report_counters _ _).1, (report_counters _ _).2, ?_, ?_⟩
  · exact report_events _ _ .ring
  · exact report_events _ _ .bus

/-- What the line loss and the end of the execution of entry `i` have made of `t`. -/
def State.endedByLineLoss (u t : State) (i : Nat) : Prop :=
  u.ring = t.ring ∧ u.bridge = t.bridge ∧ u.pins = t.pins ∧ u.bus = t.bus.cleared ∧ (u.entry i).state = .free
    ∧ u.replyQueue = [] ∧ u.table.requests = []
    ∧ u.reports.counters.executed = t.reports.counters.executed + 1
    ∧ u.reports.ring.events = saturate t.reports.ring.events ∧ u.reports.bus.events = saturate t.reports.bus.events
    ∧ ∃ l, u.reports.lastTx = some l ∧ l.source = (t.entry i).source ∧ l.tag = (t.entry i).tag ∧ l.final = .aborted

/-- The two reports in either order. -/
theorem inSomeOrder_lineLoss {t : State} {i : Nat} (hi : (t.entry i).state = .executing) (hm : (t.entry i).mark = .quiet)
    (hq : t.replyQueue = []) (hr : t.table.requests = []) :
    (inSomeOrder [reportLineLoss, endExecution i .aborted] t).endedByLineLoss t i := by
  unfold State.endedByLineLoss
  rcases inSomeOrder_two reportLineLoss (endExecution i .aborted) t with e | e
  · rw [e]
    have he : (reportLineLoss (t.withChoices (t.choices + 1))).entry i = t.entry i := (reportLineLoss_fields _ i).1
    obtain ⟨hfree, hcount, hring, hbus, hlast⟩ := endExecution_quiet (t := reportLineLoss (t.withChoices (t.choices + 1)))
      (by rw [he]; exact hi) (by rw [he]; exact hm)
    rw [he] at hlast
    refine ⟨by simp [reportLineLoss], by simp [reportLineLoss], by simp [reportLineLoss], by simp [reportLineLoss], hfree, ?_, ?_,
      by rw [hcount, (reportLineLoss_fields _ i).2.2.2.2.2.2.1]; rfl, ?_, ?_, hlast⟩
    · simp [endExecution_replyQueue, hm, reportLineLoss, hq]
    · simp [endExecution_requests, hm, reportLineLoss, hr]
    · rw [hring]
      exact (reportLineLoss_fields _ i).2.2.2.2.2.2.2.2.1
    · rw [hbus]
      exact congrArg saturate (reportLineLoss_fields _ i).2.2.2.2.2.2.2.2.2
  · rw [e]
    obtain ⟨hfree, hcount, hring, hbus, hlast⟩ := endExecution_quiet (t := t.withChoices (t.choices + 1)) hi hm
    obtain ⟨fentry, fqueue, fbus, fring, fbridge, fpins, fcounters, flast, fringEvents, fbusEvents⟩ :=
      reportLineLoss_fields (endExecution i .aborted (t.withChoices (t.choices + 1))) i
    refine ⟨by simp [fring], by simp [fbridge], by simp [fpins], by simp [fbus], by rw [fentry]; exact hfree, ?_, ?_,
      by rw [fcounters]; exact hcount, by rw [fringEvents]; exact congrArg saturate hring,
      by rw [fbusEvents]; exact hbus, by rw [flast]; exact hlast⟩
    · rw [fqueue, endExecution_replyQueue]
      simp [hm, hq]
    · rw [reportLineLoss_table, endExecution_requests]
      simp [hm, hr]

/-- Settles O7: a sequence that is due starts first; otherwise the end and the report in either order. -/
theorem lineLossEndsAnExecutionBetweenCycles : Obligations.LineLossEndsAnExecutionBetweenCycles := by
  refine ⟨fun s t i hr hup hx he hh hl ht => ?due, fun s i hr hup hs h hx => ?ends⟩
  case due =>
    have hd : s.sequenceDue i = true := (sequenceDue_iff s i).2 ⟨he, hl⟩
    have hclock : t = startDueSequence s := by
      rw [exec_busCycleStart hr, separatingClock_of_due hx hd, if_neg (by simp [hh])] at ht
      exact (Host.Outcome.next.inj ht).symm
    subst hclock
    rw [exec_lineLoss hr, exec_lineLoss (by simpa using hr), lineLoss_startDueSequence hup hx hd]
  case ends =>
    have hdue : s.sequenceDue i = false := by
      rcases h with h | ⟨_, _, h⟩
      · exact sequenceDue_of_yielded h i
      · exact sequenceDue_of_not_locked h
    have hi := executing_state hx
    have hti : (tearDownBlocks (s.withRing s.ring.toDown)).entry i = s.entry i := (tearDownBlocks_entry _ i).trans (if_pos hi)
    let t := (tearDownBlocks (s.withRing s.ring.toDown)).modEntry i (fun e => { e with mark := .quiet })
    have hxt : t.executing = some i := by
      exact (executing_modEntry (tearDownBlocks (s.withRing s.ring.toDown)) i (fun e => { e with mark := .quiet })
        (fun _ => rfl)).trans ((executing_of_tearDownBlocks _).trans hx)
    have hentry : t.entry i = { s.entry i with mark := .quiet } := by
      rw [entry_modEntry_self _ _ _ (by rw [hti, hi]; simp), hti]
    have hbus : t.bus = s.bus := by simp [t, State.modEntry]
    have hbusy : t.bus.busy = false := by
      rw [hbus]
      rcases h with h | ⟨h, _⟩
      · simp [Bus.busy, h]
      · simp [Bus.busy, h]
    obtain ⟨uring, ubridge, upins, ubus, ufree, uqueue, urequests, ucount, uringEvents, ubusEvents, ulast⟩ :=
      inSomeOrder_lineLoss (t := t) (by rw [hentry]; exact hi) (by rw [hentry]) (by simp [t, State.modEntry])
        (by simp [t, State.modEntry])
    have hend : lineLoss s = inSomeOrder [reportLineLoss, endExecution i .aborted] t := by
      rw [lineLoss_of_up hup, tearDown, tearDownBlocks_quiet _ hx hdue]
      show settle (match t.executing with
        | none => reportLineLoss t
        | some i => if t.bus.busy then reportLineLoss t else inSomeOrder [reportLineLoss, endExecution i .aborted] t) = _
      simp only [hxt, hbusy, Bool.false_eq_true, if_false]
      rw [settle_of_stopped (by rw [ubridge]; rfl) (by rw [ubridge]; exact hs)]
      refine arbitrate_of_no_plan (fun he => ?_) (by rw [ubus]; rfl) urequests
      rw [upins]
      rcases h with h | ⟨_, h, _⟩
      · rw [ubus, hbus, Bus.cleared_engine] at he
        simp [h] at he
      · exact h
    have hengine : s.bus.cleared.engine = s.bus.engine := by
      rw [Bus.cleared_engine]
      rcases h with h | ⟨h, _⟩
      · simp [h]
      · simp [h]
    rw [hentry] at ulast
    refine ⟨_, (exec_lineLoss hr).trans (congrArg _ hend), by rw [uring]; rfl, by rw [ubridge]; rfl, ufree, uqueue, urequests,
      by rw [ubus, hbus, hengine], by rw [ubus]; rfl, ucount.trans rfl, uringEvents, ubusEvents, ulast⟩

end Sys2Proof.Machine
end

section
/-! PROOFS. The active schedule bank changes only at a swap or a reset (R23): what each operation of the model leaves of it, in
the order of the model. -/

namespace Sys2Proof.Machine

/-- The active bank and the number of soft resets carried out. -/
def State.bankAt (s : State) : List SchedEntry × Byte := (s.sched.active, s.bridge.resetCount)

/-- The active bank is as it was, or one soft reset has given its reset value. -/
def resetsTo (a b : List SchedEntry × Byte) : Prop := b.1 = a.1 ∨ b = (Schedule.initial.active, a.2 + 1)

@[simp] theorem resetsTo_refl (a : List SchedEntry × Byte) : resetsTo a a := Or.inl rfl

theorem inSomeOrder_bankAt {acts : List (State → State)} (h : ∀ f ∈ acts, ∀ t, (f t).bankAt = t.bankAt) (s : State) :
    (inSomeOrder acts s).bankAt = s.bankAt :=
  inSomeOrder_keeps (P := fun t => t.bankAt = s.bankAt) acts s (fun _ _ h => h) (fun f hf t ht => (h f hf t).trans ht) rfl

/-! ### The shared operations -/

@[simp] theorem report_bankAt (k : Report) (s : State) : (report k s).bankAt = s.bankAt := by simp [State.bankAt]

@[simp] theorem judgeDrain_bankAt (s : State) : (judgeDrain s).bankAt = s.bankAt := by simp [State.bankAt]

@[simp] theorem arbitrate_bankAt (s : State) : (arbitrate s).bankAt = s.bankAt := by simp [State.bankAt]

@[simp] theorem endExecution_bankAt (i : Nat) (st : Status) (s : State) : (endExecution i st s).bankAt = s.bankAt := by
  simp [State.bankAt]

@[simp] theorem freeEntry_bankAt (i : Nat) (s : State) : (freeEntry i s).bankAt = s.bankAt := by simp [State.bankAt]

@[simp] theorem dropEntry_bankAt (i : Nat) (s : State) : (dropEntry i s).bankAt = s.bankAt := by simp [State.bankAt]

@[simp] theorem answerUnexecuted_bankAt (i : Nat) (st : Status) (s : State) : (answerUnexecuted i st s).bankAt = s.bankAt := by
  simp [State.bankAt]

@[simp] theorem setMark_bankAt (quiet : Bool) (i : Nat) (s : State) : (setMark quiet i s).bankAt = s.bankAt := by
  simp [State.bankAt]

@[simp] theorem startCycle_bankAt (s : State) : (startCycle s).bankAt = s.bankAt := by
  unfold startCycle
  split
  · rfl
  · rfl

/-- A soft reset that is due gives the active bank its reset value, and is counted (R20, R196). -/
theorem softResetIfDue_resets (s : State) : resetsTo s.bankAt (softResetIfDue s).bankAt := by
  unfold softResetIfDue
  split
  · simp
  · split
    · rename_i source tag _ _
      refine Or.inr ?_
      unfold softResetEffect
      dsimp only
      split
      · simp [State.bankAt]
      · simp [State.bankAt]
    · simp

theorem resetsTo_settle {s : State} {a : List SchedEntry × Byte} (h : s.bankAt = a) : resetsTo a (settle s).bankAt := by
  have hr := softResetIfDue_resets (judgeDrain s)
  rw [judgeDrain_bankAt, h] at hr
  rw [settle, arbitrate_bankAt]
  exact hr

theorem resetsTo_of_eq {s : State} {a : List SchedEntry × Byte} (h : s.bankAt = a) : resetsTo a s.bankAt := Or.inl (by rw [h])

@[simp] theorem claimExecuting_bankAt (quiet : Bool) (i : Nat) (s : State) :
    (claimExecuting quiet i s).bankAt = s.bankAt := by
  unfold claimExecuting
  dsimp only
  split <;> simp

@[simp] theorem claimQuiet_bankAt (s : State) : (claimQuiet s).bankAt = s.bankAt := by
  unfold claimQuiet
  split <;> simp

@[simp] theorem abortEntry_bankAt (quiet : Bool) (s : State) (i : Nat) : (abortEntry quiet s i).bankAt = s.bankAt := by
  unfold abortEntry
  split
  · rfl
  · split <;> simp
  · split <;> simp
  · simp
  · simp

@[simp] theorem abortEntries_bankAt (quiet : Bool) (is : List Nat) (s : State) :
    (abortEntries quiet is s).bankAt = s.bankAt :=
  foldl_field State.bankAt (fun t i => abortEntry_bankAt quiet t i) is s

@[simp] theorem separatingClock_bankAt (s : State) : (separatingClock s).bankAt = s.bankAt := by
  unfold separatingClock
  split
  · exact arbitrate_bankAt _
  · rfl

/-! ### The Bus Engine -/

@[simp] theorem lockedNextCycle_bankAt (s : State) : (lockedNextCycle s).bankAt = s.bankAt := by
  unfold lockedNextCycle
  split <;> simp

theorem endLockedPart_resets (i : Nat) (s : State) : resetsTo s.bankAt (endLockedPart i s).bankAt := by
  unfold endLockedPart
  dsimp only
  split
  · exact resetsTo_settle (endExecution_bankAt _ _ _)
  · split
    · exact resetsTo_settle (endExecution_bankAt _ _ _)
    · exact resetsTo_of_eq rfl

theorem endCycle_resets (i : Nat) (s : State) : resetsTo s.bankAt (endCycle i s).bankAt := by
  unfold endCycle
  split
  · split
    · exact endLockedPart_resets i s
    · simp
  · split
    · exact resetsTo_settle (endExecution_bankAt _ _ _)
    · split
      · exact resetsTo_settle (endExecution_bankAt _ _ _)
      · exact resetsTo_settle rfl
  · simp
  · simp

theorem takenBeat_bankAt (i : Nat) (b : Beat) (x : Answer) (w : Width) (d : LaneData) (s : State) :
    (takenBeat i b x w d s).bankAt = s.bankAt := by
  simp [State.bankAt]

theorem takeBeat_resets (i : Nat) (b : Beat) (x : Answer) (w : Width) (d : LaneData) (s : State) :
    resetsTo s.bankAt (takeBeat i b x w d s).bankAt := by
  unfold takeBeat
  dsimp only
  split
  · rw [← takenBeat_bankAt i b x w d s]
    exact endCycle_resets i _
  · exact resetsTo_of_eq (takenBeat_bankAt i b x w d s)

theorem failBeat_resets (k : ReportKind) (st : Status) (i : Nat) (b : Beat) (s : State) :
    resetsTo s.bankAt (failBeat k st i b s).bankAt := by
  unfold failBeat
  exact resetsTo_settle (by simp)

theorem answerBeat_resets (waits : Nat) {act : Nat → Beat → State → State}
    (h : ∀ i b t, resetsTo t.bankAt (act i b t).bankAt) (s : State) : resetsTo s.bankAt (answerBeat waits act s).bankAt := by
  unfold answerBeat
  split
  · split
    · split
      · exact failBeat_resets ..
      · exact h ..
    · simp
  · simp

@[simp] theorem holdRelease_bankAt (s : State) : (holdRelease s).bankAt = s.bankAt := by
  unfold holdRelease
  dsimp only
  split
  · exact arbitrate_bankAt _
  · rfl
  · rfl
  · rfl

/-! ### Bridge Control -/

@[simp] theorem reportLineLoss_bankAt (s : State) : (reportLineLoss s).bankAt = s.bankAt := report_bankAt _ _

theorem tearDownBlocks_bankAt (s : State) : (tearDownBlocks s).bankAt = s.bankAt := rfl

@[simp] theorem markQuiet_bankAt (s : State) : (markQuiet s).bankAt = s.bankAt := by
  unfold markQuiet
  split <;> simp

theorem tearDown_resets (s : State) : resetsTo s.bankAt (tearDown s).bankAt := by
  have hblocks : (tearDownBlocks (markQuiet s)).bankAt = s.bankAt := (tearDownBlocks_bankAt _).trans (markQuiet_bankAt s)
  unfold tearDown
  refine resetsTo_settle ?_
  split
  · rw [reportLineLoss_bankAt, hblocks]
  · split
    · rw [reportLineLoss_bankAt, hblocks]
    · rw [inSomeOrder_bankAt (by simp), hblocks]

theorem lineLoss_resets (s : State) : resetsTo s.bankAt (lineLoss s).bankAt := by
  unfold lineLoss
  split
  · simp
  · exact tearDown_resets (s.withRing s.ring.toDown)

theorem lineRestore_bankAt (s : State) : (lineRestore s).bankAt = s.bankAt := by
  unfold lineRestore
  split <;> rfl

theorem pinResetRelease_bankAt (s : State) : (pinResetRelease s).bankAt = s.bankAt := by
  unfold pinResetRelease
  split
  · exact arbitrate_bankAt _
  · rfl

/-! ### The intake -/

@[simp] theorem reject_bankAt (index : Byte) (g : Segment) (st : Status) (s : State) :
    (reject index g st s).1.bankAt = s.bankAt := by
  unfold reject
  split
  · exact report_bankAt _ _
  · dsimp only
    split
    · exact report_bankAt _ _
    · rfl

@[simp] theorem decideIfQueued_bankAt (i : Nat) (s : State) : (decideIfQueued i s).bankAt = s.bankAt := by
  unfold decideIfQueued
  split <;> simp

theorem refuse_bankAt (index : Byte) (g : Segment) (s : State) : (refuse index g s).1.bankAt = s.bankAt := report_bankAt _ _

@[simp] theorem intakeFirst_bankAt (op : ReqOp) (index : Byte) (capacity : Nat) (g : Segment) (s : State) :
    (intakeFirst op index capacity g s).1.bankAt = s.bankAt := by
  unfold intakeFirst
  split
  · simp
  · dsimp only
    split
    · exact refuse_bankAt ..
    · split
      · exact refuse_bankAt ..
      · exact (decideIfQueued_bankAt ..).trans rfl

@[simp] theorem judgeLater_bankAt (i : Nat) (op : ReqOp) (index : Byte) (capacity : Nat) (g : Segment) (s : State) :
    (judgeLater i op index capacity g s).bankAt = s.bankAt := by
  unfold judgeLater
  dsimp only
  split
  · simp [endSequence]
  · split
    · rfl
    · split
      · exact (decideIfQueued_bankAt ..).trans rfl
      · simp [endSequence]

@[simp] theorem intakeLater_bankAt (op : ReqOp) (index : Byte) (capacity : Nat) (g : Segment) (s : State) :
    (intakeLater op index capacity g s).1.bankAt = s.bankAt := by
  unfold intakeLater
  split
  · simp
  · exact judgeLater_bankAt ..

@[simp] theorem intakeStep_bankAt (filter : Option Byte) (a : Arrival) (im : Image) (s : State) :
    (intakeStep filter a im s).1.bankAt = s.bankAt := by
  unfold intakeStep
  split
  · dsimp only
    unfold intakeSegment
    split
    · rfl
    · split
      · rfl
      · split
        · exact refuse_bankAt ..
        · split <;> simp
  · rfl

/-! ### Management -/

theorem queueReply_bankAt (x : MgmtReply) (s : State) : (queueReply x s).bankAt = s.bankAt := rfl

theorem flushBridge_resets (s : State) : resetsTo s.bankAt (flushBridge s).bankAt := by
  unfold flushBridge
  have hflushed : ∀ (t : State) (b : Bool), (t.withBridge (t.bridge.flushed b)).bankAt = t.bankAt := fun t b => by
    cases b <;> rfl
  refine resetsTo_settle ?_
  rw [hflushed, claimQuiet_bankAt]
  rfl

theorem stopBridge_bankAt (s : State) : (stopBridge s).bankAt = s.bankAt := by
  unfold stopBridge
  rw [judgeDrain_bankAt]
  split <;> rfl

theorem configure_bankAt (p : Params) (s : State) : (configure p s).bankAt = s.bankAt := by
  unfold configure
  split
  · rfl
  · simp [State.bankAt]

theorem reportDenied_bankAt (index : Byte) (r : MgmtRecord) (s : State) : (reportDenied index r s).bankAt = s.bankAt :=
  report_bankAt _ _

/-- What an operation carries out leaves the active bank, or takes up a soft reset that waits. -/
theorem judgeOperation_resets (op : MgmtOp) (index : Byte) (capacity : Nat) (r : MgmtRecord) (s t : State) :
    resetsTo t.bankAt ((judgeOperation op index capacity r s).act t).bankAt := by
  have same : resetsTo t.bankAt t.bankAt := resetsTo_refl _
  have read : ∀ p q a, resetsTo t.bankAt ((readVerdict capacity p q a).act t).bankAt := fun p q a => by
    unfold readVerdict
    split <;> exact same
  cases op <;> simp only [judgeOperation]
  case identify =>
    unfold judgeIdentify
    dsimp only
    split
    · exact same
    · exact read _ _ _
  case assign =>
    unfold judgeAssign
    dsimp only
    split
    · exact same
    · split
      · split <;> exact same
      · split
        · exact resetsTo_of_eq (reportDenied_bankAt ..)
        · split
          · exact same
          · split <;> exact same
  case configure =>
    unfold judgeConfigure
    dsimp only
    split
    · exact same
    · split
      · exact same
      · split
        · exact same
        · exact resetsTo_of_eq (configure_bankAt ..)
  case schedLoad =>
    unfold judgeSchedLoad
    dsimp only
    repeat' split
    all_goals exact same
  case schedRead =>
    unfold judgeSchedRead
    dsimp only
    split
    · exact same
    · split
      · exact read _ _ _
      · exact same
  case schedCommit =>
    unfold judgeSchedCommit
    split <;> exact same
  case schedCancel =>
    unfold judgeSchedCancel
    split <;> exact same
  case windowLoad =>
    unfold judgeWindowLoad
    dsimp only
    repeat' split
    all_goals exact same
  case windowRead =>
    unfold judgeWindowRead
    dsimp only
    split
    · exact same
    · exact read _ _ _
  case start =>
    unfold judgeStart
    split <;> exact same
  case stop =>
    unfold judgeStop
    dsimp only
    split
    · exact same
    · split
      · exact same
      · dsimp only
        split
        · exact flushBridge_resets t
        · exact resetsTo_of_eq (stopBridge_bankAt t)
  case abort =>
    unfold judgeAbort
    dsimp only
    split
    · exact same
    · exact resetsTo_settle (abortEntries_bankAt ..)
  case status => exact read _ _ _
  case reportRead =>
    unfold judgeReportRead
    split
    · exact same
    · exact read _ _ _
  case reportClear =>
    unfold judgeReportClear
    split <;> exact same
  case reset => exact same

theorem executeRequest_resets (reach : Reach) (op : MgmtOp) (index : Byte) (capacity : Nat) (r : MgmtRecord)
    (s : State) : resetsTo s.bankAt (executeRequest reach op index capacity r s).bankAt := by
  have judged : ∀ t, resetsTo t.bankAt ((judgeRequest reach op index capacity r s).act t).bankAt := fun t => by
    unfold judgeRequest
    split
    · exact resetsTo_refl _
    · split
      · exact judgeOperation_resets ..
      · split
        · exact resetsTo_refl _
        · split
          · exact resetsTo_of_eq (reportDenied_bankAt ..)
          · exact judgeOperation_resets ..
  unfold executeRequest answerRequest
  split
  · exact resetsTo_settle (claimQuiet_bankAt _)
  · exact judged (queueReply _ s)

theorem judgeReached_resets (reach : Reach) (index : Byte) (capacity : Nat) (r : MgmtRecord) (im : Image) (s : State) :
    resetsTo s.bankAt (judgeReached reach index capacity r im s).1.bankAt := by
  unfold judgeReached
  split
  · exact resetsTo_refl _
  · split
    · exact resetsTo_of_eq (report_bankAt ..)
    · split
      · exact resetsTo_of_eq (report_bankAt ..)
      · split
        · exact resetsTo_refl _
        · exact executeRequest_resets ..

theorem managementSlot_resets (length : Nat) (index : Byte) (capacity : Nat) (im : Image) (s : State) :
    resetsTo s.bankAt (managementSlot length index capacity im s).1.bankAt := by
  unfold managementSlot
  split
  · unfold judgeRecord
    dsimp only
    split
    · exact resetsTo_of_eq (report_bankAt ..)
    · split
      · exact resetsTo_refl _
      · exact judgeReached_resets ..
  · unfold giveRecord
    split
    · exact resetsTo_refl _
    · split <;> exact resetsTo_refl _
  · exact resetsTo_refl _
  · exact resetsTo_refl _

/-! ### Replies and slots -/

theorem actOnReturn_resets (index : Byte) (g : Segment) (s : State) : resetsTo s.bankAt (actOnReturn index g s).bankAt := by
  have undelivered : ∀ t, (reportUndelivered index g t).bankAt = t.bankAt := fun t => report_bankAt _ t
  unfold actOnReturn
  split
  · exact resetsTo_of_eq (undelivered s)
  · split
    · dsimp only
      split
      · exact resetsTo_of_eq ((undelivered _).trans (setMark_bankAt ..))
      · refine resetsTo_settle ?_
        rw [inSomeOrder_bankAt (by simp [undelivered]), setMark_bankAt]
    · exact resetsTo_of_eq (by rw [judgeDrain_bankAt, undelivered, freeEntry_bankAt])
    · exact resetsTo_of_eq (undelivered s)
    · exact resetsTo_of_eq (undelivered s)
    · exact resetsTo_of_eq (undelivered s)

theorem stripStep_resets (index : Byte) (im : Image) (s : State) : resetsTo s.bankAt (stripStep index im s).1.bankAt := by
  unfold stripStep
  split
  · exact actOnReturn_resets ..
  · exact resetsTo_refl _

@[simp] theorem giveMember_bankAt (length capacity : Nat) (m : Member) (im : Image) (s : State) :
    (giveMember length capacity m im s).1.bankAt = s.bankAt := by
  cases m with
  | desc d =>
    unfold giveMember
    dsimp only
    split
    · rfl
    · exact judgeDrain_bankAt _
  | entry i =>
    have sent : ∀ p, (countGiven (sendPiece i p s)).bankAt = s.bankAt := fun p => by simp [State.bankAt, countGiven]
    rw [giveMember_entry]
    unfold giveEntry
    dsimp only
    split
    · rw [judgeDrain_bankAt, sent]
    · exact sent _

@[simp] theorem fillStep_bankAt (length capacity : Nat) (im : Image) (s : State) :
    (fillStep length capacity im s).1.bankAt = s.bankAt := by
  unfold fillStep
  split
  · split <;> simp
  · rfl

theorem applyAction_resets (action : Action) (filter : Option Byte) (a : Arrival) (s : State) :
    resetsTo s.bankAt (applyAction action filter a s).1.bankAt := by
  cases action with
  | pass => exact resetsTo_refl _
  | take => exact resetsTo_of_eq (intakeStep_bankAt ..)
  | give =>
    simp only [applyAction, Arrival.fill, Arrival.strip, fillStep_bankAt]
    exact stripStep_resets ..
  | both =>
    simp only [applyAction, Arrival.fill, Arrival.strip, Arrival.intake, fillStep_bankAt, intakeStep_bankAt]
    exact stripStep_resets ..

theorem presentSlot_resets (a : Arrival) (s : State) : resetsTo s.bankAt (presentSlot a s).1.bankAt := by
  unfold presentSlot inSequenceSlot
  split
  · exact resetsTo_of_eq (report_bankAt ..)
  · split
    · exact resetsTo_of_eq (report_bankAt ..)
    · split
      · dsimp only
        split
        · exact managementSlot_resets _ _ _ _ (s.withPrevIndex (some a.index))
        · unfold scheduledSlot
          dsimp only
          split
          · exact applyAction_resets _ _ _ (s.withPrevIndex (some a.index))
          · exact resetsTo_of_eq (report_bankAt ..)
      · exact resetsTo_of_eq (report_bankAt ..)

theorem slotArrival_resets (a : Arrival) (s : State) : resetsTo s.bankAt (slotArrival a s).bankAt := by
  unfold slotArrival forwardSlot
  split
  · exact resetsTo_refl _
  · split
    · exact presentSlot_resets a s
    · exact resetsTo_refl _

theorem unlessPinReset_resets {f : State → State} (h : ∀ t, resetsTo t.bankAt (f t).bankAt) (s : State) :
    resetsTo s.bankAt (unlessPinReset f s).bankAt := by
  unfold unlessPinReset
  split
  · exact resetsTo_refl _
  · exact h s

/-! ### The marks -/

/-- The blocks' acts at a mark leave the banks as they are, or swapped with a commit pending. -/
theorem markActs_swap {s : State} (r : RingPort) (rs : List Report) :
    let t := inSomeOrder (markActs (rs.map report) (s.markedAs r)) (s.markedAs r)
    t.ring = r ∧ t.bridge.resetCount = s.bridge.resetCount
      ∧ (t.sched.active = s.sched.active ∨ t.sched.active = s.sched.shadow ∧ s.sched.commit ≠ .none) := by
  let P : State → Prop := fun t => t.ring = r ∧ t.bridge.resetCount = s.bridge.resetCount ∧ t.sched.shadow = s.sched.shadow
    ∧ (t.sched.active = s.sched.active ∨ t.sched.active = s.sched.shadow ∧ s.sched.commit ≠ .none)
  have hu : P (s.markedAs r) := by
    refine ⟨rfl, rfl, ?_⟩
    by_cases hdue : s.sched.commit.due r.lastCycle = some false
    · have hpending : s.sched.commit ≠ .none := fun h => by simp [h, CommitState.due] at hdue
      rw [markedAs_sched_of_due hdue]
      exact ⟨rfl, Or.inr ⟨rfl, hpending⟩⟩
    · rw [markedAs_sched_of_not_due hdue]
      exact ⟨rfl, Or.inl rfl⟩
  have hall : P (inSomeOrder (markActs (rs.map report) (s.markedAs r)) (s.markedAs r)) := by
    refine inSomeOrder_keeps (P := P) _ _ (fun _ _ h => h) (fun f hf t ht => ?_) hu
    rcases mem_markActs hf with ⟨k, rfl⟩ | ⟨rfl, hlate⟩ | rfl | rfl
    · simpa [P] using ht
    · obtain ⟨hring, hcount, hshadow, _⟩ := ht
      have hpending : s.sched.commit ≠ .none := fun h => by
        obtain ⟨n, hn, _⟩ := (markedAs_late s r).1 hlate
        simp [h] at hn
      exact ⟨by simpa [swapLate, swapBanks] using hring, by simpa [swapLate, swapBanks] using hcount,
        by simpa [swapLate, swapBanks, Schedule.swapped] using hshadow,
        Or.inr ⟨by simpa [swapLate, swapBanks, Schedule.swapped] using hshadow, hpending⟩⟩
    · simpa [P] using ht
    · simpa [P] using ht
  exact ⟨hall.1, hall.2.1, hall.2.2.2⟩

/-- A settling carries out a soft reset, or leaves the Ring Port and the banks. -/
theorem settle_cases (t : State) : (settle t).bankAt = (Schedule.initial.active, t.bridge.resetCount + 1)
    ∨ (settle t).ring = t.ring ∧ (settle t).sched = t.sched := by
  unfold settle softResetIfDue
  split
  · exact Or.inr (by simp)
  · split
    · refine Or.inl ?_
      unfold softResetEffect
      dsimp only
      split
      · simp [State.bankAt]
      · simp [State.bankAt]
    · exact Or.inr (by simp)

/-- What R23 lets a command do to the active bank: reset it once, or, at a mark in SYNC of `record`, swap it. -/
def State.swapsOrResets (s t : State) (record : RawRecord) : Prop :=
  resetsTo s.bankAt t.bankAt ∨ t.sched.active = s.sched.shadow ∧ s.sched.commit ≠ .none ∧ t.ring.state = .sync
    ∧ ∃ k, s.marksSync record.bytes k

theorem judgeMark_bankAt_of_hunt {s : State} (info : Option CycleInfo) (hs : s.ring.state = .hunt) :
    (judgeMark info s).bankAt = s.bankAt := by
  unfold judgeMark
  cases info with
  | none => simp only [hs]
  | some c =>
    simp only [hs]
    rfl

theorem cycleMark_swapsOrResets (record : RawRecord) (s : State) : s.swapsOrResets (cycleMark record s) record := by
  cases hm : s.ring.markNumber (judgeCycle record.bytes) with
  | some k =>
    have hsync := (markNumber_eq_some _ _ _).1 hm
    obtain ⟨r, rs, hr, _, he⟩ := cycleMark_of_marksSync hsync
    rw [he, markInSync_eq]
    obtain ⟨hring, hcount, hactive⟩ := markActs_swap (s := s) r rs
    rcases settle_cases (inSomeOrder (markActs (rs.map report) (s.markedAs r)) (s.markedAs r)) with h | ⟨hr', hs'⟩
    · exact Or.inl (Or.inr (h.trans (by rw [hcount]; rfl)))
    · rcases hactive with h | ⟨h, hpending⟩
      · exact Or.inl (Or.inl ((congrArg Schedule.active hs').trans h))
      · exact Or.inr ⟨(congrArg Schedule.active hs').trans h, hpending, by rw [hr', hring, hr], k, hsync⟩
  | none =>
    have hnot : ∀ k, ¬s.marksSync record.bytes k := fun k h => by
      rw [(markNumber_eq_some _ _ _).2 h] at hm
      cases hm
    refine Or.inl (resetsTo_of_eq ?_)
    cases hs : s.ring.state with
    | down =>
      rw [cycleMark, if_pos hs]
    | hunt =>
      rw [cycleMark_received record (by simp [hs])]
      exact judgeMark_bankAt_of_hunt _ hs
    | armed =>
      cases hj : judgeCycle record.bytes with
      | none =>
        rw [cycleMark_armed_invalid hs hj]
        rfl
      | some c =>
        have hn : c.number ≠ s.ring.lastCycle + 1 := fun h => hnot c.number (Or.inl ⟨c, hj, rfl, Or.inr ⟨hs, h⟩⟩)
        rw [cycleMark_armed_other hs hj hn]
        rfl
    | sync =>
      cases hj : judgeCycle record.bytes with
      | some c => exact absurd (Or.inl ⟨c, hj, rfl, Or.inl hs⟩) (hnot c.number)
      | none =>
        cases hb : s.ring.blind with
        | false => exact absurd (Or.inr ⟨hj, hs, hb, rfl⟩) (hnot _)
        | true =>
          rw [cycleMark_sync_blind hs hj hb]
          exact report_bankAt _ _

theorem nextMarkIf_swapsOrResets (p : List Byte → Bool) (s : State) :
    s.swapsOrResets (nextMarkIf p s) s.ring.nextRecord := by
  unfold nextMarkIf
  split
  · exact cycleMark_swapsOrResets _ s
  · exact Or.inl (resetsTo_refl _)

/-- Every command but a mark and the pin reset leaves the active bank or resets it once. -/
theorem exec_resets {c : Instr} {s : State} (hm : c.isMark = false) (hp : c ≠ .pinReset) :
    ∃ t, exec c s = .next t ∧ resetsTo s.bankAt t.bankAt := by
  have guarded : ∀ {f : State → State}, (∀ t, resetsTo t.bankAt (f t).bankAt) →
      ∃ t, Host.Outcome.next (unlessPinReset f s) = (.next t : Host.Outcome State Fault Refusal) ∧ resetsTo s.bankAt t.bankAt :=
    fun h => ⟨_, rfl, unlessPinReset_resets h s⟩
  have arrives : ∀ a : Arrival, ∃ t, arrive a s = .next t ∧ resetsTo s.bankAt t.bankAt :=
    fun a => guarded (slotArrival_resets a)
  cases c with
  | lineLoss => exact guarded lineLoss_resets
  | lineRestore => exact guarded fun t => resetsTo_of_eq (lineRestore_bankAt t)
  | cycleMark record => cases hm
  | scheduleSwap => cases hm
  | assemblyGapExpiry => cases hm
  | replyExpired => cases hm
  | cycleLost => exact guarded fun t => resetsTo_of_eq (by split <;> simp [State.bankAt])
  | timebaseTick => exact guarded fun t => resetsTo_of_eq (by simp [State.bankAt])
  | softResetTakesEffect =>
    exact guarded fun t => by
      rw [arbitrate_bankAt]
      exact softResetIfDue_resets t
  | busCycleStart => exact guarded fun t => resetsTo_of_eq (separatingClock_bankAt t)
  | beatTaken waits answer width data => exact guarded (answerBeat_resets waits fun _ _ _ => takeBeat_resets ..)
  | busError waits => exact guarded (answerBeat_resets waits fun _ _ _ => failBeat_resets ..)
  | busTimeout => exact guarded (answerBeat_resets 0 fun _ _ _ => failBeat_resets ..)
  | holdRequest => exact ⟨_, rfl, resetsTo_of_eq (by split <;> simp [holdRequest, State.bankAt])⟩
  | holdRelease =>
    refine ⟨_, rfl, resetsTo_of_eq ?_⟩
    split
    · rfl
    · exact holdRelease_bankAt s
  | holdLong => exact guarded fun t => resetsTo_of_eq (by split <;> simp [State.bankAt])
  | drainComplete => exact guarded fun t => resetsTo_of_eq (judgeDrain_bankAt t)
  | pinReset => exact absurd rfl hp
  | pinResetRelease => exact ⟨_, rfl, resetsTo_of_eq (pinResetRelease_bankAt s)⟩
  | lockedSequenceNextCycle => exact guarded fun t => resetsTo_of_eq (lockedNextCycle_bankAt t)
  | _ => exact arrives _

/-- Settles O58: a mark swaps or resets, the pin reset resets, and every other command resets or leaves the bank. -/
theorem theActiveBankChangesOnlyAtASwapOrAReset : Obligations.TheActiveBankChangesOnlyAtASwapOrAReset := by
  intro c s t ht
  have hreset : ∀ {u : State}, exec c s = .next u → resetsTo s.bankAt u.bankAt → t.sched.active = s.sched.active
      ∨ t.sched.active = List.replicate 240 { action := .pass, channel := none, source := none }
        ∧ (c = .pinReset ∨ t.bridge.resetCount = s.bridge.resetCount + 1) := by
    intro u hu h
    rw [hu] at ht
    cases ht
    rcases h with h | h
    · exact Or.inl h
    · exact Or.inr ⟨congrArg Prod.fst h, Or.inr (congrArg Prod.snd h)⟩
  have hmark : ∀ {f : State → State} (record : RawRecord), exec c s = .next (unlessPinReset f s) →
      s.swapsOrResets (f s) record →
      (c = .cycleMark record ∨ (c = .scheduleSwap ∨ c = .assemblyGapExpiry ∨ c = .replyExpired)
        ∧ record = { bytes := cycleRecord (s.ring.lastCycle + 1) s.ring.slotCount }) →
      t.sched.active = s.sched.active
        ∨ t.sched.active = List.replicate 240 { action := .pass, channel := none, source := none }
          ∧ (c = .pinReset ∨ t.bridge.resetCount = s.bridge.resetCount + 1)
        ∨ t.sched.active = s.sched.shadow ∧ s.sched.commit ≠ .none ∧ t.ring.state = .sync ∧ s.pins.reset = false
          ∧ ∃ record : RawRecord, (∃ k, s.marksSync record.bytes k)
              ∧ (c = .cycleMark record ∨ (c = .scheduleSwap ∨ c = .assemblyGapExpiry ∨ c = .replyExpired)
                ∧ record = { bytes := cycleRecord (s.ring.lastCycle + 1) s.ring.slotCount }) := by
    intro f record hu h hc
    cases hpin : s.pins.reset with
    | true =>
      rw [unlessPinReset, if_pos hpin] at hu
      exact (hreset hu (resetsTo_refl _)).elim Or.inl (Or.inr ∘ Or.inl)
    | false =>
      rw [unlessPinReset_of_released f hpin] at hu
      rcases h with h | ⟨hactive, hpending, hring, hsync⟩
      · exact (hreset hu h).elim Or.inl (Or.inr ∘ Or.inl)
      · rw [hu] at ht
        cases ht
        exact Or.inr (Or.inr ⟨hactive, hpending, hring, rfl, record, hsync, hc⟩)
  by_cases hp : c = .pinReset
  · subst hp
    cases ht
    exact Or.inr (Or.inl ⟨rfl, Or.inl rfl⟩)
  cases hm : c.isMark with
  | false =>
    obtain ⟨u, hu, h⟩ := exec_resets (s := s) hm hp
    exact (hreset hu h).elim Or.inl (Or.inr ∘ Or.inl)
  | true =>
    cases c with
    | cycleMark record => exact hmark record rfl (cycleMark_swapsOrResets record s) (Or.inl rfl)
    | scheduleSwap => exact hmark _ rfl (nextMarkIf_swapsOrResets s.swapsAt s) (Or.inr ⟨Or.inl rfl, rfl⟩)
    | assemblyGapExpiry => exact hmark _ rfl (nextMarkIf_swapsOrResets s.gapExpiresAt s) (Or.inr ⟨Or.inr (Or.inl rfl), rfl⟩)
    | replyExpired => exact hmark _ rfl (nextMarkIf_swapsOrResets s.replyExpiresAt s) (Or.inr ⟨Or.inr (Or.inr rfl), rfl⟩)
    | _ => cases hm

end Sys2Proof.Machine
end

section
/-! PROOFS. The arrival of any slot (spec/02, section 2.2): what is not presented, what is reported, and what passes (R8, R9,
R25 to R34). -/

namespace Sys2Proof.Machine

/-! ### How a slot leaves -/

theorem slotArrival_of_down {s : State} (a : Arrival) (h : s.ring.state = .down) : slotArrival a s = s := if_pos h

theorem slotArrival_presented {s : State} (a : Arrival) (hs : s.ring.state = .sync) (hb : s.ring.blind = false) :
    slotArrival a s = (presentSlot a s).1.leaving (presentSlot a s).2 := by
  have hp : s.presents = true := by simp [State.presents, hs, hb]
  rw [slotArrival, if_neg (by simp [hs]), if_pos hp]
  rfl

/-- A slot is forwarded as it came, or with its payload and a regenerated check (R34). -/
theorem presentSlot_out (a : Arrival) (s : State) :
    (presentSlot a s).2 = a.raw ∨ ∃ kind payload, (presentSlot a s).2 = a.raw.withPayload kind payload := by
  unfold presentSlot
  split
  · exact Or.inl rfl
  · split
    · exact Or.inl rfl
    · unfold inSequenceSlot
      split
      · exact (ite_eq_or_eq _ _ _).imp id fun h => ⟨_, _, h⟩
      · exact Or.inr ⟨_, _, rfl⟩

/-- Settles O14: what leaves is the slot itself, or the slot with a payload and its check. -/
theorem slotsKeepTheirHeader : Obligations.SlotsKeepTheirHeader := by
  refine ⟨fun s slot hr => ⟨fun hd => ?down, fun h => ?unpresented⟩, fun s t slot hr hup ht => ?leaves⟩
  case down => rw [exec_slotArrival slot hr, slotArrival_of_down _ hd]
  case unpresented =>
    have hup : s.ring.state ≠ .down := by rcases h with h | h | ⟨h, _⟩ <;> simp [h]
    have hp : s.presents = false := by
      rcases h with h | h | ⟨_, h⟩
      · exact presents_eq_false (by simp [h])
      · exact presents_eq_false (by simp [h])
      · simp [State.presents, h]
    rw [exec_slotArrival slot hr, slotArrival_unpresented _ hup hp]
    rfl
  case leaves =>
    rw [exec_slotArrival slot hr] at ht
    cases ht
    cases hp : s.presents with
    | false =>
      rw [slotArrival_unpresented _ hup hp]
      exact ⟨slot, rfl, rfl, rfl, fun h => absurd rfl h⟩
    | true =>
      have hsync : s.ring.state = .sync ∧ s.ring.blind = false := by simpa [State.presents] using hp
      rw [slotArrival_presented _ hsync.1 hsync.2]
      rcases presentSlot_out (judgeSlot slot) s with h | ⟨kind, payload, h⟩
      · exact ⟨slot, congrArg LineOut.slot h, rfl, rfl, fun hne => absurd rfl hne⟩
      · exact ⟨slot.withPayload kind payload, congrArg LineOut.slot h, rfl, rfl,
          fun _ => ⟨hsync.1, hsync.2, kind, payload, rfl⟩⟩

/-! ### The slots that are reported -/

theorem presentSlot_bad_header {a : Arrival} (s : State) (h : a.headerGood = false) :
    presentSlot a s = (report { kind := .headerFault } s, a.raw) := if_pos (by simp [h])

theorem presentSlot_out_of_sequence {a : Arrival} {s : State} (h : a.headerGood = true) (hq : s.inSequence a.index = false) :
    presentSlot a s = (report { kind := .slotSequence, index := some a.index } s, a.raw) := by
  rw [presentSlot, if_neg (by simp [h]), if_pos (by simp [hq])]

theorem inSequence_of_admits {s : State} {index : Byte} (h : s.admits index) : s.inSequence index = true := by
  obtain ⟨_, _, _, hcount, hprev⟩ := h
  unfold State.inSequence
  cases hp : s.prevIndex with
  | none => simp [hcount]
  | some p => simp [hcount, hprev p hp]

theorem inSequence_eq_false {s : State} {index : Byte}
    (h : s.ring.slotCount.toNat ≤ index.toNat ∨ ∃ p, s.prevIndex = some p ∧ index.toNat ≤ p.toNat) :
    s.inSequence index = false := by
  unfold State.inSequence
  rcases h with h | ⟨p, hp, h⟩
  · simp [Nat.not_lt.2 h]
  · simp [hp, Nat.not_lt.2 h]

theorem presentSlot_admitted {a : Arrival} {s : State} (h : a.headerGood = true) (ha : s.admits a.index) :
    presentSlot a s = inSequenceSlot a (s.withPrevIndex (some a.index)) := by
  rw [presentSlot, if_neg (by simp [h]), if_neg (by simp [inSequence_of_admits ha])]

theorem inSequenceSlot_bad_payload {a : Arrival} (s : State) (h : a.payloadGood = false) : inSequenceSlot a s
    = (report { kind := .payloadFault, index := some a.index } s, a.raw.withPayload .faulted a.payload) :=
  if_neg (by simp [h])

theorem inSequenceSlot_management {a : Arrival} (s : State) (h : a.payloadGood = true) (hc : a.channel = 0) :
    inSequenceSlot a s = (let r := managementSlot (payloadLength a.size) a.index a.capacity a.image s
      (r.1, a.forwarded r.2)) := by
  rw [inSequenceSlot, if_pos h, if_pos hc]

theorem inSequenceSlot_scheduled {a : Arrival} (s : State) (h : a.payloadGood = true) (hc : a.channel ≠ 0) :
    inSequenceSlot a s = ((scheduledSlot a s).1, a.forwarded (scheduledSlot a s).2) := by
  rw [inSequenceSlot, if_pos h, if_neg hc]

theorem scheduledSlot_of_mismatch {a : Arrival} {s : State} {c : Byte} (h : (s.activeEntry a.index).channel = some c)
    (hc : c ≠ a.channel) : scheduledSlot a s = (report { kind := .scheduleMismatch, index := some a.index } s, a.image) := by
  have hm : (s.activeEntry a.index).matchesChannel a.channel = false := by simp [SchedEntry.matchesChannel, h, hc]
  rw [scheduledSlot, if_neg (by simp [hm])]

theorem forwarded_image (a : Arrival) : a.forwarded a.image = a.raw := if_pos rfl

/-- Settles O15: the four judgements, in the Slot Engine's order. -/
theorem slotFaultsAreReported : Obligations.SlotFaultsAreReported := by
  refine ⟨fun s slot hr hs hb hh => ?header, fun s slot hr hs hb hh => ⟨fun hq => ?sequence, fun ha hp => ?payload,
    fun c ha hp hc hch hne => ?mismatch⟩⟩
  case header =>
    rw [exec_slotArrival slot hr, slotArrival_presented _ hs hb, presentSlot_bad_header s hh]
    rfl
  case sequence =>
    rw [exec_slotArrival slot hr, slotArrival_presented _ hs hb, presentSlot_out_of_sequence hh (inSequence_eq_false hq)]
    rfl
  case payload =>
    rw [exec_slotArrival slot hr, slotArrival_presented _ hs hb, presentSlot_admitted hh ha, inSequenceSlot_bad_payload _ hp]
    rfl
  case mismatch =>
    have hsched := scheduledSlot_of_mismatch (a := judgeSlot slot) (s := s.withPrevIndex (some (judgeSlot slot).index)) hch hne
    rw [exec_slotArrival slot hr, slotArrival_presented _ hs hb, presentSlot_admitted hh ha,
      inSequenceSlot_scheduled _ hp hc, hsched, forwarded_image]
    rfl

/-! ### The slots that pass -/

theorem managementSlot_of_other {im : Image} (length : Nat) (index : Byte) (capacity : Nat) (s : State)
    (h : im.kind = .data ∨ im.kind = .faulted) : managementSlot length index capacity im s = (s, im) := by
  unfold managementSlot
  rcases h with h | h <;> simp only [h]

/-- A slot that is neither stripped nor taken, and not filled, leaves its action as it came. -/
theorem applyAction_of_nothing {a : Arrival} {action : Action} {filter : Option Byte} {s : State}
    (hstrip : action = .give ∨ action = .both → stripStep a.index a.image s = (s, a.image))
    (hintake : action = .take ∨ action = .both → intakeStep filter a a.image s = (s, a.image))
    (hfill : action = .give ∨ action = .both → a.kind ≠ .void) : applyAction action filter a s = (s, a.image) := by
  have hnot : action = .give ∨ action = .both → fillStep (payloadLength a.size) a.capacity a.image s = (s, a.image) :=
    fun h => fillStep_of_not_void _ _ _ (hfill h)
  cases action with
  | pass => rfl
  | take => exact hintake (Or.inl rfl)
  | give =>
    rw [applyAction, Arrival.strip, hstrip (Or.inl rfl)]
    exact hnot (Or.inl rfl)
  | both =>
    rw [applyAction, Arrival.strip, hstrip (Or.inr rfl), Arrival.intake, hintake (Or.inr rfl)]
    exact hnot (Or.inr rfl)

/-- A payload that is not DATA is not stripped and not taken. -/
theorem applyAction_of_not_data {a : Arrival} {action : Action} {filter : Option Byte} {s : State} (hk : a.kind ≠ .data)
    (h : action = .pass ∨ action = .take ∨ a.kind ≠ .void) : applyAction action filter a s = (s, a.image) := by
  have hi : a.image.kind ≠ .data := hk
  rcases h with rfl | rfl | hv
  · rfl
  · exact intakeStep_of_not_data filter a s hi
  · exact applyAction_of_nothing (fun _ => stripStep_of_not_data _ _ hi) (fun _ => intakeStep_of_not_data _ _ _ hi) fun _ => hv

theorem stripStep_of_not_own {im : Image} (index : Byte) {s : State}
    (h : ¬((Segment.ofBytes im.payload).source = s.mgmt.node ∧ (Segment.ofBytes im.payload).op = replyCode)) :
    stripStep index im s = (s, im) := by
  refine if_neg fun hs => h ?_
  simpa [State.ownReturn] using hs.2

/-- A segment that the intake leaves: for another node, of no operation, or not admitted by the filter (R47, R49). -/
theorem intakeStep_of_left {a : Arrival} {im : Image} {filter : Option Byte} {s : State} (hk : im.kind = .data)
    (h : s.mgmt.node = 0 ∨ (Segment.ofBytes im.payload).dest ≠ s.mgmt.node
      ∨ isNode (Segment.ofBytes im.payload).source = false ∨ ReqOp.ofCode (Segment.ofBytes im.payload).op = none
      ∨ ∃ n, filter = some n ∧ n ≠ (Segment.ofBytes im.payload).source) : intakeStep filter a im s = (s, im) := by
  have hleft : intakeSegment filter a.index a.capacity (Segment.ofBytes im.payload) s = (s, false) := by
    unfold intakeSegment
    cases hreq : s.requestFor (Segment.ofBytes im.payload) with
    | none => rfl
    | some op =>
      have hop : s.mgmt.node ≠ 0 ∧ (Segment.ofBytes im.payload).dest = s.mgmt.node
          ∧ isNode (Segment.ofBytes im.payload).source = true ∧ ReqOp.ofCode (Segment.ofBytes im.payload).op = some op := by
        unfold State.requestFor at hreq
        split at hreq
        · rename_i hc
          obtain ⟨hn, hd, h1, h62⟩ := hc
          exact ⟨hn, hd, by simp [isNode, h1, h62], hreq⟩
        · cases hreq
      obtain ⟨hn, hd, hsrc, hcode⟩ := hop
      obtain ⟨n, hf, hne⟩ : ∃ n, filter = some n ∧ n ≠ (Segment.ofBytes im.payload).source := by
        rcases h with h | h | h | h | h
        · exact absurd h hn
        · exact absurd hd h
        · rw [hsrc] at h
          cases h
        · rw [hcode] at h
          cases h
        · exact h
      have hadmit : filterAdmits filter (Segment.ofBytes im.payload).source = false := by simp [filterAdmits, hf, hne]
      exact if_pos (by simp [hadmit])
  rw [intakeStep, if_pos hk, hleft]
  rfl

/-- Settles O16: nothing is stripped, taken or filled. -/
theorem slotsWithNothingToDoPass : Obligations.SlotsWithNothingToDoPass := by
  refine ⟨fun s slot hh hp ha h => ?any, fun s index channel size payload hh hc hl ha hch h => ?data⟩
  case any =>
    let a := judgeSlot slot
    let t := s.withPrevIndex (some a.index)
    have hpass : inSequenceSlot a t = (t, slot) := by
      rcases h with ⟨hc, hk⟩ | ⟨hc, hch, hact⟩
      · rw [inSequenceSlot_management t hp hc,
          managementSlot_of_other (im := a.image) (payloadLength a.size) a.index a.capacity t hk]
        exact congrArg (Prod.mk t) (forwarded_image a)
      · have hs : scheduledSlot a t = (t, a.image) := by
          refine (scheduledSlot_of_match (s := t) hch).trans ?_
          rcases hact with hpass | hk | hk | ⟨hk, htake⟩
          · rw [show (t.activeEntry a.index).action = .pass from hpass]
            rfl
          · exact applyAction_of_not_data (by simp [hk]) (Or.inr (Or.inr (by simp [hk])))
          · exact applyAction_of_not_data (by simp [hk]) (Or.inr (Or.inr (by simp [hk])))
          · exact applyAction_of_not_data (by simp [hk]) (Or.inr (Or.inl htake))
        rw [inSequenceSlot_scheduled t hp hc, hs]
        exact congrArg (Prod.mk t) (forwarded_image a)
    rw [exec_slotArrival slot ha.1, slotArrival_presented _ ha.2.1 ha.2.2.1, presentSlot_admitted hh ha, hpass]
    rfl
  case data =>
    rw [exec_slotArrival_scheduled hl hh hc ha hch]
    have hact : applyAction (s.activeEntry index).action (s.activeEntry index).source
        (arrivalOf index channel size .data payload) { s with prevIndex := some index }
          = ({ s with prevIndex := some index }, (arrivalOf index channel size .data payload).image) := by
      refine applyAction_of_nothing (fun hact => ?_) (fun hact => ?_) fun _ => by simp [arrivalOf]
      · refine stripStep_of_not_own (s := { s with prevIndex := some index }) index ?_
        rcases h with ⟨hta | ⟨_, hn⟩, _⟩ | ⟨_, hn⟩
        · rcases hact with hact | hact
          · exact absurd (hta.symm.trans hact) (by simp)
          · exact absurd (hta.symm.trans hact) (by simp)
        · exact hn
        · exact hn
      · refine intakeStep_of_left (s := { s with prevIndex := some index }) rfl ?_
        rcases h with ⟨_, hl⟩ | ⟨hg, _⟩
        · exact hl
        · rcases hact with hact | hact
          · exact absurd (hg.symm.trans hact) (by simp)
          · exact absurd (hg.symm.trans hact) (by simp)
    rw [hact]
    rfl

end Sys2Proof.Machine
end

section
/-! PROOFS. What the Reply Emitter and the Management Unit give into a VOID slot (spec/07, section 7.3; spec/08, section 8.2;
R134 to R142, R159). -/

namespace Sys2Proof.Machine

/-! ### The segment given -/

@[simp] theorem txBytes_length (s : State) (e : Entry) (k n : Nat) : (s.txBytes e k n).length = n := by
  simp [State.txBytes]

theorem replySegment_toBytes (e : Entry) (node : Byte) (p : Piece) : (e.replySegment node p).toBytes
    = [e.source, node, e.tag, replyCode, e.replyStatus p.last, boolByte p.last] ++ halfBytes (BitVec.ofNat 16 e.total)
      ++ halfBytes (BitVec.ofNat 16 p.offset) ++ halfBytes (BitVec.ofNat 16 p.data.length) ++ wordBytes e.addr ++ p.data := rfl

/-! ### The piece of an entry (R136 to R140) -/

/-- A READ that stays open gives the next bytes of its completed front part, without LAST (R136). -/
theorem pieceOf_open_read {s : State} {e : Entry} {capacity : Nat} (hop : e.op = .read) (hlt : e.sent < e.done)
    (hopen : e.state = .executing ∨ e.final ≠ some .done ∨ e.sent + min (e.done - e.sent) capacity < e.done) :
    s.pieceOf e capacity
      = { offset := e.sent, data := s.txBytes e e.sent (min (e.done - e.sent) capacity), last := false } := by
  have hne : ¬(e.state = .replying ∧ e.sent = e.done) := fun h => by omega
  have hlast : (decide (e.state = .replying) && decide (e.final = some .done)
      && decide (e.sent + min (e.done - e.sent) capacity = e.done)) = false := by
    rcases hopen with h | h | h
    · simp [h]
    · simp [h]
    · simp [Nat.ne_of_lt h]
  unfold State.pieceOf
  simp only [hop, if_neg hne, hlast]

theorem pieceOf_empty_read {s : State} {e : Entry} {capacity : Nat} (hop : e.op = .read) (hst : e.state = .replying)
    (h : e.sent = e.done) : s.pieceOf e capacity = { offset := e.done, data := [], last := true } := by
  unfold State.pieceOf
  simp only [hop, if_pos (And.intro hst h)]

theorem pieceOf_last_read {s : State} {e : Entry} {capacity : Nat} (hop : e.op = .read) (hst : e.state = .replying)
    (hf : e.final = some .done) (hlt : e.sent < e.done) (hfit : e.done - e.sent ≤ capacity) : s.pieceOf e capacity
      = { offset := e.sent, data := s.txBytes e e.sent (e.done - e.sent), last := true } := by
  have hsum : e.sent + (e.done - e.sent) = e.done := by omega
  simp [State.pieceOf, hop, hst, hf, Nat.min_eq_left hfit, hsum, Nat.ne_of_lt hlt]

theorem pieceOf_write {s : State} {e : Entry} {capacity : Nat} (hop : e.op.isWrite = true) :
    s.pieceOf e capacity = { offset := e.done, data := [], last := true } := by
  unfold State.pieceOf
  cases ho : e.op with
  | write => rfl
  | writeQuiet => rfl
  | read | swap | add | cswap => simp [ho, ReqOp.isWrite] at hop

theorem pieceOf_locked {s : State} {e : Entry} {capacity : Nat} (hop : e.op.locked = true) :
    s.pieceOf e capacity = { offset := 0, data := (e.old.getD []).take e.done, last := true } := by
  unfold State.pieceOf
  cases ho : e.op with
  | swap => rfl
  | add => rfl
  | cswap => rfl
  | read | write | writeQuiet => simp [ho, ReqOp.locked] at hop

/-! ### The entry's side (R142) -/

theorem giveEntry_open {s : State} {i : Nat} {p : Piece} (hl : p.last = false) : giveEntry i p s
    = { s with
        table := { s.table with
          entries := s.table.entries.modify i (fun e => { e with sent := e.sent + p.data.length, deadline := 0 }) }
        reports := { s.reports with
          counters := { s.reports.counters with segmentsGiven := s.reports.counters.segmentsGiven + 1 } } } := by
  unfold giveEntry sendPiece
  simp only [hl, Bool.false_eq_true, if_false]
  rfl

theorem set_modify {α : Type} (l : List α) (i : Nat) (f : α → α) (x : α) : (l.modify i f).set i x = l.set i x := by
  apply List.ext_getElem?
  intro j
  rw [List.getElem?_set, List.getElem?_set, List.getElem?_modify, List.length_modify]
  by_cases h : i = j
  · simp [h]
  · simp [h]

theorem giveEntry_last {s : State} {i : Nat} {p : Piece} (hl : p.last = true) : giveEntry i p s
    = judgeDrain { s with
        table := { s.table with
          entries := s.table.entries.set i Entry.initial
          order := s.table.order.filter (fun j => decide (j ≠ i))
          requests := s.table.requests.filter (fun j => decide (j ≠ i)) }
        replyQueue := s.replyQueue.filter (fun m => decide (m ≠ .entry i))
        reports := { s.reports with
          counters := { s.reports.counters with segmentsGiven := s.reports.counters.segmentsGiven + 1 } } } := by
  unfold giveEntry sendPiece
  simp only [hl, if_true]
  have hset := set_modify s.table.entries i (fun e => { e with sent := e.sent + p.data.length, deadline := 0 }) Entry.initial
  rw [← hset]
  rfl

/-! ### A VOID slot at GIVE or BOTH -/

section
variable {s : State} {index channel size : Byte} (hh : headerInRange index channel size = true) (hc : channel ≠ 0)
  (ha : s.admits index)
  (hch : (s.activeEntry index).channel = none ∨ (s.activeEntry index).channel = some channel)
  (hact : (s.activeEntry index).action = .give ∨ (s.activeEntry index).action = .both)
include hh hc ha hch hact

theorem exec_void_of_no_progress (h : ∀ m ∈ s.replyQueue, s.memberCanProgress (capacityOf size) m = false) :
    exec (.slotArrival (encodeSlot index channel size .void (List.replicate (payloadLength size) 0))) s
      = .next (State.leaving { s with prevIndex := some index }
          (encodeSlot index channel size .void (List.replicate (payloadLength size) 0))) := by
  have hfill := fillStep_of_no_progress (s := { s with prevIndex := some index }) (payloadLength size)
    { kind := .void, payload := List.replicate (payloadLength size) 0 } h
  rw [exec_slotArrival_void_fills hh hc ha hch hact, hfill]

/-- The first member that can make progress is given a segment. -/
theorem exec_void_gives {older younger : List Member} {m : Member} (hq : s.replyQueue = older ++ m :: younger)
    (ho : ∀ x ∈ older, s.memberCanProgress (capacityOf size) x = false)
    (hm : s.memberCanProgress (capacityOf size) m = true) :
    exec (.slotArrival (encodeSlot index channel size .void (List.replicate (payloadLength size) 0))) s
      = (let r := giveMember (payloadLength size) (capacityOf size) m
          { kind := .void, payload := List.replicate (payloadLength size) 0 } { s with prevIndex := some index }
        .next (r.1.leaving (encodeSlot index channel size r.2.kind r.2.payload))) := by
  have hfill := fillStep_of_first_progress (s := { s with prevIndex := some index }) (payloadLength size)
    (im := { kind := .void, payload := List.replicate (payloadLength size) 0 }) rfl hq ho hm
  rw [exec_slotArrival_void_fills hh hc ha hch hact, hfill]

/-- The segment of an entry, and what the giving leaves. -/
theorem exec_void_gives_entry {older younger : List Member} {i : Nat} {p : Piece}
    (hq : s.replyQueue = older ++ .entry i :: younger)
    (ho : ∀ x ∈ older, s.memberCanProgress (capacityOf size) x = false)
    (hm : (s.entry i).canProgress (capacityOf size) = true) (hp : s.pieceOf (s.entry i) (capacityOf size) = p) :
    exec (.slotArrival (encodeSlot index channel size .void (List.replicate (payloadLength size) 0))) s
      = .next ((giveEntry i p { s with prevIndex := some index }).leaving (encodeSlot index channel size .data
          (padTo (payloadLength size) ((s.entry i).replySegment s.mgmt.node p).toBytes))) := by
  have hp' : State.pieceOf { s with prevIndex := some index } (s.entry i) (capacityOf size) = p := hp
  have hgive := giveMember_entry (payloadLength size) (capacityOf size) i
    { kind := .void, payload := List.replicate (payloadLength size) 0 } { s with prevIndex := some index }
  rw [show State.entry { s with prevIndex := some index } i = s.entry i from rfl, hp'] at hgive
  rw [exec_void_gives hh hc ha hch hact hq ho hm, hgive]
  rfl

end

/-- Settles O18: the piece of an open READ. -/
theorem giveSendsReadData : Obligations.GiveSendsReadData := by
  intro s index channel size hh hc ha hch hact
  refine ⟨exec_void_of_no_progress hh hc ha hch hact, fun older younger i hq ho hop hlt hcap hopen => ?_⟩
  have hm : (s.entry i).canProgress (capacityOf size) = true := by
    rcases hopen with ⟨hst, hmark⟩ | ⟨hst, _⟩
    · exact (canProgress_executing_read hop hst).2 ⟨hmark, hlt, hcap⟩
    · exact (canProgress_replying_read hop hst).2 (Or.inl ⟨hlt, hcap⟩)
  have hp := pieceOf_open_read (s := s) (capacity := capacityOf size) hop hlt
    (hopen.elim (fun h => Or.inl h.1) fun h => Or.inr h.2)
  rw [exec_void_gives_entry hh hc ha hch hact hq ho hm hp, giveEntry_open rfl, replySegment_toBytes]
  simp only [txBytes_length]
  rfl

/-- A segment with LAST of an entry. -/
theorem exec_void_closes {s : State} {index channel size : Byte} (hh : headerInRange index channel size = true)
    (hc : channel ≠ 0) (ha : s.admits index)
    (hch : (s.activeEntry index).channel = none ∨ (s.activeEntry index).channel = some channel)
    (hact : (s.activeEntry index).action = .give ∨ (s.activeEntry index).action = .both)
    {older younger : List Member} {i offset : Nat} {data : List Byte} {status : Status}
    (hq : s.replyQueue = older ++ .entry i :: younger)
    (ho : ∀ x ∈ older, s.memberCanProgress (capacityOf size) x = false)
    (hm : (s.entry i).canProgress (capacityOf size) = true) (hf : (s.entry i).final = some status)
    (hp : s.pieceOf (s.entry i) (capacityOf size) = { offset := offset, data := data, last := true }) :
    exec (.slotArrival (encodeSlot index channel size .void (List.replicate (payloadLength size) 0))) s
      = .next (State.leaving
          (judgeDrain { s with
            prevIndex := some index
            table := { s.table with
              entries := s.table.entries.set i Entry.initial
              order := s.table.order.filter (fun j => decide (j ≠ i))
              requests := s.table.requests.filter (fun j => decide (j ≠ i)) }
            replyQueue := s.replyQueue.filter (fun m => decide (m ≠ .entry i))
            reports := { s.reports with
              counters := { s.reports.counters with segmentsGiven := s.reports.counters.segmentsGiven + 1 } } })
          (encodeSlot index channel size .data (padTo (payloadLength size)
            ([(s.entry i).source, s.mgmt.node, (s.entry i).tag, replyCode, status.code, 1]
              ++ halfBytes (BitVec.ofNat 16 (s.entry i).total) ++ halfBytes (BitVec.ofNat 16 offset)
              ++ halfBytes (BitVec.ofNat 16 data.length) ++ wordBytes (s.entry i).addr ++ data)))) := by
  have hstatus : (s.entry i).replyStatus true = status.code := by simp [Entry.replyStatus, hf]
  rw [exec_void_gives_entry hh hc ha hch hact hq ho hm hp, giveEntry_last rfl, replySegment_toBytes, hstatus]
  rfl

/-- Settles O19: the piece with LAST of each operation, and a short reply. -/
theorem giveClosesReplies : Obligations.GiveClosesReplies := by
  refine ⟨fun s index channel size older younger i status hh hc ha hch hact hq ho hst hf offset data h => ?entry,
    fun s index channel size older younger d r hh hc ha hch hact hq ho hd => ?short, rfl, rfl⟩
  case entry =>
    refine exec_void_closes hh hc ha hch hact hq ho ?_ hf ?_
    · rcases h with ⟨hop, hs, _⟩ | ⟨hop, hs, _, hfit, _⟩ | ⟨hop, _⟩ | ⟨hop, hfit, _⟩
      · exact (canProgress_replying_read hop hst).2 (Or.inr hs)
      · exact (canProgress_replying_read hop hst).2 (Or.inl ⟨hs, by omega⟩)
      · refine canProgress_replying_write ?_ hst
        cases ho : (s.entry i).op with
        | write => exact Or.inl rfl
        | writeQuiet => exact Or.inr rfl
        | read | swap | add | cswap => simp [ho, ReqOp.isWrite] at hop
      · refine (canProgress_replying_locked ?_ hst).2 hfit
        cases ho : (s.entry i).op with
        | swap => exact Or.inl rfl
        | add => exact Or.inr (Or.inl rfl)
        | cswap => exact Or.inr (Or.inr rfl)
        | read | write | writeQuiet => simp [ho, ReqOp.locked] at hop
    · rcases h with ⟨hop, hs, rfl, rfl⟩ | ⟨hop, hs, rfl, hfit, rfl, rfl⟩ | ⟨hop, rfl, rfl⟩ | ⟨hop, _, rfl, rfl⟩
      · exact pieceOf_empty_read hop hst hs
      · exact pieceOf_last_read hop hst hf hs hfit
      · exact pieceOf_write hop
      · exact pieceOf_locked hop
  case short =>
    have hgive := giveMember_pending_desc (s := { s with prevIndex := some index }) (payloadLength size) (capacityOf size)
      { kind := .void, payload := List.replicate (payloadLength size) 0 } hd
    have hbytes : (r.segment s.mgmt.node).toBytes = [r.requester, s.mgmt.node, r.tag, replyCode, r.status.code, 1]
        ++ halfBytes r.total ++ [0, 0, 0, 0] ++ wordBytes r.addr := by
      simp [Segment.toBytes, ShortReply.segment, halfBytes]
    rw [exec_void_gives hh hc ha hch hact hq ho rfl, hgive, ← hbytes]
    rfl

/-! ### A VOID slot on channel 0 -/

/-- An admitted slot on channel 0 leaves as the Management Unit has left it (R28, R34). -/
theorem exec_slotArrival_management {s : State} {index size : Byte} {kind : MarkKind} {payload : List Byte}
    (hp : payload.length = payloadLength size) (hh : headerInRange index 0 size = true) (ha : s.admits index) :
    exec (.slotArrival (encodeSlot index 0 size kind payload)) s
      = (let r := managementSlot (payloadLength size) index (capacityOf size) { kind := kind, payload := payload }
          { s with prevIndex := some index }
        .next (r.1.leaving (encodeSlot index 0 size r.2.kind r.2.payload))) := by
  rw [exec_slotArrival _ ha.1, judgeSlot_encodeSlot _ _ _ _ _ hp, slotArrival_admitted _ _ _ _ _ ha hh, if_pos rfl]
  rfl

theorem giveRecord_of_empty {s : State} (length capacity : Nat) (im : Image) (h : s.mgmt.queue = []) :
    giveRecord length capacity im s = (s, im) := by
  simp [giveRecord, h]

theorem giveRecord_of_long {s : State} {x : MgmtReply} {rest : List MgmtReply} (length : Nat) {capacity : Nat} (im : Image)
    (h : s.mgmt.queue = x :: rest) (hlong : capacity < x.args.length) : giveRecord length capacity im s = (s, im) := by
  simp [giveRecord, h, Nat.not_le.2 hlong]

theorem giveRecord_of_fits {s : State} {x : MgmtReply} {rest : List MgmtReply} (length : Nat) {capacity : Nat} (im : Image)
    (h : s.mgmt.queue = x :: rest) (hfit : x.args.length ≤ capacity) : giveRecord length capacity im s
      = (s.withMgmt { s.mgmt with queue := rest },
        { kind := .mgmt, payload := padTo length (x.record s.mgmt.node).toBytes }) := by
  simp [giveRecord, h, hfit]

/-- Settles O21: the queue's head, where it fits. -/
theorem managementRecordsAreGivenInOrder : Obligations.ManagementRecordsAreGivenInOrder := by
  intro s index size hh ha
  have hvoid : ∀ r, giveRecord (payloadLength size) (capacityOf size)
      { kind := .void, payload := List.replicate (payloadLength size) 0 } { s with prevIndex := some index } = r →
      exec (.slotArrival (encodeSlot index 0 size .void (List.replicate (payloadLength size) 0))) s
        = .next (r.1.leaving (encodeSlot index 0 size r.2.kind r.2.payload)) := by
    intro r hr
    rw [exec_slotArrival_management List.length_replicate hh ha, ← hr]
    rfl
  refine ⟨fun h => hvoid _ (giveRecord_of_empty (s := { s with prevIndex := some index }) _ _ _ h),
    fun x rest h => ⟨fun hlong => ?_, fun hfit => ?_⟩⟩
  · exact hvoid _ (giveRecord_of_long (s := { s with prevIndex := some index }) _ _ h hlong)
  · exact hvoid _ (giveRecord_of_fits (s := { s with prevIndex := some index }) _ _ h hfit)

end Sys2Proof.Machine
end

section
/-! PROOFS. The part's own returning segments (spec/07, section 7.4; R33, R143 to R145). -/

namespace Sys2Proof.Machine

/-! ### The previous slot index is of no account to these -/

theorem report_withPrevIndex (k : Report) (s : State) (p : Option Byte) :
    report k (s.withPrevIndex p) = (report k s).withPrevIndex p := by
  unfold report
  dsimp only
  rw [show (s.withPrevIndex p).mgmt = s.mgmt from rfl, show (s.withPrevIndex p).reports = s.reports from rfl]
  split
  · split <;> rfl
  · rfl

theorem judgeDrain_withPrevIndex (s : State) (p : Option Byte) :
    judgeDrain (s.withPrevIndex p) = (judgeDrain s).withPrevIndex p := by
  have hd : (s.withPrevIndex p).drained = s.drained := rfl
  unfold judgeDrain
  rw [hd, show (s.withPrevIndex p).bridge = s.bridge from rfl]
  split <;> rfl

theorem startSeparated_withPrevIndex (s : State) (p : Option Byte) :
    startSeparated (s.withPrevIndex p) = (startSeparated s).withPrevIndex p := by
  have hx : (s.withPrevIndex p).executing = s.executing := rfl
  unfold startSeparated startCycle
  rw [hx, show (s.withPrevIndex p).bus = s.bus from rfl]
  split
  · rfl
  · split <;> rfl

theorem handOver_withPrevIndex (i : Nat) (s : State) (p : Option Byte) :
    handOver i (s.withPrevIndex p) = (handOver i s).withPrevIndex p := by
  have he : (s.withPrevIndex p).entry i = s.entry i := rfl
  unfold handOver
  dsimp only
  rw [he]
  split <;> rfl

theorem arbitrate_withPrevIndex (s : State) (p : Option Byte) :
    arbitrate (s.withPrevIndex p) = (arbitrate s).withPrevIndex p := by
  have hx : (s.withPrevIndex p).executing = s.executing := rfl
  unfold arbitrate
  rw [hx, show (s.withPrevIndex p).bus = s.bus from rfl, show (s.withPrevIndex p).pins = s.pins from rfl,
    show (s.withPrevIndex p).bridge = s.bridge from rfl, show (s.withPrevIndex p).table = s.table from rfl]
  split
  · rfl
  · split
    · rfl
    · split
      · exact startSeparated_withPrevIndex s p
      · split
        · rfl
        · split
          · rfl
          · rw [handOver_withPrevIndex, startSeparated_withPrevIndex]

theorem settle_withPrevIndex {s : State} (p : Option Byte) (h : s.bridge.softReset = none) :
    settle (s.withPrevIndex p) = (settle s).withPrevIndex p := by
  rw [settle_of_no_softReset (s := s.withPrevIndex p) h, settle_of_no_softReset h, judgeDrain_withPrevIndex,
    arbitrate_withPrevIndex]

theorem withPrevIndex_self {s : State} {p : Option Byte} (h : s.prevIndex = p) : s.withPrevIndex p = s := by
  subst h
  rfl

/-! ### The arrival goes on as a VOID slot's -/

/-- A return comes to the filling step as the VOID slot does, in the state that the act on it has left (R33, R143). -/
theorem exec_return {s : State} {index channel size : Byte} {payload : List Byte}
    (hh : headerInRange index channel size = true) (hc : channel ≠ 0) (hl : payload.length = payloadLength size)
    (ha : s.admits index) (hch : (s.activeEntry index).channel = none ∨ (s.activeEntry index).channel = some channel)
    (hact : (s.activeEntry index).action = .give ∨ (s.activeEntry index).action = .both)
    (hown : (Segment.ofBytes payload).source = s.mgmt.node ∧ (Segment.ofBytes payload).op = replyCode) :
    exec (.slotArrival (encodeSlot index channel size .data payload)) s
      = (let r := fillStep (payloadLength size) (capacityOf size)
          { kind := .void, payload := List.replicate (payloadLength size) 0 }
          (actOnReturn index (Segment.ofBytes payload) (s.withPrevIndex (some index)))
        .next (r.1.leaving (encodeSlot index channel size r.2.kind r.2.payload))) := by
  let void : Image := { kind := .void, payload := List.replicate (payloadLength size) 0 }
  have howns : (s.withPrevIndex (some index)).ownReturn (Segment.ofBytes payload) = true := by
    simp [State.ownReturn, hown.1, hown.2]
  have hvoided : Image.voided { kind := .data, payload := payload } = void := by rw [Image.voided, hl]
  have hstrip : (arrivalOf index channel size .data payload).strip
      (s.withPrevIndex (some index), (arrivalOf index channel size .data payload).image)
        = (actOnReturn index (Segment.ofBytes payload) (s.withPrevIndex (some index)), void) :=
    (if_pos (And.intro rfl howns)).trans (congrArg (Prod.mk _) hvoided)
  have happly : applyAction (s.activeEntry index).action (s.activeEntry index).source
      (arrivalOf index channel size .data payload) (s.withPrevIndex (some index))
        = fillStep (payloadLength size) (capacityOf size) void
            (actOnReturn index (Segment.ofBytes payload) (s.withPrevIndex (some index))) := by
    have hfill : ∀ x, (arrivalOf index channel size .data payload).fill x
        = fillStep (payloadLength size) (capacityOf size) x.2 x.1 := fun x => by
      rw [Arrival.fill, arrivalOf_capacity]
      rfl
    have hintake : ∀ t, (arrivalOf index channel size .data payload).intake (s.activeEntry index).source (t, void) = (t, void) :=
      fun t => intakeStep_of_not_data _ _ t (by simp [void])
    rcases hact with h | h
    · rw [h, applyAction, hstrip, hfill]
    · rw [h, applyAction, hstrip, hintake, hfill]
  rw [exec_slotArrival_scheduled hl hh hc ha hch]
  exact congrArg (fun r : State × Image => Host.Outcome.next (r.1.leaving (encodeSlot index channel size r.2.kind r.2.payload)))
    happly

/-- What the act on a return comes to, as the state in which a VOID slot arrives. -/
theorem exec_return_goesOn {s u : State} {index channel size : Byte} {payload : List Byte}
    (hh : headerInRange index channel size = true) (hc : channel ≠ 0) (hl : payload.length = payloadLength size)
    (ha : s.admits index) (hch : (s.activeEntry index).channel = none ∨ (s.activeEntry index).channel = some channel)
    (hact : (s.activeEntry index).action = .give ∨ (s.activeEntry index).action = .both)
    (hown : (Segment.ofBytes payload).source = s.mgmt.node ∧ (Segment.ofBytes payload).op = replyCode)
    (hu : actOnReturn index (Segment.ofBytes payload) (s.withPrevIndex (some index)) = u.withPrevIndex (some index))
    (hring : u.ring = s.ring) (hpins : u.pins = s.pins) (hprev : u.prevIndex = s.prevIndex) (hsched : u.sched = s.sched) :
    exec (.slotArrival (encodeSlot index channel size .data payload)) s
      = exec (.slotArrival (encodeSlot index channel size .void (List.replicate (payloadLength size) 0))) u := by
  have hau : u.admits index := by
    unfold State.admits at ha ⊢
    rw [hring, hpins, hprev]
    exact ha
  have hentry : u.activeEntry index = s.activeEntry index := by simp only [State.activeEntry, hsched]
  rw [exec_return hh hc hl ha hch hact hown, hu,
    exec_slotArrival_void_fills hh hc hau (by rw [hentry]; exact hch) (by rw [hentry]; exact hact)]
  rfl

/-! ### The entry that a return belongs to (R144) -/

/-- Entry `j` has sent the range of a return, which does not carry LAST. -/
def State.owns (s : State) (g : Segment) (j : Nat) : Prop :=
  .entry j ∈ s.replyQueue ∧ g.last = false ∧ (s.entry j).source = g.dest ∧ (s.entry j).tag = g.tag
    ∧ (s.entry j).total = g.total.toNat ∧ (s.entry j).addr = g.addr ∧ g.offset.toNat + g.count.toNat ≤ (s.entry j).sent

theorem hasSent_iff (e : Entry) (g : Segment) : e.hasSent g = true ↔ e.source = g.dest ∧ e.tag = g.tag
    ∧ e.total = g.total.toNat ∧ e.addr = g.addr ∧ g.offset.toNat + g.count.toNat ≤ e.sent := by
  simp [Entry.hasSent, and_assoc]

theorem returnOwner_eq_none {s : State} {g : Segment} (h : ∀ j, ¬s.owns g j) : s.returnOwner g = none := by
  unfold State.returnOwner
  cases hl : g.last with
  | true => rfl
  | false =>
    rw [if_neg (by simp), List.findSome?_eq_none_iff]
    intro m hm
    cases m with
    | desc d => rfl
    | entry j => exact if_neg fun hs => h j ⟨hm, hl, (hasSent_iff _ _).1 hs⟩

theorem returnOwner_eq_some {s : State} {g : Segment} {i : Nat} (hi : s.owns g i) (hone : ∀ j, s.owns g j → j = i) :
    s.returnOwner g = some i := by
  obtain ⟨hm, hl, hs⟩ := hi
  unfold State.returnOwner
  rw [if_neg (by simp [hl])]
  cases hf : s.replyQueue.findSome? (fun m => match m with
      | .desc _ => none
      | .entry i => if (s.entry i).hasSent g then some i else none) with
  | none =>
    have hnone := List.findSome?_eq_none_iff.1 hf _ hm
    simp [(hasSent_iff _ _).2 hs] at hnone
  | some j =>
    obtain ⟨m, hmem, hj⟩ := List.exists_of_findSome?_eq_some hf
    cases m with
    | desc d => cases hj
    | entry k =>
      by_cases hk : (s.entry k).hasSent g = true
      · simp only [hk, if_true, Option.some.injEq] at hj
        subst hj
        rw [hone k ⟨hmem, hl, (hasSent_iff _ _).1 hk⟩]
      · simp [hk] at hj

/-! ### The act on a return (R145) -/

section
variable {s : State} {index : Byte} {g : Segment}

theorem actOnReturn_of_none (h : s.returnOwner g = none) : actOnReturn index g s = reportUndelivered index g s := by
  simp [actOnReturn, h]

theorem actOnReturn_of_replying {i : Nat} (h : s.returnOwner g = some i) (hst : (s.entry i).state = .replying) :
    actOnReturn index g s = judgeDrain (reportUndelivered index g (freeEntry i s)) := by
  simp [actOnReturn, h, hst]

/-- A READ in execution is marked quiet: no sequence of its is due. -/
theorem actOnReturn_of_executing {i : Nat} (h : s.returnOwner g = some i) (hst : (s.entry i).state = .executing)
    (hop : (s.entry i).op = .read) : actOnReturn index g s
      = (let t := s.modEntry i (fun e => { e with mark := .quiet })
        if s.bus.busy then reportUndelivered index g t
        else settle (inSomeOrder [reportUndelivered index g, endExecution i .aborted] t)) := by
  have hmark : setMark true i s = s.modEntry i (fun e => { e with mark := .quiet }) :=
    setMark_of_not_due true (sequenceDue_of_not_locked (by rw [hop]; rfl))
  simp only [actOnReturn, h, hst, hmark]
  rfl

end

/-! ### An execution that a return ends -/

theorem endExecution_quiet_events {t : State} {i : Nat} (hm : (t.entry i).mark = .quiet) (name : BankName) :
    ((endExecution i .aborted t).reports.bank name).events
      = if name = .bus then saturate (t.reports.bank name).events else (t.reports.bank name).events := by
  obtain ⟨_, hrep⟩ := endExecution_reports i .aborted t
  rw [reportEnd, if_pos (by simp [hm])] at hrep
  rw [hrep, report_events]
  cases name <;> rfl

/-- What the end of the execution of entry `i` and the report of its return have made of `t`. -/
def State.endedByReturn (v t : State) (i : Nat) : Prop :=
  (v.entry i).state = .free ∧ (∀ j, j ≠ i → v.entry j = t.entry j)
    ∧ v.table.order = t.table.order.filter (fun j => decide (j ≠ i))
    ∧ v.table.requests = t.table.requests.filter (fun j => decide (j ≠ i))
    ∧ v.replyQueue = t.replyQueue.filter (fun m => decide (m ≠ .entry i))
    ∧ v.windows = t.windows.modify (t.entry i).window (fun w => { w with inUse := w.inUse - 1 })
    ∧ v.bus = t.bus.cleared
    ∧ v.reports.counters.executed = t.reports.counters.executed + 1
    ∧ v.reports.slot.events = min (t.reports.slot.events + 1) 65535
    ∧ v.reports.bus.events = min (t.reports.bus.events + 1) 65535
    ∧ (∃ l, v.reports.lastTx = some l ∧ l.source = (t.entry i).source ∧ l.tag = (t.entry i).tag ∧ l.final = .aborted)
    ∧ v.ring = t.ring ∧ v.prevIndex = t.prevIndex ∧ v.sched = t.sched ∧ v.descriptors = t.descriptors
    ∧ v.bridge = t.bridge ∧ v.pins = t.pins ∧ v.mgmt.node = t.mgmt.node

theorem endExecution_windows_modify (i : Nat) (st : Status) (t : State) : (endExecution i st t).windows
    = t.windows.modify (t.entry i).window (fun w => { w with inUse := w.inUse - 1 }) := endExecution_windows i st t

/-- The two reports in either order. -/
theorem inSomeOrder_return {t : State} {i : Nat} (index : Byte) (g : Segment) (hi : (t.entry i).state = .executing)
    (hm : (t.entry i).mark = .quiet) :
    (inSomeOrder [reportUndelivered index g, endExecution i .aborted] t).endedByReturn t i := by
  have hf : (t.entry i).state ≠ .free := by simp [hi]
  have hslot : ∀ u, (reportUndelivered index g u).reports.slot.events = saturate u.reports.slot.events :=
    fun u => report_events _ u .slot
  have hbus : ∀ u, (reportUndelivered index g u).reports.bus.events = u.reports.bus.events := fun u => report_events _ u .bus
  have hcounters : ∀ u, (reportUndelivered index g u).reports.counters = u.reports.counters := fun u => (report_counters _ u).1
  have hlastTx : ∀ u, (reportUndelivered index g u).reports.lastTx = u.reports.lastTx := fun u => (report_counters _ u).2
  unfold State.endedByReturn
  rcases inSomeOrder_two (reportUndelivered index g) (endExecution i .aborted) t with e | e
  · rw [e]
    let u := reportUndelivered index g (t.withChoices (t.choices + 1))
    have he : ∀ j, u.entry j = t.entry j := fun j => report_entry _ _ j
    obtain ⟨hfree, hcount, _, _, hlast⟩ := endExecution_quiet (t := u) (by rw [he]; exact hi) (by rw [he]; exact hm)
    rw [he] at hlast
    refine ⟨hfree, fun j hj => ?_, ?_, ?_, ?_, ?_, ?_, ?_, ?_, ?_, hlast, ?_⟩
    · rw [endExecution_entry i .aborted u (by rw [he]; exact hf), if_neg hj, he]
    · rw [endExecution_order, he, if_pos (Or.inl hm)]
      simp [reportUndelivered]
    · rw [endExecution_requests, he, if_pos (Or.inl hm)]
      simp [reportUndelivered]
    · rw [endExecution_replyQueue, he, if_pos (Or.inl hm)]
      simp [reportUndelivered]
    · rw [endExecution_windows_modify, he]
      simp [reportUndelivered]
    · simp [reportUndelivered]
    · rw [hcount, hcounters]
      rfl
    · exact (endExecution_quiet_events (t := u) (by rw [he]; exact hm) .slot).trans (hslot _)
    · exact (endExecution_quiet_events (t := u) (by rw [he]; exact hm) .bus).trans (congrArg saturate (hbus _))
    · simp [reportUndelivered]
  · rw [e]
    let u := t.withChoices (t.choices + 1)
    obtain ⟨hfree, hcount, _, hbusEvents, hlast⟩ := endExecution_quiet (t := u) hi hm
    have he : ∀ j, (reportUndelivered index g (endExecution i .aborted u)).entry j = (endExecution i .aborted u).entry j :=
      fun j => report_entry _ _ j
    refine ⟨by rw [he]; exact hfree, fun j hj => ?_, ?_, ?_, ?_, ?_, ?_, ?_, ?_, ?_, by rw [hlastTx]; exact hlast, ?_⟩
    · rw [he, endExecution_entry i .aborted u hf, if_neg hj]
      rfl
    · simp [reportUndelivered, endExecution_order, hm]
    · simp [reportUndelivered, endExecution_requests, hm]
    · simp [reportUndelivered, endExecution_replyQueue, hm]
    · simp [reportUndelivered, endExecution_windows_modify]
    · simp [reportUndelivered]
    · rw [hcounters]
      exact hcount
    · rw [hslot]
      exact congrArg saturate (endExecution_quiet_events (t := u) hm .slot)
    · rw [hbus]
      exact hbusEvents
    · simp [reportUndelivered]

/-- Settles O20: the act on the return, by its owner's state. -/
theorem returnsAreStripped : Obligations.ReturnsAreStripped := by
  intro s index channel size payload hh hc hl ha hch hact g owns undelivered arrives goesOn hsrc hop
  let p : State := s.withPrevIndex (some index)
  have howns : ∀ j, owns j ↔ p.owns g j := fun j => Iff.rfl
  refine ⟨fun hnone => ?none, fun i hi hone => ⟨fun hst => ?replying, fun hst hread he => ?cycle, fun hst hread he hs => ?ends⟩⟩
  case none =>
    refine exec_return_goesOn hh hc hl ha hch hact ⟨hsrc, hop⟩ ?_ (by simp) (by simp) (by simp) (by simp)
    rw [actOnReturn_of_none (returnOwner_eq_none (s := p) hnone)]
    exact report_withPrevIndex _ _ _
  case replying =>
    refine exec_return_goesOn hh hc hl ha hch hact ⟨hsrc, hop⟩ ?_ (by simp) (by simp) (by simp) (by simp)
    rw [actOnReturn_of_replying (returnOwner_eq_some (s := p) hi hone) hst, ← judgeDrain_withPrevIndex]
    exact congrArg judgeDrain (report_withPrevIndex _ (freeEntry i s) _)
  case cycle =>
    have hbusy : p.bus.busy = true := by simp [p, Bus.busy, he]
    refine exec_return_goesOn hh hc hl ha hch hact ⟨hsrc, hop⟩ ?_ (by simp) (by simp) (by simp) (by simp)
    rw [actOnReturn_of_executing (returnOwner_eq_some (s := p) hi hone) hst hread]
    exact (if_pos hbusy).trans (report_withPrevIndex _ (s.modEntry i (fun e => { e with mark := .quiet })) _)
  case ends =>
    have hbusy : p.bus.busy = false := by
      rcases he with he | he
      · simp [p, Bus.busy, he]
      · simp [p, Bus.busy, he]
    have hf : (p.entry i).state ≠ .free := by
      rw [show (p.entry i).state = .executing from hst]
      simp
    let t := p.modEntry i (fun e => { e with mark := .quiet })
    have hti : t.entry i = { s.entry i with mark := .quiet } := entry_modEntry_self p i _ hf
    let v := inSomeOrder [reportUndelivered index g, endExecution i .aborted] t
    obtain ⟨vfree, vothers, vorder, vrequests, vqueue, vwindows, vbus, vcount, vslot, vbusEvents, vlast, vring, vprev, vsched,
      vdesc, vbridge, vpins, vnode⟩ := inSomeOrder_return (t := t) (i := i) index g (by rw [hti]; exact hst) (by rw [hti])
    have vreset : v.bridge.softReset = none := by rw [vbridge]; exact hs
    have hengine : s.bus.cleared.engine = s.bus.engine := by
      rw [Bus.cleared_engine]
      rcases he with he | he
      · simp [he]
      · simp [he]
    have hsettle := settle_withPrevIndex (s := v) s.prevIndex vreset
    have hframe : (settle v).ring = s.ring ∧ (settle v).pins = s.pins ∧ (settle v).sched = s.sched
        ∧ (settle v).prevIndex = some index := by
      rw [settle_of_no_softReset vreset]
      simp only [arbitrate_frame, judgeDrain_frame]
      exact ⟨vring, vpins, vsched, vprev⟩
    refine ⟨v.withPrevIndex s.prevIndex, ?_, vfree, fun j hj => (vothers j hj).trans (entry_modEntry_ne p _ hj), vorder, vrequests,
      vqueue, ?_, by rw [← hengine]; exact congrArg Bus.engine vbus, (congrArg Bus.plan vbus).trans rfl,
      (congrArg Bus.current vbus).trans rfl, vcount, vslot, vbusEvents, ?_, vring, rfl, vsched, vdesc, vbridge, vpins, vnode⟩
    · refine exec_return_goesOn hh hc hl ha hch hact ⟨hsrc, hop⟩ ?_ (by rw [hsettle]; exact hframe.1)
        (by rw [hsettle]; exact hframe.2.1) (by rw [hsettle]; rfl) (by rw [hsettle]; exact hframe.2.2.1)
      rw [actOnReturn_of_executing (returnOwner_eq_some (s := p) hi hone) hst hread, hsettle]
      refine (if_neg (by simp [hbusy])).trans ?_
      exact (withPrevIndex_self hframe.2.2.2).symm
    · rw [hti] at vwindows
      exact vwindows
    · rw [hti] at vlast
      exact vlast

end Sys2Proof.Machine
end

section
/-! PROOFS. How a management record is judged (spec/08, section 8.2; R152 to R158). -/

namespace Sys2Proof.Machine

/-! ### A record that is not executed (R152 to R154) -/

theorem ownRecord_iff (s : State) (r : MgmtRecord) :
    s.ownRecord r = true ↔ s.mgmt.node ≠ 0 ∧ r.source = s.mgmt.node ∧ r.dest ≠ s.mgmt.node := by
  simp [State.ownRecord, and_assoc]

theorem reach_of_addressed {s : State} {dest : Byte} (h : dest = s.mgmt.node) : s.reach dest = .addressed := by
  unfold State.reach
  by_cases h0 : s.mgmt.node = 0
  · rw [if_pos h0, if_pos (by rw [h, h0])]
  · rw [if_neg h0, if_pos h]

theorem reach_of_broadcast {s : State} {dest : Byte} (h0 : s.mgmt.node ≠ 0) (h : dest = 63) (hne : dest ≠ s.mgmt.node) :
    s.reach dest = .broadcast := by
  rw [State.reach, if_neg h0, if_neg hne, if_pos h]

theorem reach_of_left {s : State} {dest : Byte} (hne : dest ≠ s.mgmt.node)
    (h : ¬(s.mgmt.node ≠ 0 ∧ dest = 63 ∧ dest ≠ s.mgmt.node)) : s.reach dest = .left := by
  unfold State.reach
  by_cases h0 : s.mgmt.node = 0
  · rw [if_pos h0, if_neg fun hd => hne (by rw [hd, h0])]
  · rw [if_neg h0, if_neg hne, if_neg fun hd => h ⟨h0, hd, hne⟩]

section
variable {index : Byte} {capacity : Nat} {im : Image} {s : State}

theorem judgeRecord_of_own (h : s.ownRecord (MgmtRecord.ofBytes im.payload) = true) : judgeRecord index capacity im s
    = (reportReturned index (MgmtRecord.ofBytes im.payload) s, im.voided) := if_pos h

theorem judgeRecord_of_not_own (h : ¬s.ownRecord (MgmtRecord.ofBytes im.payload) = true) : judgeRecord index capacity im s
    = if s.reach (MgmtRecord.ofBytes im.payload).dest = .left then (s, im)
      else judgeReached (s.reach (MgmtRecord.ofBytes im.payload).dest) index capacity (MgmtRecord.ofBytes im.payload) im s := by
  rw [judgeRecord, if_neg h]
  cases s.reach (MgmtRecord.ofBytes im.payload).dest <;> rfl

theorem judgeReached_of_forManager {reach : Reach} {r : MgmtRecord} (h : r.forManager = true) :
    judgeReached reach index capacity r im s = (s, im) := if_pos h

theorem judgeReached_of_malformed {reach : Reach} {r : MgmtRecord} (hm : r.forManager = false)
    (h : MgmtOp.ofCode r.op = none ∨ s.malformed reach capacity r = true) :
    judgeReached reach index capacity r im s = (reportBadRequest index r s, reach.leaves im) := by
  rw [judgeReached, if_neg (by simp [hm])]
  cases hop : MgmtOp.ofCode r.op with
  | none => rfl
  | some op => exact if_pos (h.resolve_left (by simp [hop]))

theorem judgeReached_of_refused {reach : Reach} {r : MgmtRecord} {op : MgmtOp} (hm : r.forManager = false)
    (hop : MgmtOp.ofCode r.op = some op) (hf : s.malformed reach capacity r = false)
    (h : s.refusesRequest reach op r = true) : judgeReached reach index capacity r im s = (s, im) := by
  rw [judgeReached, if_neg (by simp [hm]), hop]
  exact (if_neg (by simp [hf])).trans (if_pos h)

end

theorem forManager_iff (r : MgmtRecord) : r.forManager = true ↔ 128 ≤ r.op.toNat ∨ r.op = 0x20 := by
  simp only [MgmtRecord.forManager, Bool.or_eq_true, decide_eq_true_eq]
  rfl

theorem malformed_iff (s : State) (reach : Reach) (capacity : Nat) (r : MgmtRecord) : s.malformed reach capacity r = true
    ↔ r.status ≠ 0 ∨ r.flags ≠ 0 ∨ capacity < r.argLen.toNat ∨ reach = .addressed ∧ s.mgmt.node ≠ 0 ∧ r.source = s.mgmt.node := by
  simp [State.malformed, or_assoc, and_assoc]

/-- Settles O22: the judgements of R152 to R154, in their order. -/
theorem managementRecordsAreJudged : Obligations.ManagementRecordsAreJudged := by
  intro s index size payload hh hl ha r t slot void mine addressed broadcast forManager malformed bad
  let im : Image := { kind := .mgmt, payload := payload }
  have hexec : ∀ x, judgeRecord index (capacityOf size) im t = x →
      exec (.slotArrival slot) s = .next (x.1.leaving (encodeSlot index 0 size x.2.kind x.2.payload)) := by
    intro x hx
    rw [exec_slotArrival_management hl hh ha, ← hx]
    rfl
  have hvoid : im.voided = { kind := .void, payload := List.replicate (payloadLength size) 0 } := by rw [Image.voided, hl]
  have hnotOwn : ¬mine → ¬t.ownRecord r = true := fun h ho => h ((ownRecord_iff t r).1 ho)
  have haddressed : addressed → judgeRecord index (capacityOf size) im t
      = judgeReached .addressed index (capacityOf size) r im t := fun h => by
    rw [judgeRecord_of_not_own (hnotOwn fun hm => hm.2.2 h), reach_of_addressed (s := t) h]
    exact if_neg (by simp)
  have hbroadcast : ¬mine → broadcast → judgeRecord index (capacityOf size) im t
      = judgeReached .broadcast index (capacityOf size) r im t := fun hm ⟨h0, hd, hne⟩ => by
    rw [judgeRecord_of_not_own (hnotOwn hm), reach_of_broadcast (s := t) h0 hd hne]
    exact if_neg (by simp)
  have hplain : ¬forManager → r.forManager = false := fun h => Bool.eq_false_iff.2 fun hf => h ((forManager_iff r).1 hf)
  have hfault : malformed → ∀ reach, (addressed → reach = .addressed) →
      MgmtOp.ofCode r.op = none ∨ t.malformed reach (capacityOf size) r = true := by
    rintro (h | h | h | h | ⟨h, h0, hs⟩) reach hreach
    · exact Or.inl h
    · exact Or.inr ((malformed_iff ..).2 (Or.inl h))
    · exact Or.inr ((malformed_iff ..).2 (Or.inr (Or.inl h)))
    · exact Or.inr ((malformed_iff ..).2 (Or.inr (Or.inr (Or.inl h))))
    · exact Or.inr ((malformed_iff ..).2 (Or.inr (Or.inr (Or.inr ⟨hreach h, h0, hs⟩))))
  refine ⟨fun hm => ?own, fun hm hna hnb => ?left, fun hm hr hf => ?manager, fun hr hf hmal => ?bad,
    fun hm hr hf hmal => ?badBroadcast, fun hm hr hf hmal hfull => ?refused⟩
  case own =>
    rw [hexec _ (judgeRecord_of_own ((ownRecord_iff t r).2 hm)), hvoid]
    rfl
  case left => exact hexec (t, im) ((judgeRecord_of_not_own (hnotOwn hm)).trans (if_pos (reach_of_left (s := t) hna hnb)))
  case manager =>
    refine hexec (t, im) ?_
    rcases hr with hr | hr
    · exact (haddressed hr).trans (judgeReached_of_forManager ((forManager_iff r).2 hf))
    · exact (hbroadcast hm hr).trans (judgeReached_of_forManager ((forManager_iff r).2 hf))
  case bad =>
    have hx := (haddressed hr).trans (judgeReached_of_malformed (hplain hf) (hfault hmal _ fun _ => rfl))
    rw [hexec _ hx, show Reach.leaves .addressed im = im.voided from rfl, hvoid]
    rfl
  case badBroadcast =>
    exact hexec _ ((hbroadcast hm hr).trans
      (judgeReached_of_malformed (hplain hf) (hfault hmal _ fun h => absurd h hr.2.2)))
  case refused =>
    obtain ⟨op, hop⟩ := Option.ne_none_iff_exists'.1 fun h => hmal (Or.inl h)
    have hgood : ∀ reach, (reach = .addressed → addressed) → t.malformed reach (capacityOf size) r = false := by
      refine fun reach hreach => Bool.eq_false_iff.2 fun h => hmal ?_
      rcases (malformed_iff ..).1 h with h | h | h | ⟨h, h0, hs⟩
      · exact Or.inr (Or.inl h)
      · exact Or.inr (Or.inr (Or.inl h))
      · exact Or.inr (Or.inr (Or.inr (Or.inl h)))
      · exact Or.inr (Or.inr (Or.inr (Or.inr ⟨hreach h, h0, hs⟩)))
    have hrefuse : ∀ reach, (reach = .addressed → addressed) → t.refusesRequest reach op r = true := by
      intro reach hreach
      rcases hfull with ⟨hlen, hn⟩ | hreset
      · have hnot : (decide (op = .reset) && decide (reach = .addressed) && t.fromManager r) = false := by
          refine Bool.eq_false_iff.2 fun h => hn ?_
          simp only [Bool.and_eq_true, decide_eq_true_eq, State.fromManager] at h
          exact ⟨by rw [hop, h.1.1], hreach h.1.2, h.2⟩
        have hlen : t.mgmt.queue.length = 4 := hlen
        simp only [State.refusesRequest, hnot, hlen]
        rfl
      · have hreset : t.bridge.softReset.isSome = true := hreset
        simp [State.refusesRequest, hreset]
    refine hexec (t, im) ?_
    rcases hr with hr | hr
    · exact (haddressed hr).trans
        (judgeReached_of_refused (hplain hf) hop (hgood _ fun _ => hr) (hrefuse _ fun _ => hr))
    · exact (hbroadcast hm hr).trans
        (judgeReached_of_refused (hplain hf) hop (hgood _ (by simp)) (hrefuse _ (by simp)))

/-! ### A request that is answered -/

/-- A request that reaches its operation and is no RESET that passes: its verdict is answered (R157). -/
theorem reaches_answers_unless {m : MgmtSlot} {s : State} {op : MgmtOp} (h : m.reaches s)
    (hn : ¬(op = .reset ∧ m.dest = s.mgmt.node ∧ m.authorised s)) {v : Verdict}
    (hv : judgeRequest (m.reachOf s) op m.index (capacityOf m.size) (m.arrived op) (s.withPrevIndex (some m.index)) = v) :
    arrive (m.arrival op) s = .next ((v.act (s.replied m op v.status v.param v.args)).leaving (m.leavesAs op s)) := by
  rw [(m.reaches_executes op h).2, executeRequest, if_neg, hv]
  · rfl
  · rintro ⟨hop, hpass⟩
    simp only [State.resetPasses, State.fromManager, Bool.and_eq_true, decide_eq_true_eq] at hpass
    obtain ⟨⟨hreach, h0⟩, hfrom⟩ := hpass
    refine hn ⟨hop, ?_, h0, hfrom⟩
    by_contra hne
    simp [MgmtSlot.reachOf, hne] at hreach

theorem reachOf_broadcast {m : MgmtSlot} {s : State} (h : m.dest ≠ s.mgmt.node) : m.reachOf s = .broadcast := if_neg h

theorem mayBroadcast_iff (op : MgmtOp) : op.mayBroadcast = true
    ↔ op = .identify ∨ op = .schedCommit ∨ op = .start ∨ op = .stop := by
  cases op <;> simp [MgmtOp.mayBroadcast]

theorem anySource_iff (op : MgmtOp) : op.anySource = true
    ↔ op = .identify ∨ op = .status ∨ op = .reportRead ∨ op = .schedRead ∨ op = .windowRead ∨ op = .assign := by
  cases op <;> simp [MgmtOp.anySource]

theorem arrived_args (m : MgmtSlot) (op : MgmtOp) :
    (m.arrived op).args = (padTo (capacityOf m.size) m.args).take m.argLen.toNat := rfl

theorem arrived_argLen (m : MgmtSlot) (op : MgmtOp) : (m.arrived op).argLen = m.argLen := rfl

section
variable {reach : Reach} {op : MgmtOp} {index : Byte} {capacity : Nat} {r : MgmtRecord} {s : State}

theorem judgeRequest_of_broadcast (hr : reach = .broadcast) (h : op.mayBroadcast = false) :
    judgeRequest reach op index capacity r s
      = { status := .badArg, param := refusalParam op r s, args := broadcastArgs op r s } := if_pos ⟨hr, h⟩

theorem judgeRequest_of_unassigned (h : ¬(reach = .broadcast ∧ op.mayBroadcast = false)) (ha : op.anySource = false)
    (h0 : s.mgmt.node = 0) : judgeRequest reach op index capacity r s = { status := .state, param := refusalParam op r s } := by
  rw [judgeRequest, if_neg h, if_neg (by simp [ha]), if_pos h0]

theorem judgeRequest_of_denied (h : ¬(reach = .broadcast ∧ op.mayBroadcast = false)) (ha : op.anySource = false)
    (h0 : s.mgmt.node ≠ 0) (hm : s.fromManager r = false) : judgeRequest reach op index capacity r s
      = { status := .denied, param := refusalParam op r s, act := reportDenied index r } := by
  rw [judgeRequest, if_neg h, if_neg (by simp [ha]), if_neg h0, if_pos (by simp [hm])]

end

/-- Settles O23: the three judgements of R155 and R156. -/
theorem authorityIsJudgedFirst : Obligations.AuthorityIsJudgedFirst := by
  intro c m op s hc h mayBroadcast anySource param
  have hexec := exec_of_managementRequest hc s
  have hparam : refusalParam op (m.arrived op) (s.withPrevIndex (some m.index)) = param := by
    have hbyte := fun i => m.arrived_paramByte h op i
    cases op <;> simp only [refusalParam, hbyte, arrived_args] <;> rfl
  have hbroadcast : ¬mayBroadcast → op.mayBroadcast = false := fun hn =>
    Bool.eq_false_iff.2 fun hb => hn ((mayBroadcast_iff op).1 hb)
  have hsource : ¬anySource → op.anySource = false := fun hn => Bool.eq_false_iff.2 fun hb => hn ((anySource_iff op).1 hb)
  refine ⟨fun hd hn => ?_, fun h0 hn => ?_, fun h0 hm hn hd => ?_⟩
  · have hv := judgeRequest_of_broadcast (index := m.index) (capacity := capacityOf m.size) (r := m.arrived op)
      (s := s.withPrevIndex (some m.index)) (reachOf_broadcast hd) (hbroadcast hn)
    have hargs : broadcastArgs op (m.arrived op) (s.withPrevIndex (some m.index))
        = if op = .configure ∧ m.argLen = 11 then s.mgmt.params.toBytes else [] := by
      have hlen : (m.arrived op).argLen.toNat = 11 ↔ m.argLen = 11 := by
        rw [arrived_argLen, ← BitVec.toNat_inj]
        rfl
      simp only [broadcastArgs, hlen]
      rfl
    rw [hexec, reaches_answers_unless h (fun hr => hd hr.2.1) hv]
    dsimp only
    rw [hparam, hargs]
    rfl
  · have hdest : m.dest = s.mgmt.node := by
      obtain ⟨_, _, hdest, _⟩ := h
      exact hdest.resolve_right fun hb => hb.1 h0
    have hreach : ¬(m.reachOf s = .broadcast ∧ op.mayBroadcast = false) := by simp [MgmtSlot.reachOf, hdest]
    have hv := judgeRequest_of_unassigned (index := m.index) (capacity := capacityOf m.size) (r := m.arrived op)
      (s := s.withPrevIndex (some m.index)) hreach (hsource hn) h0
    rw [hexec, reaches_answers_unless h (fun hr => hr.2.2.1 h0) hv]
    dsimp only
    rw [hparam]
    rfl
  · have hreach : ¬(m.reachOf s = .broadcast ∧ op.mayBroadcast = false) := by
      rintro ⟨hr, hb⟩
      rcases hd with hd | hd
      · simp [MgmtSlot.reachOf, hd] at hr
      · rw [(mayBroadcast_iff op).2 hd] at hb
        cases hb
    have hfrom : (s.withPrevIndex (some m.index)).fromManager (m.arrived op) = false := decide_eq_false hm
    have hv := judgeRequest_of_denied (index := m.index) (capacity := capacityOf m.size) (r := m.arrived op)
      (s := s.withPrevIndex (some m.index)) hreach (hsource hn) h0 hfrom
    rw [hexec, reaches_answers_unless h (fun hr => hm hr.2.2.2) hv]
    dsimp only
    rw [hparam]
    rfl

end Sys2Proof.Machine
end

section
/-! PROOFS. The management operations that read, and ASSIGN (spec/08, section 8.4; R36, R95, R160, R161, R167 to R169). -/

namespace Sys2Proof.Machine

/-! ### The answer of an operation -/

/-- The arrival of a management command whose operation comes to the verdict `v` (R157). -/
theorem exec_verdict {c : Instr} {m : MgmtSlot} {op : MgmtOp} {s : State} (hc : c.managementRequest = some (m, op))
    (h : m.reaches s) (hop : op ≠ .reset) (hd : m.dest = s.mgmt.node ∨ op.mayBroadcast = true)
    (ha : op.anySource = true ∨ m.authorised s) {v : Verdict}
    (hv : judgeOperation op m.index (capacityOf m.size) (m.arrived op) (s.withPrevIndex (some m.index)) = v) :
    exec c s = .next ((v.act (s.replied m op v.status v.param v.args)).leaving (m.leavesAs op s)) :=
  (exec_of_managementRequest hc s).trans (m.reaches_verdict h hop hd ha hv)

/-- A read's answer: its arguments where they fit the slot (R158). -/
theorem exec_read {c : Instr} {m : MgmtSlot} {op : MgmtOp} {s : State} (hc : c.managementRequest = some (m, op))
    (h : m.reaches s) (hop : op ≠ .reset) (hd : m.dest = s.mgmt.node ∨ op.mayBroadcast = true)
    (ha : op.anySource = true ∨ m.authorised s) {param badParam args : List Byte}
    (hv : judgeOperation op m.index (capacityOf m.size) (m.arrived op) (s.withPrevIndex (some m.index))
      = readVerdict (capacityOf m.size) param badParam args) :
    exec c s = .next ((if args.length ≤ capacityOf m.size then s.replied m op .ok param args
      else s.replied m op .badArg badParam []).leaving (m.leavesAs op s)) := by
  rw [exec_verdict hc h hop hd ha hv]
  unfold readVerdict
  split <;> rfl

/-! ### IDENTIFY (R160) -/

theorem judgeIdentify_of_leaf {capacity : Nat} {r : MgmtRecord} {s : State} {args : List Byte}
    (h : s.identifyLeaf (r.paramByte 0) = some args) :
    judgeIdentify capacity r s = readVerdict capacity [r.paramByte 0] [r.paramByte 0] args := by
  simp only [judgeIdentify, h]

theorem judgeIdentify_of_no_leaf {capacity : Nat} {r : MgmtRecord} {s : State} (h : s.identifyLeaf (r.paramByte 0) = none) :
    judgeIdentify capacity r s = { status := .badArg, param := [r.paramByte 0] } := by
  simp only [judgeIdentify, h]

theorem identifyLeaf_three (s : State) : s.identifyLeaf 3
    = some ([s.mgmt.node, nodeByte s.mgmt.manager, s.bridge.state.code, s.ring.state.code, s.bridge.resetCount]
      ++ halfBytes s.ring.lastCycle) := rfl

/-- Above 3 there is no leaf. -/
theorem identifyLeaf_of_above (s : State) {leaf : Byte} (h : 3 < leaf.toNat) : s.identifyLeaf leaf = none := by
  have hne : ∀ k : Byte, k.toNat ≤ 3 → leaf ≠ k := fun k hk he => by rw [he] at h; omega
  rw [State.identifyLeaf, if_neg (hne 0 (by decide)), if_neg (hne 1 (by decide)), if_neg (hne 2 (by decide)),
    if_neg (hne 3 (by decide))]

/-! ### STATUS (R167) -/

theorem indexesOf_length {α : Type} (p : α → Bool) (l : List α) : (indexesOf p l).length = (l.filter p).length := by
  induction l using List.reverseRecOn with
  | nil => rfl
  | append_singleton l a ih =>
    have hold : (List.range l.length).filter (fun i => ((l ++ [a])[i]?).any p) = indexesOf p l :=
      List.filter_congr fun i hi => by rw [List.getElem?_append_left (List.mem_range.1 hi)]
    have hnew : ((l ++ [a])[l.length]?).any p = p a := by simp
    have hsplit : indexesOf p (l ++ [a]) = indexesOf p l ++ (if p a then [l.length] else []) := by
      unfold indexesOf at hold ⊢
      rw [List.length_append, List.length_singleton, List.range_succ, List.filter_append, hold]
      congr 1
      cases hp : p a <;> simp [hp]
    rw [hsplit, List.filter_append, List.length_append, List.length_append, ih]
    cases hp : p a <;> simp [hp]

theorem statusBytes_length (s : State) : s.statusBytes.length = 24 := rfl

/-- Settles O24: the leaves of IDENTIFY, and STATUS field by field. -/
theorem identifyAndStatusReadTheNode : Obligations.IdentifyAndStatusReadTheNode := by
  refine ⟨⟨rfl, rfl, rfl, rfl, fun n => ⟨rfl, rfl⟩⟩, fun m s h => ⟨fun args hargs => ?leaf, fun hleaf => ?noLeaf, fun hd => ?status⟩⟩
  case leaf =>
    have ⟨_, ⟨_, hsync, _⟩, _⟩ := h
    have hbyte := m.arrived_paramByte h .identify 0
    have hleaf : (s.withPrevIndex (some m.index)).identifyLeaf ((m.arrived .identify).paramByte 0) = some args := by
      rw [hbyte]
      rcases hargs with ⟨hb, rfl⟩ | ⟨hb, rfl⟩ | ⟨hb, rfl⟩ | ⟨hb, rfl⟩
      · rw [hb]
        rfl
      · rw [hb]
        rfl
      · rw [hb]
        rfl
      · have hthree := identifyLeaf_three (s.withPrevIndex (some m.index))
        rw [withPrevIndex_ring, hsync] at hthree
        rw [hb]
        exact hthree
    have hv := judgeIdentify_of_leaf (capacity := capacityOf m.size) hleaf
    rw [hbyte] at hv
    exact exec_read (op := .identify) rfl h (by simp) (Or.inr rfl) (Or.inl rfl) hv
  case noLeaf =>
    have hbyte := m.arrived_paramByte h .identify 0
    have hv := judgeIdentify_of_no_leaf (capacity := capacityOf m.size)
      (identifyLeaf_of_above (s.withPrevIndex (some m.index)) (leaf := (m.arrived .identify).paramByte 0)
        (by rw [hbyte]; exact hleaf))
    rw [hbyte] at hv
    exact exec_verdict (op := .identify) rfl h (by simp) (Or.inr rfl) (Or.inl rfl) hv
  case status =>
    have ⟨_, ⟨_, hsync, _⟩, _⟩ := h
    have hcode : s.ring.state.code = 3 := by rw [hsync]; rfl
    have hcount : ∀ st, (s.entriesIn st).length = (s.table.entries.filter (fun e => decide (e.state = st))).length :=
      fun st => indexesOf_length _ _
    have hpending : s.pendingDescriptors.length = (s.descriptors.filter Option.isSome).length := indexesOf_length _ _
    rw [exec_read (op := .status) rfl h (by simp) (Or.inl hd) (Or.inl rfl) rfl, statusBytes_length]
    dsimp only
    rw [← hcode, ← hpending]
    simp only [← hcount]
    rfl

/-! ### ASSIGN (R161) -/

theorem isNode_iff (n : Byte) : isNode n = true ↔ 1 ≤ n.toNat ∧ n.toNat ≤ 62 := by
  simp [isNode]

section
variable {index : Byte} {r : MgmtRecord} {s : State}

theorem judgeAssign_of_bad (h : r.source = 0 ∨ r.source = 63 ∨ isNode (r.paramByte 0) = false) :
    judgeAssign index r s = { status := .badArg, param := [s.mgmt.node] } := if_pos h

variable (hgood : ¬(r.source = 0 ∨ r.source = 63 ∨ isNode (r.paramByte 0) = false))
include hgood

theorem judgeAssign_of_unassigned (h0 : s.mgmt.node = 0) : judgeAssign index r s
    = if isNode r.source then { status := .ok, param := [r.paramByte 0]
                                act := fun t => t.withMgmt { t.mgmt with node := r.paramByte 0, manager := some r.source } }
      else { status := .badArg, param := [s.mgmt.node] } := by
  rw [judgeAssign, if_neg hgood, if_pos h0]

theorem judgeAssign_of_stranger (h0 : s.mgmt.node ≠ 0) (hm : s.fromManager r = false) : judgeAssign index r s
    = { status := .denied, param := [s.mgmt.node], act := reportDenied index r } := by
  rw [judgeAssign, if_neg hgood, if_neg h0, if_pos (by simp [hm])]

theorem judgeAssign_of_manager (h0 : s.mgmt.node ≠ 0) (hm : s.fromManager r = true) : judgeAssign index r s
    = if r.paramByte 0 = s.mgmt.node then { status := .ok, param := [s.mgmt.node] }
      else if s.bridge.state = .stopped then
        { status := .ok, param := [r.paramByte 0], act := fun t => t.withMgmt { t.mgmt with node := r.paramByte 0 } }
      else { status := .state, param := [s.mgmt.node] } := by
  rw [judgeAssign, if_neg hgood, if_neg h0, if_neg (by simp [hm])]

end

/-- Settles O25: the cases of R161. -/
theorem assignNamesTheNode : Obligations.AssignNamesTheNode := by
  intro m s h hd number out ok badArg
  let r := m.arrived .assign
  let t := s.withPrevIndex (some m.index)
  have hbyte : r.paramByte 0 = number := m.arrived_paramByte h .assign 0
  have hanswer : ∀ {v : Verdict}, judgeAssign m.index r t = v →
      exec (.assign m) s = .next ((v.act (s.replied m .assign v.status v.param v.args)).leaving out) :=
    fun hv => exec_verdict (op := .assign) rfl h (by simp) (Or.inl hd) (Or.inl rfl) hv
  refine ⟨fun hb => ?bad, fun hs0 hs63 hn1 hn62 => ?good⟩
  case bad =>
    refine hanswer (judgeAssign_of_bad ?_)
    rw [hbyte]
    rcases hb with hb | hb | hb | hb
    · exact Or.inl hb
    · exact Or.inr (Or.inl hb)
    · exact Or.inr (Or.inr (by rw [hb]; rfl))
    · exact Or.inr (Or.inr (Bool.eq_false_iff.2 fun hn => by have := ((isNode_iff _).1 hn).2; omega))
  case good =>
    have hgood : ¬(r.source = 0 ∨ r.source = 63 ∨ isNode (r.paramByte 0) = false) := by
      rw [hbyte, (isNode_iff number).2 ⟨hn1, hn62⟩]
      rintro (h | h | h)
      · exact hs0 h
      · exact hs63 h
      · cases h
    have hsource : m.source.toNat ≠ 0 := fun h => hs0 (BitVec.eq_of_toNat_eq h)
    refine ⟨fun h0 hle => ?_, fun h0 hlt => ?_, fun h0 hm => ?_, fun h0 hm => ⟨fun hn => ?_, fun hn hst => ?_, fun hn hst => ?_⟩⟩
    · have hv := judgeAssign_of_unassigned (index := m.index) (s := t) hgood h0
      rw [if_pos ((isNode_iff r.source).2 ⟨Nat.one_le_iff_ne_zero.2 hsource, hle⟩), hbyte] at hv
      exact hanswer hv
    · have hv := judgeAssign_of_unassigned (index := m.index) (s := t) hgood h0
      rw [if_neg fun hn => by have := ((isNode_iff r.source).1 hn).2; exact absurd hlt (by show ¬63 < r.source.toNat; omega)] at hv
      exact hanswer hv
    · exact hanswer (judgeAssign_of_stranger (index := m.index) (s := t) hgood h0 (decide_eq_false hm))
    · have hv := (judgeAssign_of_manager (index := m.index) (s := t) hgood h0 (decide_eq_true hm)).trans
        (if_pos (hbyte.trans hn))
      rw [show t.mgmt.node = number from hn.symm] at hv
      exact hanswer hv
    · have hne : ¬r.paramByte 0 = t.mgmt.node := fun h => hn (hbyte.symm.trans h)
      have hv := (judgeAssign_of_manager (index := m.index) (s := t) hgood h0 (decide_eq_true hm)).trans
        ((if_neg hne).trans (if_pos hst))
      rw [hbyte] at hv
      exact hanswer hv
    · have hne : ¬r.paramByte 0 = t.mgmt.node := fun h => hn (hbyte.symm.trans h)
      exact hanswer ((judgeAssign_of_manager (index := m.index) (s := t) hgood h0 (decide_eq_true hm)).trans
        ((if_neg hne).trans (if_neg hst)))

/-! ### SCHED-READ and WINDOW-READ (R36, R95) -/

theorem byte_eq_of_toNat_le_one {b : Byte} (h : b.toNat ≤ 1) : b = 0 ∨ b = 1 := by
  rcases Nat.le_one_iff_eq_zero_or_eq_one.1 h with h | h
  · exact Or.inl (BitVec.eq_of_toNat_eq h)
  · exact Or.inr (BitVec.eq_of_toNat_eq h)

theorem bankOf_of_le_one (c : Schedule) {selector : Byte} (h : selector.toNat ≤ 1) :
    c.bankOf selector = some (if selector = 0 then c.active else c.shadow) := by
  rcases byte_eq_of_toNat_le_one h with rfl | rfl
  · rfl
  · rfl

theorem bankOf_of_above (c : Schedule) {selector : Byte} (h : ¬selector.toNat ≤ 1) : c.bankOf selector = none := by
  have h0 : selector ≠ 0 := fun he => h (by rw [he]; decide)
  have h1 : selector ≠ 1 := fun he => h (by rw [he]; decide)
  rw [Schedule.bankOf, if_neg h0, if_neg h1]

theorem scheduleRange_iff (first count : Nat) :
    scheduleRange first count = true ↔ first ≤ 239 ∧ 1 ≤ count ∧ count ≤ 120 ∧ first + count ≤ 240 := by
  simp [scheduleRange, and_assoc]

theorem windowBytes_length (w : Window) (i : Nat) : (w.toBytes i).length = 12 := rfl

/-- Settles O28: the two reads, by whether what they name exists. -/
theorem scheduleAndWindowsAreRead : Obligations.ScheduleAndWindowsAreRead := by
  intro m s h hd
  refine ⟨?schedule, ?window⟩
  case schedule =>
    intro first count param out inRange bank args
    have hbyte := m.arrived_paramByte h .schedRead
    have hverdict : judgeSchedRead (capacityOf m.size) (m.arrived .schedRead) (s.withPrevIndex (some m.index))
        = if inRange then readVerdict (capacityOf m.size) param param args else { status := .badArg, param := param } := by
      unfold judgeSchedRead
      simp only [hbyte]
      by_cases h1 : (byteAt m.param 0).toNat ≤ 1
      · rw [bankOf_of_le_one _ h1]
        by_cases hr : first ≤ 239 ∧ 1 ≤ count ∧ count ≤ 120 ∧ first + count ≤ 240
        · have hin : inRange := ⟨h1, hr⟩
          rw [if_pos hin]
          exact if_pos ((scheduleRange_iff _ _).2 hr)
        · rw [if_neg fun hin : inRange => hr hin.2]
          exact if_neg fun h => hr ((scheduleRange_iff _ _).1 h)
      · rw [bankOf_of_above _ h1, if_neg fun hin : inRange => h1 hin.1]
    refine ⟨fun hin hfit => ?_, fun hn => ?_⟩
    · rw [if_pos hin] at hverdict
      rw [exec_read (op := .schedRead) rfl h (by simp) (Or.inl hd) (Or.inl rfl) hverdict, if_pos hfit]
    · by_cases hin : inRange
      · rw [if_pos hin] at hverdict
        have hlong := hn.resolve_left fun h => h hin
        rw [exec_read (op := .schedRead) rfl h (by simp) (Or.inl hd) (Or.inl rfl) hverdict, if_neg (Nat.not_le.2 hlong)]
      · rw [if_neg hin] at hverdict
        exact exec_verdict (op := .schedRead) rfl h (by simp) (Or.inl hd) (Or.inl rfl) hverdict
  case window =>
    intro i param out
    have hbyte := m.arrived_paramByte h .windowRead
    have hverdict : judgeWindowRead (capacityOf m.size) (m.arrived .windowRead) (s.withPrevIndex (some m.index))
        = if 15 < i then { status := .badArg, param := param }
          else readVerdict (capacityOf m.size) param param ((s.window i).toBytes i) := by
      unfold judgeWindowRead
      simp only [hbyte]
      rfl
    refine ⟨fun hi hfit => ?_, fun hn => ?_⟩
    · rw [if_neg (Nat.not_lt.2 hi)] at hverdict
      rw [exec_read (op := .windowRead) rfl h (by simp) (Or.inl hd) (Or.inl rfl) hverdict, windowBytes_length, if_pos hfit]
    · by_cases hi : 15 < i
      · rw [if_pos hi] at hverdict
        exact exec_verdict (op := .windowRead) rfl h (by simp) (Or.inl hd) (Or.inl rfl) hverdict
      · rw [if_neg hi] at hverdict
        have hlong := hn.resolve_left hi
        rw [exec_read (op := .windowRead) rfl h (by simp) (Or.inl hd) (Or.inl rfl) hverdict, windowBytes_length,
          if_neg (Nat.not_le.2 hlong)]

/-! ### REPORT-READ and REPORT-CLEAR (R168, R169) -/

theorem BankName.ofCode_code (name : BankName) : BankName.ofCode name.code = some name := by
  cases name <;> rfl

theorem BankName.ofCode_of_above {c : Byte} (h : 3 < c.toNat) : BankName.ofCode c = none := by
  have hne : ∀ k : Byte, k.toNat ≤ 3 → c ≠ k := fun k hk he => by rw [he] at h; omega
  rw [BankName.ofCode, if_neg (hne 0 (by decide)), if_neg (hne 1 (by decide)), if_neg (hne 2 (by decide)),
    if_neg (hne 3 (by decide))]

theorem reportBytes_of_bank (s : State) (name : BankName) : s.reportBytes name.code
    = some ((s.reports.bank name).toBytes (s.mgmt.params.bankEnables.of name) (s.mgmt.params.noticeEnables.of name)) := by
  rw [State.reportBytes, BankName.ofCode_code]

theorem reportBytes_of_counters (s : State) : s.reportBytes 4 = some s.reports.counters.toBytes := rfl

theorem reportBytes_of_lastTx (s : State) : s.reportBytes 5 = some (LastTx.toBytes s.reports.lastTx) := rfl

theorem reportBytes_of_above (s : State) {c : Byte} (h : 5 < c.toNat) : s.reportBytes c = none := by
  have hne : ∀ k : Byte, k.toNat ≤ 5 → c ≠ k := fun k hk he => by rw [he] at h; omega
  rw [State.reportBytes, BankName.ofCode_of_above (by omega)]
  exact (if_neg (hne 4 (by decide))).trans (if_neg (hne 5 (by decide)))

theorem judgeReportRead_of_some {capacity : Nat} {r : MgmtRecord} {s : State} {args : List Byte}
    (h : s.reportBytes (r.paramByte 0) = some args) :
    judgeReportRead capacity r s = readVerdict capacity [r.paramByte 0] [] args := by
  simp only [judgeReportRead, h]

theorem judgeReportRead_of_none {capacity : Nat} {r : MgmtRecord} {s : State} (h : s.reportBytes (r.paramByte 0) = none) :
    judgeReportRead capacity r s = { status := .badArg, param := [] } := by
  simp only [judgeReportRead, h]

/-- Settles O35: what each selector reads, and what the clearing leaves. -/
theorem reportsAreReadAndCleared : Obligations.ReportsAreReadAndCleared := by
  refine ⟨codesAreOfTheTables, rfl, fun m s h hd => ⟨fun args hargs => ?read, fun hsel => ?readBad, fun ha hsel => ?clearBad,
    fun name ha hsel => ?clear⟩⟩
  case read =>
    have hbyte := m.arrived_paramByte h .reportRead 0
    have hbytes : (s.withPrevIndex (some m.index)).reportBytes ((m.arrived .reportRead).paramByte 0) = some args := by
      rw [hbyte]
      rcases hargs with ⟨name, hsel, ⟨hrec, rfl⟩ | ⟨r, hrec, rfl⟩⟩ | ⟨hsel, rfl⟩ | ⟨hsel, hlast, rfl⟩ | ⟨hsel, l, hlast, rfl⟩
      · rw [hsel, reportBytes_of_bank]
        simp only [Bank.toBytes, withPrevIndex_reports, withPrevIndex_mgmt, hrec]
      · rw [hsel, reportBytes_of_bank]
        simp only [Bank.toBytes, withPrevIndex_reports, withPrevIndex_mgmt, hrec, BankRecord.fieldBytes, List.append_assoc]
      · rw [hsel, reportBytes_of_counters]
        rfl
      · rw [hsel, reportBytes_of_lastTx]
        simp only [LastTx.toBytes, withPrevIndex_reports, hlast]
      · rw [hsel, reportBytes_of_lastTx]
        simp only [LastTx.toBytes, withPrevIndex_reports, hlast]
    have hv := judgeReportRead_of_some (capacity := capacityOf m.size) hbytes
    rw [hbyte] at hv
    exact exec_read (op := .reportRead) rfl h (by simp) (Or.inl hd) (Or.inl rfl) hv
  case readBad =>
    have hbyte := m.arrived_paramByte h .reportRead 0
    exact exec_verdict (op := .reportRead) rfl h (by simp) (Or.inl hd) (Or.inl rfl)
      (judgeReportRead_of_none (reportBytes_of_above _ (by rw [hbyte]; exact hsel)))
  case clearBad =>
    have hbyte := m.arrived_paramByte h .reportClear 0
    have hv : judgeReportClear (m.arrived .reportClear) = { status := .badArg, param := [] } := by
      rw [judgeReportClear, hbyte, BankName.ofCode_of_above hsel]
    exact exec_verdict (op := .reportClear) rfl h (by simp) (Or.inl hd) (Or.inr ha) hv
  case clear =>
    have hbyte := m.arrived_paramByte h .reportClear 0
    have hv : judgeReportClear (m.arrived .reportClear)
        = { status := .ok, param := [byteAt m.param 0], act := clearBank name } := by
      rw [judgeReportClear, hbyte, hsel, BankName.ofCode_code]
    exact exec_verdict (op := .reportClear) rfl h (by simp) (Or.inl hd) (Or.inr ha) hv

end Sys2Proof.Machine
end

section
/-! PROOFS. The management operations on the schedule and on the windows (R35, R38, R42, R93, R94, R163). -/

namespace Sys2Proof.Machine

/-! ### Runs of bytes -/

theorem byteAt_modify (l : List Byte) (i : Nat) (f : Byte → Byte) (j : Nat) :
    byteAt (l.modify i f) j = if i = j ∧ j < l.length then f (byteAt l j) else byteAt l j := by
  simp only [byteAt, List.getD_eq_getElem?_getD, List.getElem?_modify]
  by_cases hj : i = j
  · by_cases hl : j < l.length
    · simp [hj, hl]
    · simp [hj, hl]
  · simp [hj]

theorem byteAt_drop (l : List Byte) (n i : Nat) : byteAt (l.drop n) i = byteAt l (n + i) := by
  simp [byteAt, List.getD_eq_getElem?_getD]

/-- The parameter bytes of a slot with one of them mapped. -/
theorem byteAt_mapParam {m : MgmtSlot} {s : State} (h : m.reaches s) (f : Byte → Byte) {i : Nat} (hi : i < 8) (j : Nat) :
    byteAt (m.mapParam i f).param j = if i = j then f (byteAt m.param j) else byteAt m.param j := by
  have hlen := (headerInRange_of_mgmtFits h.1).2.1
  show byteAt ((padTo 8 m.param).modify i f) j = _
  rw [padTo_self hlen, byteAt_modify, hlen]
  by_cases hj : i = j
  · rw [if_pos hj, if_pos ⟨hj, hj ▸ hi⟩]
  · rw [if_neg hj, if_neg fun hc => hj hc.1]

/-! ### SCHED-LOAD (R35) -/

/-- The entries of a run of bytes, one by one. -/
theorem schedEntries_eq_some_iff {n : Nat} {bytes : List Byte} {es : List SchedEntry} : schedEntries n bytes = some es
    ↔ es.length = n ∧ ∀ k, k < n → SchedEntry.ofBytes (byteAt bytes (2 * k)) (byteAt bytes (2 * k + 1)) = es[k]? := by
  induction n generalizing bytes es with
  | zero =>
    rw [schedEntries, Option.some.injEq, List.length_eq_zero_iff]
    exact ⟨fun h => ⟨h.symm, fun k hk => absurd hk (Nat.not_lt_zero k)⟩, fun h => h.1.symm⟩
  | succ n ih =>
    have hshift : ∀ k, SchedEntry.ofBytes (byteAt bytes (2 * (k + 1))) (byteAt bytes (2 * (k + 1) + 1))
        = SchedEntry.ofBytes (byteAt (bytes.drop 2) (2 * k)) (byteAt (bytes.drop 2) (2 * k + 1)) := fun k => by
      rw [byteAt_drop, byteAt_drop]
      congr 2 <;> omega
    rw [schedEntries]
    constructor
    · intro h
      split at h
      next e rest he hrest =>
        cases h
        obtain ⟨hlen, hall⟩ := ih.1 hrest
        refine ⟨congrArg (· + 1) hlen, fun k hk => ?_⟩
        cases k with
        | zero => exact he
        | succ k => rw [hshift, hall k (Nat.lt_of_succ_lt_succ hk), List.getElem?_cons_succ]
      next => cases h
    · rintro ⟨hlen, hall⟩
      cases es with
      | nil => cases hlen
      | cons e rest =>
        have hhead : SchedEntry.ofBytes (byteAt bytes 0) (byteAt bytes 1) = some e := hall 0 (Nat.succ_pos n)
        have hrest : schedEntries n (bytes.drop 2) = some rest := ih.2 ⟨Nat.succ.inj hlen, fun k hk => by
          rw [← hshift, hall (k + 1) (Nat.succ_lt_succ hk), List.getElem?_cons_succ]⟩
        simp only [hhead, hrest]

/-- One bad entry makes the run bad. -/
theorem schedEntries_of_bad {n k : Nat} {bytes : List Byte} (hk : k < n)
    (h : SchedEntry.ofBytes (byteAt bytes (2 * k)) (byteAt bytes (2 * k + 1)) = none) : schedEntries n bytes = none := by
  cases hes : schedEntries n bytes with
  | none => rfl
  | some es =>
    obtain ⟨hlen, hall⟩ := schedEntries_eq_some_iff.1 hes
    have hsome := hall k hk
    rw [h, List.getElem?_eq_getElem (hlen ▸ hk)] at hsome
    cases hsome

section
variable {r : MgmtRecord} {s : State}

theorem judgeSchedLoad_of_pending (h : s.sched.commit ≠ .none) :
    judgeSchedLoad r s = { status := .busy, param := [r.paramByte 0, r.paramByte 1] } := if_pos (decide_eq_true h)

variable (hc : s.sched.commit = .none)
include hc

theorem judgeSchedLoad_of_bad (h : ¬(scheduleRange (r.paramByte 0).toNat (r.paramByte 1).toNat = true
    ∧ r.argLen.toNat = 2 * (r.paramByte 1).toNat)) :
    judgeSchedLoad r s = { status := .badArg, param := [r.paramByte 0, r.paramByte 1] } := by
  refine (if_neg (by simp [CommitState.isPending, hc])).trans (if_pos ?_)
  rw [not_and_or] at h
  simpa using h

theorem judgeSchedLoad_of_good (hr : scheduleRange (r.paramByte 0).toNat (r.paramByte 1).toNat = true)
    (hl : r.argLen.toNat = 2 * (r.paramByte 1).toNat) : judgeSchedLoad r s
      = match schedEntries (r.paramByte 1).toNat r.args with
        | none => { status := .badArg, param := [r.paramByte 0, r.paramByte 1] }
        | some es => { status := .ok, param := [r.paramByte 0, r.paramByte 1]
                       act := fun t => t.withSched (t.sched.load (r.paramByte 0).toNat es) } := by
  refine (if_neg (by simp [CommitState.isPending, hc])).trans ((if_neg (by simp [hr, hl])).trans ?_)
  rfl

end

/-- Settles O27: SCHED-LOAD by the commit state, the ranges and the entries. -/
theorem schedLoadEditsTheShadow : Obligations.SchedLoadEditsTheShadow := by
  intro m s h ha hd first count args param out inRange
  let r := m.arrived .schedLoad
  let t := s.withPrevIndex (some m.index)
  have hbyte := m.arrived_paramByte h .schedLoad
  have hanswer : ∀ {v : Verdict}, judgeSchedLoad r t = v →
      exec (.schedLoad m) s = .next ((v.act (s.replied m .schedLoad v.status v.param v.args)).leaving out) :=
    fun hv => exec_verdict (op := .schedLoad) rfl h (by simp) (Or.inl hd) (Or.inr ha) hv
  have hrange : (scheduleRange (r.paramByte 0).toNat (r.paramByte 1).toNat = true
      ∧ r.argLen.toNat = 2 * (r.paramByte 1).toNat) ↔ inRange := by
    rw [scheduleRange_iff, hbyte, hbyte]
    simp only [inRange, and_assoc]
    rfl
  have hgood : s.sched.commit = .none → inRange → judgeSchedLoad r t
      = match schedEntries count args with
        | none => { status := .badArg, param := param }
        | some es => { status := .ok, param := param, act := fun t => t.withSched (t.sched.load first es) } := by
    intro hc hin
    obtain ⟨hr, hl⟩ := hrange.2 hin
    have hv := judgeSchedLoad_of_good (s := t) hc hr hl
    rw [hbyte, hbyte] at hv
    exact hv
  refine ⟨fun hc => ?busy, fun hc hn => ?outOfRange, fun k hc hin hk hbad => ?badEntry, fun es hc hin hlen hes => ?loaded⟩
  case busy =>
    have hv := judgeSchedLoad_of_pending (r := r) (s := t) hc
    rw [hbyte, hbyte] at hv
    exact hanswer hv
  case outOfRange =>
    have hv := judgeSchedLoad_of_bad (r := r) (s := t) hc fun hin => hn (hrange.1 hin)
    rw [hbyte, hbyte] at hv
    exact hanswer hv
  case badEntry =>
    have hv := hgood hc hin
    rw [schedEntries_of_bad hk hbad] at hv
    exact hanswer hv
  case loaded =>
    have hv := hgood hc hin
    rw [schedEntries_eq_some_iff.2 ⟨hlen, hes⟩] at hv
    rw [hanswer hv, ← hlen]
    rfl

/-! ### SCHED-COMMIT and SCHED-CANCEL (R38, R42) -/

theorem judgeSchedCommit_of_asked {r : MgmtRecord} {s : State} {c : CommitState} (h : r.commitAsked = some c) :
    judgeSchedCommit r s
      = { status := .ok, param := c.toBytes, act := fun t => t.withSched { t.sched with commit := c } } := by
  simp only [judgeSchedCommit, h]

theorem commitAsked_next {r : MgmtRecord} (h : r.paramByte 0 = 1) : r.commitAsked = some .pendingNext := if_pos h

theorem commitAsked_at {r : MgmtRecord} (h : r.paramByte 0 = 2) :
    r.commitAsked = some (.pendingAt (r.paramByte 1 ++ r.paramByte 2)) :=
  (if_neg (by rw [h]; decide)).trans (if_pos h)

theorem commitAsked_of_neither {r : MgmtRecord} (h1 : r.paramByte 0 ≠ 1) (h2 : r.paramByte 0 ≠ 2) :
    r.commitAsked = none := (if_neg h1).trans (if_neg h2)

/-- Settles O29: the two selectors, and any other. -/
theorem schedCommitArmsASwap : Obligations.SchedCommitArmsASwap := by
  refine fun m s h ha => ⟨?next, ?at_, fun h1 h2 => ?neither⟩
  case next =>
    have hbyte := (m.mapParam 0 (fun _ => 1)).arrived_paramByte (m.reaches_mapParam 0 _ h) .schedCommit
    have hasked : ((m.mapParam 0 (fun _ => 1)).arrived .schedCommit).commitAsked = some .pendingNext :=
      commitAsked_next ((hbyte 0).trans ((byteAt_mapParam h _ (by decide) 0).trans (if_pos rfl)))
    exact exec_verdict (c := .schedCommitNext m) rfl (m.reaches_mapParam 0 _ h) (by simp) (Or.inr rfl) (Or.inr ha)
      (judgeSchedCommit_of_asked hasked)
  case at_ =>
    have hbyte := (m.mapParam 0 (fun _ => 2)).arrived_paramByte (m.reaches_mapParam 0 _ h) .schedCommit
    have hasked := commitAsked_at ((hbyte 0).trans ((byteAt_mapParam h _ (by decide) 0).trans (if_pos rfl)))
    rw [hbyte 1, hbyte 2, byteAt_mapParam h _ (by decide), byteAt_mapParam h _ (by decide), if_neg (by decide),
      if_neg (by decide)] at hasked
    exact exec_verdict (c := .schedCommitAt m) rfl (m.reaches_mapParam 0 _ h) (by simp) (Or.inr rfl) (Or.inr ha)
      (judgeSchedCommit_of_asked hasked)
  case neither =>
    have hbyte := m.arrived_paramByte h .schedCommit 0
    have hnone := commitAsked_of_neither (hbyte ▸ h1) (hbyte ▸ h2)
    have hv : judgeSchedCommit (m.arrived .schedCommit) (s.withPrevIndex (some m.index))
        = { status := .badArg, param := s.sched.commit.toBytes } := by
      simp only [judgeSchedCommit, hnone]
      rfl
    exact (m.reaches_executes .schedCommit h).1.trans
      (m.reaches_verdict (op := .schedCommit) h (by simp) (Or.inr rfl) (Or.inr ha) hv)

/-- Settles O30: SCHED-CANCEL with a commit pending and with none, and from any source but the manager. -/
theorem schedCancelForgetsTheCommit : Obligations.SchedCancelForgetsTheCommit := by
  intro m s h hd out
  refine ⟨fun ha => ⟨fun hc => ?_, fun hc => ?_⟩, fun h0 hm => ?_⟩
  · have hv : judgeSchedCancel (s.withPrevIndex (some m.index)) = _ := if_pos (decide_eq_true hc)
    exact exec_verdict (op := .schedCancel) rfl h (by simp) (Or.inl hd) (Or.inr ha) hv
  · have hv : judgeSchedCancel (s.withPrevIndex (some m.index)) = _ := if_neg (by simp [CommitState.isPending, hc])
    exact exec_verdict (op := .schedCancel) rfl h (by simp) (Or.inl hd) (Or.inr ha) hv
  · obtain ⟨_, _, hdenied⟩ := authorityIsJudgedFirst (.schedCancel m) m .schedCancel s rfl h
    exact hdenied h0 hm (by simp) (Or.inl hd)

/-! ### WINDOW-LOAD (R93, R94) -/

theorem holds_iff (w : Window) (a : Nat) : w.holds a = true ↔ w.valid = true ∧ w.base.toNat ≤ a ∧ a < w.limit := by
  simp [Window.holds, and_assoc]

theorem base_lt_limit {w : Window} (h : w.size ≠ 0) : w.base.toNat < w.limit := by
  have hsize : w.size.toNat ≠ 0 := fun h0 => h (BitVec.eq_of_toNat_eq h0)
  unfold Window.limit
  omega

/-- Where every valid window has a range (R91), the clash of step 5 is an address in common. -/
theorem windowClash_eq_true_iff {s : State} {i : Nat} {w : Window} (hlaw : s.windowLaw) (hw : w.size ≠ 0) :
    s.windowClash i w = true ↔ ∃ j a, j ≠ i ∧ (s.window j).holds a = true ∧ w.base.toNat ≤ a ∧ a < w.limit := by
  have hbase := base_lt_limit hw
  simp only [State.windowClash, Window.overlaps, List.any_eq_true, List.mem_range, Bool.and_eq_true, decide_eq_true_eq]
  constructor
  · rintro ⟨j, _, ⟨hne, hvalid⟩, hlow, hhigh⟩
    obtain ⟨_, hsize, _⟩ := hlaw.2.1 j hvalid
    have hown := base_lt_limit hsize
    exact ⟨j, max (s.window j).base.toNat w.base.toNat, hne,
      (holds_iff _ _).2 ⟨hvalid, Nat.le_max_left _ _, Nat.max_lt.2 ⟨hown, hhigh⟩⟩, Nat.le_max_right _ _,
      Nat.max_lt.2 ⟨hlow, hbase⟩⟩
  · rintro ⟨j, a, hne, hholds, hlow, hhigh⟩
    obtain ⟨hvalid, hjlow, hjhigh⟩ := (holds_iff _ _).1 hholds
    have hj : j < s.windows.length := by
      by_contra hj
      rw [window_ge (Nat.not_lt.1 hj)] at hvalid
      cases hvalid
    exact ⟨j, hj, ⟨hne, hvalid⟩, Nat.lt_of_le_of_lt hjlow hhigh, Nat.lt_of_le_of_lt hlow hjhigh⟩

theorem widthOfByte_eq {b : Byte} {width : Option Width}
    (h : b = 1 ∧ width = some .w1 ∨ b = 2 ∧ width = some .w2 ∨ b = 4 ∧ width = some .w4
      ∨ b ≠ 1 ∧ b ≠ 2 ∧ b ≠ 4 ∧ width = none) : Width.ofByte b = width := by
  rcases h with ⟨rfl, rfl⟩ | ⟨rfl, rfl⟩ | ⟨rfl, rfl⟩ | ⟨h1, h2, h4, rfl⟩
  · rfl
  · rfl
  · rfl
  · rw [Width.ofByte, if_neg h1, if_neg h2, if_neg h4]

/-- The fields of a window record other than the width, in range (R93, step 4). -/
def windowFieldsGood (r : List Byte) : Prop :=
  byteAt r 1 &&& 0x70 = 0 ∧ byteAt r 2 &&& 0xE0 = 0 ∧ (wordAt r 4).toNat % 256 = 0 ∧ halfAt r 8 ≠ 0
    ∧ (wordAt r 4).toNat + 256 * (halfAt r 8).toNat ≤ 2 ^ 32 ∧ byteAt r 10 ≠ 0 ∧ (byteAt r 11).toNat ≤ 62

/-- The window that a good record describes. -/
def recordedWindow (r : List Byte) (width : Width) : Window :=
  { valid := true, base := wordAt r 4, size := halfAt r 8, width := width, attrs := Attrs.ofCode (byteAt r 2),
    budget := byteAt r 10, owner := if byteAt r 11 = 0 then none else some (byteAt r 11), inUse := 0 }

section
variable {r : List Byte}

theorem windowOfBytes_of_good {width : Width} (hw : Width.ofByte (byteAt r 3) = some width) (h : windowFieldsGood r) :
    Window.ofBytes r = some (recordedWindow r width) := by
  obtain ⟨h1, h2, hbase, hsize, hlimit, hbudget, howner⟩ := h
  simp only [Window.ofBytes, hw]
  refine if_neg ?_
  rintro (h | h | h | h | h | h | h)
  · exact h h1
  · exact h h2
  · exact h hbase
  · exact hsize h
  · exact absurd hlimit (Nat.not_le.2 h)
  · exact hbudget h
  · exact absurd howner (Nat.not_le.2 h)

theorem windowOfBytes_of_no_width (hw : Width.ofByte (byteAt r 3) = none) : Window.ofBytes r = none := by
  simp only [Window.ofBytes, hw]

theorem windowOfBytes_of_bad {width : Width} (hw : Width.ofByte (byteAt r 3) = some width) (h : ¬windowFieldsGood r) :
    Window.ofBytes r = none := by
  simp only [Window.ofBytes, hw]
  refine if_pos ?_
  by_contra hn
  simp only [not_or, not_not, Nat.not_lt, gt_iff_lt] at hn
  exact h hn

end

section
variable {r : MgmtRecord} {s : State}

theorem judgeWindowLoad_of_bad (h : r.argLen.toNat ≠ 12 ∨ 15 < (byteAt r.args 0).toNat) :
    judgeWindowLoad r s = { status := .badArg, param := [byteAt r.args 0] } := if_pos h

variable (hgood : ¬(r.argLen.toNat ≠ 12 ∨ 15 < (byteAt r.args 0).toNat))
include hgood

theorem judgeWindowLoad_of_inUse (h : 0 < (s.window (byteAt r.args 0).toNat).inUse) :
    judgeWindowLoad r s = { status := .busy, param := [byteAt r.args 0] } := (if_neg hgood).trans (if_pos h)

variable (huse : (s.window (byteAt r.args 0).toNat).inUse = 0)
include huse

theorem judgeWindowLoad_of_invalid (h : (byteAt r.args 1).getLsbD 7 = false) : judgeWindowLoad r s
    = { status := .ok, param := [byteAt r.args 0]
        act := fun t => t.modWindow (byteAt r.args 0).toNat (fun w => { w with valid := false }) } :=
  (if_neg hgood).trans ((if_neg (by omega)).trans (if_pos (by rw [h]; rfl)))

variable (hvalid : (byteAt r.args 1).getLsbD 7 = true)
include hvalid

theorem judgeWindowLoad_of_no_window (h : Window.ofBytes r.args = none) :
    judgeWindowLoad r s = { status := .badArg, param := [byteAt r.args 0] } := by
  refine (if_neg hgood).trans ((if_neg (by omega)).trans ((if_neg (by simp [hvalid])).trans ?_))
  simp only [h]

theorem judgeWindowLoad_of_window {w : Window} (h : Window.ofBytes r.args = some w) : judgeWindowLoad r s
    = if s.windowClash (byteAt r.args 0).toNat w then { status := .badArg, param := [byteAt r.args 0] }
      else { status := .ok, param := [byteAt r.args 0]
             act := fun t => t.modWindow (byteAt r.args 0).toNat (fun old => { w with inUse := old.inUse }) } := by
  refine (if_neg hgood).trans ((if_neg (by omega)).trans ((if_neg (by simp [hvalid])).trans ?_))
  simp only [h]

end

/-- Settles O31: the judgement of R93 step by step. -/
theorem windowLoadIsJudgedInOrder : Obligations.WindowLoadIsJudgedInOrder := by
  intro c m s hc h ha hd hlaw r i param out base size ok
  let t := s.withPrevIndex (some m.index)
  have hanswer : ∀ {v : Verdict}, judgeWindowLoad (m.arrived .windowLoad) t = v →
      exec c s = .next ((v.act (s.replied m .windowLoad v.status v.param v.args)).leaving out) :=
    fun hv => exec_verdict (op := .windowLoad) hc h (by simp) (Or.inl hd) (Or.inr ha) hv
  have hform : m.argLen = 12 → i ≤ 15 → ¬((m.arrived .windowLoad).argLen.toNat ≠ 12
      ∨ 15 < (byteAt (m.arrived .windowLoad).args 0).toNat) := by
    rintro hlen hi (hne | hlt)
    · exact hne (congrArg BitVec.toNat hlen)
    · exact absurd hi (Nat.not_le.2 hlt)
  refine ⟨fun hbad => ?badForm, fun hlen hi huse => ?inUse, fun hlen hi huse hbit => ?invalid, fun width hwidth =>
    ⟨fun hlen hi huse hbit hn => ?badRecord, fun w hlen hi huse hbit hgood hw => ?loaded⟩⟩
  case badForm =>
    refine hanswer (judgeWindowLoad_of_bad (hbad.imp_left fun hne heq => hne ?_))
    exact BitVec.eq_of_toNat_eq heq
  case inUse => exact hanswer (judgeWindowLoad_of_inUse (hform hlen hi) huse)
  case invalid =>
    rw [hanswer (judgeWindowLoad_of_invalid (hform hlen hi) huse hbit)]
    exact congrArg (fun ws => Host.Outcome.next (State.leaving { ok with windows := ws } out))
      (modify_eq_set s.windows i _ Window.initial)
  case badRecord =>
    have hbyte := widthOfByte_eq hwidth
    cases width with
    | none => exact hanswer (judgeWindowLoad_of_no_window (hform hlen hi) huse hbit (windowOfBytes_of_no_width hbyte))
    | some w =>
      by_cases hfields : windowFieldsGood r
      · have hclash : t.windowClash i (recordedWindow r w) = true := by
          obtain ⟨h1, h2, hb, hs, hl, hbu, ho⟩ := hfields
          refine (windowClash_eq_true_iff (s := t) hlaw hs).2 ?_
          by_contra hno
          refine hn ⟨by simp, h1, h2, hb, hs, hl, hbu, ho, fun j a hj hholds => ?_⟩
          by_contra hin
          simp only [not_or, Nat.not_lt, Nat.not_le] at hin
          exact hno ⟨j, a, hj, hholds, hin⟩
        exact hanswer ((judgeWindowLoad_of_window (hform hlen hi) huse hbit (windowOfBytes_of_good hbyte hfields)).trans
          (if_pos hclash))
      · exact hanswer (judgeWindowLoad_of_no_window (hform hlen hi) huse hbit (windowOfBytes_of_bad hbyte hfields))
  case loaded =>
    have hbyte := (widthOfByte_eq hwidth).trans hw
    obtain ⟨_, h1, h2, hb, hs, hl, hbu, ho, hfree⟩ := hgood
    have hclash : ¬t.windowClash i (recordedWindow r w) = true := fun hclash => by
      obtain ⟨j, a, hj, hholds, hlow, hhigh⟩ := (windowClash_eq_true_iff (s := t) hlaw hs).1 hclash
      rcases hfree j a hj hholds with hout | hout
      · exact absurd hlow (Nat.not_le.2 hout)
      · exact absurd hout (Nat.not_le.2 hhigh)
    rw [hanswer ((judgeWindowLoad_of_window (hform hlen hi) huse hbit
      (windowOfBytes_of_good hbyte ⟨h1, h2, hb, hs, hl, hbu, ho⟩)).trans (if_neg hclash))]
    have hset : s.windows.modify i (fun old => { recordedWindow r w with inUse := old.inUse })
        = s.windows.set i (recordedWindow r w) := by
      have huse' : (s.windows.getD i Window.initial).inUse = 0 := huse
      rw [modify_eq_set s.windows i _ Window.initial, huse']
      rfl
    exact congrArg (fun ws => Host.Outcome.next (State.leaving { ok with windows := ws } out)) hset

end Sys2Proof.Machine
end

section
/-! PROOFS. CONFIGURE (spec/08, R162; R18, R19, R126). -/

namespace Sys2Proof.Machine

/-! ### The codes of the fields -/

theorem prescalerOfCode_code (p : Prescaler) : Prescaler.ofCode p.code = some p := by cases p <;> rfl

theorem prescalerOfCode_eq_some_le {c : Byte} {p : Prescaler} (h : Prescaler.ofCode c = some p) : c.toNat ≤ 3 := by
  by_contra hc
  have hne : ∀ k : Byte, k.toNat ≤ 3 → c ≠ k := fun k hk he => hc (he ▸ hk)
  rw [Prescaler.ofCode, if_neg (hne 0 (by decide)), if_neg (hne 1 (by decide)), if_neg (hne 2 (by decide)),
    if_neg (hne 3 (by decide))] at h
  cases h

theorem enablesCode_toNat (e : Enables) : e.code.toNat
    = (if e.ring then 1 else 0) + (if e.slot then 2 else 0) + (if e.bus then 4 else 0) + (if e.mgmt then 8 else 0) := by
  obtain ⟨ring, slot, bus, mgmt⟩ := e
  revert ring slot bus mgmt
  decide

theorem enablesOfCode_code (e : Enables) : Enables.ofCode e.code = some e := by
  obtain ⟨ring, slot, bus, mgmt⟩ := e
  revert ring slot bus mgmt
  decide

theorem enablesOfCode_eq_some_lt {c : Byte} {e : Enables} (h : Enables.ofCode c = some e) : c.toNat < 16 := by
  by_contra hc
  rw [Enables.ofCode, if_neg hc] at h
  cases h

theorem cycleCount_eq_some_range {b : Byte} {n : Nat} (h : cycleCount b = some n) : 1 ≤ b.toNat ∧ b.toNat ≤ 15 := by
  by_contra hc
  rw [cycleCount, if_neg hc] at h
  cases h

/-! ### The selection of the fields -/

section
variable {α : Type} {mask : Byte} {bit : Nat} {old x : α} {read : Option α}

theorem selected_of_bit (h : mask.getLsbD bit = true) : selected mask bit old read = read := if_pos h

/-- A field kept where its bit is clear, and of its code where it is set. -/
theorem selected_of_code {code : α → Byte} {ofCode : Byte → Option α} (hcode : ∀ a, ofCode (code a) = some a) {c : Byte}
    (h : if mask.getLsbD bit then code x = c else x = old) : selected mask bit old (ofCode c) = some x := by
  unfold selected
  by_cases hb : mask.getLsbD bit = true
  · rw [if_pos hb] at h ⊢
    rw [← h, hcode]
  · rw [if_neg hb] at h ⊢
    rw [h]

end

theorem selected_cycleCount {mask : Byte} {bit old x : Nat} {b : Byte}
    (hr : mask.getLsbD bit = true → 1 ≤ b.toNat ∧ b.toNat ≤ 15) (h : x = if mask.getLsbD bit then b.toNat else old) :
    selected mask bit old (cycleCount b) = some x := by
  unfold selected
  by_cases hb : mask.getLsbD bit = true
  · rw [if_pos hb] at h ⊢
    rw [cycleCount, if_pos (hr hb), h]
  · rw [if_neg hb] at h ⊢
    rw [h]

/-- The ranges of R162 for the fields that the mask selects. -/
def configureRange (mask : Byte) (args : List Byte) : Prop :=
  (mask.getLsbD 0 = true → (byteAt args 0).toNat ≤ 3)
  ∧ (mask.getLsbD 3 = true → 1 ≤ (byteAt args 7).toNat ∧ (byteAt args 7).toNat ≤ 15)
  ∧ (mask.getLsbD 4 = true → 1 ≤ (byteAt args 8).toNat ∧ (byteAt args 8).toNat ≤ 15)
  ∧ (mask.getLsbD 5 = true → (byteAt args 9).toNat < 16) ∧ (mask.getLsbD 6 = true → (byteAt args 10).toNat < 16)

theorem configured_range {p q : Params} {mask : Byte} {args : List Byte} (h : p.configured mask args = some q) :
    configureRange mask args := by
  unfold Params.configured at h
  split at h
  next hprescaler hgap hdeadline hbank hnotice =>
    refine ⟨fun hb => ?_, fun hb => ?_, fun hb => ?_, fun hb => ?_, fun hb => ?_⟩
    · exact prescalerOfCode_eq_some_le ((selected_of_bit hb).symm.trans hprescaler)
    · exact cycleCount_eq_some_range ((selected_of_bit hb).symm.trans hgap)
    · exact cycleCount_eq_some_range ((selected_of_bit hb).symm.trans hdeadline)
    · exact enablesOfCode_eq_some_lt ((selected_of_bit hb).symm.trans hbank)
    · exact enablesOfCode_eq_some_lt ((selected_of_bit hb).symm.trans hnotice)
  next => cases h

theorem configured_of_out_of_range {p : Params} {mask : Byte} {args : List Byte} (h : ¬configureRange mask args) :
    p.configured mask args = none := by
  cases hq : p.configured mask args with
  | none => rfl
  | some q => exact absurd (configured_range hq) h

/-- The configuration with its selected fields taken from the record. -/
theorem configured_of_fields {p q : Params} {mask : Byte} {args : List Byte}
    (hprescaler : selected mask 0 p.prescaler (Prescaler.ofCode (byteAt args 0)) = some q.prescaler)
    (hcycle : q.cycleLimit = if mask.getLsbD 1 then tripleAt args 1 else p.cycleLimit)
    (hhold : q.holdLimit = if mask.getLsbD 2 then tripleAt args 4 else p.holdLimit)
    (hgap : selected mask 3 p.gapLimit (cycleCount (byteAt args 7)) = some q.gapLimit)
    (hdeadline : selected mask 4 p.deadline (cycleCount (byteAt args 8)) = some q.deadline)
    (hbank : selected mask 5 p.bankEnables (Enables.ofCode (byteAt args 9)) = some q.bankEnables)
    (hnotice : selected mask 6 p.noticeEnables (Enables.ofCode (byteAt args 10)) = some q.noticeEnables) :
    p.configured mask args = some q := by
  simp only [Params.configured, hprescaler, hgap, hdeadline, hbank, hnotice, ← hcycle, ← hhold]

/-! ### The judgement -/

section
variable {r : MgmtRecord} {s : State}

theorem judgeConfigure_of_length (h : r.argLen.toNat ≠ 11) :
    judgeConfigure r s = { status := .badArg, param := [r.paramByte 0] } := if_pos h

variable (hl : r.argLen.toNat = 11)
include hl

theorem judgeConfigure_of_reserved (h : (r.paramByte 0).getLsbD 7 = true) :
    judgeConfigure r s = { status := .badArg, param := [r.paramByte 0], args := s.mgmt.params.toBytes } :=
  (if_neg (not_not.2 hl)).trans (if_pos h)

theorem judgeConfigure_of_none (h : s.mgmt.params.configured (r.paramByte 0) r.args = none) :
    judgeConfigure r s = { status := .badArg, param := [r.paramByte 0], args := s.mgmt.params.toBytes } := by
  refine (if_neg (not_not.2 hl)).trans ?_
  simp only [h, ite_self]

theorem judgeConfigure_of_some (h7 : (r.paramByte 0).getLsbD 7 = false) {p : Params}
    (h : s.mgmt.params.configured (r.paramByte 0) r.args = some p) :
    judgeConfigure r s = { status := .ok, param := [r.paramByte 0], args := p.toBytes, act := configure p } := by
  refine (if_neg (not_not.2 hl)).trans ((if_neg (by rw [h7]; exact Bool.false_ne_true)).trans ?_)
  simp only [h]

end

/-! ### The configuration in force -/

/-- The configuration that stands changes nothing, and no limit is judged. -/
theorem configure_of_same {p : Params} {s : State} (h : p = s.mgmt.params) : configure p s = setParams p s := by
  rw [configure, if_pos h, setParams, if_pos (congrArg Params.prescaler h), h]
  rfl

theorem configure_of_changed {p : Params} {s : State} (h : p ≠ s.mgmt.params) :
    configure p s = expireLimits (setParams p s) := if_neg h

/-- Nothing has run out under the new configuration. -/
theorem configure_of_none {p : Params} {s : State} (hc : (setParams p s).cycleLimitExpired = false)
    (hh : (setParams p s).holdLimitExceeded = false) : configure p s = setParams p s := by
  by_cases hp : p = s.mgmt.params
  · exact configure_of_same hp
  · rw [configure_of_changed hp, expireLimits_of_none hc hh]

/-- Settles O26: the three answers of CONFIGURE, and the limits judged under the new configuration. -/
theorem configureSetsTheSelectedParameters : Obligations.ConfigureSetsTheSelectedParameters := by
  refine ⟨⟨rfl, enablesCode_toNat, fun p => rfl⟩, ?_⟩
  intro m s h ha hd mask args old out inRange
  let r := m.arrived .configure
  let t := s.withPrevIndex (some m.index)
  have hbyte : r.paramByte 0 = mask := m.arrived_paramByte h .configure 0
  have hanswer : ∀ {v : Verdict}, judgeConfigure r t = v →
      exec (.configure m) s = .next ((v.act (s.replied m .configure v.status v.param v.args)).leaving out) :=
    fun hv => exec_verdict (op := .configure) rfl h (by simp) (Or.inl hd) (Or.inr ha) hv
  have hlength : m.argLen = 11 → r.argLen.toNat = 11 := fun hl => congrArg BitVec.toNat hl
  refine ⟨fun hl => ?length, fun hl hbad => ?bad, ?configured⟩
  case length =>
    have hv := judgeConfigure_of_length (r := r) (s := t) fun heq => hl (BitVec.eq_of_toNat_eq heq)
    rw [hbyte] at hv
    exact hanswer hv
  case bad =>
    have hv : judgeConfigure r t = { status := .badArg, param := [r.paramByte 0], args := t.mgmt.params.toBytes } := by
      rcases hbad with h7 | hrange
      · exact judgeConfigure_of_reserved (hlength hl) (hbyte ▸ h7)
      · refine judgeConfigure_of_none (hlength hl) (configured_of_out_of_range ?_)
        rw [hbyte]
        exact hrange
    rw [hbyte] at hv
    exact hanswer hv
  case configured =>
    intro p hl h7 hrange hprescaler hcycle hhold hgap hdeadline hbank hnotice ok v u
    obtain ⟨_, hrange3, hrange4, _⟩ := hrange
    have hp : t.mgmt.params.configured (r.paramByte 0) r.args = some p := by
      rw [hbyte]
      exact configured_of_fields (selected_of_code prescalerOfCode_code hprescaler) hcycle hhold
        (selected_cycleCount hrange3 hgap) (selected_cycleCount hrange4 hdeadline)
        (selected_of_code enablesOfCode_code hbank) (selected_of_code enablesOfCode_code hnotice)
    have hexec : exec (.configure m) s = .next ((configure p ok).leaving out) := by
      have hv := judgeConfigure_of_some (hlength hl) (hbyte ▸ h7) hp
      rw [hbyte] at hv
      exact hanswer hv
    have hexec : ∀ {w : State}, configure p ok = w → exec (.configure m) s = .next (w.leaving out) := fun hw => hw ▸ hexec
    have hchanged : p ≠ old → configure p ok = expireLimits u := fun hne => configure_of_changed (s := ok) hne
    refine ⟨fun hc hh => ?_, fun hne hc hh => ?_, fun hne hc hh => ?_⟩
    · exact hexec (configure_of_none (s := ok) hc hh)
    · refine hexec ((hchanged hne).trans ((expireLimits_of_no_hold hh).trans ?_))
      rw [hc]
      rfl
    · refine hexec ((hchanged hne).trans ((expireLimits_of_no_cycle hc).trans ?_))
      rw [hh]
      rfl

end Sys2Proof.Machine
end

section
/-! PROOFS. START, and STOP without the flush option (R165, R188, R189, R191). -/

namespace Sys2Proof.Machine

/-! ### The options of STOP -/

theorem andFE_above {b : Byte} (h : 1 < b.toNat) : 1 < (b &&& 0xFE).toNat := by
  revert b
  decide

theorem andFE_of_le {b : Byte} (h : b.toNat ≤ 1) : b &&& 0xFE = 0 := by
  rcases byte_eq_of_toNat_le_one h with rfl | rfl
  · rfl
  · rfl

/-! ### The judgement of STOP -/

section
variable {r : MgmtRecord} {s : State}

theorem judgeStop_of_options (h : 1 < (r.paramByte 0).toNat) :
    judgeStop r s = { status := .badArg, param := [s.bridge.state.code] } := if_pos h

theorem judgeStop_of_stopped (h : (r.paramByte 0).toNat ≤ 1) (hs : s.bridge.state = .stopped) :
    judgeStop r s = { status := .state, param := [0] } :=
  (if_neg (Nat.not_lt.2 h)).trans ((if_pos hs).trans (by rw [hs]; rfl))

theorem judgeStop_of_plain (h : r.paramByte 0 = 0) (hs : s.bridge.state ≠ .stopped) :
    judgeStop r s = { status := .ok, param := [(stopBridge s).bridge.state.code], act := stopBridge } := by
  refine (if_neg (by rw [h]; decide)).trans ((if_neg hs).trans ?_)
  rw [h]
  rfl

end

/-! ### The drain -/

/-- All entries FREE and no descriptor pending. -/
def State.closed (s : State) : Prop := (∀ e ∈ s.table.entries, e.state = .free) ∧ ∀ d ∈ s.descriptors, d = none

section
variable {s : State}

theorem stopBridge_of_running_closed (hr : s.bridge.state = .running) (hc : s.closed) :
    stopBridge s = s.withBridge { s.bridge with state := .stopped, flush := false } := by
  rw [stopBridge, if_pos hr]
  exact judgeDrain_of_drained (s := s.withBridge { s.bridge with state := .draining, flush := false }) rfl
    ⟨hc.1, Or.inr hc.2⟩

theorem stopBridge_of_running_open (hr : s.bridge.state = .running) (hc : ¬s.closed) :
    stopBridge s = s.withBridge { s.bridge with state := .draining, flush := false } := by
  rw [stopBridge, if_pos hr]
  refine judgeDrain_of_not_drained (Or.inr ?_)
  rintro ⟨hfree, hflush | hnone⟩
  · cases hflush
  · exact hc ⟨hfree, hnone⟩

theorem stopBridge_of_draining (hd : s.bridge.state = .draining) : stopBridge s = judgeDrain s := by
  rw [stopBridge, if_neg (by rw [hd]; decide)]

theorem stopBridge_of_draining_drained (hd : s.bridge.state = .draining)
    (h : (∀ e ∈ s.table.entries, e.state = .free) ∧ (s.bridge.flush = true ∨ ∀ d ∈ s.descriptors, d = none)) :
    stopBridge s = s.withBridge { s.bridge with state := .stopped, flush := false } :=
  (stopBridge_of_draining hd).trans (judgeDrain_of_drained hd h)

theorem stopBridge_of_draining_open (hd : s.bridge.state = .draining)
    (h : ¬((∀ e ∈ s.table.entries, e.state = .free) ∧ (s.bridge.flush = true ∨ ∀ d ∈ s.descriptors, d = none))) :
    stopBridge s = s :=
  (stopBridge_of_draining hd).trans (judgeDrain_of_not_drained (Or.inr h))

end

/-- A STOP whose drain comes to the bridge `b`, at its judgement and at the answer alike. -/
theorem exec_stop_drain {m : MgmtSlot} {s : State} (h : m.reaches s) (ha : m.authorised s) (hle : (byteAt m.param 0).toNat ≤ 1)
    (hs : s.bridge.state ≠ .stopped) {b : Bridge}
    (hb : ∀ t : State, t.bridge = s.bridge → t.table = s.table → t.descriptors = s.descriptors → stopBridge t = t.withBridge b) :
    exec (.stop m) s = .next (State.leaving
      { s.replied (m.mapParam 0 (fun b => b &&& 0xFE)) .stop .ok [b.state.code] [] with bridge := b }
      ((m.mapParam 0 (fun b => b &&& 0xFE)).leavesAs .stop s)) := by
  let stop := m.mapParam 0 (fun b => b &&& 0xFE)
  have hreaches : stop.reaches s := m.reaches_mapParam 0 _ h
  have hzero : (stop.arrived .stop).paramByte 0 = 0 :=
    (stop.arrived_paramByte hreaches .stop 0).trans
      ((byteAt_mapParam h _ (by decide) 0).trans ((if_pos rfl).trans (andFE_of_le hle)))
  have hv := judgeStop_of_plain (s := s.withPrevIndex (some stop.index)) hzero hs
  rw [hb (s.withPrevIndex (some stop.index)) rfl rfl rfl] at hv
  refine (exec_verdict (c := .stop m) (op := .stop) rfl hreaches (by simp) (Or.inr rfl) (Or.inr ha) hv).trans ?_
  exact congrArg (fun t : State => Host.Outcome.next (t.leaving (stop.leavesAs .stop s)))
    (hb (s.replied stop .stop .ok [b.state.code] []) rfl rfl rfl)

/-- Settles O32: START by the bridge state; STOP by its options, the bridge state and what is open. -/
theorem startAndStopMoveTheBridge : Obligations.StartAndStopMoveTheBridge := by
  refine fun m s h ha => ⟨fun hr => ?startRunning, fun hr => ?start, ?stop⟩
  case startRunning =>
    have hv : judgeStart (s.withPrevIndex (some m.index)) = { status := .state, param := [1] } :=
      (if_pos hr).trans (by rw [show (s.withPrevIndex (some m.index)).bridge.state = .running from hr]; rfl)
    exact exec_verdict (op := .start) rfl h (by simp) (Or.inr rfl) (Or.inr ha) hv
  case start =>
    have hv : judgeStart (s.withPrevIndex (some m.index)) = { status := .ok, param := [1], act := startBridge } := if_neg hr
    exact exec_verdict (op := .start) rfl h (by simp) (Or.inr rfl) (Or.inr ha) hv
  case stop =>
    intro stop out closed
    have hreaches : stop.reaches s := m.reaches_mapParam 0 _ h
    have hbyte : (stop.arrived .stop).paramByte 0 = byteAt m.param 0 &&& 0xFE :=
      (stop.arrived_paramByte hreaches .stop 0).trans ((byteAt_mapParam h _ (by decide) 0).trans (if_pos rfl))
    refine ⟨fun hopt => ?_, fun hle => ⟨fun hs => ?_, fun hr hc => ?_, fun hr hc => ?_, fun hd he => ?_, fun hd hf hp => ?_,
      fun hd hfree hnone => ?_⟩⟩
    · have hv := judgeStop_of_options (r := stop.arrived .stop) (s := s.withPrevIndex (some m.index))
        (hbyte ▸ andFE_above hopt)
      exact exec_verdict (c := .stop m) rfl hreaches (by simp) (Or.inr rfl) (Or.inr ha) hv
    · have hv := judgeStop_of_stopped (r := stop.arrived .stop) (s := s.withPrevIndex (some m.index))
        (by rw [hbyte, andFE_of_le hle]; decide) hs
      exact exec_verdict (c := .stop m) rfl hreaches (by simp) (Or.inr rfl) (Or.inr ha) hv
    · refine exec_stop_drain (b := { s.bridge with state := .stopped, flush := false }) h ha hle (by rw [hr]; decide)
        fun t hb ht hdesc => ?_
      rw [← hb] at hr ⊢
      exact stopBridge_of_running_closed hr (by rw [State.closed, ht, hdesc]; exact hc)
    · refine exec_stop_drain (b := { s.bridge with state := .draining, flush := false }) h ha hle (by rw [hr]; decide)
        fun t hb ht hdesc => ?_
      rw [← hb] at hr ⊢
      exact stopBridge_of_running_open hr (by rw [State.closed, ht, hdesc]; exact hc)
    · have hkeep := exec_stop_drain (b := s.bridge) h ha hle (by rw [hd]; decide) fun t hb ht hdesc => by
        rw [← hb] at hd ⊢
        refine stopBridge_of_draining_open hd fun hall => ?_
        obtain ⟨e, hmem, hne⟩ := he
        exact hne (hall.1 e (ht ▸ hmem))
      rw [hd] at hkeep
      exact hkeep
    · have hkeep := exec_stop_drain (b := s.bridge) h ha hle (by rw [hd]; decide) fun t hb ht hdesc => by
        rw [← hb] at hd hf ⊢
        refine stopBridge_of_draining_open hd fun hall => ?_
        obtain ⟨d, hmem, hne⟩ := hp
        rcases hall.2 with hflush | hnone
        · rw [hf] at hflush
          cases hflush
        · exact hne (hnone d (hdesc ▸ hmem))
      rw [hd] at hkeep
      exact hkeep
    · refine exec_stop_drain (b := { s.bridge with state := .stopped, flush := false }) h ha hle (by rw [hd]; decide)
        fun t hb ht hdesc => ?_
      rw [← hb] at hd hnone ⊢
      exact stopBridge_of_draining_drained hd (by rw [ht, hdesc]; exact ⟨hfree, hnone⟩)

end Sys2Proof.Machine
end

section
/-! PROOFS. STOP with the flush option (R86, R190). -/

namespace Sys2Proof.Machine

/-! ### The options and the judgement -/

theorem or01_above {b : Byte} (h : 1 < b.toNat) : 1 < (b ||| 0x01).toNat := by
  revert b
  decide

theorem or01_of_le {b : Byte} (h : b.toNat ≤ 1) : b ||| 0x01 = 1 := by
  rcases byte_eq_of_toNat_le_one h with rfl | rfl
  · rfl
  · rfl

theorem judgeStop_of_flush {r : MgmtRecord} {s : State} (h : r.paramByte 0 = 1) (hs : s.bridge.state ≠ .stopped) :
    judgeStop r s = { status := .ok, param := [(flushBridge s).bridge.state.code], act := flushBridge } := by
  refine (if_neg (by rw [h]; decide)).trans ((if_neg hs).trans ?_)
  rw [h]
  rfl

/-! ### What the flush frees -/

/-- Every entry that is open is one of the table's. -/
theorem entries_free_iff (s : State) : (∀ e ∈ s.table.entries, e.state = .free) ↔ ∀ j, (s.entry j).state = .free := by
  constructor
  · intro h j
    by_contra hj
    have hl := entry_lt hj
    refine hj (h _ ?_)
    rw [State.entry, List.getD_eq_getElem _ _ hl]
    exact List.getElem_mem hl
  · intro h e he
    obtain ⟨j, hl, rfl⟩ := List.getElem_of_mem he
    have hj := h j
    rwa [State.entry, List.getD_eq_getElem _ _ hl] at hj

theorem openEntries_isEmpty (s : State) : s.openEntries.isEmpty = true ↔ ∀ j, (s.entry j).state = .free := by
  rw [← entries_free_iff, State.openEntries, indexesOf_isEmpty]
  simp

/-- Everything but the EXECUTING entry freed. -/
def flushBlocks (s : State) : State := freeAllDescriptors (freeAllButExecuting s)

theorem flushBridge_eq (s : State) : flushBridge s = settle ((claimQuiet (flushBlocks s)).withBridge
    ((claimQuiet (flushBlocks s)).bridge.flushed (!(claimQuiet (flushBlocks s)).openEntries.isEmpty))) := rfl

@[simp] theorem flushBlocks_frame (s : State) :
    (flushBlocks s).ring = s.ring ∧ (flushBlocks s).prevIndex = s.prevIndex ∧ (flushBlocks s).sched = s.sched
      ∧ (flushBlocks s).descriptors = descriptorsInitial ∧ (flushBlocks s).bus = s.bus ∧ (flushBlocks s).mgmt = s.mgmt
      ∧ (flushBlocks s).reports = s.reports ∧ (flushBlocks s).bridge = s.bridge ∧ (flushBlocks s).pins = s.pins
      ∧ (flushBlocks s).table.requests = [] ∧ (flushBlocks s).table.order = s.table.order.filter s.isExecuting :=
  ⟨rfl, rfl, rfl, rfl, rfl, rfl, rfl, rfl, rfl, rfl, rfl⟩

theorem flushBlocks_entry (s : State) (j : Nat) :
    (flushBlocks s).entry j = if (s.entry j).state = .executing then s.entry j else Entry.initial :=
  freeAllButExecuting_entry s j

theorem flushBlocks_window (s : State) (w : Nat) :
    (flushBlocks s).window w = { s.window w with inUse := (s.window w).inUse - s.waitingIn w } :=
  freeAllButExecuting_window s w

theorem flushBlocks_executing (s : State) : (flushBlocks s).executing = s.executing :=
  (executing_of_table (s := tearDownBlocks s) rfl).trans (executing_of_tearDownBlocks s)

theorem flushBlocks_replyQueue (s : State) : (flushBlocks s).replyQueue = s.replyQueue.filter (fun m =>
    match m with
    | .desc _ => false
    | .entry i => s.isExecuting i) := by
  show (s.replyQueue.filter _).filter _ = _
  rw [List.filter_filter]
  refine List.filter_congr fun m _ => ?_
  cases m <;> rfl

theorem isExecuting_eq {s : State} {i : Nat} (hone : s.oneExecuting) (hx : s.executing = some i) (j : Nat) :
    s.isExecuting j = decide (j = i) :=
  decide_eq_decide.2 ⟨fun hj => hone j i hj (executing_state hx), fun hj => hj ▸ executing_state hx⟩

theorem isExecuting_of_none {s : State} (hx : s.executing = none) (j : Nat) : s.isExecuting j = false :=
  decide_eq_false (executing_none hx j)

theorem flushBlocks_replyQueue_of_some {s : State} {i : Nat} (hone : s.oneExecuting) (hx : s.executing = some i) :
    (flushBlocks s).replyQueue = s.replyQueue.filter (fun m => decide (m = .entry i)) := by
  rw [flushBlocks_replyQueue]
  refine List.filter_congr fun m _ => ?_
  cases m with
  | desc d => simp
  | entry j => simp [isExecuting_eq hone hx]

theorem flushBlocks_replyQueue_of_none {s : State} (hx : s.executing = none) : (flushBlocks s).replyQueue = [] := by
  rw [flushBlocks_replyQueue, List.filter_eq_nil_iff]
  intro m _
  cases m with
  | desc d => simp
  | entry j => simp [isExecuting_of_none hx]

theorem flushBlocks_order_of_none {s : State} (hx : s.executing = none) : (flushBlocks s).table.order = [] := by
  rw [(flushBlocks_frame s).2.2.2.2.2.2.2.2.2.2, List.filter_eq_nil_iff]
  exact fun j _ => by simp [isExecuting_of_none hx]

theorem claimQuiet_of_none {s : State} (hx : s.executing = none) : claimQuiet s = s := by
  simp [claimQuiet, hx]

theorem claimQuiet_of_some {s : State} {i : Nat} (hx : s.executing = some i) : claimQuiet s = claimExecuting true i s := by
  simp [claimQuiet, hx]

/-- Before a locked sequence that is due, the claim finds it started. -/
theorem claimQuiet_startDueSequence {s : State} {i : Nat} (hx : s.executing = some i) (hd : s.sequenceDue i = true) :
    claimQuiet (startDueSequence s) = claimQuiet s := by
  have hxs : (startDueSequence s).executing = some i := (executing_of_table (by simp)).trans hx
  rw [claimQuiet_of_some hxs, claimQuiet_of_some hx, claimExecuting, claimExecuting, setMark_startDueSequence true hx hd]

/-- Everything but the EXECUTING entry freed, and that one marked quiet. -/
def flushQuiet (i : Nat) (s : State) : State := (flushBlocks s).modEntry i (fun e => { e with mark := .quiet })

theorem flushQuiet_entry {s : State} {i : Nat} (hone : s.oneExecuting) (hx : s.executing = some i) (j : Nat) :
    (flushQuiet i s).entry j = if j = i then { s.entry i with mark := .quiet } else Entry.initial := by
  have hi := executing_state hx
  have hfi : (flushBlocks s).entry i = s.entry i := (flushBlocks_entry s i).trans (if_pos hi)
  have he := modEntry_entry (flushBlocks s) i (fun e => { e with mark := .quiet }) (by rw [hfi, hi]; simp) j
  rw [hfi] at he
  refine he.trans ?_
  by_cases hj : j = i
  · rw [if_pos hj, if_pos hj]
  · rw [if_neg hj, if_neg hj, flushBlocks_entry, if_neg fun h => hj (hone j i h hi)]

/-! ### The flush, by what is EXECUTING -/

section
variable {s : State} (hs : s.bridge.softReset = none)
include hs

/-- With nothing EXECUTING nothing stays open. -/
theorem flushBridge_of_none (hx : s.executing = none) :
    flushBridge s = arbitrate ((flushBlocks s).withBridge { s.bridge with state := .stopped, flush := false }) := by
  have hfree : ∀ j, ((flushBlocks s).entry j).state = .free := fun j => by
    rw [flushBlocks_entry, if_neg (executing_none hx j)]
    rfl
  rw [flushBridge_eq, claimQuiet_of_none ((flushBlocks_executing s).trans hx), (openEntries_isEmpty _).2 hfree]
  exact settle_of_stopped rfl hs

/-- An EXECUTING entry whose cycle or sequence is in progress stays, marked quiet. -/
theorem flushBridge_of_busy {i : Nat} (hone : s.oneExecuting) (hx : s.executing = some i)
    (hb : s.bus.engine = .cycle ∨ s.bus.engine = .locked) :
    flushBridge s = (flushQuiet i s).withBridge { s.bridge with state := .draining, flush := true } := by
  have hbusy : (flushBlocks s).bus.busy = true := by
    rcases hb with h | h
    · simp [Bus.busy, h]
    · simp [Bus.busy, h]
  have hne : s.bus.engine ≠ .idle := by
    rcases hb with h | h
    · simp [h]
    · simp [h]
  have hopen : ((flushQuiet i s).entry i).state ≠ .free := by
    rw [flushQuiet_entry hone hx, if_pos rfl]
    simp [executing_state hx]
  have hclaim : claimQuiet (flushBlocks s) = flushQuiet i s := by
    rw [claimQuiet_of_some ((flushBlocks_executing s).trans hx), claimExecuting_of_busy true i hbusy]
    rfl
  have hempty : (flushQuiet i s).openEntries.isEmpty = false :=
    Bool.eq_false_iff.2 fun h => hopen ((openEntries_isEmpty _).1 h i)
  let u := (flushQuiet i s).withBridge { s.bridge with state := .draining, flush := true }
  have hdrain : judgeDrain u = u := judgeDrain_of_not_drained (Or.inr fun h => hopen ((entries_free_iff _).1 h.1 i))
  rw [flushBridge_eq, hclaim, hempty]
  show settle u = u
  rw [settle_of_no_softReset (s := u) hs, hdrain, arbitrate_of_not_idle (s := u) hne]

/-- An execution between two cycles ends, and nothing stays open. -/
theorem flushBridge_of_not_busy {i : Nat} (hone : s.oneExecuting) (hx : s.executing = some i) (hb : s.bus.busy = false)
    (hd : s.sequenceDue i = false) (hh : s.bus.engine = .idle → s.pins.holdRequest = false) :
    flushBridge s = (endExecution i .aborted (flushQuiet i s)).withBridge { s.bridge with state := .stopped, flush := false } := by
  have hi := executing_state hx
  have hmark : (flushQuiet i s).entry i = { s.entry i with mark := .quiet } := (flushQuiet_entry hone hx i).trans (if_pos rfl)
  have hdue : (flushBlocks s).sequenceDue i = false := by
    rw [← hd, State.sequenceDue, State.sequenceDue, flushBlocks_entry, if_pos hi]
    rfl
  have hclaim : claimQuiet (flushBlocks s) = endExecution i .aborted (flushQuiet i s) := by
    rw [claimQuiet_of_some ((flushBlocks_executing s).trans hx), claimExecuting_of_not_busy (s := flushBlocks s) true i hb hdue]
    rfl
  have hfree : ∀ j, ((endExecution i .aborted (flushQuiet i s)).entry j).state = .free := fun j => by
    rw [endExecution_entry i .aborted _ (by rw [hmark]; simp [hi])]
    by_cases hj : j = i
    · rw [if_pos hj, Entry.afterEnd, if_pos (Or.inl (by rw [hmark]))]
      rfl
    · rw [if_neg hj, flushQuiet_entry hone hx, if_neg hj]
      rfl
  have hbridge : (endExecution i .aborted (flushQuiet i s)).bridge = s.bridge := (endExecution_frame _ _ _).2.2.2.2.2.1
  have hbus : (endExecution i .aborted (flushQuiet i s)).bus = s.bus.cleared := (endExecution_frame _ _ _).2.2.2.2.1
  have hpins : (endExecution i .aborted (flushQuiet i s)).pins = s.pins := (endExecution_frame _ _ _).2.2.2.2.2.2.1
  have hrequests : (endExecution i .aborted (flushQuiet i s)).table.requests = [] := by
    rw [endExecution_requests, if_pos (Or.inl (by rw [hmark]))]
    rfl
  let u := (endExecution i .aborted (flushQuiet i s)).withBridge { s.bridge with state := .stopped, flush := false }
  have hidle : u.bus.engine = .idle → u.pins.holdRequest = false := fun he => by
    have hengine : (endExecution i .aborted (flushQuiet i s)).bus.engine = .idle := he
    rw [hbus, Bus.cleared_engine] at hengine
    show (endExecution i .aborted (flushQuiet i s)).pins.holdRequest = false
    rw [hpins]
    refine hh ?_
    cases hen : s.bus.engine with
    | idle => rfl
    | yielded => simp [hen] at hengine
    | cycle => simp [Bus.busy, hen] at hb
    | locked => simp [Bus.busy, hen] at hb
  have hplan : u.bus.plan = [] := by
    show (endExecution i .aborted (flushQuiet i s)).bus.plan = []
    rw [hbus]
    rfl
  rw [flushBridge_eq, hclaim, (openEntries_isEmpty _).2 hfree, hbridge]
  show settle u = u
  rw [settle_of_stopped (s := u) rfl hs, arbitrate_of_no_plan (s := u) hidle hplan hrequests]

omit hs in
/-- Before a locked sequence that is due, the flush finds it started. -/
theorem flushBridge_startDueSequence {i : Nat} (hx : s.executing = some i) (hd : s.sequenceDue i = true) :
    flushBridge (startDueSequence s) = flushBridge s := by
  have hi := executing_state hx
  have hxf : (flushBlocks s).executing = some i := (flushBlocks_executing s).trans hx
  have hentry : (flushBlocks s).entry i = s.entry i := (flushBlocks_entry s i).trans (if_pos hi)
  have hstart : flushBlocks (startDueSequence s) = startDueSequence (flushBlocks s) := by
    rw [startDueSequence_of_executing hx, startDueSequence_of_executing hxf, hentry]
    rfl
  have hdue : (flushBlocks s).sequenceDue i = true := by
    rw [← hd, State.sequenceDue, State.sequenceDue, hentry]
    rfl
  rw [flushBridge_eq, flushBridge_eq, hstart, claimQuiet_startDueSequence hxf hdue]

end

/-- A STOP with flush that is carried out (R190). -/
theorem exec_stopWithFlush {m : MgmtSlot} {s : State} (h : m.reaches s) (ha : m.authorised s)
    (hle : (byteAt m.param 0).toNat ≤ 1) (hs : s.bridge.state ≠ .stopped) :
    exec (.stopWithFlush m) s = .next ((flushBridge (s.replied (m.mapParam 0 (fun b => b ||| 0x01)) .stop .ok
      [(flushBridge (s.withPrevIndex (some (m.mapParam 0 (fun b => b ||| 0x01)).index))).bridge.state.code] [])).leaving
        ((m.mapParam 0 (fun b => b ||| 0x01)).leavesAs .stop s)) := by
  have hreaches := m.reaches_mapParam 0 (fun b => b ||| 0x01) h
  have hone : ((m.mapParam 0 (fun b => b ||| 0x01)).arrived .stop).paramByte 0 = 1 :=
    (MgmtSlot.arrived_paramByte hreaches .stop 0).trans
      ((byteAt_mapParam h _ (by decide) 0).trans ((if_pos rfl).trans (or01_of_le hle)))
  have hv := judgeStop_of_flush (s := s.withPrevIndex (some (m.mapParam 0 (fun b => b ||| 0x01)).index)) hone hs
  have hexec := exec_verdict (c := .stopWithFlush m) (op := .stop) rfl hreaches (by simp) (Or.inr rfl) (Or.inr ha) hv
  dsimp only at hexec
  exact hexec

/-- Settles O33: the flush by what is EXECUTING, and before a sequence that is due. -/
theorem stopWithFlushEndsEverything : Obligations.StopWithFlushEndsEverything := by
  intro m s h ha stop out
  have ⟨_, _, _, _, _, _, _, _, hsoft⟩ := h
  have hreaches : stop.reaches s := m.reaches_mapParam 0 _ h
  have hbyte : (stop.arrived .stop).paramByte 0 = byteAt m.param 0 ||| 0x01 :=
    (stop.arrived_paramByte hreaches .stop 0).trans ((byteAt_mapParam h _ (by decide) 0).trans (if_pos rfl))
  refine ⟨fun hopt => ?options, fun hle hs => ?stopped, fun hle hs => ?flush⟩
  case options =>
    have hv := judgeStop_of_options (r := stop.arrived .stop) (s := s.withPrevIndex (some m.index)) (hbyte ▸ or01_above hopt)
    exact exec_verdict (c := .stopWithFlush m) (op := .stop) rfl hreaches (by simp) (Or.inr rfl) (Or.inr ha) hv
  case stopped =>
    have hv := judgeStop_of_stopped (r := stop.arrived .stop) (s := s.withPrevIndex (some m.index))
      (by rw [hbyte, or01_of_le hle]; decide) hs
    exact exec_verdict (c := .stopWithFlush m) (op := .stop) rfl hreaches (by simp) (Or.inr rfl) (Or.inr ha) hv
  case flush =>
    have hexec := exec_stopWithFlush h ha hle hs
    refine ⟨fun hx => ?none_, fun i hx hone hb => ?busy, fun i t hx hone he hh hl ht => ?due, fun i hx hone hb => ?ends⟩
    case none_ =>
      have hcode : (flushBridge (s.withPrevIndex (some stop.index))).bridge.state.code = 0 := by
        rw [flushBridge_of_none (s := s.withPrevIndex (some stop.index)) hsoft hx]
        simp [BridgeState.code]
      rw [hcode, flushBridge_of_none (s := s.replied stop .stop .ok [0] []) hsoft hx] at hexec
      refine ⟨_, hexec, fun j => ?_, flushBlocks_order_of_none (s := s.replied stop .stop .ok [0] []) hx, rfl,
        flushBlocks_replyQueue_of_none (s := s.replied stop .stop .ok [0] []) hx, rfl, fun w => flushBlocks_window _ w,
        rfl, rfl, rfl, rfl, rfl, rfl, rfl⟩
      refine congrArg Entry.state ((flushBlocks_entry (s.replied stop .stop .ok [0] []) j).trans (if_neg ?_))
      exact executing_none hx j
    case busy =>
      have hcode : (flushBridge (s.withPrevIndex (some stop.index))).bridge.state.code = 2 := by
        rw [flushBridge_of_busy (s := s.withPrevIndex (some stop.index)) hsoft hone hx hb]
        rfl
      have hentry := flushQuiet_entry (s := s.replied stop .stop .ok [2] []) hone hx
      rw [hcode, flushBridge_of_busy (s := s.replied stop .stop .ok [2] []) hsoft hone hx hb] at hexec
      refine ⟨_, hexec, (hentry i).trans (if_pos rfl), fun j hj => congrArg Entry.state ((hentry j).trans (if_neg hj)), ?_, rfl,
        flushBlocks_replyQueue_of_some (s := s.replied stop .stop .ok [2] []) hone hx, rfl, fun w => flushBlocks_window _ w,
        rfl, rfl, rfl, rfl, rfl, rfl, rfl⟩
      exact List.filter_congr fun j _ => isExecuting_eq hone hx j
    case due =>
      have hd : s.sequenceDue i = true := (sequenceDue_iff s i).2 ⟨he, hl⟩
      have hreset : s.pins.reset = false := h.2.1.1
      rw [exec_busCycleStart hreset, separatingClock_of_due hx hd, if_neg (by simp [hh])] at ht
      cases ht
      have hstart : ∀ u : State, u.executing = some i → u.bus = s.bus → u.entry i = s.entry i →
          flushBridge (u.withBus (startDueSequence s).bus) = flushBridge u := fun u hxu hbu heu => by
        have hdue : u.sequenceDue i = true := by rw [← hd, State.sequenceDue, State.sequenceDue, hbu, heu]
        rw [← flushBridge_startDueSequence hxu hdue, startDueSequence_of_executing hxu, startDueSequence_of_executing hx, hbu,
          heu]
        rfl
      have hbus : startDueSequence s = s.withBus (startDueSequence s).bus := by
        rw [startDueSequence_of_executing hx]
        rfl
      rw [hbus, exec_stopWithFlush (s := s.withBus (startDueSequence s).bus) h ha hle hs, hexec]
      have hjudged := hstart (s.withPrevIndex (some stop.index)) hx rfl rfl
      have hanswered := fun code => hstart (s.replied stop .stop .ok [code] []) hx rfl rfl
      refine congrArg (fun u : State => Host.Outcome.next (u.leaving out)) ?_
      refine (hanswered _).symm.trans ?_
      rw [← hjudged]
      rfl
    case ends =>
      have hidle : s.bus.busy = false := by
        rcases hb with hb | ⟨hb, _⟩
        · simp [Bus.busy, hb]
        · simp [Bus.busy, hb]
      have hdue : s.sequenceDue i = false := by
        rcases hb with hb | ⟨_, _, hl⟩
        · exact sequenceDue_of_yielded hb i
        · exact sequenceDue_of_not_locked hl
      have hhold : s.bus.engine = .idle → s.pins.holdRequest = false := fun he => by
        rcases hb with hb | ⟨_, hh, _⟩
        · simp [hb] at he
        · exact hh
      let r := s.replied stop .stop .ok [(flushBridge (s.withPrevIndex (some stop.index))).bridge.state.code] []
      have hflush := flushBridge_of_not_busy (s := r) hsoft hone hx hidle hdue hhold
      rw [show s.replied stop .stop .ok _ [] = r from rfl, hflush] at hexec
      have hmark : (flushQuiet i r).entry i = { s.entry i with mark := .quiet } :=
        (flushQuiet_entry (s := r) hone hx i).trans (if_pos rfl)
      have hi : ((flushQuiet i r).entry i).state = .executing := by
        rw [hmark]
        exact executing_state hx
      obtain ⟨hfree, hcount, _, hevents, l, hlast, hsource, htag, hfinal⟩ :=
        endExecution_quiet (t := flushQuiet i r) hi (by rw [hmark])
      rw [hmark] at hsource htag
      have hbus : (endExecution i .aborted (flushQuiet i r)).bus = s.bus.cleared := (endExecution_frame _ _ _).2.2.2.2.1
      refine ⟨_, hexec, fun j => ?_, ?_, ?_, ?_, rfl, ?_, ?_, hevents, hcount, l, hlast, hsource, htag, hfinal⟩
      · by_cases hj : j = i
        · rw [hj]
          exact hfree
        · show ((endExecution i .aborted (flushQuiet i r)).entry j).state = .free
          rw [endExecution_entry i .aborted (flushQuiet i r) (by rw [hi]; simp), if_neg hj, flushQuiet_entry (s := r) hone hx,
            if_neg hj]
          rfl
      · refine (endExecution_replyQueue i .aborted (flushQuiet i r)).trans ?_
        rw [if_pos (Or.inl (by rw [hmark])), show (flushQuiet i r).replyQueue = (flushBlocks r).replyQueue from rfl,
          flushBlocks_replyQueue_of_some (s := r) hone hx, List.filter_filter, List.filter_eq_nil_iff]
        intro x _
        simp
      · refine (endExecution_requests i .aborted (flushQuiet i r)).trans ?_
        rw [if_pos (Or.inl (by rw [hmark]))]
        rfl
      · exact (endExecution_frame i .aborted (flushQuiet i r)).2.2.2.1
      · show (endExecution i .aborted (flushQuiet i r)).bus.engine = _
        rw [hbus, Bus.cleared_engine]
        rcases hb with hb | ⟨hb, _⟩
        · simp [hb]
        · simp [hb]
      · show (endExecution i .aborted (flushQuiet i r)).bus.plan = []
        rw [hbus]
        rfl

end Sys2Proof.Machine
end

section
/-! PROOFS. RESET (spec/08, R170; R195, R196). -/

namespace Sys2Proof.Machine

/-! ### The RESET that passes -/

/-- A request that is neither malformed nor refused is executed. -/
theorem judgeReached_of_executed {reach : Reach} {index : Byte} {capacity : Nat} {r : MgmtRecord} {im : Image} {s : State}
    {op : MgmtOp} (hm : r.forManager = false) (hop : MgmtOp.ofCode r.op = some op)
    (hf : s.malformed reach capacity r = false) (h : s.refusesRequest reach op r = false) :
    judgeReached reach index capacity r im s = (executeRequest reach op index capacity r s, reach.leaves im) := by
  rw [judgeReached, if_neg (by simp [hm]), hop]
  exact (if_neg (by simp [hf])).trans (if_neg (by simp [h]))

/-- A management command is the arrival of its slot. -/
theorem exec_slotArrival_of_management (m : MgmtSlot) (op : MgmtOp) (s : State) :
    exec (.slotArrival (m.arrival op).raw) s = arrive (m.arrival op) s := by
  show arrive (judgeSlot (encodeSlot _ _ _ _ _)) s = _
  rw [judgeSlot_encodeSlot _ _ _ _ _ (padTo_length _ _)]
  rfl

/-- A RESET that passes begins the soft reset, and its slot is consumed; a full Management Reply Queue does not hold it up
(R154, R170). -/
theorem exec_reset {m : MgmtSlot} {s : State} (h : m.resets s) :
    exec (.reset m) s = .next ((startReset m.source m.tag (s.withPrevIndex (some m.index))).leaving
      (encodeSlot m.index 0 m.size .void (List.replicate (payloadLength m.size) 0))) := by
  obtain ⟨hfits, hadmits, hdest, ⟨h0, hmanager⟩, hsource, hstatus, hflags, hlen, hsoft⟩ := h
  let t := s.withPrevIndex (some m.index)
  let r := m.arrived .reset
  let im : Image := { kind := .mgmt, payload := padTo (payloadLength m.size) (m.record .reset).toBytes }
  have hrecord : MgmtRecord.ofBytes im.payload = r := m.ofBytes_arrival .reset
  have hown : ¬t.ownRecord r = true := fun ho => hsource ((ownRecord_iff t r).1 ho).2.1
  have hmalformed : t.malformed .addressed (capacityOf m.size) r = false := by
    refine Bool.eq_false_iff.2 fun hm => ?_
    rcases (malformed_iff ..).1 hm with hm | hm | hm | ⟨_, _, hm⟩
    · exact hm hstatus
    · exact hm hflags
    · exact absurd hlen (Nat.not_le.2 hm)
    · exact hsource hm
  have hfrom : t.fromManager r = true := decide_eq_true hmanager
  have hrefuses : t.refusesRequest .addressed .reset r = false := by
    have hnone : t.bridge.softReset.isSome = false := by rw [show t.bridge.softReset = none from hsoft]; rfl
    simp [State.refusesRequest, hfrom, hnone]
  have hexecute : executeRequest .addressed .reset m.index (capacityOf m.size) r t = startReset m.source m.tag t := by
    refine if_pos ⟨rfl, ?_⟩
    have hnode : t.mgmt.node ≠ 0 := h0
    rw [State.resetPasses, hfrom, decide_eq_true rfl, decide_eq_true hnode]
    rfl
  have hjudged : judgeRecord m.index (capacityOf m.size) im t = (startReset m.source m.tag t, im.voided) := by
    rw [judgeRecord_of_not_own (hrecord ▸ hown), hrecord, reach_of_addressed (s := t) (dest := r.dest) hdest, if_neg (by simp),
      judgeReached_of_executed (op := .reset) rfl rfl hmalformed hrefuses, hexecute]
    rfl
  rw [exec_of_managementRequest (op := .reset) rfl, ← exec_slotArrival_of_management]
  refine (exec_slotArrival_management (padTo_length _ _) (headerInRange_of_mgmtFits hfits).1 hadmits).trans ?_
  refine (congrArg (fun x : State × Image => Host.Outcome.next (x.1.leaving (encodeSlot m.index 0 m.size x.2.kind x.2.payload)))
    hjudged).trans ?_
  have hlength : im.payload.length = payloadLength m.size := padTo_length _ _
  rw [show im.voided.payload = List.replicate im.payload.length 0 from rfl, hlength]
  rfl

/-! ### The soft reset and the drain -/

/-- The values of a soft reset do not depend on the drain. -/
theorem softResetEffect_judgeDrain (source tag : Byte) (s : State) :
    softResetEffect source tag (judgeDrain s) = softResetEffect source tag s := by
  have hvalues : softResetValues (judgeDrain s) = softResetValues s := by
    unfold judgeDrain
    split
    · rfl
    · rfl
  unfold softResetEffect
  rw [hvalues]

/-- With nothing EXECUTING a pending soft reset takes effect (R195). -/
theorem settle_of_softReset {s : State} {source tag : Byte} (hs : s.bridge.softReset = some (source, tag))
    (hx : s.executing = none) : settle s = arbitrate (softResetEffect source tag s) := by
  have hs' : (judgeDrain s).bridge.softReset = some (source, tag) := by simpa using hs
  have hx' : (judgeDrain s).executing = none := (executing_of_table (by simp)).trans hx
  rw [settle, softResetIfDue_of_due hs' hx', softResetEffect_judgeDrain]

/-- After the end of the one execution nothing is EXECUTING. -/
theorem endExecution_executing {s : State} {i : Nat} (st : Status) (hi : (s.entry i).state = .executing)
    (hone : ∀ j, (s.entry j).state = .executing → j = i) : (endExecution i st s).executing = none := by
  cases hx : (endExecution i st s).executing with
  | none => rfl
  | some j =>
    have hj := executing_state hx
    rw [endExecution_entry i st s (by simp [hi])] at hj
    by_cases he : j = i
    · rw [if_pos he, afterEnd_state] at hj
      split at hj
      · cases hj
      · cases hj
    · rw [if_neg he] at hj
      exact absurd (hone j hj) he

/-- Settles O36: the soft reset by what is EXECUTING, and before a sequence that is due. -/
theorem resetBeginsTheSoftReset : Obligations.ResetBeginsTheSoftReset := by
  intro m s h out t marked
  have hexec : exec (.reset m) s = .next ((settle (claimQuiet t)).leaving out) := exec_reset h
  refine ⟨fun hx => ?none_, fun i hx hb => ?busy, fun i u hx he hh hl hu => ?due, fun i hx hone hb => ?ends⟩
  case none_ => rw [hexec, claimQuiet_of_none (s := t) hx, settle_of_softReset (s := t) rfl hx]
  case busy =>
    have hbusy : t.bus.busy = true := (Bus.busy_eq _).trans (decide_eq_true hb)
    have hclaim : claimQuiet t = marked i := by
      rw [claimQuiet_of_some (s := t) hx, claimExecuting_of_busy true i hbusy]
      rfl
    have hxm : (marked i).executing = some i :=
      (executing_modEntry t i (fun e => { e with mark := .quiet }) fun _ => rfl).trans hx
    have hopen : ((marked i).entry i).state = .executing := executing_state hxm
    have hdrain : judgeDrain (marked i) = marked i := judgeDrain_of_not_drained (Or.inr fun hall => by
      have hfree := (entries_free_iff (marked i)).1 hall.1 i
      rw [hopen] at hfree
      cases hfree)
    have hne : (marked i).bus.engine ≠ .idle := fun he => by
      have he' : s.bus.engine = .idle := he
      rw [he'] at hb
      rcases hb with hb | hb
      · cases hb
      · cases hb
    rw [hexec, hclaim, settle, hdrain, softResetIfDue_of_executing (by rw [hxm]; simp), arbitrate_of_not_idle hne]
  case due =>
    have hd : s.sequenceDue i = true := (sequenceDue_iff s i).2 ⟨he, hl⟩
    have hreset : s.pins.reset = false := h.2.1.1
    rw [exec_busCycleStart hreset, separatingClock_of_due hx hd, if_neg (by simp [hh])] at hu
    cases hu
    have hbus : startDueSequence s = s.withBus (startDueSequence s).bus := by
      rw [startDueSequence_of_executing hx]
      rfl
    have hstart : t.withBus (startDueSequence s).bus = startDueSequence t := by
      rw [startDueSequence_of_executing hx, startDueSequence_of_executing (s := t) hx]
      rfl
    have hexecStarted : exec (.reset m) (s.withBus (startDueSequence s).bus)
        = .next ((settle (claimQuiet (t.withBus (startDueSequence s).bus))).leaving out) := exec_reset h
    rw [hbus, hexecStarted, hexec, hstart, claimQuiet_startDueSequence (s := t) hx hd]
  case ends =>
    have hbusy : t.bus.busy = false := by
      refine (Bus.busy_eq _).trans (decide_eq_false ?_)
      show ¬(s.bus.engine = .cycle ∨ s.bus.engine = .locked)
      rcases hb with ⟨hb, _⟩ | hb
      · simp [hb]
      · simp [hb]
    have hdue : t.sequenceDue i = false := by
      rcases hb with ⟨_, hl⟩ | hb
      · exact sequenceDue_of_not_locked hl
      · exact sequenceDue_of_yielded hb i
    have hclaim : claimQuiet t = endExecution i .aborted (marked i) := by
      rw [claimQuiet_of_some (s := t) hx, claimExecuting_of_not_busy (s := t) true i hbusy hdue]
      rfl
    have hstates : ∀ j, ((marked i).entry j).state = (s.entry j).state := fun j =>
      entry_modEntry_field Entry.state t i j (fun e => { e with mark := .quiet }) fun _ => rfl
    have hnone := endExecution_executing (s := marked i) .aborted ((hstates i).trans (executing_state hx))
      fun j hj => hone j i ((hstates j).symm.trans hj) (executing_state hx)
    have hsoft : (endExecution i .aborted (marked i)).bridge.softReset = some (m.source, m.tag) := by
      rw [(endExecution_frame i .aborted (marked i)).2.2.2.2.2.1]
    rw [hexec, hclaim, settle_of_softReset hsoft hnone]

end Sys2Proof.Machine
end

section
/-! PROOFS. What an ABORT makes of one entry (spec/04, section 4.5; R73, R81 to R84). -/

namespace Sys2Proof.Machine

/-! ### The entry that an ABORT leaves behind -/

/-- ASSEMBLING or QUEUED. -/
def Entry.waiting (e : Entry) : Bool := decide (e.state = .assembling) || decide (e.state = .queued)

/-- The entry with a claim's mark. -/
def Entry.claimed (e : Entry) (quiet : Bool) : Entry := { e with mark := e.mark.claim quiet }

/-- The entry after an ABORT that matches it; `ends` where the execution of an EXECUTING one ends at the ABORT. -/
def Entry.aborted (quiet ends : Bool) (e : Entry) : Entry :=
  match e.state with
  | .free => e
  | .assembling | .queued =>
    if quiet then Entry.initial else { e with state := .replying, final := some .aborted, done := 0, deadline := 0 }
  | .executing => if ends then (e.claimed quiet).afterEnd .aborted else e.claimed quiet
  | .replying => Entry.initial

/-- Whether an execution that ends at the ABORT leaves nothing to answer. -/
def Entry.claimGone (quiet : Bool) (e : Entry) : Bool := decide (e.mark.claim quiet = .quiet ∨ e.op = .writeQuiet)

/-- Whether the entry becomes FREE. -/
def Entry.abortFrees (quiet ends : Bool) (e : Entry) : Bool := decide ((e.aborted quiet ends).state = .free)

/-- Whether the entry joins the Reply Queue at its end. -/
def Entry.abortJoins (quiet ends : Bool) (e : Entry) : Bool :=
  e.waiting && !quiet || decide (e.state = .executing) && ends && !e.claimGone quiet && decide (e.op ≠ .read)

/-- Whether the entry's window is released. -/
def Entry.abortReleases (ends : Bool) (e : Entry) : Bool := e.waiting || decide (e.state = .executing) && ends

section
variable {quiet ends : Bool} {e : Entry}

theorem waiting_iff (e : Entry) : e.waiting = true ↔ e.state = .assembling ∨ e.state = .queued := by simp [Entry.waiting]

theorem waiting_of_executing (h : e.state = .executing) : e.waiting = false := by simp [Entry.waiting, h]

theorem waiting_of_replying (h : e.state = .replying) : e.waiting = false := by simp [Entry.waiting, h]

theorem aborted_of_waiting (h : e.waiting = true) : e.aborted quiet ends
    = if quiet then Entry.initial else { e with state := .replying, final := some .aborted, done := 0, deadline := 0 } := by
  rcases (waiting_iff e).1 h with h | h
  · simp only [Entry.aborted, h]
  · simp only [Entry.aborted, h]

theorem aborted_of_replying (h : e.state = .replying) : e.aborted quiet ends = Entry.initial := by
  simp only [Entry.aborted, h]

theorem aborted_of_marked (h : e.state = .executing) : e.aborted quiet false = e.claimed quiet := by
  simp only [Entry.aborted, h, Bool.false_eq_true, if_false]

theorem aborted_of_ended (h : e.state = .executing) : e.aborted quiet true = (e.claimed quiet).afterEnd .aborted := by
  simp only [Entry.aborted, h, if_true]

theorem abortFrees_of_waiting (h : e.waiting = true) : e.abortFrees quiet ends = quiet := by
  rw [Entry.abortFrees, aborted_of_waiting h]
  cases quiet <;> rfl

theorem abortFrees_of_replying (h : e.state = .replying) : e.abortFrees quiet ends = true := by
  rw [Entry.abortFrees, aborted_of_replying h]
  rfl

theorem abortFrees_of_marked (h : e.state = .executing) : e.abortFrees quiet false = false := by
  rw [Entry.abortFrees, aborted_of_marked h]
  exact decide_eq_false (by simp [Entry.claimed, h])

theorem abortFrees_of_ended (h : e.state = .executing) : e.abortFrees quiet true = e.claimGone quiet := by
  rw [Entry.abortFrees, aborted_of_ended h, afterEnd_state]
  by_cases hg : (e.claimed quiet).mark = .quiet ∨ (e.claimed quiet).op = .writeQuiet
  · rw [if_pos hg]
    exact (decide_eq_true hg).symm
  · rw [if_neg hg]
    exact (decide_eq_false hg).symm

end

/-! ### One entry -/

/-- What an ABORT of entry `j` does to the table, the Reply Queue and the windows. -/
def abortEffect (quiet ends : Bool) (j : Nat) (t u : State) : Prop :=
  (∀ k, u.entry k = if k = j then (t.entry j).aborted quiet ends else t.entry k)
  ∧ u.table.requests = t.table.requests.filter (fun k => decide (k ≠ j))
  ∧ u.table.order
    = (if (t.entry j).abortFrees quiet ends then t.table.order.filter (fun k => decide (k ≠ j)) else t.table.order)
  ∧ u.replyQueue
    = (if (t.entry j).abortFrees quiet ends then t.replyQueue.filter (fun m => decide (m ≠ .entry j)) else t.replyQueue)
      ++ (if (t.entry j).abortJoins quiet ends then [.entry j] else [])
  ∧ u.windows
    = (if (t.entry j).abortReleases ends then t.windows.modify (t.entry j).window (fun w => { w with inUse := w.inUse - 1 })
      else t.windows)

theorem filter_ne_self {l : List Nat} {j : Nat} (h : j ∉ l) : l.filter (fun k => decide (k ≠ j)) = l := by
  rw [List.filter_eq_self]
  exact fun k hk => decide_eq_true fun he => h (he ▸ hk)

section
variable {quiet : Bool} {u : State} {j : Nat}

theorem abortEntry_of_waiting (h : (u.entry j).waiting = true) :
    abortEntry quiet u j = if quiet then dropEntry j u else answerUnexecuted j .aborted u := by
  rcases (waiting_iff _).1 h with h | h
  · simp only [abortEntry, h]
  · simp only [abortEntry, h]

theorem abortEntry_of_replying (h : (u.entry j).state = .replying) : abortEntry quiet u j = freeEntry j u := by
  simp only [abortEntry, h]

theorem abortEntry_of_executing (h : (u.entry j).state = .executing) : abortEntry quiet u j = claimExecuting quiet j u := by
  simp only [abortEntry, h]

/-- With its cycle or sequence in progress the EXECUTING entry is marked. -/
theorem abortEntry_of_busy (h : (u.entry j).state = .executing) (hb : u.bus.busy = true) :
    abortEntry quiet u j = u.modEntry j (fun e => e.claimed quiet) := by
  rw [abortEntry_of_executing h, claimExecuting_of_busy quiet j hb]
  rfl

/-- Between cycles its execution ends. -/
theorem abortEntry_of_not_busy (h : (u.entry j).state = .executing) (hb : u.bus.busy = false) (hd : u.sequenceDue j = false) :
    abortEntry quiet u j = endExecution j .aborted (u.modEntry j (fun e => e.claimed quiet)) := by
  rw [abortEntry_of_executing h, claimExecuting_of_not_busy quiet j hb hd]
  rfl

theorem abortEffect_waiting {ends : Bool} (h : (u.entry j).waiting = true) (hq : .entry j ∉ u.replyQueue) :
    abortEffect quiet ends j u (abortEntry quiet u j) := by
  have hopen : (u.entry j).state ≠ .free := by
    rcases (waiting_iff _).1 h with h | h
    · simp [h]
    · simp [h]
  have hnot : (u.entry j).state ≠ .executing := fun hx => by simp [waiting_of_executing hx] at h
  have hqueue : u.replyQueue.filter (fun m => decide (m ≠ .entry j)) = u.replyQueue := by
    rw [List.filter_eq_self]
    exact fun m hm => decide_eq_true fun he => hq (he ▸ hm)
  rw [abortEntry_of_waiting h, abortEffect, aborted_of_waiting h, abortFrees_of_waiting h]
  simp only [Entry.abortJoins, Entry.abortReleases, h, hnot]
  cases quiet with
  | true =>
    refine ⟨dropEntry_entry j u, rfl, rfl, ?_, dropEntry_windows j u⟩
    simp [dropEntry, freeEntry]
  | false => exact ⟨answerUnexecuted_entry j .aborted u hopen, rfl, rfl, rfl, answerUnexecuted_windows j .aborted u⟩

theorem abortEffect_replying {ends : Bool} (h : (u.entry j).state = .replying) :
    abortEffect quiet ends j u (abortEntry quiet u j) := by
  rw [abortEntry_of_replying h, abortEffect, aborted_of_replying h, abortFrees_of_replying h]
  simp only [Entry.abortJoins, Entry.abortReleases, waiting_of_replying h, h]
  exact ⟨freeEntry_entry j u, rfl, rfl, by simp [freeEntry], rfl⟩

theorem abortEffect_marked (h : (u.entry j).state = .executing) (hb : u.bus.busy = true) (hr : j ∉ u.table.requests) :
    abortEffect quiet false j u (abortEntry quiet u j) := by
  rw [abortEntry_of_busy h hb, abortEffect, aborted_of_marked h, abortFrees_of_marked h, filter_ne_self hr]
  simp only [Entry.abortJoins, Entry.abortReleases, waiting_of_executing h]
  exact ⟨modEntry_entry u j _ (by simp [h]), rfl, rfl, by simp [State.modEntry], by simp [State.modEntry]⟩

theorem abortEffect_ended (h : (u.entry j).state = .executing) (hb : u.bus.busy = false) (hd : u.sequenceDue j = false)
    (hr : j ∉ u.table.requests) : abortEffect quiet true j u (abortEntry quiet u j) := by
  have hmod := modEntry_entry u j (fun e => e.claimed quiet) (by simp [h])
  have hself : (u.modEntry j (fun e => e.claimed quiet)).entry j = (u.entry j).claimed quiet := (hmod j).trans (if_pos rfl)
  have hstate : ((u.modEntry j (fun e => e.claimed quiet)).entry j).state ≠ .free := by
    rw [hself]
    simp [Entry.claimed, h]
  have hgone : (((u.entry j).claimed quiet).mark = .quiet ∨ ((u.entry j).claimed quiet).op = .writeQuiet)
      ↔ (u.entry j).claimGone quiet = true := by rw [Entry.claimGone, decide_eq_true_iff]; rfl
  rw [abortEntry_of_not_busy h hb hd, abortEffect, aborted_of_ended h, abortFrees_of_ended h, filter_ne_self hr]
  simp only [Entry.abortJoins, Entry.abortReleases, waiting_of_executing h, h]
  refine ⟨fun k => ?_, ?_, ?_, ?_, ?_⟩
  · rw [endExecution_entry j .aborted _ hstate, hself, hmod]
    by_cases hk : k = j
    · rw [if_pos hk, if_pos hk]
    · rw [if_neg hk, if_neg hk, if_neg hk]
  · rw [endExecution_requests, hself]
    exact (ite_congr rfl (fun _ => filter_ne_self hr) fun _ => rfl).trans (ite_self _)
  · rw [endExecution_order, hself]
    exact ite_congr (propext hgone) (fun _ => rfl) fun _ => rfl
  · rw [endExecution_replyQueue, hself]
    cases hg : (u.entry j).claimGone quiet with
    | true =>
      rw [if_pos (hgone.2 hg)]
      simp [State.modEntry]
    | false =>
      rw [if_neg fun h => by rw [hgone.1 h] at hg; cases hg]
      by_cases hop : (u.entry j).op = .read
      · simp [Entry.claimed, hop, State.modEntry]
      · simp [Entry.claimed, hop, State.modEntry]
  · rw [endExecution_windows_modify, hself]
    simp [State.modEntry, Entry.claimed]

end

/-- What is to hold for the EXECUTING entry: where its execution ends at the ABORT, no cycle is in progress and no sequence
due; else one is in progress. -/
def State.abortEnds (u : State) (ends : Bool) (j : Nat) : Prop :=
  if ends then u.bus.busy = false ∧ u.sequenceDue j = false else u.bus.busy = true

/-- An ABORT of an open entry. -/
theorem abortEntry_effect {quiet ends : Bool} {u : State} {j : Nat} (hopen : (u.entry j).state ≠ .free)
    (hx : (u.entry j).state = .executing → u.abortEnds ends j) (hr : (u.entry j).state = .executing → j ∉ u.table.requests)
    (hq : (u.entry j).waiting = true → .entry j ∉ u.replyQueue) : abortEffect quiet ends j u (abortEntry quiet u j) := by
  cases hs : (u.entry j).state with
  | free => exact absurd hs hopen
  | assembling =>
    have hw : (u.entry j).waiting = true := (waiting_iff _).2 (Or.inl hs)
    exact abortEffect_waiting hw (hq hw)
  | queued =>
    have hw : (u.entry j).waiting = true := (waiting_iff _).2 (Or.inr hs)
    exact abortEffect_waiting hw (hq hw)
  | replying => exact abortEffect_replying hs
  | executing =>
    have hends := hx hs
    cases ends with
    | true => exact abortEffect_ended hs hends.1 hends.2 (hr hs)
    | false => exact abortEffect_marked hs hends (hr hs)

/-! ### What an ABORT leaves alone -/

theorem abortEntry_frame (quiet : Bool) (u : State) (j : Nat) :
    (abortEntry quiet u j).ring = u.ring ∧ (abortEntry quiet u j).prevIndex = u.prevIndex
      ∧ (abortEntry quiet u j).sched = u.sched ∧ (abortEntry quiet u j).descriptors = u.descriptors
      ∧ (abortEntry quiet u j).bridge = u.bridge ∧ (abortEntry quiet u j).pins = u.pins
      ∧ (abortEntry quiet u j).table.pool = u.table.pool := by
  unfold abortEntry
  split
  · simp
  · split
    · simp
    · simp
  · split
    · simp
    · simp
  · rw [claimExecuting]
    split
    · simp [State.modEntry]
    · simp [State.modEntry]
  · simp

/-- An ABORT of an entry that is not EXECUTING touches neither the bus nor the Management Unit nor the reports. -/
theorem abortEntry_blocks {quiet : Bool} {u : State} {j : Nat} (h : (u.entry j).state ≠ .executing) :
    (abortEntry quiet u j).bus = u.bus ∧ (abortEntry quiet u j).mgmt = u.mgmt ∧ (abortEntry quiet u j).reports = u.reports := by
  unfold abortEntry
  split
  · exact ⟨rfl, rfl, rfl⟩
  · split
    · simp
    · simp
  · split
    · simp
    · simp
  · exact absurd ‹_› h
  · simp

/-- So does one that marks. -/
theorem abortEntry_blocks_of_busy {quiet : Bool} {u : State} {j : Nat} (h : (u.entry j).state = .executing)
    (hb : u.bus.busy = true) :
    (abortEntry quiet u j).bus = u.bus ∧ (abortEntry quiet u j).mgmt = u.mgmt ∧ (abortEntry quiet u j).reports = u.reports := by
  rw [abortEntry_of_busy h hb]
  exact ⟨rfl, rfl, rfl⟩

/-- An end of execution at an ABORT is recorded and reported (R128, R184). -/
theorem abortEntry_blocks_of_ended {quiet : Bool} {u : State} {j : Nat} (h : (u.entry j).state = .executing)
    (hb : u.bus.busy = false) (hd : u.sequenceDue j = false) :
    (abortEntry quiet u j).bus = u.bus.cleared
      ∧ (abortEntry quiet u j).mgmt = (reportEnd ((u.entry j).claimed quiet) .aborted
          { u with reports := u.executed ((u.entry j).claimed quiet) .aborted }).mgmt
      ∧ (abortEntry quiet u j).reports = (reportEnd ((u.entry j).claimed quiet) .aborted
          { u with reports := u.executed ((u.entry j).claimed quiet) .aborted }).reports := by
  have hself : (u.modEntry j (fun e => e.claimed quiet)).entry j = (u.entry j).claimed quiet :=
    entry_modEntry_self _ _ _ (by simp [h])
  obtain ⟨hmgmt, hreports⟩ := endExecution_reports j .aborted (u.modEntry j (fun e => e.claimed quiet))
  have hmark : ((u.entry j).claimed quiet).mark ≠ .none := by
    show (u.entry j).mark.claim quiet ≠ .none
    rw [claim_eq]
    split
    · simp
    · simp
  rw [hself, reportEnd, if_pos hmark] at hmgmt hreports
  rw [abortEntry_of_not_busy h hb hd, reportEnd, if_pos hmark, hmgmt, hreports]
  exact ⟨(endExecution_frame _ _ _).2.2.2.2.1, report_congr _ rfl rfl rfl⟩

end Sys2Proof.Machine
end

section
/-! PROOFS. What an ABORT makes of the entries it matches (R82 to R84). -/

namespace Sys2Proof.Machine

/-- An invariant of a fold over the part of the list that it has taken. -/
theorem foldl_prefix {α β : Type} {f : α → β → α} {P : List β → α → Prop} {l : List β} {a : α} (h0 : P [] a)
    (hstep : ∀ p x rest, l = p ++ x :: rest → ∀ b, P p b → P (p ++ [x]) (f b x)) : P l (l.foldl f a) := by
  have general : ∀ rest p b, l = p ++ rest → P p b → P l (rest.foldl f b) := by
    intro rest
    induction rest with
    | nil => exact fun p b hl hb => by rw [hl, List.append_nil]; exact hb
    | cons x rest ih =>
      exact fun p b hl hb => ih (p ++ [x]) (f b x) (by rw [hl, List.append_assoc]; rfl) (hstep p x rest hl b hb)
  exact general l [] a rfl h0

/-- The reports of an end of execution look at the same blocks as a report. -/
theorem reportEnd_congr {s t : State} (e : Entry) (st : Status) (hm : s.mgmt = t.mgmt) (hr : s.reports = t.reports)
    (hl : s.ring = t.ring) : (reportEnd e st s).mgmt = (reportEnd e st t).mgmt
      ∧ (reportEnd e st s).reports = (reportEnd e st t).reports := by
  unfold reportEnd
  split
  · exact report_congr _ hm hr hl
  · split
    · exact report_congr _ hm hr hl
    · exact ⟨hm, hr⟩

/-! ### The entries ended up to a point -/

/-- Whether a member of the Reply Queue is none of the entries that the ABORT of `p` frees. -/
def State.keepsMember (s : State) (quiet ends : Bool) (p : List Nat) : Member → Bool
  | .desc _ => true
  | .entry k => !(decide (k ∈ p) && (s.entry k).abortFrees quiet ends)

/-- What an ABORT of the entries `p`, which it matches, has made of `s`. -/
structure AbortedUpTo (quiet ends : Bool) (s : State) (p : List Nat) (u : State) : Prop where
  entry : ∀ k, u.entry k = if k ∈ p then (s.entry k).aborted quiet ends else s.entry k
  requests : u.table.requests = s.table.requests.filter (fun k => decide (k ∉ p))
  order : u.table.order = s.table.order.filter (fun k => !(decide (k ∈ p) && (s.entry k).abortFrees quiet ends))
  replyQueue : u.replyQueue = s.replyQueue.filter (s.keepsMember quiet ends p)
    ++ (p.filter (fun k => (s.entry k).abortJoins quiet ends)).map Member.entry
  window : ∀ w, u.window w = { s.window w with
    inUse := (s.window w).inUse - (p.filter (fun k => (s.entry k).abortReleases ends && decide ((s.entry k).window = w))).length }
  blocks : (∀ j ∈ p, (s.entry j).state = .executing → ends = false) →
    u.bus = s.bus ∧ u.mgmt = s.mgmt ∧ u.reports = s.reports ∧ u.ring = s.ring
  ended : ∀ j ∈ p, (s.entry j).state = .executing → ends = true → u.bus = s.bus.cleared
    ∧ u.mgmt = (reportEnd ((s.entry j).claimed quiet) .aborted
        { s with reports := s.executed ((s.entry j).claimed quiet) .aborted }).mgmt
    ∧ u.reports = (reportEnd ((s.entry j).claimed quiet) .aborted
        { s with reports := s.executed ((s.entry j).claimed quiet) .aborted }).reports

theorem abortedUpTo_nil (quiet ends : Bool) (s : State) : AbortedUpTo quiet ends s [] s where
  entry k := (if_neg (List.not_mem_nil)).symm
  requests := (List.filter_eq_self.2 fun k _ => by simp).symm
  order := (List.filter_eq_self.2 fun k _ => by simp).symm
  replyQueue := by
    rw [List.filter_nil, List.map_nil, List.append_nil]
    refine (List.filter_eq_self.2 fun m _ => ?_).symm
    cases m with
    | desc d => rfl
    | entry k => simp [State.keepsMember]
  window w := rfl
  blocks _ := ⟨rfl, rfl, rfl, rfl⟩
  ended j hj := absurd hj List.not_mem_nil

/-- A window after the release of one use. -/
theorem window_of_released {u t : State} {i : Nat}
    (h : u.windows = t.windows.modify i (fun w => { w with inUse := w.inUse - 1 })) (w : Nat) :
    u.window w = { t.window w with inUse := (t.window w).inUse - if i = w then 1 else 0 } := by
  have hw : u.window w = (t.modWindow i (fun w => { w with inUse := w.inUse - 1 })).window w :=
    congrArg (fun l : List Window => l.getD w Window.initial) h
  rw [hw, modWindow_window]
  by_cases hi : i = w
  · subst hi
    rw [if_pos rfl]
    by_cases hl : i < t.windows.length
    · rw [if_pos ⟨rfl, hl⟩]
    · rw [if_neg fun hc => hl hc.2, window_ge (Nat.not_lt.1 hl)]
      rfl
  · rw [if_neg fun hc => hi hc.1.symm, if_neg hi]
    rfl

theorem filter_append_singleton_length {α : Type} (p : α → Bool) (l : List α) (a : α) :
    ((l ++ [a]).filter p).length = (l.filter p).length + if p a then 1 else 0 := by
  rw [List.filter_append, List.length_append]
  by_cases h : p a
  · simp [h]
  · simp [h]

section
variable {quiet ends : Bool} {s u : State} {p : List Nat} {j : Nat} (h : AbortedUpTo quiet ends s p u) (hj : j ∉ p)
include h hj

theorem AbortedUpTo.entry_of_not_mem : u.entry j = s.entry j := (h.entry j).trans (if_neg hj)

/-- Before the EXECUTING entry is reached the Bus Engine, the Management Unit and the reports stand as they stood. -/
theorem AbortedUpTo.blocks_of_executing (hone : s.oneExecuting) (hx : (s.entry j).state = .executing) :
    u.bus = s.bus ∧ u.mgmt = s.mgmt ∧ u.reports = s.reports ∧ u.ring = s.ring :=
  h.blocks fun k hk hxk => absurd (hone k j hxk hx ▸ hk) hj

/-- The next entry's part of an ABORT. -/
theorem AbortedUpTo.effect (hlaw : s.queueLaw) (hone : s.oneExecuting) (hopen : (s.entry j).state ≠ .free)
    (hx : (s.entry j).state = .executing → s.abortEnds ends j) : abortEffect quiet ends j u (abortEntry quiet u j) := by
  have hentry := h.entry_of_not_mem hj
  obtain ⟨_, _, _, _, _, hrequests, _, _, hmembers, _⟩ := hlaw
  refine abortEntry_effect (by rw [hentry]; exact hopen) (fun hxj => ?_) (fun hxj hm => ?_) fun hw hm => ?_
  · rw [hentry] at hxj
    obtain ⟨hbus, _⟩ := h.blocks_of_executing hj hone hxj
    have hends := hx hxj
    rw [State.abortEnds, State.sequenceDue] at hends ⊢
    rw [hbus, hentry]
    exact hends
  · rw [hentry] at hxj
    rw [h.requests] at hm
    have hq := (hrequests j).1 (List.mem_of_mem_filter hm)
    rw [hxj] at hq
    cases hq
  · rw [hentry] at hw
    rw [h.replyQueue, List.mem_append, List.mem_map] at hm
    rcases hm with hm | ⟨k, hk, hkj⟩
    · rcases hmembers j (List.mem_of_mem_filter hm) with hs | ⟨hs, _⟩
      · rw [waiting_of_replying hs] at hw
        cases hw
      · rw [waiting_of_executing hs] at hw
        cases hw
    · cases hkj
      exact hj (List.mem_of_mem_filter hk)

theorem AbortedUpTo.step_replyQueue (he : abortEffect quiet ends j u (abortEntry quiet u j)) :
    (abortEntry quiet u j).replyQueue = s.replyQueue.filter (s.keepsMember quiet ends (p ++ [j]))
      ++ ((p ++ [j]).filter (fun k => (s.entry k).abortJoins quiet ends)).map Member.entry := by
  have hentry := h.entry_of_not_mem hj
  obtain ⟨_, _, _, hqueue, _⟩ := he
  have hjoined : ∀ m ∈ (p.filter (fun k => (s.entry k).abortJoins quiet ends)).map Member.entry, m ≠ Member.entry j := by
    rintro m hm rfl
    obtain ⟨k, hk, hkj⟩ := List.mem_map.1 hm
    cases hkj
    exact hj (List.mem_of_mem_filter hk)
  have hkeep : (if (s.entry j).abortFrees quiet ends then u.replyQueue.filter (fun m => decide (m ≠ .entry j)) else u.replyQueue)
      = s.replyQueue.filter (s.keepsMember quiet ends (p ++ [j]))
        ++ (p.filter (fun k => (s.entry k).abortJoins quiet ends)).map Member.entry := by
    have hstay := List.filter_eq_self.2 fun m hm => decide_eq_true (hjoined m hm)
    rw [h.replyQueue]
    by_cases hf : (s.entry j).abortFrees quiet ends = true
    · rw [if_pos hf, List.filter_append, List.filter_filter, hstay]
      refine congrArg (· ++ _) (List.filter_congr fun m _ => ?_)
      cases m with
      | desc d => simp [State.keepsMember]
      | entry k =>
        by_cases hk : k = j
        · simp [State.keepsMember, hk, hf]
        · simp [State.keepsMember, hk]
    · rw [if_neg hf]
      refine congrArg (· ++ _) (List.filter_congr fun m _ => ?_)
      cases m with
      | desc d => rfl
      | entry k =>
        by_cases hk : k = j
        · simp [State.keepsMember, hk, hf]
        · simp [State.keepsMember, hk]
  rw [hqueue, hentry, hkeep, List.filter_append, List.map_append, List.append_assoc]
  by_cases hjoin : (s.entry j).abortJoins quiet ends = true
  · simp [hjoin]
  · simp [hjoin]

theorem AbortedUpTo.step_window (he : abortEffect quiet ends j u (abortEntry quiet u j)) (w : Nat) :
    (abortEntry quiet u j).window w = { s.window w with inUse := (s.window w).inUse
      - ((p ++ [j]).filter (fun k => (s.entry k).abortReleases ends && decide ((s.entry k).window = w))).length } := by
  obtain ⟨_, _, _, _, hwindows⟩ := he
  rw [h.entry_of_not_mem hj] at hwindows
  rw [filter_append_singleton_length, ← Nat.sub_sub]
  by_cases hr : (s.entry j).abortReleases ends = true
  · rw [if_pos hr] at hwindows
    rw [window_of_released hwindows, h.window w, hr, Bool.true_and]
    simp only [decide_eq_true_eq]
  · rw [if_neg hr] at hwindows
    have hw : (abortEntry quiet u j).window w = u.window w := congrArg (fun l : List Window => l.getD w Window.initial) hwindows
    rw [hw, h.window w, Bool.eq_false_iff.2 hr, Bool.false_and]
    rfl

/-- One more entry of those that an ABORT matches. -/
theorem AbortedUpTo.step (hlaw : s.queueLaw) (hone : s.oneExecuting) (hopen : (s.entry j).state ≠ .free)
    (hx : (s.entry j).state = .executing → s.abortEnds ends j) : AbortedUpTo quiet ends s (p ++ [j]) (abortEntry quiet u j) := by
  have hentry := h.entry_of_not_mem hj
  have he := h.effect hj hlaw hone hopen hx
  have hring : (abortEntry quiet u j).ring = u.ring := (abortEntry_frame quiet u j).1
  have ⟨eentry, erequests, eorder, _, _⟩ := he
  refine ⟨fun k => ?entry, ?requests, ?order, h.step_replyQueue hj he, h.step_window hj he, fun hall => ?blocks,
    fun i hi hxi hends => ?ended⟩
  case entry =>
    rw [eentry, hentry, h.entry]
    by_cases hk : k = j
    · simp [hk]
    · simp [hk]
  case requests =>
    rw [erequests, h.requests, List.filter_filter]
    refine List.filter_congr fun k _ => ?_
    by_cases hk : k = j
    · simp [hk]
    · simp [hk]
  case order =>
    rw [eorder, hentry, h.order]
    by_cases hf : (s.entry j).abortFrees quiet ends = true
    · rw [if_pos hf, List.filter_filter]
      refine List.filter_congr fun k _ => ?_
      by_cases hk : k = j
      · simp [hk, hf]
      · simp [hk]
    · rw [if_neg hf]
      refine List.filter_congr fun k _ => ?_
      by_cases hk : k = j
      · simp [hk, hf]
      · simp [hk]
  case blocks =>
    obtain ⟨hbus, hmgmt, hreports, hring'⟩ := h.blocks fun k hk => hall k (List.mem_append_left _ hk)
    have hkeep : (abortEntry quiet u j).bus = u.bus ∧ (abortEntry quiet u j).mgmt = u.mgmt
        ∧ (abortEntry quiet u j).reports = u.reports := by
      by_cases hxj : (s.entry j).state = .executing
      · have hends := hx hxj
        rw [State.abortEnds, hall j (List.mem_append_right _ List.mem_cons_self) hxj, if_neg (by simp)] at hends
        exact abortEntry_blocks_of_busy (hentry ▸ hxj) (hbus ▸ hends)
      · exact abortEntry_blocks (hentry ▸ hxj)
    rw [hkeep.1, hkeep.2.1, hkeep.2.2, hring]
    exact ⟨hbus, hmgmt, hreports, hring'⟩
  case ended =>
    rw [List.mem_append, List.mem_singleton] at hi
    rcases hi with hi | rfl
    · have hne : (u.entry j).state ≠ .executing := fun hxj => hj (hone j i (hentry ▸ hxj) hxi ▸ hi)
      obtain ⟨hbus, hmgmt, hreports⟩ := abortEntry_blocks (quiet := quiet) hne
      rw [hbus, hmgmt, hreports]
      exact h.ended i hi hxi hends
    · obtain ⟨hbus, hmgmt, hreports, hring'⟩ := h.blocks_of_executing hj hone hxi
      have hnow := hx hxi
      rw [State.abortEnds, if_pos hends] at hnow
      obtain ⟨ebus, emgmt, ereports⟩ := abortEntry_blocks_of_ended (quiet := quiet) (u := u) (j := i) (hentry ▸ hxi)
        (by rw [hbus]; exact hnow.1) (by rw [State.sequenceDue, hbus, hentry]; exact hnow.2)
      have hreport := fun e : Entry => reportEnd_congr e .aborted (s := { u with reports := u.executed e .aborted })
        (t := { s with reports := s.executed e .aborted }) hmgmt (by simp only [State.executed, hreports, hring']) hring'
      rw [ebus, emgmt, ereports, hentry]
      exact ⟨congrArg Bus.cleared hbus, hreport _⟩

end

/-- The whole of an ABORT, over the entries it matches. -/
theorem abortEntries_abortedUpTo {quiet ends : Bool} {s : State} {l : List Nat} (hlaw : s.queueLaw) (hone : s.oneExecuting)
    (hn : l.Nodup) (hopen : ∀ j ∈ l, (s.entry j).state ≠ .free)
    (hx : ∀ j ∈ l, (s.entry j).state = .executing → s.abortEnds ends j) :
    AbortedUpTo quiet ends s l (abortEntries quiet l s) := by
  refine foldl_prefix (P := AbortedUpTo quiet ends s) (abortedUpTo_nil quiet ends s) fun p j rest hl u h => ?_
  have hmem : j ∈ l := by rw [hl]; simp
  have hj : j ∉ p := by
    rw [hl, List.nodup_append] at hn
    exact fun hj => hn.2.2 j hj j List.mem_cons_self rfl
  exact h.step hj hlaw hone (hopen j hmem) (hx j hmem)

theorem abortEntries_frame (quiet : Bool) (l : List Nat) (u : State) :
    (abortEntries quiet l u).ring = u.ring ∧ (abortEntries quiet l u).prevIndex = u.prevIndex
      ∧ (abortEntries quiet l u).sched = u.sched ∧ (abortEntries quiet l u).descriptors = u.descriptors
      ∧ (abortEntries quiet l u).bridge = u.bridge ∧ (abortEntries quiet l u).pins = u.pins
      ∧ (abortEntries quiet l u).table.pool = u.table.pool := by
  refine foldl_keeps (P := fun t => t.ring = u.ring ∧ t.prevIndex = u.prevIndex ∧ t.sched = u.sched
    ∧ t.descriptors = u.descriptors ∧ t.bridge = u.bridge ∧ t.pins = u.pins ∧ t.table.pool = u.table.pool)
    (fun j _ t ht => ?_) u ⟨rfl, rfl, rfl, rfl, rfl, rfl, rfl⟩
  obtain ⟨hring, hindex, hsched, hdesc, hbridge, hpins, hpool⟩ := abortEntry_frame quiet t j
  rw [hring, hindex, hsched, hdesc, hbridge, hpins, hpool]
  exact ht

end Sys2Proof.Machine
end

section
/-! PROOFS. ABORT (spec/08, R166; R82 to R84). -/

namespace Sys2Proof.Machine

/-! ### The judgement -/

/-- The parameters of R166 in range. -/
def abortInRange (scope node options : Byte) : Prop :=
  (scope = 1 ∨ (scope = 2 ∨ scope = 3) ∧ isNode node = true) ∧ options.toNat ≤ 1

theorem abortScope_iff (scope : Byte) : 1 ≤ scope.toNat ∧ scope.toNat ≤ 3 ↔ scope = 1 ∨ scope = 2 ∨ scope = 3 := by
  revert scope
  decide

theorem abortInRange_iff (scope node options : Byte) : abortInRange scope node options
    ↔ ¬(¬(1 ≤ scope.toNat ∧ scope.toNat ≤ 3) ∨ scope ≠ 1 ∧ isNode node = false ∨ 1 < options.toNat) := by
  rw [abortScope_iff, abortInRange]
  cases isNode node <;> grind

section
variable {r : MgmtRecord} {s : State}

theorem judgeAbort_of_bad (h : ¬abortInRange (r.paramByte 0) (r.paramByte 1) (r.paramByte 3)) :
    judgeAbort r s = { status := .badArg, param := [] } := if_pos (not_not.1 fun hn => h ((abortInRange_iff _ _ _).2 hn))

theorem judgeAbort_of_good (h : abortInRange (r.paramByte 0) (r.paramByte 1) (r.paramByte 3)) : judgeAbort r s
    = { status := .ok
        param := [BitVec.ofNat 8 (s.abortMatches (r.paramByte 0) (r.paramByte 1) (r.paramByte 2)).length, r.paramByte 0]
        act := fun t => settle (abortEntries ((r.paramByte 3).getLsbD 0)
          (s.abortMatches (r.paramByte 0) (r.paramByte 1) (r.paramByte 2)) t) } :=
  if_neg ((abortInRange_iff _ _ _).1 h)

end

/-! ### The lists after an ABORT -/

section
variable {quiet ends : Bool} {s u : State} {l : List Nat} (h : AbortedUpTo quiet ends s l u)
include h

theorem AbortedUpTo.mem_order (hlaw : s.queueLaw) (j : Nat) :
    j ∈ u.table.order ↔ j ∈ s.table.order ∧ (u.entry j).state ≠ .free := by
  obtain ⟨_, _, _, hopen, _⟩ := hlaw
  rw [h.order, List.mem_filter, h.entry]
  refine and_congr_right fun hj => ?_
  have hj := (hopen j).1 hj
  by_cases hl : j ∈ l
  · simp [hl, Entry.abortFrees]
  · simp [hl, hj]

theorem AbortedUpTo.requests_of_hit {hit : Nat → Bool} (hhit : ∀ j, j ∈ l ↔ hit j = true) :
    u.table.requests = s.table.requests.filter (fun j => !hit j) := by
  rw [h.requests]
  refine List.filter_congr fun j _ => ?_
  by_cases hj : hit j = true
  · simp [(hhit j).2 hj, hj]
  · simp [mt (hhit j).1 hj, hj]

end

/-! ### Before a sequence that is due -/

section
variable {quiet : Bool} {u : State} {b : Bus}

theorem abortEntry_withBus {j : Nat} (h : (u.entry j).state ≠ .executing) :
    abortEntry quiet (u.withBus b) j = (abortEntry quiet u j).withBus b := by
  have hentry : (u.withBus b).entry j = u.entry j := rfl
  unfold abortEntry
  rw [hentry]
  cases hs : (u.entry j).state with
  | free => rfl
  | assembling => cases quiet <;> rfl
  | queued => cases quiet <;> rfl
  | executing => exact absurd hs h
  | replying => rfl

theorem abortEntry_not_executing {j k : Nat} (hj : (u.entry j).state ≠ .executing) (hk : (u.entry k).state ≠ .executing) :
    ((abortEntry quiet u j).entry k).state ≠ .executing := by
  unfold abortEntry
  split
  · exact hk
  · split
    · rw [dropEntry_entry]
      split
      · simp [Entry.initial]
      · exact hk
    · rw [answerUnexecuted_entry j .aborted u (by simp [*])]
      split
      · simp
      · exact hk
  · split
    · rw [dropEntry_entry]
      split
      · simp [Entry.initial]
      · exact hk
    · rw [answerUnexecuted_entry j .aborted u (by simp [*])]
      split
      · simp
      · exact hk
  · exact absurd ‹_› hj
  · rw [freeEntry_entry]
    split
    · simp [Entry.initial]
    · exact hk

/-- The Bus Engine does not come into an ABORT of entries that are not EXECUTING. -/
theorem abortEntries_withBus {l : List Nat} (h : ∀ j ∈ l, (u.entry j).state ≠ .executing) :
    abortEntries quiet l (u.withBus b) = (abortEntries quiet l u).withBus b := by
  induction l generalizing u with
  | nil => rfl
  | cons j l ih =>
    have hj := h j List.mem_cons_self
    have hrest : ∀ k ∈ l, ((abortEntry quiet u j).entry k).state ≠ .executing := fun k hk =>
      abortEntry_not_executing hj (h k (List.mem_cons_of_mem _ hk))
    show abortEntries quiet l (abortEntry quiet (u.withBus b) j) = (abortEntries quiet l (abortEntry quiet u j)).withBus b
    rw [abortEntry_withBus hj, ih hrest]

end

/-- Before a locked sequence that is due, an ABORT that matches its entry finds it started. -/
theorem abortEntries_startDueSequence {quiet : Bool} {s : State} {l : List Nat} {i : Nat} (hlaw : s.queueLaw)
    (hone : s.oneExecuting) (hn : l.Nodup) (hopen : ∀ j ∈ l, (s.entry j).state ≠ .free) (hi : i ∈ l)
    (hx : s.executing = some i) (hd : s.sequenceDue i = true) :
    abortEntries quiet l (startDueSequence s) = abortEntries quiet l s := by
  obtain ⟨p, rest, rfl⟩ := List.append_of_mem hi
  have hip : i ∉ p := by
    rw [List.nodup_append] at hn
    exact fun hp => hn.2.2 i hp i List.mem_cons_self rfl
  have hnot : ∀ j ∈ p, (s.entry j).state ≠ .executing := fun j hj hxj => hip (hone j i hxj (executing_state hx) ▸ hj)
  let u := abortEntries quiet p s
  have hu : AbortedUpTo quiet false s p u := abortEntries_abortedUpTo hlaw hone (List.nodup_append.1 hn).1
    (fun j hj => hopen j (List.mem_append_left _ hj)) fun j hj hxj => absurd hxj (hnot j hj)
  have hentry : u.entry i = s.entry i := hu.entry_of_not_mem hip
  obtain ⟨hbus, _⟩ := hu.blocks_of_executing hip hone (executing_state hx)
  have huone : u.oneExecuting := by
    have hstate : ∀ j, (u.entry j).state = .executing → (s.entry j).state = .executing := fun j hj => by
      rw [hu.entry] at hj
      by_cases hp : j ∈ p
      · rw [if_pos hp] at hj
        cases hs : (s.entry j).state with
        | executing => rfl
        | free => simp only [Entry.aborted, hs] at hj; cases hj
        | replying => rw [aborted_of_replying hs] at hj; cases hj
        | assembling =>
          rw [aborted_of_waiting ((waiting_iff _).2 (Or.inl hs))] at hj
          cases quiet <;> cases hj
        | queued =>
          rw [aborted_of_waiting ((waiting_iff _).2 (Or.inr hs))] at hj
          cases quiet <;> cases hj
      · rwa [if_neg hp] at hj
    exact fun j k hj hk => hone j k (hstate j hj) (hstate k hk)
  have hux : u.executing = some i := executing_eq_some huone (by rw [hentry]; exact executing_state hx)
  have hud : u.sequenceDue i = true := by rw [State.sequenceDue, hbus, hentry]; exact hd
  have hstart : abortEntries quiet p (startDueSequence s) = startDueSequence u := by
    rw [startDueSequence_of_executing hx, startDueSequence_of_executing hux, abortEntries_withBus hnot, hbus, hentry]
  have hclaim : abortEntry quiet (startDueSequence u) i = abortEntry quiet u i := by
    have hxs : ((startDueSequence u).entry i).state = .executing := by rw [startDueSequence_entry]; exact executing_state hux
    rw [abortEntry_of_executing hxs, abortEntry_of_executing (executing_state hux), claimExecuting, claimExecuting,
      setMark_startDueSequence quiet hux hud]
  have hsplit : ∀ t, abortEntries quiet (p ++ i :: rest) t = abortEntries quiet rest (abortEntry quiet (abortEntries quiet p t) i) :=
    fun t => List.foldl_append
  rw [hsplit, hsplit, hstart, hclaim]

/-! ### What an ABORT frees, answers and releases -/

section
variable {quiet : Bool} {e : Entry}

/-- An execution that ends at the ABORT and is answered. -/
theorem afterEnd_claimed (h : e.claimGone quiet = false) : (e.claimed quiet).afterEnd .aborted
    = { e with mark := e.mark.claim quiet, state := .replying, final := some .aborted, done := e.finalDone, deadline := 0 } := by
  have hstatus : (e.claimed quiet).finalStatus .aborted = .aborted := by simp [Entry.finalStatus]
  refine (if_neg (of_decide_eq_false h)).trans ?_
  rw [hstatus]
  rfl

theorem abortJoins_of_marked : e.abortJoins quiet false = (e.waiting && !quiet) := by
  simp [Entry.abortJoins]

theorem abortReleases_of_marked : e.abortReleases false = e.waiting := by
  simp [Entry.abortReleases]

theorem reportEnd_claimed (s : State) : reportEnd (e.claimed quiet) .aborted s
    = report { kind := .abortedInFlight, node := some e.source, tag := some e.tag, addr := some e.addr } s := by
  refine if_pos ?_
  show e.mark.claim quiet ≠ .none
  rw [claim_eq]
  split
  · simp
  · simp

theorem executed_claimed (s : State) : s.executed (e.claimed quiet) .aborted
    = { s.reports with
        counters := { s.reports.counters with executed := s.reports.counters.executed + 1 }
        lastTx := some { source := e.source, tag := e.tag, op := e.op, final := .aborted, addr := e.addr,
                         done := e.finalDone, cycle := s.ring.lastCycle } } := by
  have hstatus : (e.claimed quiet).finalStatus .aborted = .aborted := by simp [Entry.finalStatus]
  rw [State.executed, Entry.lastTx, hstatus]
  rfl

end

section
variable {quiet ends : Bool} {s u : State} {hit : Nat → Bool} (h : AbortedUpTo quiet ends s (s.table.order.filter hit) u)
include h

theorem AbortedUpTo.window_of_hit (w : Nat) : u.window w = { s.window w with
    inUse := (s.window w).inUse - (s.table.order.filter (fun j =>
      hit j && (s.entry j).abortReleases ends && decide ((s.entry j).window = w))).length } := by
  rw [h.window, List.filter_filter]
  refine congrArg (fun l : List Nat => { s.window w with inUse := (s.window w).inUse - l.length })
    (List.filter_congr fun j _ => ?_)
  rw [Bool.and_comm, Bool.and_assoc]

/-- The Reply Queue keeps the members that `keeps` names, where that agrees with what the ABORT frees, and the entries that
are answered join it in allocation order. -/
theorem AbortedUpTo.replyQueue_of_hit {keeps : Member → Bool} {joins : Nat → Bool}
    (hhit : ∀ j, j ∈ s.table.order.filter hit ↔ hit j = true)
    (hdesc : ∀ d, keeps (.desc d) = true)
    (hentry : ∀ j, .entry j ∈ s.replyQueue → keeps (.entry j) = !(hit j && (s.entry j).abortFrees quiet ends))
    (hjoins : ∀ j, hit j = true → joins j = (s.entry j).abortJoins quiet ends) :
    u.replyQueue = s.replyQueue.filter keeps
      ++ (s.table.order.filter (fun j => hit j && joins j)).map Member.entry := by
  rw [h.replyQueue, List.filter_filter]
  congr 1
  · refine List.filter_congr fun x hx => ?_
    cases x with
    | desc d => exact (hdesc d).symm
    | entry j =>
      rw [hentry j hx, State.keepsMember, Bool.eq_iff_iff.2 (decide_eq_true_iff.trans (hhit j))]
  · refine congrArg (List.map Member.entry) (List.filter_congr fun j _ => ?_)
    by_cases hj : hit j = true
    · rw [hj, hjoins j hj, Bool.and_true, Bool.true_and]
    · rw [Bool.eq_false_iff.2 hj, Bool.and_false, Bool.false_and]

end

/-- What a member of the Reply Queue is to an ABORT between cycles. -/
theorem abortFrees_of_member {quiet : Bool} {e : Entry} (h : e.state = .replying ∨ e.state = .executing) :
    e.abortFrees quiet false = decide (e.state = .replying) := by
  rcases h with h | h
  · rw [abortFrees_of_replying h, h]
    rfl
  · rw [abortFrees_of_marked h, h]
    rfl

theorem abortFrees_of_member_ended {quiet : Bool} {e : Entry} (h : e.state = .replying ∨ e.state = .executing) :
    e.abortFrees quiet true = (decide (e.state = .replying) || decide (e.state = .executing) && e.claimGone quiet) := by
  rcases h with h | h
  · rw [abortFrees_of_replying h, h]
    rfl
  · rw [abortFrees_of_ended h, h]
    rfl

/-! ### The statement -/

theorem filter_eq_singleton {l : List Nat} {p : Nat → Bool} {i : Nat} (hn : l.Nodup) (hi : i ∈ l)
    (hp : ∀ j, p j = true ↔ j = i) : l.filter p = [i] := by
  have hcongr : l.filter p = l.filter (fun j => decide (j = i)) :=
    List.filter_congr fun j _ => Bool.eq_iff_iff.2 ((hp j).trans decide_eq_true_iff.symm)
  rw [hcongr, List.filter_eq, List.count_eq_one_of_mem hn hi]
  rfl

/-- An ABORT that is carried out (R166). -/
theorem exec_abort {c : Instr} {m : MgmtSlot} {s : State} (hc : c.managementRequest = some (m, .abort)) (h : m.reaches s)
    (ha : m.authorised s) (hd : m.dest = s.mgmt.node)
    (hv : abortInRange (byteAt m.param 0) (byteAt m.param 1) (byteAt m.param 3)) {l : List Nat}
    (hl : s.abortMatches (byteAt m.param 0) (byteAt m.param 1) (byteAt m.param 2) = l) :
    exec c s = .next ((settle (abortEntries ((byteAt m.param 3).getLsbD 0) l
      (s.replied m .abort .ok [BitVec.ofNat 8 l.length, byteAt m.param 0] []))).leaving (m.leavesAs .abort s)) := by
  have hbyte := m.arrived_paramByte h .abort
  have hj := judgeAbort_of_good (r := m.arrived .abort) (s := s.withPrevIndex (some m.index))
    (by rw [hbyte, hbyte, hbyte]; exact hv)
  rw [hbyte, hbyte, hbyte, hbyte] at hj
  rw [← hl]
  exact exec_verdict (op := .abort) hc h (by simp) (Or.inl hd) (Or.inr ha) hj

theorem cleared_of_not_busy {b : Bus} (h : b.engine = .yielded ∨ b.engine = .idle) : b.cleared
    = { Bus.initial with engine := b.engine, grant := b.grant, grantTime := b.grantTime, holdLong := b.holdLong
                         separating := b.separating } := by
  have hbusy : b.busy = false := by
    rw [Bus.busy_eq]
    rcases h with h | h
    · simp [h]
    · simp [h]
  rw [Bus.cleared, hbusy, Bool.or_false]
  rcases h with h | h
  · rw [h]
  · rw [h]

/-- Settles O34: the invariant of the fold over the matched entries, read off at its end; a sequence that is due starts
first. -/
theorem abortEndsTheMatchedEntries : Obligations.AbortEndsTheMatchedEntries := by
  intro c m s hc h ha hd hlaw hone scope node quiet out valid hit waits reply
  have ⟨_, _, hnodup, hopen, _, _, _, _, hmembers, _⟩ := hlaw
  let l := s.table.order.filter hit
  have hbyte := m.arrived_paramByte h .abort
  have hgood : valid → exec c s = .next ((settle (abortEntries quiet l reply)).leaving out) :=
    fun hv => exec_abort hc h ha hd hv rfl
  have hhit : ∀ j, j ∈ l ↔ hit j = true := fun j => by
    refine List.mem_filter.trans (and_iff_right_of_imp fun hj => (hopen j).2 ?_)
    exact of_decide_eq_true ((Bool.and_eq_true _ _).mp hj).1
  have hln : l.Nodup := hnodup.filter _
  have hlopen : ∀ j ∈ l, (s.entry j).state ≠ .free := fun j hj => (hopen j).1 (List.mem_of_mem_filter hj)
  have hmember : ∀ j, .entry j ∈ s.replyQueue → (s.entry j).state = .replying ∨ (s.entry j).state = .executing :=
    fun j hj => (hmembers j hj).imp_right And.left
  refine ⟨fun hn => ?bad, fun hv hbusy => ?busy, fun i hv hi hxi hb => ?ends, fun i t hv hi hxi he hh hlock ht => ?due,
    fun i hv hi hxi hb => ?one⟩
  case bad =>
    exact exec_verdict (op := .abort) hc h (by simp) (Or.inl hd) (Or.inr ha)
      (judgeAbort_of_bad (by rw [hbyte, hbyte, hbyte]; exact hn))
  case busy =>
    have hu : AbortedUpTo quiet false reply l (abortEntries quiet l reply) :=
      abortEntries_abortedUpTo (s := reply) hlaw hone hln hlopen fun j hj hxj =>
        (Bus.busy_eq _).trans (decide_eq_true (hbusy j ((hhit j).1 hj) hxj))
    obtain ⟨ubus, umgmt, ureports, _⟩ := hu.blocks fun _ _ _ => rfl
    obtain ⟨uring, _, usched, udesc, ubridge, upins, upool⟩ := abortEntries_frame quiet l reply
    have hentry : ∀ j, hit j = true → (abortEntries quiet l reply).entry j = (s.entry j).aborted quiet false :=
      fun j hj => (hu.entry j).trans (if_pos ((hhit j).2 hj))
    refine ⟨_, hgood hv, fun j hj => ?_, fun j hj => ⟨fun hw hq => ?_, fun hw hq => ?_, fun hr => ?_, fun hxj => ?_⟩,
      hu.requests_of_hit hhit, ?_, fun w => ?_, hu.mem_order hlaw, upool, umgmt, udesc, uring, usched, ubus, ureports, ubridge,
      upins⟩
    · exact (hu.entry j).trans (if_neg fun hm => by rw [(hhit j).1 hm] at hj; cases hj)
    · rw [hentry j hj, aborted_of_waiting hw, if_pos hq]
      rfl
    · rw [hentry j hj, aborted_of_waiting hw, hq]
      rfl
    · rw [hentry j hj, aborted_of_replying hr]
      rfl
    · rw [hentry j hj, aborted_of_marked hxj, Entry.claimed, claim_eq]
    · have hanswered : (if quiet then [] else (s.table.order.filter (fun j => hit j && waits j)).map Member.entry)
          = (s.table.order.filter (fun j => hit j && (waits j && !quiet))).map Member.entry := by
        cases quiet with
        | true => simp
        | false => simp
      rw [hanswered]
      refine hu.replyQueue_of_hit hhit (fun _ => rfl) (fun j hj => ?_) fun j _ => abortJoins_of_marked.symm
      exact congrArg (fun b => !(hit j && b)) (abortFrees_of_member (hmember j hj)).symm
    · have hwindow := hu.window_of_hit w
      simp only [abortReleases_of_marked] at hwindow
      exact hwindow
  case ends =>
    intro e mark gone done reported
    have hbusy : s.bus.busy = false := by
      refine (Bus.busy_eq _).trans (decide_eq_false ?_)
      rcases hb with hb | ⟨hb, _⟩
      · simp [hb]
      · simp [hb]
    have hdue : s.sequenceDue i = false := by
      rcases hb with hb | ⟨_, hb⟩
      · exact sequenceDue_of_yielded hb i
      · exact sequenceDue_of_not_locked hb
    have hu : AbortedUpTo quiet true reply l (abortEntries quiet l reply) :=
      abortEntries_abortedUpTo (s := reply) hlaw hone hln hlopen fun j _ hxj => by
        rw [hone j i hxj hxi]
        exact ⟨hbusy, hdue⟩
    have hmark : mark = e.mark.claim quiet := (claim_eq _ _).symm
    have hgone : gone = e.claimGone quiet := by rw [Entry.claimGone, ← hmark]
    have hil : i ∈ l := (hhit i).2 hi
    obtain ⟨ubus, umgmt, ureports⟩ := hu.ended i hil hxi rfl
    obtain ⟨uring, _, usched, udesc, ubridge, upins, upool⟩ := abortEntries_frame quiet l reply
    rw [executed_claimed, reportEnd_claimed] at umgmt ureports
    have hentry : ∀ j, hit j = true → (abortEntries quiet l reply).entry j = (s.entry j).aborted quiet true :=
      fun j hj => (hu.entry j).trans (if_pos ((hhit j).2 hj))
    have hexecuting : ∀ j, (s.entry j).state = .executing ↔ j = i := fun j =>
      ⟨fun hj => hone j i hj hxi, fun hj => hj ▸ hxi⟩
    refine ⟨_, hgood hv, fun j hj => ?_, fun j hj => ⟨fun hw hq => ?_, fun hw hq => ?_, fun hr => ?_⟩, fun hg => ?_, fun hg => ?_,
      hu.requests_of_hit hhit, ?_, fun w => ?_, hu.mem_order hlaw, upool, ?_, umgmt, ureports, udesc, uring, usched, ubridge,
      upins⟩
    · exact (hu.entry j).trans (if_neg fun hm => by rw [(hhit j).1 hm] at hj; cases hj)
    · rw [hentry j hj, aborted_of_waiting hw, if_pos hq]
      rfl
    · rw [hentry j hj, aborted_of_waiting hw, hq]
      rfl
    · rw [hentry j hj, aborted_of_replying hr]
      rfl
    · rw [hgone] at hg
      rw [hentry i hi]
      exact of_decide_eq_true ((abortFrees_of_ended (quiet := quiet) hxi).trans hg)
    · rw [hgone] at hg
      rw [hentry i hi, aborted_of_ended hxi, afterEnd_claimed hg, hmark]
      rfl
    · refine hu.replyQueue_of_hit hhit (fun _ => rfl) (fun j hj => ?_) fun j _ => ?_
      · refine congrArg (fun b => !(hit j && b)) ?_
        rw [show reply.entry j = s.entry j from rfl, abortFrees_of_member_ended (hmember j hj), hgone]
        by_cases hji : j = i
        · subst hji
          rw [decide_eq_true hxi, decide_eq_true rfl]
        · rw [decide_eq_false hji, decide_eq_false (mt (hexecuting j).1 hji), Bool.false_and, Bool.false_and]
      · rw [show reply.entry j = s.entry j from rfl, Entry.abortJoins, hgone]
        by_cases hji : j = i
        · subst hji
          rw [decide_eq_true hxi, decide_eq_true rfl, Bool.and_true]
          rfl
        · rw [decide_eq_false hji, decide_eq_false (mt (hexecuting j).1 hji), Bool.false_and, Bool.false_and, Bool.false_and,
            Bool.false_and, Bool.false_and]
          rfl
    · have hreleases : ∀ j, (reply.entry j).abortReleases true = (waits j || decide (j = i)) := fun j => by
        show ((s.entry j).waiting || decide ((s.entry j).state = .executing) && true) = _
        rw [Bool.and_true, decide_eq_decide.2 (hexecuting j)]
        rfl
      have hwindow := hu.window_of_hit w
      simp only [hreleases] at hwindow
      exact hwindow
    · exact ubus.trans (cleared_of_not_busy (b := s.bus) (hb.imp_right And.left))
  case due =>
    have hx : s.executing = some i := executing_eq_some hone hxi
    have hdue : s.sequenceDue i = true := (sequenceDue_iff s i).2 ⟨he, hlock⟩
    have hreset : s.pins.reset = false := h.2.1.1
    rw [exec_busCycleStart hreset, separatingClock_of_due hx hdue, if_neg (by simp [hh])] at ht
    cases ht
    have hbus : startDueSequence s = s.withBus (startDueSequence s).bus := by
      rw [startDueSequence_of_executing hx]
      rfl
    have hstarted : startDueSequence reply = reply.withBus (startDueSequence s).bus := by
      rw [startDueSequence_of_executing hx, startDueSequence_of_executing (s := reply) hx]
      rfl
    have hact := abortEntries_startDueSequence (quiet := quiet) (s := reply) hlaw hone hln hlopen ((hhit i).2 hi) hx hdue
    have hexec := exec_abort (s := s.withBus (startDueSequence s).bus) (l := l) hc h ha hd hv rfl
    rw [hbus, hexec, hgood hv, ← hact, hstarted]
    rfl
  case one =>
    have hl : l = [i] := filter_eq_singleton hnodup ((hopen i).2 (by simp [hxi])) hi
    have hbusy : reply.bus.busy = false := by
      refine (Bus.busy_eq _).trans (decide_eq_false ?_)
      show ¬(s.bus.engine = .cycle ∨ s.bus.engine = .locked)
      rcases hb with ⟨hb, _⟩ | hb
      · simp [hb]
      · simp [hb]
    have hdue : reply.sequenceDue i = false := by
      rcases hb with ⟨_, hb⟩ | hb
      · exact sequenceDue_of_not_locked hb
      · exact sequenceDue_of_yielded hb i
    have hact : abortEntries quiet l reply = claimExecuting quiet i reply := by
      rw [hl]
      exact abortEntry_of_executing (u := reply) hxi
    rw [hgood hv, hact, claimExecuting_of_not_busy quiet i hbusy hdue, modEntry_claim]
    rfl

end Sys2Proof.Machine
end

section
/-! PROOFS. The Segment Intake's checks and its free places (spec/03, R51 to R60; R96, R97). -/

namespace Sys2Proof.Machine

/-! ### The checks of a first segment, one by one -/

theorem badRequest_iff (op : ReqOp) (g : Segment) (capacity : Nat) : badRequest op g capacity = true
    ↔ g.status ≠ 0 ∨ g.flags &&& 0xFE ≠ 0 ∨ capacity < g.count.toNat
      ∨ op = .read ∧ (g.count.toNat ≠ 0 ∨ g.last = false)
      ∨ op.isWrite = true ∧ (g.count.toNat = 0 ∨ g.last = true ∧ g.count.toNat < g.total.toNat
          ∨ g.last = false ∧ g.count.toNat = g.total.toNat)
      ∨ (op = .swap ∨ op = .add) ∧ (g.count.toNat ≠ g.total.toNat ∨ g.last = false)
      ∨ op = .cswap ∧ (g.count.toNat ≠ 2 * g.total.toNat ∨ g.last = false) := by
  cases op <;> simp [badRequest, Segment.reservedFlags, ReqOp.isWrite, or_assoc]

theorem badLength_iff (op : ReqOp) (g : Segment) : badLength op g = true
    ↔ g.total.toNat = 0 ∨ 1024 < g.total.toNat ∨ op.isWrite = true ∧ g.total.toNat < g.count.toNat
      ∨ 2 ^ 32 < g.addr.toNat + g.total.toNat := by
  simp [badLength, or_assoc]

theorem badAlign_iff (op : ReqOp) (g : Segment) : badAlign op g = true
    ↔ op.locked = true ∧ (g.total.toNat ≠ 1 ∧ g.total.toNat ≠ 2 ∧ g.total.toNat ≠ 4 ∨ g.addr.toNat % g.total.toNat ≠ 0) := by
  simp [badAlign, and_assoc]

theorem names_iff (e : Entry) (source tag : Byte) :
    e.names source tag = true ↔ e.state ≠ .free ∧ e.source = source ∧ e.tag = tag := by
  simp [Entry.names, and_assoc]

theorem tagInUse_iff (s : State) (source tag : Byte) : s.tagInUse source tag = true
    ↔ ∃ i, (s.entry i).state ≠ .free ∧ (s.entry i).source = source ∧ (s.entry i).tag = tag := by
  simp only [State.tagInUse, List.any_eq_true, names_iff]
  constructor
  · rintro ⟨e, he, h⟩
    obtain ⟨i, hl, rfl⟩ := List.getElem_of_mem he
    exact ⟨i, by rwa [State.entry, List.getD_eq_getElem _ _ hl]⟩
  · rintro ⟨i, h⟩
    have hl := entry_lt h.1
    refine ⟨s.entry i, ?_, h⟩
    rw [State.entry, List.getD_eq_getElem _ _ hl]
    exact List.getElem_mem hl

theorem permits_iff (w : Window) (op : ReqOp) (source : Byte) : w.permits op source = true
    ↔ (op = .read → w.attrs.read = true) ∧ (op.isWrite = true → w.attrs.write = true)
      ∧ (op.locked = true → w.attrs.read = true ∧ w.attrs.write = true ∧ w.attrs.lock = true)
      ∧ ∀ n, w.owner = some n → n = source := by
  cases ho : w.owner with
  | none => cases op <;> simp [Window.permits, ho, ReqOp.isWrite, ReqOp.locked, and_assoc]
  | some n => cases op <;> simp [Window.permits, ho, ReqOp.isWrite, ReqOp.locked, and_assoc]

/-! ### The lowest number -/

theorem indexesOf_head? {α : Type} {p : α → Bool} {l : List α} {i : Nat} {a : α} (hi : l[i]? = some a) (hp : p a = true)
    (hlow : ∀ j b, j < i → l[j]? = some b → p b = false) : (indexesOf p l).head? = some i := by
  have hl : i < l.length := (List.getElem?_eq_some_iff.1 hi).1
  rw [indexesOf, List.head?_filter, List.find?_range_eq_some]
  refine ⟨by simp [hi, hp], List.mem_range.2 hl, fun j hj => ?_⟩
  cases hb : l[j]? with
  | none => rfl
  | some b => simp [hlow j b hj hb]

theorem indexesOf_eq_nil {α : Type} {p : α → Bool} {l : List α} (h : ∀ a ∈ l, p a = false) : indexesOf p l = [] :=
  List.isEmpty_iff.1 ((indexesOf_isEmpty p l).2 h)

/-- The one member that satisfies `p` is the first. -/
theorem indexesOf_head?_of_unique {α : Type} {p : α → Bool} {l : List α} {i : Nat} {a : α} (hi : l[i]? = some a) (hp : p a = true)
    (hone : ∀ j b, l[j]? = some b → p b = true → j = i) : (indexesOf p l).head? = some i :=
  indexesOf_head? hi hp fun j b hj hb => Bool.eq_false_iff.2 fun hpb => absurd (hone j b hb hpb) (Nat.ne_of_lt hj)

theorem exists_cons_of_head? {α : Type} {l : List α} {a : α} (h : l.head? = some a) : ∃ rest, l = a :: rest := by
  cases l with
  | nil => cases h
  | cons b rest =>
    cases h
    exact ⟨rest, rfl⟩

theorem getElem?_of_getD {α : Type} {l : List α} {i : Nat} {a d : α} (h : l[i]? = some a) : l.getD i d = a := by
  rw [List.getD_eq_getElem?_getD, h]
  rfl

section
variable {s : State} {d i : Nat}

/-- The lowest-numbered free descriptor (R60). -/
theorem freeDescriptors_of_lowest (hlen : s.descriptors.length = 4) (hd : s.descriptor d = none) (hl : d < 4)
    (hlow : ∀ k, k < d → s.descriptor k ≠ none) : ∃ rest, s.freeDescriptors = d :: rest := by
  have hget : s.descriptors[d]? = some none := by
    rw [List.getElem?_eq_getElem (by omega), ← hd, State.descriptor, List.getD_eq_getElem _ _ (by omega)]
  refine exists_cons_of_head? (indexesOf_head? hget rfl fun k b hk hb => ?_)
  have hne := hlow k hk
  rw [State.descriptor, getElem?_of_getD hb] at hne
  exact Bool.eq_false_iff.2 fun hb => hne (Option.isNone_iff_eq_none.1 hb)

theorem freeDescriptors_of_none (hlen : s.descriptors.length = 4) (h : ∀ d, d < 4 → s.descriptor d ≠ none) :
    s.freeDescriptors = [] := by
  refine indexesOf_eq_nil fun a ha => ?_
  obtain ⟨d, hl, rfl⟩ := List.getElem_of_mem ha
  have hne := h d (by omega)
  rw [State.descriptor, List.getD_eq_getElem _ _ hl] at hne
  exact Bool.eq_false_iff.2 fun hb => hne (Option.isNone_iff_eq_none.1 hb)

/-- The lowest-numbered FREE entry (R56). -/
theorem freeEntries_of_lowest (hl : i < s.table.entries.length) (hi : (s.entry i).state = .free)
    (hlow : ∀ j, j < i → (s.entry j).state ≠ .free) : ∃ rest, s.entriesIn .free = i :: rest := by
  have hget : s.table.entries[i]? = some (s.entry i) := by
    rw [List.getElem?_eq_getElem hl, State.entry, List.getD_eq_getElem _ _ hl]
  refine exists_cons_of_head? (indexesOf_head? hget (decide_eq_true hi) fun j b hj hb => ?_)
  have hne := hlow j hj
  rw [State.entry, getElem?_of_getD hb] at hne
  exact decide_eq_false hne

/-- The window that holds an address, which is the only one (R91). -/
theorem resolve_of_holds {addr : Nat} (total : Nat) {w : Nat} (hlaw : s.windowLaw) (hw : (s.window w).holds addr = true) :
    s.resolve addr total = if (s.window w).holds (addr + total - 1) then some w else none := by
  obtain ⟨_, _, hone⟩ := hlaw
  have hvalid := ((holds_iff _ _).1 hw).1
  have hl : w < s.windows.length := by
    by_contra hl
    rw [window_ge (Nat.not_lt.1 hl)] at hvalid
    cases hvalid
  have hget : s.windows[w]? = some (s.window w) := by
    rw [List.getElem?_eq_getElem hl, State.window, List.getD_eq_getElem _ _ hl]
  obtain ⟨rest, hrest⟩ := exists_cons_of_head? (indexesOf_head?_of_unique (p := fun w => w.holds addr) hget hw fun j b hb hpb =>
    hone j w addr (by rw [State.window, getElem?_of_getD hb]; exact hpb) hw)
  simp only [State.resolve, hrest]

theorem resolve_of_none {addr : Nat} (total : Nat) (h : ∀ w, (s.window w).holds addr = false) : s.resolve addr total = none := by
  have hnil : indexesOf (fun w : Window => w.holds addr) s.windows = [] := indexesOf_eq_nil fun a ha => by
    obtain ⟨w, hl, rfl⟩ := List.getElem_of_mem ha
    have hw := h w
    rwa [State.window, List.getD_eq_getElem _ _ hl] at hw
  simp only [State.resolve, hnil]

/-- Resolution names a window that holds both ends of the range (R96). -/
theorem resolve_eq_some_iff {addr total : Nat} {w : Nat} (hlaw : s.windowLaw) : s.resolve addr total = some w
    ↔ (s.window w).holds addr = true ∧ (s.window w).holds (addr + total - 1) = true := by
  constructor
  · intro h
    by_cases hex : ∃ v, (s.window v).holds addr = true
    · obtain ⟨v, hv⟩ := hex
      rw [resolve_of_holds total hlaw hv] at h
      split at h
      next hlast =>
        cases h
        exact ⟨hv, hlast⟩
      next => cases h
    · rw [resolve_of_none total fun v => Bool.eq_false_iff.2 fun hv => hex ⟨v, hv⟩] at h
      cases h
  · rintro ⟨hw, hlast⟩
    rw [resolve_of_holds total hlaw hw, if_pos hlast]

end

/-! ### The checks in their order -/

section
variable {op : ReqOp} {g : Segment} {capacity : Nat} {s : State}

theorem firstChecks_of_badRequest (h : badRequest op g capacity = true) :
    firstChecks op g capacity s = .error .badRequest := if_pos h

variable (h1 : ¬badRequest op g capacity = true)
include h1

theorem firstChecks_of_badLength (h : badLength op g = true) : firstChecks op g capacity s = .error .length :=
  (if_neg h1).trans (if_pos h)

variable (h2 : ¬badLength op g = true)
include h2

theorem firstChecks_of_badAlign (h : badAlign op g = true) : firstChecks op g capacity s = .error .align :=
  (if_neg h1).trans ((if_neg h2).trans (if_pos h))

variable (h3 : ¬badAlign op g = true)
include h3

theorem firstChecks_of_tagInUse (h : s.tagInUse g.source g.tag = true) : firstChecks op g capacity s = .error .tagInUse :=
  (if_neg h1).trans ((if_neg h2).trans ((if_neg h3).trans (if_pos h)))

variable (h4 : ¬s.tagInUse g.source g.tag = true)
include h4

theorem firstChecks_of_noWindow (h : s.resolve g.addr.toNat g.total.toNat = none) :
    firstChecks op g capacity s = .error .noWindow := by
  refine (if_neg h1).trans ((if_neg h2).trans ((if_neg h3).trans ((if_neg h4).trans ?_)))
  simp only [h]

theorem firstChecks_of_window {w : Nat} (h : s.resolve g.addr.toNat g.total.toNat = some w) :
    firstChecks op g capacity s = if (s.window w).permits op g.source then .ok w else .error .denied := by
  refine (if_neg h1).trans ((if_neg h2).trans ((if_neg h3).trans ((if_neg h4).trans ?_)))
  simp only [h]

end

/-! ### A request segment at the intake -/

section
variable {op : ReqOp} {index : Byte} {capacity : Nat} {g : Segment} {s : State}

theorem intakeFirst_of_error {status : Status} (h : firstChecks op g capacity s = .error status) :
    intakeFirst op index capacity g s = reject index g status s := by
  simp only [intakeFirst, h]

theorem intakeFirst_of_no_entry {w : Nat} (h : firstChecks op g capacity s = .ok w) (hn : s.entriesIn .free = []) :
    intakeFirst op index capacity g s = refuse index g s := by
  simp only [intakeFirst, h, hn]

theorem intakeFirst_of_entry {w i : Nat} {rest : List Nat} (h : firstChecks op g capacity s = .ok w)
    (hi : s.entriesIn .free = i :: rest) : intakeFirst op index capacity g s
      = if s.freeBlocks.length < blocksNeeded op g.total.toNat then refuse index g s
        else (decideIfQueued i (allocate i op g w (s.freeBlocks.take (blocksNeeded op g.total.toNat)) s), true) := by
  simp only [intakeFirst, h, hi]

theorem reject_of_none {status : Status} (h : s.freeDescriptors = []) : reject index g status s = refuse index g s := by
  simp only [reject, h]

theorem reject_of_free {status : Status} {d : Nat} {rest : List Nat} (h : s.freeDescriptors = d :: rest) :
    reject index g status s = (if status = .orphan then
        report (g.reportOf .orphan index) (countTaken (queueShortReply d (g.shortReply status) s))
      else countTaken (queueShortReply d (g.shortReply status) s), true) := by
  simp only [reject, h]

end

theorem segmentRequest_first (op : ReqOp) (g : SegSlot) : (op.first g).segmentRequest = some (g, op, 0) := by
  cases op <;> rfl

/-- A first segment that comes to the checks. -/
theorem exec_first {op : ReqOp} {g : SegSlot} {s : State} (h : g.reaches 0 s) {r : State × Bool}
    (hr : intakeFirst op g.index (capacityOf g.size) (g.arrived op 0) (s.withPrevIndex (some g.index)) = r) :
    exec (op.first g) s = .next (if r.2 then g.consumed s r.1 else g.left op 0 r.1) := by
  rw [exec_of_segmentRequest (segmentRequest_first op g), g.reaches_intake op h, if_pos rfl, hr]

/-- A later segment that comes to the checks. -/
theorem exec_later {op : ReqOp} {g : SegSlot} {offset : Half} {s : State} (h0 : offset ≠ 0) (h : g.reaches offset s)
    {r : State × Bool}
    (hr : intakeLater op g.index (capacityOf g.size) (g.arrived op offset) (s.withPrevIndex (some g.index)) = r) :
    exec (.laterSegment op offset g) s = .next (if r.2 then g.consumed s r.1 else g.left op offset r.1) := by
  rw [exec_of_segmentRequest (c := .laterSegment op offset g) rfl, g.reaches_intake op h, if_neg h0, hr]

end Sys2Proof.Machine
end

section
/-! PROOFS. First segments (spec/03, R45 to R60, R71). -/

namespace Sys2Proof.Machine

theorem lastFlag_iff {flags : Byte} (h : flags &&& 0xFE = 0) : flags.getLsbD 0 = true ↔ flags = 1 := by
  revert flags
  decide

/-! ### A segment that passes the checks -/

section
variable {op : ReqOp} {g : SegSlot} {w : Nat} {s : State} (h : g.passes op w s)
include h

theorem badRequest_of_passes : ¬badRequest op (g.arrived op 0) (capacityOf g.size) = true := by
  obtain ⟨hstatus, hflags, hcount, _, _, _, hop, _⟩ := h
  have hlast : (g.arrived op 0).last = true ↔ g.flags = 1 := lastFlag_iff hflags
  have hset : g.flags = 1 → ¬(g.arrived op 0).last = false := fun h1 hf => by
    rw [hlast.2 h1] at hf
    cases hf
  rw [badRequest_iff]
  rintro (h | h | h | ⟨rfl, h⟩ | ⟨hw, h⟩ | ⟨hw, h⟩ | ⟨rfl, h⟩)
  · exact h hstatus
  · exact h hflags
  · exact absurd hcount (Nat.not_le.2 h)
  · obtain ⟨h0, h1⟩ := hop
    exact h.elim (fun h => h (congrArg BitVec.toNat h0)) (hset h1)
  · have hwrite : 1 ≤ g.count.toNat ∧ g.count.toNat ≤ g.total.toNat ∧ (g.flags = 1 ↔ g.count = g.total) := by
      cases op with
      | write => exact hop
      | writeQuiet => exact hop
      | _ => cases hw
    obtain ⟨h1, _, hiff⟩ := hwrite
    rcases h with h | ⟨hl, hlt⟩ | ⟨hl, heq⟩
    · exact absurd h1 (by rw [show g.count.toNat = 0 from h]; decide)
    · have hlt : g.count.toNat < g.total.toNat := hlt
      rw [hiff.1 (hlast.1 hl)] at hlt
      exact Nat.lt_irrefl _ hlt
    · exact hset (hiff.2 (BitVec.eq_of_toNat_eq heq)) hl
  · have hswap : g.count = g.total ∧ g.flags = 1 := by
      rcases hw with rfl | rfl
      · exact hop
      · exact hop
    exact h.elim (fun h => h (congrArg BitVec.toNat hswap.1)) (hset hswap.2)
  · obtain ⟨h2, h1⟩ := hop
    exact h.elim (fun h => h h2) (hset h1)

theorem badLength_of_passes : ¬badLength op (g.arrived op 0) = true := by
  obtain ⟨_, _, _, h1, h1024, haddr, hop, _⟩ := h
  rw [badLength_iff]
  rintro (h | h | ⟨hw, h⟩ | h)
  · exact absurd h1 (by rw [show g.total.toNat = 0 from h]; decide)
  · exact absurd h1024 (Nat.not_le.2 h)
  · have hle : g.count.toNat ≤ g.total.toNat := by
      cases op with
      | write => exact hop.2.1
      | writeQuiet => exact hop.2.1
      | _ => cases hw
    exact absurd hle (Nat.not_le.2 h)
  · exact absurd haddr (Nat.not_le.2 h)

theorem badAlign_of_passes : ¬badAlign op (g.arrived op 0) = true := by
  obtain ⟨_, _, _, _, _, _, _, hlocked, _⟩ := h
  rw [badAlign_iff]
  rintro ⟨hl, h⟩
  obtain ⟨htotal, hmod⟩ := hlocked hl
  rcases h with ⟨h1, h2, h4⟩ | h
  · rcases htotal with ht | ht | ht
    · exact h1 (congrArg BitVec.toNat ht)
    · exact h2 (congrArg BitVec.toNat ht)
    · exact h4 (congrArg BitVec.toNat ht)
  · exact h hmod

theorem tagInUse_of_passes : ¬s.tagInUse g.source g.tag = true := by
  obtain ⟨_, _, _, _, _, _, _, _, hfree, _⟩ := h
  rw [tagInUse_iff]
  rintro ⟨i, hopen, hnames⟩
  exact hfree i hopen hnames

theorem permits_of_passes : (s.window w).permits op g.source = true := by
  obtain ⟨_, _, _, _, _, _, _, _, _, _, _, _, howner, hattrs⟩ := h
  rw [permits_iff]
  refine ⟨fun hr => ?_, fun hw => ?_, fun hl => ?_, fun n hn => ?_⟩
  · subst hr
    exact hattrs
  · cases op with
    | write => exact hattrs
    | writeQuiet => exact hattrs
    | _ => cases hw
  · cases op with
    | swap => exact hattrs
    | add => exact hattrs
    | cswap => exact hattrs
    | _ => cases hl
  · rcases howner with ho | ho
    · rw [ho] at hn
      cases hn
    · rw [ho] at hn
      exact (Option.some.inj hn).symm

theorem resolve_of_passes (hlaw : s.windowLaw) : s.resolve g.addr.toNat g.total.toNat = some w := by
  obtain ⟨_, _, _, h1, _, _, _, _, _, hvalid, hbase, hlimit, _⟩ := h
  have hl : (s.window w).limit = (s.window w).base.toNat + 256 * (s.window w).size.toNat := rfl
  exact (resolve_eq_some_iff hlaw).2 ⟨(holds_iff _ _).2 ⟨hvalid, hbase, by omega⟩,
    (holds_iff _ _).2 ⟨hvalid, by omega, by omega⟩⟩

/-- It passes all the checks, in its window. -/
theorem firstChecks_of_passes (hlaw : s.windowLaw) : firstChecks op (g.arrived op 0) (capacityOf g.size)
    (s.withPrevIndex (some g.index)) = .ok w := by
  refine (firstChecks_of_window (s := s.withPrevIndex (some g.index)) (badRequest_of_passes h) (badLength_of_passes h)
    (badAlign_of_passes h) (tagInUse_of_passes h) (resolve_of_passes h hlaw)).trans ?_
  exact if_pos (permits_of_passes h)

end

/-! ### Allocation -/

/-- Settles O37: allocation, and the Bus Engine's decision where the transaction is complete. -/
theorem firstSegmentsOpenTransactions : Obligations.FirstSegmentsOpenTransactions := by
  intro op g s w i blocks h hpass hlaw hoffers received queued e u
  obtain ⟨hl, hi, hlow, hneed, rfl⟩ := hoffers
  let t := s.withPrevIndex (some g.index)
  obtain ⟨rest, hentries⟩ := freeEntries_of_lowest (s := t) hl hi hlow
  have hintake := (intakeFirst_of_entry (index := g.index) (firstChecks_of_passes hpass hlaw) hentries).trans
    (if_neg (Nat.not_lt.2 hneed))
  have hexec := exec_first h hintake
  have hentry : e = newEntry op (g.arrived op 0) w (s.freeBlocks.take (blocksNeeded op g.total.toNat)) := by
    simp only [newEntry, Bool.and_eq_true, decide_eq_true_eq]
    rfl
  have hallocated : allocate i op (g.arrived op 0) w (s.freeBlocks.take (blocksNeeded op g.total.toNat)) t = u := by
    have henrol : t.table.enrol i (decide (e.state = .queued)) = if op.isWrite = true ∧ received < g.total.toNat then s.table.requests
        else s.table.requests ++ [i] := by
      by_cases hw : op.isWrite = true ∧ received < g.total.toNat
      · rw [if_pos hw, show e.state = .assembling from if_pos hw]
        rfl
      · rw [if_neg hw, show e.state = .queued from if_neg hw]
        rfl
    rw [allocate, ← hentry, henrol]
    rfl
  have hself : u.entry i = e := by
    show (s.table.entries.set i e).getD i Entry.initial = e
    rw [List.getD_eq_getElem _ _ (by simpa using hl), List.getElem_set_self]
  have hdecided : ∀ {v : State}, decideIfQueued i u = v → exec (op.first g) s = .next (g.consumed s v) := fun hv => by
    rw [hexec, ← hv, ← hallocated]
    rfl
  refine ⟨fun hq => hdecided (if_pos ?_), fun hq => hdecided (if_neg ?_)⟩
  · rw [hself]
    exact if_neg hq
  · rw [hself, show e.state = .assembling from if_pos (not_not.1 hq)]
    simp

end Sys2Proof.Machine
end

section
/-! PROOFS. First segments that are turned down (spec/03, R50 to R60). -/

namespace Sys2Proof.Machine

/-! ### Refusal by the bridge state (R50) -/

/-- A segment that the intake leaves stays in its slot, whatever else the intake has done. -/
theorem applyAction_of_left {a : Arrival} {action : Action} {filter : Option Byte} {s u : State}
    (hact : action = .take ∨ action = .both) (hstrip : stripStep a.index a.image s = (s, a.image))
    (hintake : intakeStep filter a a.image s = (u, a.image)) (hk : a.kind ≠ .void) :
    applyAction action filter a s = (u, a.image) := by
  rcases hact with rfl | rfl
  · exact hintake
  · rw [applyAction, Arrival.strip, hstrip, Arrival.intake, hintake]
    exact fillStep_of_not_void _ _ _ hk

theorem intakeSegment_of_refused {filter : Option Byte} {index : Byte} {capacity : Nat} {g : Segment} {s : State} {op : ReqOp}
    (hreq : s.requestFor g = some op) (hf : filterAdmits filter g.source = true) (hb : s.bridge.state.refuses g.offset = true) :
    intakeSegment filter index capacity g s = refuse index g s := by
  rw [intakeSegment, hreq]
  exact (if_neg (by simp [hf])).trans (if_pos hb)

section
variable {g : SegSlot} {s : State} (h : g.presented s)
include h

theorem requestFor_of_presented (op : ReqOp) (offset : Half) : s.requestFor (g.arrived op offset) = some op := by
  obtain ⟨_, _, _, _, _, hnode, hdest, hsource⟩ := h
  exact (if_pos ⟨hnode, hdest, (isNode_iff _).1 hsource⟩).trans (ReqOp.ofCode_code op)

theorem filterAdmits_of_presented : filterAdmits (s.activeEntry g.index).source g.source = true := by
  obtain ⟨_, _, _, _, hsource, _⟩ := h
  rcases hsource with hs | hs
  · rw [hs]
    rfl
  · rw [hs]
    exact decide_eq_true rfl

theorem matchesChannel_of_presented : (s.activeEntry g.index).matchesChannel g.channel = true := by
  obtain ⟨_, _, hchannel, _⟩ := h
  rcases hchannel with hc | hc
  · simp [SchedEntry.matchesChannel, hc]
  · simp [SchedEntry.matchesChannel, hc]

/-- A request segment that the bridge state refuses is left (R50, R58). -/
theorem exec_refused {c : Instr} {op : ReqOp} {offset : Half} (hc : c.segmentRequest = some (g, op, offset))
    (hb : s.bridge.state.refuses offset = true) : exec c s = .next (g.left op offset (report
      { kind := .refused, index := some g.index, node := some g.source, tag := some g.tag, addr := some g.addr }
      { s with prevIndex := some g.index })) := by
  have ⟨hfits, hadmits, _, hact, _⟩ := h
  obtain ⟨hrange, hchannel, _⟩ := headerInRange_of_segFits hfits
  let t := s.withPrevIndex (some g.index)
  let a := g.arrival op offset
  have hsegment : Segment.ofBytes a.image.payload = g.arrived op offset := g.ofBytes_arrival op offset
  have hstrip : stripStep a.index a.image t = (t, a.image) := stripStep_of_not_own _ fun ho => by
    rw [hsegment] at ho
    exact ReqOp.code_ne_reply op ho.2
  have hintake : intakeStep (s.activeEntry g.index).source a a.image t
      = ((refuse g.index (g.arrived op offset) t).1, a.image) := by
    have hseg := intakeSegment_of_refused (index := a.index) (capacity := a.capacity) (s := t)
      (requestFor_of_presented h op offset) (filterAdmits_of_presented h) hb
    rw [intakeStep, if_pos (show a.image.kind = .data from rfl), hsegment, hseg]
    rfl
  have hscheduled : scheduledSlot a t = ((refuse g.index (g.arrived op offset) t).1, a.image) :=
    (if_pos (matchesChannel_of_presented h)).trans (applyAction_of_left hact hstrip hintake (by simp [a, SegSlot.arrival, arrivalOf]))
  rw [exec_of_segmentRequest hc, exec_arrive _ hadmits.1, slotArrival_presented _ hadmits.2.1 hadmits.2.2.1,
    presentSlot_admitted (a := a) hrange hadmits, inSequenceSlot_scheduled (a := a) _ rfl hchannel,
    show scheduledSlot a (s.withPrevIndex (some a.index)) = _ from hscheduled, forwarded_image]
  rfl

end

/-! ### The slot of a first segment that is refused or rejected -/

section
variable {op : ReqOp} {g : SegSlot} {s : State} (h : g.reaches 0 s)
include h

theorem exec_first_refused (hr : intakeFirst op g.index (capacityOf g.size) (g.arrived op 0) (s.withPrevIndex (some g.index))
      = refuse g.index (g.arrived op 0) (s.withPrevIndex (some g.index))) :
    exec (op.first g) s = .next (g.left op 0 (report
      { kind := .refused, index := some g.index, node := some g.source, tag := some g.tag, addr := some g.addr }
      { s with prevIndex := some g.index })) := exec_first h hr

/-- A first segment that fails a check (R60): its short reply is queued where a descriptor is free. -/
theorem exec_first_rejected {status : Status} (hlen : s.descriptors.length = 4) (hne : status ≠ .orphan)
    (hcheck : firstChecks op (g.arrived op 0) (capacityOf g.size) (s.withPrevIndex (some g.index)) = .error status) :
    (∀ d, s.descriptor d = none → d < 4 → (∀ k, k < d → s.descriptor k ≠ none) →
      exec (op.first g) s = .next (g.consumed s { s with
        prevIndex := some g.index
        descriptors := s.descriptors.set d (some
          { requester := g.source, tag := g.tag, status := status, total := g.total, addr := g.addr })
        replyQueue := s.replyQueue ++ [.desc d]
        reports := { s.reports with
          counters := { s.reports.counters with segmentsTaken := s.reports.counters.segmentsTaken + 1 } } }))
    ∧ ((∀ d, d < 4 → s.descriptor d ≠ none) → exec (op.first g) s = .next (g.left op 0 (report
        { kind := .refused, index := some g.index, node := some g.source, tag := some g.tag, addr := some g.addr }
        { s with prevIndex := some g.index }))) := by
  have hintake := intakeFirst_of_error (index := g.index) hcheck
  refine ⟨fun d hd hl hlow => ?_, fun hfull => ?_⟩
  · obtain ⟨rest, hrest⟩ := freeDescriptors_of_lowest (s := s.withPrevIndex (some g.index)) hlen hd hl hlow
    rw [reject_of_free hrest, if_neg hne] at hintake
    exact exec_first h hintake
  · rw [reject_of_none (freeDescriptors_of_none (s := s.withPrevIndex (some g.index)) hlen hfull)] at hintake
    exact exec_first_refused h hintake

end

/-- Settles O38: the first check that fails, the bridge state, and the want of an entry or of blocks. -/
theorem firstSegmentsAreTurnedDown : Obligations.FirstSegmentsAreTurnedDown := by
  refine ⟨?rejected, fun c g op offset s hc h hb => ?refused, fun op g s w h hpass hlaw hwant => ?want⟩
  case rejected =>
    intro op g s h hlaw hlen count total addr last bad length align inUse inWindow permits fails status hfails
    let t := s.withPrevIndex (some g.index)
    have hbad : badRequest op (g.arrived op 0) (capacityOf g.size) = true ↔ bad := badRequest_iff _ _ _
    have hlength : badLength op (g.arrived op 0) = true ↔ length := badLength_iff _ _
    have halign : badAlign op (g.arrived op 0) = true ↔ align := badAlign_iff _ _
    have huse : t.tagInUse g.source g.tag = true ↔ inUse := tagInUse_iff t _ _
    have hcheck : firstChecks op (g.arrived op 0) (capacityOf g.size) t = .error status ∧ status ≠ .orphan := by
      rcases hfails with ⟨h1, rfl⟩ | ⟨h1, h2, rfl⟩ | ⟨h1, h2, h3, rfl⟩ | ⟨h1, h2, h3, h4, rfl⟩ | ⟨h1, h2, h3, h4, h5, rfl⟩
        | ⟨h1, h2, h3, h4, ⟨w, hw, hdenied⟩, rfl⟩
      · exact ⟨firstChecks_of_badRequest (hbad.2 h1), by simp⟩
      · exact ⟨firstChecks_of_badLength (mt hbad.1 h1) (hlength.2 h2), by simp⟩
      · exact ⟨firstChecks_of_badAlign (mt hbad.1 h1) (mt hlength.1 h2) (halign.2 h3), by simp⟩
      · exact ⟨firstChecks_of_tagInUse (mt hbad.1 h1) (mt hlength.1 h2) (mt halign.1 h3) (huse.2 h4), by simp⟩
      · have hnone : t.resolve g.addr.toNat g.total.toNat = none := by
          cases hr : t.resolve g.addr.toNat g.total.toNat with
          | none => rfl
          | some w => exact absurd ((resolve_eq_some_iff (s := t) hlaw).1 hr) (h5 w)
        exact ⟨firstChecks_of_noWindow (mt hbad.1 h1) (mt hlength.1 h2) (mt halign.1 h3) (mt huse.1 h4) hnone, by simp⟩
      · have hpermits : ¬(t.window w).permits op g.source = true := mt (permits_iff _ _ _).1 hdenied
        exact ⟨(firstChecks_of_window (mt hbad.1 h1) (mt hlength.1 h2) (mt halign.1 h3) (mt huse.1 h4)
          ((resolve_eq_some_iff (s := t) hlaw).2 hw)).trans (if_neg hpermits), by simp⟩
    exact exec_first_rejected h hlen hcheck.2 hcheck.1
  case refused =>
    refine exec_refused h hc ?_
    rcases hb with hb | ⟨hb, h0⟩
    · rw [hb]
      rfl
    · rw [hb]
      exact decide_eq_true h0
  case want =>
    have hcheck := firstChecks_of_passes hpass hlaw
    refine exec_first_refused h ?_
    rcases hwant with hnone | hblocks
    · exact intakeFirst_of_no_entry hcheck (indexesOf_eq_nil fun e he => decide_eq_false (hnone e he))
    · cases hfree : (s.withPrevIndex (some g.index)).entriesIn .free with
      | nil => exact intakeFirst_of_no_entry hcheck hfree
      | cons i rest => exact (intakeFirst_of_entry hcheck hfree).trans (if_pos hblocks)

end Sys2Proof.Machine
end

section
/-! PROOFS. Later segments (spec/03, section 3.5; R62 to R65). -/

namespace Sys2Proof.Machine

/-! ### The write that a later segment belongs to (R62) -/

section
variable {s : State} {source tag : Byte}

theorem assembling_of_mine {i : Nat} (hlaw : s.pairLaw) (hs : (s.entry i).state = .assembling)
    (hsource : (s.entry i).source = source) (htag : (s.entry i).tag = tag) : s.assembling source tag = some i := by
  have hopen : (s.entry i).state ≠ .free := by simp [hs]
  have hl := entry_lt hopen
  have hget : s.table.entries[i]? = some (s.entry i) := by
    rw [List.getElem?_eq_getElem hl, State.entry, List.getD_eq_getElem _ _ hl]
  refine indexesOf_head?_of_unique hget (by simp [hs, Entry.names, hsource, htag]) fun j b hb hp => ?_
  obtain ⟨_, hnames⟩ := (Bool.and_eq_true _ _).mp hp
  obtain ⟨hj, hjs, hjt⟩ := (names_iff _ _ _).1 hnames
  have hbj : s.entry j = b := getElem?_of_getD hb
  exact hlaw j i (hbj ▸ hj) hopen (by rw [hbj, hjs, hsource]) (by rw [hbj, hjt, htag])

theorem assembling_of_none (h : ∀ i, ¬((s.entry i).state = .assembling ∧ (s.entry i).source = source ∧ (s.entry i).tag = tag)) :
    s.assembling source tag = none := by
  have hnil : indexesOf (fun e => decide (e.state = .assembling) && e.names source tag) s.table.entries = [] :=
    indexesOf_eq_nil fun e he => Bool.eq_false_iff.2 fun hp => by
      obtain ⟨i, hl, rfl⟩ := List.getElem_of_mem he
      obtain ⟨hs, hnames⟩ := (Bool.and_eq_true _ _).mp hp
      obtain ⟨_, hsource, htag⟩ := (names_iff _ _ _).1 hnames
      have hi : s.entry i = s.table.entries[i] := List.getD_eq_getElem _ _ hl
      exact h i (hi ▸ ⟨of_decide_eq_true hs, hsource, htag⟩)
  rw [State.assembling, hnil]
  rfl

end

/-! ### Its judgement (R63 to R65) -/

theorem inconsistent_iff (e : Entry) (op : ReqOp) (g : Segment) (capacity : Nat) : inconsistent e op g capacity = true
    ↔ op ≠ e.op ∨ g.total.toNat ≠ e.total ∨ g.addr ≠ e.addr ∨ g.status ≠ 0 ∨ g.flags &&& 0xFE ≠ 0
      ∨ capacity < g.count.toNat ∨ e.total < g.offset.toNat + g.count.toNat
      ∨ g.last = true ∧ g.offset.toNat + g.count.toNat < e.total ∨ g.last = false ∧ g.offset.toNat + g.count.toNat = e.total := by
  simp [inconsistent, Segment.reservedFlags, or_assoc]

section
variable {i : Nat} {op : ReqOp} {index : Byte} {capacity : Nat} {g : Segment} {s : State}

theorem judgeLater_of_inconsistent (h : inconsistent (s.entry i) op g capacity = true) :
    judgeLater i op index capacity g s = endSequence i index g s := if_pos h

variable (hc : ¬inconsistent (s.entry i) op g capacity = true)
include hc

theorem judgeLater_of_duplicate (h : g.offset.toNat + g.count.toNat ≤ (s.entry i).received) :
    judgeLater i op index capacity g s = s := (if_neg hc).trans (if_pos h)

theorem judgeLater_of_append (h1 : (s.entry i).received < g.offset.toNat + g.count.toNat)
    (h2 : g.offset.toNat ≤ (s.entry i).received) :
    judgeLater i op index capacity g s = decideIfQueued i (appendSegment i g s) :=
  (if_neg hc).trans ((if_neg (Nat.not_le.2 h1)).trans (if_pos h2))

theorem judgeLater_of_gap (h : (s.entry i).received < g.offset.toNat) :
    judgeLater i op index capacity g s = endSequence i index g s :=
  (if_neg hc).trans ((if_neg (Nat.not_le.2 (Nat.lt_of_lt_of_le h (Nat.le_add_right _ _)))).trans (if_neg (Nat.not_le.2 h)))

end

/-- A write ended without execution, block by block. -/
theorem answerUnexecuted_set (i : Nat) (st : Status) (u : State) : answerUnexecuted i st u
    = { u with
        table := { u.table with
          entries := u.table.entries.set i { u.entry i with state := .replying, final := some st, done := 0, deadline := 0 }
          requests := u.table.requests.filter (fun j => decide (j ≠ i)) }
        windows := u.windows.modify (u.entry i).window (fun w => { w with inUse := w.inUse - 1 })
        replyQueue := u.replyQueue ++ [.entry i] } := by
  have hset := modify_eq_set u.table.entries i
    (fun e => { e with state := .replying, final := some st, done := 0, deadline := 0 }) Entry.initial
  show State.withReplyQueue (State.withTable (releaseWindow i u) { u.table with
      entries := u.table.entries.modify i (fun e => { e with state := .replying, final := some st, done := 0, deadline := 0 })
      requests := u.table.requests.filter (fun j => decide (j ≠ i)) }) _ = _
  rw [hset]
  rfl

/-- An append, block by block (R64, R71). -/
theorem appendSegment_set (i : Nat) (g : Segment) (u : State) : appendSegment i g u
    = { u with
        table := { u.table with
          entries := u.table.entries.set i { u.entry i with
            received := g.offset.toNat + g.count.toNat, gap := 0
            state := if g.offset.toNat + g.count.toNat = (u.entry i).total then .queued else (u.entry i).state }
          requests := if g.offset.toNat + g.count.toNat = (u.entry i).total then u.table.requests ++ [i] else u.table.requests
          pool := poolWriteRun (u.entry i).poolAddr (u.entry i).received
            ((g.data.take g.count.toNat).drop ((u.entry i).received - g.offset.toNat)) u.table.pool } } := by
  simp only [appendSegment, Table.enrol, State.writeTx, State.withPool, withTable_table, decide_eq_true_eq]
  rw [modify_eq_set _ i _ Entry.initial]
  rfl

theorem decideIfQueued_appendSegment {i : Nat} {g : Segment} {u : State} (h : (u.entry i).state = .assembling) :
    decideIfQueued i (appendSegment i g u)
      = if g.offset.toNat + g.count.toNat = (u.entry i).total then arbitrate (appendSegment i g u) else appendSegment i g u := by
  have hself : ((appendSegment i g u).entry i).state
      = if g.offset.toNat + g.count.toNat = (u.entry i).total then .queued else (u.entry i).state :=
    congrArg Entry.state ((appendSegment_entry i g u (by simp [h]) i).trans (if_pos rfl))
  rw [decideIfQueued, hself]
  by_cases hstop : g.offset.toNat + g.count.toNat = (u.entry i).total
  · rw [if_pos hstop, if_pos hstop, if_pos rfl]
  · rw [if_neg hstop, if_neg hstop, if_neg (by simp [h])]

/-- A later segment that finds its entry is taken. -/
theorem exec_later_mine {op : ReqOp} {offset : Half} {g : SegSlot} {s : State} {i : Nat} (h0 : offset ≠ 0)
    (h : g.reaches offset s) (ha : s.assembling g.source g.tag = some i) :
    exec (.laterSegment op offset g) s = .next (g.consumed s (judgeLater i op g.index (capacityOf g.size) (g.arrived op offset)
      (countTaken (s.withPrevIndex (some g.index))))) := by
  have ha : (s.withPrevIndex (some g.index)).assembling (g.arrived op offset).source (g.arrived op offset).tag = some i := ha
  have hlater : intakeLater op g.index (capacityOf g.size) (g.arrived op offset) (s.withPrevIndex (some g.index))
      = (judgeLater i op g.index (capacityOf g.size) (g.arrived op offset) (countTaken (s.withPrevIndex (some g.index))), true) := by
    simp only [intakeLater, ha]
  exact exec_later h0 h hlater

/-- Settles O39: the judgement of R63 to R65 on the write, and the orphan. -/
theorem laterSegmentsAreJudged : Obligations.LaterSegmentsAreJudged := by
  intro op offset g s h0 h c start stop last t mine
  refine ⟨fun i hi hlaw => ?mine, fun hnone hlen => ?orphan⟩
  case mine =>
    intro e bad
    obtain ⟨hstate, hsource, htag⟩ := hi
    have hexec : ∀ {v : State}, judgeLater i op g.index (capacityOf g.size) (g.arrived op offset) t = v →
        exec c s = .next (g.consumed s v) := fun hv => by
      rw [exec_later_mine h0 h (assembling_of_mine hlaw hstate hsource htag), ← hv]
      rfl
    have hbad : inconsistent (t.entry i) op (g.arrived op offset) (capacityOf g.size) = true ↔ bad := inconsistent_iff _ _ _ _
    refine ⟨fun hend => ?_, fun hn hle hdup => ?_, fun hn hle hnew => ?_⟩
    · have hjudged : judgeLater i op g.index (capacityOf g.size) (g.arrived op offset) t
          = endSequence i g.index (g.arrived op offset) t := by
        by_cases hb : bad
        · exact judgeLater_of_inconsistent (hbad.2 hb)
        · exact judgeLater_of_gap (mt hbad.1 hb) (hend.resolve_left hb)
      rw [endSequence, answerUnexecuted_set] at hjudged
      exact hexec hjudged
    · exact hexec (judgeLater_of_duplicate (mt hbad.1 hn) hdup)
    · have hjudged := judgeLater_of_append (index := g.index) (mt hbad.1 hn) hnew hle
      have hstate' : (t.entry i).state = .assembling := hstate
      rw [decideIfQueued_appendSegment hstate', appendSegment_set, hstate'] at hjudged
      exact hexec hjudged
  case orphan =>
    let v := s.withPrevIndex (some g.index)
    have hassembling : v.assembling (g.arrived op offset).source (g.arrived op offset).tag = none := assembling_of_none hnone
    have hlater : intakeLater op g.index (capacityOf g.size) (g.arrived op offset) v
        = reject g.index (g.arrived op offset) .orphan v := by
      simp only [intakeLater, hassembling]
    refine ⟨fun d hd hl hlow => ?_, fun hfull => ?_⟩
    · obtain ⟨rest, hrest⟩ := freeDescriptors_of_lowest (s := v) hlen hd hl hlow
      rw [reject_of_free hrest, if_pos rfl] at hlater
      exact exec_later h0 h hlater
    · rw [reject_of_none (freeDescriptors_of_none (s := v) hlen hfull)] at hlater
      exact exec_later h0 h hlater

end Sys2Proof.Machine
end

section
/-! PROOFS. The Data Pool holds the transactions' bytes (R77, R78, R104, R107, R109; log 7). -/

namespace Sys2Proof.Machine

/-! ### Many writes of the pool -/

/-- The pool after a write of the byte `val a` at the address `addr a` for each `a` of a list. -/
def poolWrites {α : Type} (addr : α → Nat) (val : α → Byte) (l : List α) (pool : List Host.Cell) : List Host.Cell :=
  l.foldl (fun pool a => poolWrite pool (addr a) (val a)) pool

theorem poolWriteRun_eq (addr : Nat → Nat) (k : Nat) (bytes : List Byte) (pool : List Host.Cell) :
    poolWriteRun addr k bytes pool
      = poolWrites (fun j => addr (k + j)) (byteAt bytes) (List.range bytes.length) pool := by
  induction bytes generalizing k pool with
  | nil => rfl
  | cons x xs ih =>
    have hshift : ∀ j, k + 1 + j = k + (j + 1) := fun j => by omega
    rw [poolWriteRun, ih, List.length_cons, poolWrites, poolWrites, List.range_succ_eq_map, List.foldl_cons, List.foldl_map]
    simp only [hshift]
    rfl

section
variable {α : Type} {addr : α → Nat} {val : α → Byte} {l : List α} {pool : List Host.Cell} {c : Nat}

/-- A value that the address holds, and that alone is written there, stays. -/
theorem poolRead_poolWrites_kept (hw : Memory.wf pool = true) (h : ∀ a ∈ l, addr a = c → val a = poolRead pool c) :
    poolRead (poolWrites addr val l pool) c = poolRead pool c := by
  induction l generalizing pool with
  | nil => rfl
  | cons a l ih =>
    have hread := poolRead_poolWrite pool (addr a) c (val a) hw
    have hsame : poolRead (poolWrite pool (addr a) (val a)) c = poolRead pool c := by
      rw [hread]
      split
      next hc => exact h a List.mem_cons_self hc.symm
      next => rfl
    refine (ih (poolWrite_wf pool (addr a) (val a) hw) fun b hb hc => ?_).trans hsame
    rw [hsame]
    exact h b (List.mem_cons_of_mem _ hb) hc

/-- An address that is not written keeps its byte. -/
theorem poolRead_poolWrites_other (hw : Memory.wf pool = true) (h : ∀ a ∈ l, addr a ≠ c) :
    poolRead (poolWrites addr val l pool) c = poolRead pool c :=
  poolRead_poolWrites_kept hw fun a ha hc => absurd hc (h a ha)

/-- An address that is written holds its byte, where no other byte is written there. -/
theorem poolRead_poolWrites_same (hw : Memory.wf pool = true) {a : α} (ha : a ∈ l)
    (h : ∀ b ∈ l, addr b = addr a → val b = val a) : poolRead (poolWrites addr val l pool) (addr a) = val a := by
  induction l generalizing pool with
  | nil => cases ha
  | cons b l ih =>
    have hwf := poolWrite_wf pool (addr b) (val b) hw
    rcases List.mem_cons.1 ha with rfl | ha
    · have hread : poolRead (poolWrite pool (addr a) (val a)) (addr a) = val a := by
        rw [poolRead_poolWrite _ _ _ _ hw, if_pos rfl]
      refine (poolRead_poolWrites_kept hwf fun b hb hc => ?_).trans hread
      rw [hread]
      exact h b (List.mem_cons_of_mem _ hb) hc
    · exact ih hwf ha fun b hb => h b (List.mem_cons_of_mem _ hb)

end

/-! ### The places of a transaction's bytes (R78) -/

section
variable {e f : Entry} {j k : Nat}

theorem poolAddr_eq (e : Entry) (k : Nat) : e.poolAddr k = 256 * e.blocks.getD (k / 256) 0 + k % 256 := rfl

theorem block_mem (hk : k < 256 * e.blocks.length) : e.blocks.getD (k / 256) 0 ∈ e.blocks := by
  have hl : k / 256 < e.blocks.length := by omega
  rw [List.getD_eq_getElem _ _ hl]
  exact List.getElem_mem hl

/-- Different bytes of an entry lie at different addresses. -/
theorem poolAddr_inj (hn : e.blocks.Nodup) (hj : j < 256 * e.blocks.length) (hk : k < 256 * e.blocks.length)
    (h : e.poolAddr j = e.poolAddr k) : j = k := by
  have hjl : j / 256 < e.blocks.length := by omega
  have hkl : k / 256 < e.blocks.length := by omega
  rw [poolAddr_eq, poolAddr_eq, List.getD_eq_getElem _ _ hjl, List.getD_eq_getElem _ _ hkl] at h
  have hblock : e.blocks[j / 256] = e.blocks[k / 256] := by omega
  have hindex := (List.Nodup.getElem_inj_iff hn).1 hblock
  omega

/-- Entries with no block in common have no address in common. -/
theorem poolAddr_ne (hd : ∀ b ∈ f.blocks, b ∉ e.blocks) (hj : j < 256 * f.blocks.length) (hk : k < 256 * e.blocks.length) :
    f.poolAddr j ≠ e.poolAddr k := by
  intro h
  rw [poolAddr_eq, poolAddr_eq] at h
  have hblock : f.blocks.getD (j / 256) 0 = e.blocks.getD (k / 256) 0 := by omega
  exact hd _ (block_mem hj) (hblock ▸ block_mem hk)

end

section
variable {s : State} {e : Entry} {k : Nat} {bytes : List Byte}

theorem writeTx_txByte (s : State) (e f : Entry) (k j : Nat) (bytes : List Byte) : (s.writeTx e k bytes).txByte f j
    = poolRead (poolWrites (fun i => e.poolAddr (k + i)) (byteAt bytes) (List.range bytes.length) s.table.pool) (f.poolAddr j) := by
  rw [← poolWriteRun_eq]
  rfl

theorem writeTx_txByte_other (hw : s.poolLaw) {f : Entry} {j : Nat}
    (h : ∀ i, i < bytes.length → e.poolAddr (k + i) ≠ f.poolAddr j) : (s.writeTx e k bytes).txByte f j = s.txByte f j := by
  rw [writeTx_txByte]
  exact poolRead_poolWrites_other hw fun i hi => h i (List.mem_range.1 hi)

end

/-! ### What a read beat places (R104, R107) -/

theorem placeRead_of_write (e : Entry) {b : Beat} (lanes : List Nat) (data : LaneData) (s : State) (h : b.write = true) :
    placeRead e b lanes data s = s := if_pos h

section
variable {s : State} {e : Entry} {b : Beat} {lanes : List Nat} (data : LaneData) (hb : b.write = false)

/-- The lanes of a beat that hold needed bytes. -/
def neededOf (e : Entry) (b : Beat) (lanes : List Nat) : List Nat := lanes.filter (fun l => e.needs (b.word + l))

theorem mem_neededOf {l : Nat} : l ∈ neededOf e b lanes ↔ l ∈ lanes ∧ e.needs (b.word + l) = true := List.mem_filter

include hb

theorem placeRead_txByte (f : Entry) (j : Nat) : (placeRead e b lanes data s).txByte f j
    = poolRead (poolWrites (fun l => e.poolAddr (e.readPlace (b.word + l - e.addr.toNat))) (LaneData.lane data)
        (neededOf e b lanes) s.table.pool) (f.poolAddr j) := by
  rw [placeRead, if_neg (by simp [hb])]
  rfl

variable (hw : s.poolLaw) (hn : e.blocks.Nodup) (hplace : ∀ k, k < e.total → e.readPlace k < 256 * e.blocks.length)
include hw hn hplace

/-- The data of a needed lane lies at its place. -/
theorem placeRead_txByte_needed (hinj : ∀ j k, e.readPlace j = e.readPlace k → j = k) {l : Nat} (hl : l ∈ lanes) (hneeds : e.needs (b.word + l) = true) :
    (placeRead e b lanes data s).txByte e (e.readPlace (b.word + l - e.addr.toNat)) = LaneData.lane data l := by
  rw [placeRead_txByte data hb]
  refine poolRead_poolWrites_same hw (mem_neededOf.2 ⟨hl, hneeds⟩) fun m hm haddr => ?_
  obtain ⟨hlow, hhigh⟩ := (needs_iff _ _).1 hneeds
  obtain ⟨hmlow, hmhigh⟩ := (needs_iff _ _).1 (mem_neededOf.1 hm).2
  have hpos := hinj _ _ (poolAddr_inj hn (hplace _ (by omega)) (hplace _ (by omega)) haddr)
  rw [show m = l by omega]

/-- Every other byte stays. -/
theorem placeRead_txByte_other {k : Nat} (hk : k < 256 * e.blocks.length)
    (hother : ∀ l ∈ lanes, e.needs (b.word + l) = true → k ≠ e.readPlace (b.word + l - e.addr.toNat)) :
    (placeRead e b lanes data s).txByte e k = s.txByte e k := by
  rw [placeRead_txByte data hb]
  refine poolRead_poolWrites_other hw fun l hl haddr => ?_
  obtain ⟨hmem, hneeds⟩ := mem_neededOf.1 hl
  obtain ⟨hlow, hhigh⟩ := (needs_iff _ _).1 hneeds
  exact hother l hmem hneeds (poolAddr_inj hn (hplace _ (by omega)) hk haddr).symm

end

theorem readPlace_of_locked {e : Entry} (h : e.op.locked = true) (k : Nat) : e.readPlace k = oldPlace k := if_pos h

theorem readPlace_of_not_locked {e : Entry} (h : e.op.locked = false) (k : Nat) : e.readPlace k = k :=
  if_neg (by simp [h])

/-! ### Done (R109) -/

/-- Positions that follow on done complete it. -/
theorem extendDone_range (done n : Nat) : extendDone done ((List.range n).map (fun k => done + k)) = done + n := by
  induction n with
  | zero => rfl
  | succ n ih =>
    rw [List.range_succ, List.map_append, extendDone, List.foldl_append]
    rw [extendDone] at ih
    rw [ih]
    exact if_pos rfl

/-- Settles O40: the writes of the pool by address, and done as what is completed from the front. -/
theorem thePoolHoldsTransactionBytes : Obligations.ThePoolHoldsTransactionBytes := by
  refine ⟨fun s e k bytes hw hn hk => ⟨fun j hj => ?written, fun j hj hl => ?beside, fun f j hj hd => ?elsewhere⟩,
    fun s e b lanes data hw hb ho hn ht _ _ => ?read, fun s e b lanes data hb => placeRead_of_write e lanes data s hb,
    fun s e b lanes data hw hb ho hl1 ht _ _ => ?locked, fun s i done n ho hd => ?done⟩
  case written =>
    rw [writeTx_txByte]
    refine poolRead_poolWrites_same (addr := fun i => e.poolAddr (k + i)) hw (List.mem_range.2 hj) fun i hi haddr => ?_
    have hi := List.mem_range.1 hi
    have hpos := poolAddr_inj hn (by omega) (by omega) haddr
    rw [show i = j by omega]
  case beside =>
    refine writeTx_txByte_other hw fun i hi haddr => ?_
    have hpos := poolAddr_inj hn (by omega) hl haddr
    omega
  case elsewhere => exact writeTx_txByte_other hw fun i hi haddr => poolAddr_ne hd hj (by omega) haddr.symm
  case read =>
    have hread := readPlace_of_not_locked ho
    have hplace : ∀ k, k < e.total → e.readPlace k < 256 * e.blocks.length := fun k hk => by rw [hread]; omega
    have hinj : ∀ j k, e.readPlace j = e.readPlace k → j = k := fun j k h => by rwa [hread, hread] at h
    refine ⟨fun l hl hneeds => ?_, fun k hk hother => ?_⟩
    · have hbyte := placeRead_txByte_needed data hb hw hn hplace hinj hl hneeds
      rwa [hread] at hbyte
    · refine placeRead_txByte_other data hb hw hn hplace (by omega) fun l hl hneeds => ?_
      rw [hread]
      exact hother l hl hneeds
  case locked =>
    have hread := readPlace_of_locked ho
    have hn : e.blocks.Nodup := by
      obtain ⟨block, hblock⟩ := List.length_eq_one_iff.1 hl1
      rw [hblock]
      exact List.nodup_singleton block
    have hplace : ∀ k, k < e.total → e.readPlace k < 256 * e.blocks.length := fun k hk => by
      rw [hread, hl1, oldPlace]
      omega
    have hinj : ∀ j k, e.readPlace j = e.readPlace k → j = k := fun j k h => by
      rw [hread, hread, oldPlace, oldPlace] at h
      omega
    have hother : ∀ k, k < 256 → (∀ l ∈ lanes, e.needs (b.word + l) = true → k ≠ oldPlace (b.word + l - e.addr.toNat)) →
        (placeRead e b lanes data s).txByte e k = s.txByte e k := fun k hk h => by
      refine placeRead_txByte_other data hb hw hn hplace (by omega) fun l hl hneeds => ?_
      rw [hread]
      exact h l hl hneeds
    refine ⟨fun l hl hneeds => ?_, hother, fun k hk => hother k (by omega) fun l _ _ h => ?_, ?_⟩
    · have hbyte := placeRead_txByte_needed data hb hw hn hplace hinj hl hneeds
      rwa [hread] at hbyte
    · rw [oldPlace] at h
      omega
    · rfl
  case done =>
    by_cases hfree : (s.entry i).state = .free
    · exact Or.inr hfree
    · left
      rw [advanceDone, entry_modEntry_self _ _ _ hfree, if_neg (by simp [ho]), hd, extendDone_range]

end Sys2Proof.Machine
end
